-- ==== Sys2Proof/Word.lean ====
section
/-! DEFINITION. The bit vectors the part's records are made of. -/

namespace Sys2Proof

/-- One byte of exchange memory or of a frame. -/
abbrev Byte := BitVec 8

/-- A 16-bit field (R183). -/
abbrev Half := BitVec 16

/-- A 32-bit word or wrapping count. -/
abbrev Word := BitVec 32

/-- A set of heads 1..8 as a mask, head h at bit h − 1 (R183). -/
abbrev HeadSet := BitVec 8

/-- A set of saws 1..20 as a mask, saw k at bit k − 1 (R183). -/
abbrev SawSet := BitVec 20

end Sys2Proof
end

