-- ==== Sys2Proof/Syntax.lean ====
section
/-! DEFINITION. The commands of the part: one constructor for each row of spec/opcode_table.json.
The table gives the rows no bits and no operand fields, so the operands are what the rules say the event
carries with it (log 1). -/

namespace Sys2Proof

/-- A host write of some bytes into exchange memory (R161), carried by the command that meets it (log 2).
`late` says that the write reaches its words after the part has read them for a staging in hand (R74) or
has zeroed them for a clearing in hand (R151); where neither is in hand it says nothing. -/
structure HostWrite where
  addr : Nat
  bytes : List Byte
  late : Bool
  deriving DecidableEq, Repr

/-- The three presence eyes as sampled: wood seen or not at the loader, at T and at E (1.6). -/
structure Eyes where
  loader : Bool
  trim : Bool
  deckEnd : Bool
  deriving DecidableEq, Repr

/-- The input levels that stand when power comes on: deck run line, e-stop, and the full inputs of bins
1..24 with bin b at bit b (R139, log 6). -/
structure Inputs where
  runLine : Bool
  estop : Bool
  binFull : BitVec 25
  deriving DecidableEq, Repr

/-- The body of a HEAD_REPORT frame (2.1, 10.9). `density` is the density code as sent, `extent` the wood
extent (first and last mm) when present, `finds` the find words. -/
structure HeadReport where
  tag : Byte
  density : Byte
  extent : Option (Half × Half)
  widthMin : Half
  widthMax : Half
  thickMin : Half
  thickMax : Half
  finds : List Word
  deriving DecidableEq, Repr

/-- The body of a LOG_REPORT frame (R45, 10.9). -/
structure LogReport where
  tag : Half
  length : Half
  smallEnd : Half
  largeEnd : Half
  sweep : Byte
  deriving DecidableEq, Repr

/-- The two tally areas (8.1). -/
inductive Area where
  | a
  | b
  deriving DecidableEq, Repr

/-- The commands. Heads are 1..8, stations 1..2, bins 1..24, cells 0..31. -/
inductive Instr where
  /-- POWER_ON (R23, R180), with the input levels that stand then. -/
  | powerOn (inputs : Inputs)
  /-- PORT_RESET (R182). -/
  | portReset
  /-- LINE_RESET (R162): a host write of `value` to EXCH_CTL with bit 1 set. -/
  | lineReset (value : Word)
  /-- LINE_RESET_INPUT (R162): the line reset input becomes asserted. -/
  | lineResetInput
  /-- ENABLE (R162): a host write of `value` to EXCH_CTL. -/
  | enable (value : Word)
  /-- NOTICE_CLEAR (R178): a host write of `value` to NOTICE. -/
  | noticeClear (value : Word)
  /-- NOTICE_MASK_WRITE (R179): a host write of `value` to NOTICE_MASK; `port` is whether the host's
  configuration of the port has enabled message-signalled interrupts (log 29). -/
  | noticeMaskWrite (value : Word) (port : Bool)
  /-- RESET_CAUSE_READ (R163). -/
  | resetCauseRead
  /-- REGISTER_WRITE_OTHER (R161): a host write elsewhere in the register window. -/
  | registerWriteOther (offset : Nat) (value : Word)
  /-- FORWARD_BEAT (R1, R2): `encoder` is the position that the encoder moves to (log 28), `eyes` the eyes
  sampled on the beat, `feedback` the saw feedback inputs (a set bit reads down), `restart` the eyes as a
  pending restart check samples them before the beat moves the map (R15). -/
  | forwardBeat (encoder : Int) (eyes : Eyes) (feedback : SawSet) (restart : Eyes)
  /-- BACK_BEAT (R1, R3): `encoder` as in FORWARD_BEAT, `restart` is `some eyes` when a pending restart check is taken with this beat (R15,
  log 13). -/
  | backBeat (encoder : Int) (restart : Option Eyes)
  /-- DECK_RUN_LINE_CHANGE (R17): the deck run line rises or drops. -/
  | deckRunLineChange (up : Bool)
  /-- ESTOP_ASSERT (R18). -/
  | estopAssert
  /-- ESTOP_RELEASE (R18). -/
  | estopRelease
  /-- STALL_TIMER_EXPIRY (R18). -/
  | stallTimerExpiry
  /-- RESTART_CHECK (R15): the settle time runs out. -/
  | restartCheck (eyes : Eyes)
  /-- SWEEP (R166): a sweep starts. -/
  | sweep (host : List HostWrite)
  /-- The takes of request cells (R167), one row for each kind of 9.3.1. -/
  | setGeometry (cell : Nat) (host : List HostWrite)
  | startLine (cell : Nat) (host : List HostWrite)
  | resume (cell : Nat) (host : List HostWrite)
  | holdLoader (cell : Nat) (host : List HostWrite)
  | releaseLoader (cell : Nat) (host : List HostWrite)
  | queryLug (cell : Nat) (host : List HostWrite)
  | enableHead (cell : Nat) (host : List HostWrite)
  | disableHead (cell : Nat) (host : List HostWrite)
  | alignHead (cell : Nat) (host : List HostWrite)
  | cancelAlign (cell : Nat) (host : List HostWrite)
  | activateRules (cell : Nat) (host : List HostWrite)
  | remoteOverride (cell : Nat) (host : List HostWrite)
  | lockSaw (cell : Nat) (host : List HostWrite)
  | unlockSaw (cell : Nat) (host : List HostWrite)
  | setBin (cell : Nat) (host : List HostWrite)
  | openRun (cell : Nat) (host : List HostWrite)
  | closeRun (cell : Nat) (host : List HostWrite)
  | releaseArea (cell : Nat) (host : List HostWrite)
  /-- UNKNOWN_KIND (R167): the take of a cell whose kind code is not listed. -/
  | unknownKind (cell : Nat) (host : List HostWrite)
  /-- HEAD_STATUS (R27): a good frame; `clock` is the part's millisecond clock at its arrival, taken as 32 bits
  (log 45). -/
  | headStatus (head : Nat) (identity condition clock : Word)
  /-- HEAD_REPORT (R34). -/
  | headReport (head : Nat) (report : HeadReport)
  /-- ALIGN_ECHO (R56). -/
  | alignEcho (head : Nat) (seen : Bool)
  /-- BAD_FRAME (R25). -/
  | badFrame (head : Nat)
  /-- LINK_SILENCE (R30). -/
  | linkSilence (head : Nat)
  /-- WAKE_TIMEOUT (R41). -/
  | wakeTimeout (head : Nat)
  /-- STANDBY_TIMER_EXPIRY (R40). -/
  | standbyTimerExpiry
  /-- LOG_REPORT (R46). -/
  | logReport (report : LogReport)
  /-- LOG_BAD_FRAME (R45). -/
  | logBadFrame
  /-- STAGING_COMPLETION (R76). -/
  | stagingCompletion (host : List HostWrite)
  /-- SOLVE_COMPLETION (R85). -/
  | solveCompletion
  /-- KEY_PRESS (R107): the authority line is sampled at the press. -/
  | keyPress (station : Nat) (key : BitVec 4) (authority : Bool)
  /-- LAMP_PULSE_END (R109). -/
  | lampPulseEnd (station : Nat)
  /-- GATE_PULSE_END (R142). -/
  | gatePulseEnd (bin : Nat)
  /-- BIN_FULL_CHANGE (R139). -/
  | binFullChange (bin : Nat) (level : Bool)
  /-- CLEARING_COMPLETION (R151). -/
  | clearingCompletion (area : Area) (host : List HostWrite)
  deriving DecidableEq, Repr

end Sys2Proof
end

