-- ==== Sys2Proof/Config.lean ====
section
/-! DEFINITION. What one made part fixes and the spec does not: constants without a value. -/

namespace Sys2Proof

/-- The revision that PART_ID shows in bits 23:16 (R163, 10.2). The spec gives no value, so nothing in
Lean can evaluate it (log 26). -/
opaque Config.revision : Byte

end Sys2Proof
end

