-- ==== Sys2Proof/Machine/Memory.lean ====
section
/-! DEFINITION. Exchange memory as a list of bytes in one canonical form, byte order, and the map of 9.2.
Every write of bytes, the part's and the host's, goes through `Memory.splice`; the clearing of a tally area goes
through `Memory.zero`. -/

namespace Sys2Proof.Machine

/-- Exchange memory (R161): the bytes that are not zero, by strictly rising address. -/
abbrev Memory := List Host.Cell

/-- What an unlisted address reads as: exchange memory is zeroed at power-on (R161, R180). -/
def Memory.unlisted : Byte := 0

/-- One byte of exchange memory. -/
def Memory.read : Memory → Nat → Byte
  | [], _ => Memory.unlisted
  | (b, v) :: rest, a => if b = a then v else Memory.read rest a

/-- The cells that list the non-zero bytes of `bytes` laid from address `a` upward. -/
def Memory.cells : Nat → List Byte → Memory
  | _, [] => []
  | a, v :: rest =>
    if v = Memory.unlisted then Memory.cells (a + 1) rest else (a, v) :: Memory.cells (a + 1) rest

/-- Memory with `bytes` written from address `a` upward. -/
def Memory.splice (m : Memory) (a : Nat) (bytes : List Byte) : Memory :=
  m.filter (fun c => decide (c.1 < a)) ++ Memory.cells a bytes
    ++ m.filter (fun c => decide (a + bytes.length ≤ c.1))

/-- Memory with `n` bytes zeroed from address `a` upward. -/
def Memory.zero (m : Memory) (a n : Nat) : Memory :=
  m.filter (fun c => decide (c.1 < a) || decide (a + n ≤ c.1))

/-- The addresses rise strictly from `lo` on and no listed byte reads as an unlisted one. -/
def Memory.wfFrom : Nat → Memory → Bool
  | _, [] => true
  | lo, (b, v) :: rest => decide (lo ≤ b) && v != Memory.unlisted && Memory.wfFrom (b + 1) rest

/-- The canonical form of memory. -/
def Memory.wf (m : Memory) : Bool := Memory.wfFrom 0 m

/-- `n` bytes from address `a` upward. -/
def Memory.readBytes (m : Memory) (a : Nat) : Nat → List Byte
  | 0 => []
  | n + 1 => m.read a :: m.readBytes (a + 1) n

/-- A 16-bit field, little-endian (R183). -/
def Memory.read16 (m : Memory) (a : Nat) : Nat := (m.read a).toNat + 256 * (m.read (a + 1)).toNat

/-- A 32-bit word, little-endian (R183). -/
def Memory.read32 (m : Memory) (a : Nat) : Word :=
  m.read (a + 3) ++ m.read (a + 2) ++ m.read (a + 1) ++ m.read a

/-- One byte of a number. -/
def le8 (n : Nat) : List Byte := [BitVec.ofNat 8 n]

/-- The two bytes of a number, least significant first (R183). -/
def le16 (n : Nat) : List Byte := [BitVec.ofNat 8 n, BitVec.ofNat 8 (n / 256)]

/-- The three bytes of a number, least significant first. -/
def le24 (n : Nat) : List Byte :=
  [BitVec.ofNat 8 n, BitVec.ofNat 8 (n / 256), BitVec.ofNat 8 (n / 65536)]

/-- The four bytes of a word, least significant first (R183). -/
def le32 (w : Word) : List Byte :=
  [w.extractLsb' 0 8, w.extractLsb' 8 8, w.extractLsb' 16 8, w.extractLsb' 24 8]

/-- `n` bytes cut or padded with zeros. -/
def padTo (n : Nat) (bytes : List Byte) : List Byte :=
  bytes.take n ++ List.replicate (n - bytes.length) 0

/-- The bytes of a list that starts at address 0, by position; zero past its end. -/
def byteAt (bytes : List Byte) (i : Nat) : Byte := bytes.getD i 0

/-- A 16-bit field inside a list of bytes. -/
def half (bytes : List Byte) (i : Nat) : Nat := (byteAt bytes i).toNat + 256 * (byteAt bytes (i + 1)).toNat

/-- A 32-bit word inside a list of bytes. -/
def word (bytes : List Byte) (i : Nat) : Word :=
  byteAt bytes (i + 3) ++ byteAt bytes (i + 2) ++ byteAt bytes (i + 1) ++ byteAt bytes i

/-- Bit `i − 1` of a mask: membership of head or saw number `i` in a set (R183). -/
def has {w : Nat} (mask : BitVec w) (i : Nat) : Bool := decide (1 ≤ i) && mask.getLsbD (i - 1)

/-- The set that holds the number `i` alone. -/
def single (w : Nat) (i : Nat) : BitVec w := if 1 ≤ i then BitVec.ofNat w (2 ^ (i - 1)) else 0

/-- The set of the numbers of a list. -/
def maskOf (w : Nat) (l : List Nat) : BitVec w := l.foldl (fun m i => m ||| single w i) 0

/-- The numbers 1..n of a set, rising. -/
def members {w : Nat} (n : Nat) (mask : BitVec w) : List Nat := (List.range' 1 n).filter (has mask)

/-! ## The map of exchange memory (9.2, 10.3, 10.4, 10.6, 10.7, 10.8) -/

/-- Bytes of the window BAR0 (R161). -/
def windowBytes : Nat := 0x100000

/-- The release mark's address (10.3). -/
def releaseMarkAddr : Nat := 0x400

/-- The notify count's address (10.3). -/
def notifyCountAddr : Nat := 0x404

/-- The geometry record's address (10.3). -/
def geometryAddr : Nat := 0x440

/-- The first byte of a request cell (10.4). -/
def cellAddr (cell : Nat) : Nat := 0x800 + 64 * cell

/-- The Status Block's address and size (9.2). -/
def statusAddr : Nat := 0x1000

/-- The Status Block's size (9.2). -/
def statusBytes : Nat := 0x4000

/-- The first byte of a rule bank (R64's section 4.1). -/
def bankAddr (bank : Nat) : Nat := 0x10000 + 0x8000 * bank

/-- The bytes of a rule bank. -/
def bankBytes : Nat := 0x8000

/-- The first byte of a tally area (8.1). -/
def areaAddr : Area → Nat
  | .a => 0x20000
  | .b => 0x30000

/-- The bytes of a tally area. -/
def areaBytes : Nat := 0x10000

/-- The words of a tally area. -/
def areaWords : Nat := 0x4000

/-- The journal's first byte (9.2). -/
def journalAddr : Nat := 0x40000

/-- The journal's length in units of 16 bytes (9.4). -/
def journalUnits : Nat := 49152

/-! ## Host writes -/

/-- A host write lies inside the 1 MiB window BAR0 (R161). -/
def hostWriteInWindow (w : HostWrite) : Bool := decide (w.addr + w.bytes.length ≤ windowBytes)

/-- Every host write that a command carries lies inside the window. -/
def hostInWindow (host : List HostWrite) : Bool := host.all hostWriteInWindow

end Sys2Proof.Machine
end

