-- ==== Sys2Proof/Machine/Types.lean ====
section
/-! DEFINITION. The named values of the part: states, kinds, results, with their codes (R183, 9.3.2). -/

namespace Sys2Proof.Machine

/-- The deck states (R17). -/
inductive DeckState where
  | unconfigured | halted | running | stoppedLoaded | stoppedClear | faulted
  deriving DecidableEq, Repr

/-- Codes of the deck states (R183). -/
def DeckState.code : DeckState → Nat
  | .unconfigured => 0 | .halted => 1 | .running => 2
  | .stoppedLoaded => 3 | .stoppedClear => 4 | .faulted => 5

/-- The tracking states (1.8). -/
def DeckState.tracking : DeckState → Bool
  | .running => true | .stoppedLoaded => true | .stoppedClear => true
  | .unconfigured => false | .halted => false | .faulted => false

/-- The states in which DT takes beats (R1). -/
def DeckState.takesBeats : DeckState → Bool
  | .running => true | .stoppedLoaded => true | .stoppedClear => true | .faulted => true
  | .unconfigured => false | .halted => false

/-- The two stopped states (R17). -/
def DeckState.stopped : DeckState → Bool
  | .stoppedLoaded => true | .stoppedClear => true
  | .running => false | .unconfigured => false | .halted => false | .faulted => false

/-- A deck fault cause's place in the fault cause set (R18). -/
inductive CauseState where
  | absent | standing | cleared
  deriving DecidableEq, Repr

/-- The deck fault causes (R18). -/
inductive CauseName where
  | estop | stall | reverse
  deriving DecidableEq, Repr

/-- The piece states (R6); `free` is the absence of an entry. -/
inductive PieceState where
  | admitted | scanning | scanned | solving | solved | committed | cut | sorted
  deriving DecidableEq, Repr

/-- Codes of the piece states (R183). -/
def PieceState.code : PieceState → Nat
  | .admitted => 1 | .scanning => 2 | .scanned => 3 | .solving => 4
  | .solved => 5 | .committed => 6 | .cut => 7 | .sorted => 8

/-- The states from which a piece can be committed (R6, R125). -/
def PieceState.committable : PieceState → Bool
  | .scanned => true | .solving => true | .solved => true
  | .admitted => false | .scanning => false | .committed => false | .cut => false | .sorted => false

/-- The head states (R28). -/
inductive HeadState where
  | absent | offline | standby | waking | ready | aligning | linkFault
  deriving DecidableEq, Repr

/-- Codes of the head states (R183). -/
def HeadState.code : HeadState → Nat
  | .absent => 0 | .offline => 1 | .standby => 2 | .waking => 3
  | .ready => 4 | .aligning => 5 | .linkFault => 6

/-- The head states in which the silence timer runs (R30). -/
def HeadState.silenceRuns : HeadState → Bool
  | .ready => true | .standby => true | .aligning => true
  | .absent => false | .offline => false | .waking => false | .linkFault => false

/-- The scan densities (R48). -/
inductive Density where
  | x1 | x2 | x4
  deriving DecidableEq, Repr

/-- Codes of the densities (R183); their order is the order 1x < 2x < 4x. -/
def Density.code : Density → Nat
  | .x1 => 1 | .x2 => 2 | .x4 => 4

/-- What a SCAN at a density takes from a head's strobe credit (R48); 1x takes nothing. -/
def Density.cost : Density → Nat
  | .x1 => 0 | .x2 => 1 | .x4 => 4

/-- The find kinds that grading knows (2.1, R65). -/
inductive FindKind where
  | knotSound | knotLoose | hole | split | shake | wane | stain | pitchPocket | skip | check | other
  deriving DecidableEq, Repr

/-- Codes of the find kinds (R183). -/
def FindKind.code : FindKind → Nat
  | .knotSound => 0 | .knotLoose => 1 | .hole => 2 | .split => 3 | .shake => 4 | .wane => 5
  | .stain => 6 | .pitchPocket => 7 | .skip => 8 | .check => 9 | .other => 15

/-- Place of a find kind in a grade's limit pairs: kind-code order with OTHER last (10.6). -/
def FindKind.place : FindKind → Nat
  | .knotSound => 0 | .knotLoose => 1 | .hole => 2 | .split => 3 | .shake => 4 | .wane => 5
  | .stain => 6 | .pitchPocket => 7 | .skip => 8 | .check => 9 | .other => 10

/-- The kind that a code names; codes 10..14 are taken as OTHER (R25). -/
def FindKind.ofCode : Nat → FindKind
  | 0 => .knotSound | 1 => .knotLoose | 2 => .hole | 3 => .split | 4 => .shake | 5 => .wane
  | 6 => .stain | 7 => .pitchPocket | 8 => .skip | 9 => .check | _ => .other

/-- The kinds of a solution (R98). -/
inductive SolutionKind where
  | normal | fallback | noSolution
  deriving DecidableEq, Repr

/-- Codes of the solution kinds (R183). -/
def SolutionKind.code : SolutionKind → Nat
  | .normal => 1 | .fallback => 2 | .noSolution => 3

/-- The reasons of a solution (R98). -/
inductive Reason where
  | noReason | scan | override | deadline | noWood | noCandidate
  deriving DecidableEq, Repr

/-- Codes of the reasons (R183). -/
def Reason.code : Reason → Nat
  | .noReason => 0 | .scan => 1 | .override => 2 | .deadline => 3 | .noWood => 4 | .noCandidate => 5

/-- The constraints a solution was formed under (R98). -/
inductive Constraint where
  | free | shorter | twoOnly | reman
  deriving DecidableEq, Repr

/-- Codes of the constraints (R183). -/
def Constraint.code : Constraint → Nat
  | .free => 0 | .shorter => 1 | .twoOnly => 2 | .reman => 3

/-- The cut check results (R132). -/
inductive CutCheck where
  | clean | mismatch | uncut | notCutEmpty
  deriving DecidableEq, Repr

/-- Codes of the cut check results (R183). -/
def CutCheck.code : CutCheck → Nat
  | .clean => 1 | .mismatch => 2 | .uncut => 3 | .notCutEmpty => 4

/-- The causes of a target bin (R128). -/
inductive TargetCause where
  | solution | sortPrimary | sortAlternate | recut | cutCheck | unavailable
  deriving DecidableEq, Repr

/-- Codes of the target causes (R183). -/
def TargetCause.code : TargetCause → Nat
  | .solution => 1 | .sortPrimary => 2 | .sortAlternate => 3 | .recut => 4 | .cutCheck => 5
  | .unavailable => 6

/-- The sources of an override (R114). -/
inductive Source where
  | station1 | station2 | remote
  deriving DecidableEq, Repr

/-- Codes of the sources (R183). -/
def Source.code : Source → Nat
  | .station1 => 0 | .station2 => 1 | .remote => 2

/-- The override kinds (6.1); FORCE_GRADE with its grade. -/
inductive OverrideKind where
  | accept
  | forceGrade (grade : Nat)
  | trimShorter
  | cutInTwo
  | reman
  deriving DecidableEq, Repr

/-- Codes of the override kinds (R183). -/
def OverrideKind.code : OverrideKind → Nat
  | .accept => 0 | .forceGrade _ => 1 | .trimShorter => 2 | .cutInTwo => 3 | .reman => 4

/-- The kinds of the trim class (R114). -/
inductive TrimKind where
  | shorter | cutInTwo | reman
  deriving DecidableEq, Repr

/-- The codes of the PIECE record's trim part field (10.5). -/
def TrimKind.code : TrimKind → Nat
  | .shorter => 1 | .cutInTwo => 2 | .reman => 3

/-- The kinds of the grade class (R114). -/
inductive GradeKind where
  | forceGrade (grade : Nat)
  | accept
  deriving DecidableEq, Repr

/-- The states of an override part (R114). -/
inductive PartState where
  | pending | applied | notApplied
  deriving DecidableEq, Repr

/-- Codes of the part states (R183); absent is 0. -/
def PartState.code : PartState → Nat
  | .pending => 1 | .applied => 2 | .notApplied => 3

/-- The states of a Rule Store slot (R72). -/
inductive SlotState where
  | free | staging | active | retiring
  deriving DecidableEq, Repr

/-- Codes of the slot states in the Status Block, in the order R72 lists them (log 8). -/
def SlotState.code : SlotState → Nat
  | .free => 0 | .staging => 1 | .active => 2 | .retiring => 3

/-- The states of a tally area (R146). -/
inductive AreaState where
  | free | clearing | inUse | held
  deriving DecidableEq, Repr

/-- Codes of the area states in the Status Block, in the order R146 lists them (log 8). -/
def AreaState.code : AreaState → Nat
  | .free => 0 | .clearing => 1 | .inUse => 2 | .held => 3

/-- The states of a live run (R146). -/
inductive RunState where
  | opened | draining
  deriving DecidableEq, Repr

/-- Codes of the run states (10.7). -/
def RunState.code : RunState → Nat
  | .opened => 1 | .draining => 2

/-- The close reasons (R146). -/
inductive CloseReason where
  | switch | close | lineReset
  deriving DecidableEq, Repr

/-- Codes of the close reasons (10.5). -/
def CloseReason.code : CloseReason → Nat
  | .switch => 1 | .close => 2 | .lineReset => 3

/-- The states of an alignment search (3.2). -/
inductive SearchState where
  | idle | pending | stepping | suspended
  deriving DecidableEq, Repr

/-- Codes of the search states in the Status Block, in the order 3.2 lists them (log 8). -/
def SearchState.code : SearchState → Nat
  | .idle => 0 | .pending => 1 | .stepping => 2 | .suspended => 3

/-- The causes of an alignment search's end (R60); `locked` is the end with OK. -/
inductive SearchCause where
  | locked | range | echo | link | cancel | lineReset
  deriving DecidableEq, Repr

/-- Codes of the causes in ALIGN_HEAD's detail (10.4). -/
def SearchCause.code : SearchCause → Nat
  | .locked => 0 | .range => 1 | .echo => 2 | .link => 3 | .cancel => 4 | .lineReset => 5

/-- The states of the log link (R45). -/
inductive LinkState where
  | absent | up | linkFault
  deriving DecidableEq, Repr

/-- Codes of the log link states in the Status Block, in the order R45 lists them (log 8). -/
def LinkState.code : LinkState → Nat
  | .absent => 0 | .up => 1 | .linkFault => 2

/-- The result codes (9.3.2), which are also the answers of the stations. -/
inductive Result where
  | done | busy | refusedState | tooLate | noAuthority | badParam | badRules | noSlot | noRoom
  | areaBusy | notFound | alreadySet | noTransition | cancelled | unknownKind | queueFull
  deriving DecidableEq, Repr

/-- Codes of the results (9.3.2). -/
def Result.code : Result → Nat
  | .done => 0 | .busy => 1 | .refusedState => 2 | .tooLate => 3 | .noAuthority => 4 | .badParam => 5
  | .badRules => 6 | .noSlot => 7 | .noRoom => 8 | .areaBusy => 9 | .notFound => 10
  | .alreadySet => 11 | .noTransition => 12 | .cancelled => 13 | .unknownKind => 14 | .queueFull => 15

/-- The result of an ended search (R60). -/
def SearchCause.result : SearchCause → Result
  | .locked => .done
  | .range => .noTransition | .echo => .noTransition | .link => .noTransition
  | .cancel => .cancelled | .lineReset => .cancelled

/-- The notice causes (R178). -/
inductive NoticeCause where
  | journal | cellDone | runClosed | deck | fault | hold
  deriving DecidableEq, Repr

/-- The bit of a notice cause in NOTICE and NOTICE_MASK (10.2). -/
def NoticeCause.bit : NoticeCause → Nat
  | .journal => 0 | .cellDone => 1 | .runClosed => 2 | .deck => 3 | .fault => 4 | .hold => 5

/-- The request kinds (9.3.1). -/
inductive ReqKind where
  | setGeometry | startLine | resume | holdLoader | releaseLoader | queryLug | enableHead | disableHead
  | alignHead | cancelAlign | activateRules | remoteOverride | lockSaw | unlockSaw | setBin | openRun
  | closeRun | releaseArea
  deriving DecidableEq, Repr

/-- The kind that a kind code names; 0 and 19 and above name none (9.3.1). -/
def ReqKind.ofCode : Nat → Option ReqKind
  | 1 => some .setGeometry | 2 => some .startLine | 3 => some .resume | 4 => some .holdLoader
  | 5 => some .releaseLoader | 6 => some .queryLug | 7 => some .enableHead | 8 => some .disableHead
  | 9 => some .alignHead | 10 => some .cancelAlign | 11 => some .activateRules
  | 12 => some .remoteOverride | 13 => some .lockSaw | 14 => some .unlockSaw | 15 => some .setBin
  | 16 => some .openRun | 17 => some .closeRun | 18 => some .releaseArea | _ => none

/-- The frames the part sends to the heads (2.1). -/
inductive Frame where
  | beat (tag : Byte) (density : Density) (scan : Bool)
  | standby
  | wake
  | alignStep (delay : Nat)
  deriving DecidableEq, Repr

/-- What a command sends out of the part: a frame to a head, an MSI message (R179), or the value of a
host's read of RESET_CAUSE (R163). -/
inductive Output where
  | frame (head : Nat) (frame : Frame)
  | msi
  | readData (value : Word)
  deriving DecidableEq, Repr

end Sys2Proof.Machine
end

