-- ==== Sys2Proof/Machine/Blocks.lean ====
section
/-! DEFINITION. The records of the part and the state of its nine blocks (section 2 of the scope file), with
each block's power-on value. -/

namespace Sys2Proof.Machine

/-! ## Records of a piece -/

/-- One find (2.1). `face` is the face code TOP 0, BOTTOM 1, EDGE 2. -/
structure Find where
  along : Nat
  across : Nat
  kind : FindKind
  size : Nat
  face : Nat
  deriving DecidableEq, Repr

/-- A head's partial result: the report cut to the head's segment, its measures and its density code as
reported (R33). -/
structure Partial where
  head : Nat
  density : Nat
  extent : Option (Nat × Nat)
  widthMin : Nat
  widthMax : Nat
  thickMin : Nat
  thickMax : Nat
  finds : List Find
  deriving DecidableEq, Repr

/-- An assembly record (R33). -/
structure Assembly where
  received : List Partial
  dropped : HeadSet
  downgraded : Bool
  stale : Bool
  deriving DecidableEq, Repr

/-- The widths and thicknesses of a scan record, tenths of a millimetre (R36). -/
structure Measures where
  widthMin : Nat
  widthMax : Nat
  thickMin : Nat
  thickMax : Nat
  deriving DecidableEq, Repr

/-- A scan record (R36, R37, R38). -/
structure ScanRecord where
  ends : Option (Nat × Nat)
  measures : Option Measures
  finds : List Find
  incomplete : Bool
  gap : Bool
  truncated : Bool
  downgraded : Bool
  stale : Bool
  missing : HeadSet
  deriving DecidableEq, Repr

/-- A product of a solution (R98). -/
structure Product where
  grade : Nat
  lengthClass : Nat
  length : Nat
  value : Nat
  deriving DecidableEq, Repr

/-- A solution (R98). `saws` are a, b and, for two products, c; `target` is the bin that a FALLBACK or NONE
result names; `sawSet` is the set a lock is tested against. -/
structure Solution where
  kind : SolutionKind
  reason : Reason
  saws : List Nat
  products : List Product
  totalValue : Nat
  totalLength : Nat
  target : Option Nat
  constraint : Constraint
  deadline : Bool
  number : Nat
  sawSet : SawSet
  deriving DecidableEq, Repr

/-- A grade override part (R114). `solved` holds each product's grade and value as the solver gave them. -/
structure GradePart where
  kind : GradeKind
  source : Source
  authority : Bool
  state : PartState
  solved : Option (List (Nat × Nat))
  deriving DecidableEq, Repr

/-- A trim override part (R114). -/
structure TrimPart where
  kind : TrimKind
  source : Source
  state : PartState
  reference : Option Nat
  deriving DecidableEq, Repr

/-- A commit part (R128). -/
structure CommitPart where
  dropSet : SawSet
  primary : Nat
  alternate : Option Nat
  target : Nat
  cause : TargetCause
  lastStation : Option Nat
  deriving DecidableEq, Repr

/-- A piece table entry (R5). The station is the place of the lug that carries the piece (log 10). -/
structure Piece where
  serial : Word
  tag : Byte
  state : PieceState
  handLoaded : Bool
  run : Nat
  reservation : Nat
  generation : Option (Nat × Nat)
  density : Option Density
  roster : Option HeadSet
  assembly : Option Assembly
  scan : Option ScanRecord
  sizeClass : Option Nat
  solution : Option Solution
  gradePart : Option GradePart
  trimPart : Option TrimPart
  overrides : List Nat
  commit : Option CommitPart
  cutCheck : Option CutCheck
  mismatch : SawSet
  recut : Bool
  recutSaws : SawSet
  bin : Option Nat
  lost : Bool
  deriving DecidableEq, Repr

/-- A piece as admission makes it (R8, R11): 20 units reserved, every later field absent. -/
def Piece.fresh (serial : Word) (tag : Byte) (run : Nat) (handLoaded : Bool) : Piece :=
  { serial, tag, state := .admitted, handLoaded, run, reservation := 20, generation := none,
    density := none, roster := none, assembly := none, scan := none, sizeClass := none, solution := none,
    gradePart := none, trimPart := none, overrides := List.replicate 15 0, commit := none,
    cutCheck := none, mismatch := 0, recut := false, recutSaws := 0, bin := none, lost := false }

/-! ## Deck Tracker -/

/-- A drop mark: the bin and the run of the piece dropped from a lug (R7). -/
structure DropMark where
  bin : Nat
  run : Nat
  deriving DecidableEq, Repr

/-- A lug of the map or the upstream list (1.2). -/
structure Lug where
  tag : Byte
  piece : Option Word
  untracked : Bool
  dropMark : Option DropMark
  deriving DecidableEq, Repr

/-- A lug that carries nothing. -/
def Lug.empty (tag : Byte) : Lug := { tag, piece := none, untracked := false, dropMark := none }

/-- The geometry record (1.9). -/
structure Geometry where
  ss : Nat
  se : Nat
  aim1 : Nat
  aim2 : Nat
  c : Nat
  d : Nat
  t : Nat
  e : Nat
  bins : List Nat
  countsPerPitch : Nat
  sawCount : Nat
  sawSpacing : Nat
  maxOffFall : Nat
  segmentLength : Nat
  standbyDelay : Nat
  stallTime : Nat
  settleTime : Nat
  deriving DecidableEq, Repr

/-- The fault cause set with its cleared marks (R18). -/
structure Causes where
  estop : CauseState
  stall : CauseState
  reverse : CauseState
  deriving DecidableEq, Repr

/-- The empty fault cause set. -/
def Causes.empty : Causes := { estop := .absent, stall := .absent, reverse := .absent }

/-- The hold set (R9). -/
structure HoldSet where
  host : Bool
  journal : Bool
  table : Bool
  run : Bool
  rules : Bool
  align : Bool
  wake : Bool
  fault : Bool
  deriving DecidableEq, Repr

/-- No reason stands in the hold set. -/
def HoldSet.isEmpty (h : HoldSet) : Bool :=
  !(h.host || h.journal || h.table || h.run || h.rules || h.align || h.wake || h.fault)

/-- No reason other than HOST stands in the hold set (R11). -/
def HoldSet.onlyHost (h : HoldSet) : Bool :=
  !(h.journal || h.table || h.run || h.rules || h.align || h.wake || h.fault)

/-- The Deck Tracker's state (chapter 1). The encoder position, which R1 gives no width, is an integer without bounds
(log 42). -/
structure Deck where
  state : DeckState
  geometry : Option Geometry
  position : Word
  highWater : Word
  forwardBeats : Word
  backBeats : Word
  encoder : Int
  tagCounter : Byte
  lugs : List Lug
  upstream : List Lug
  pieces : List Piece
  nextSerial : Word
  causes : Causes
  hold : HoldSet
  gate : Bool
  strangers : Word
  dropMisses : Word
  restartPending : Bool
  runLine : Bool
  estop : Bool
  deriving DecidableEq, Repr

/-- The empty lug map under a tag counter: the lug at station s has tag (tag counter − s) modulo 256 (R4). -/
def emptyMap (tagCounter : Byte) : List Lug :=
  (List.range 64).map (fun s => Lug.empty (tagCounter - BitVec.ofNat 8 s))

/-- DT at power-on (R4, R9, R23). -/
def Deck.powerOn (inputs : Inputs) : Deck :=
  { state := .unconfigured, geometry := none, position := 0, highWater := 0, forwardBeats := 0,
    backBeats := 0, encoder := 0, tagCounter := 0, lugs := emptyMap 0, upstream := [], pieces := [],
    nextSerial := 1, causes := Causes.empty,
    hold := { host := false, journal := false, table := false, run := true, rules := true,
              align := false, wake := false, fault := false },
    gate := false, strangers := 0, dropMisses := 0, restartPending := false,
    runLine := inputs.runLine, estop := inputs.estop }

/-! ## Scan Assembler and Duty and Alignment Unit -/

/-- A head table entry (R28), with the bytes of an unfinished frame on the head's link (R30). The last status time is a
reading of 32 bits, a width that the clock of R27 is not given (log 45). -/
structure Head where
  state : HeadState
  delay : Nat
  credit : Nat
  badRun : Nat
  lastStatus : Option Word
  identity : Option (Word × Word)
  goodFrames : Word
  badFrames : Word
  accepted : Word
  duplicate : Word
  notRoster : Word
  stray : Word
  mismatch : Word
  stale : Word
  rx : List Byte
  deriving DecidableEq, Repr

/-- A head at power-on (R28). -/
def Head.powerOn : Head :=
  { state := .absent, delay := 32, credit := 16, badRun := 0, lastStatus := none, identity := none,
    goodFrames := 0, badFrames := 0, accepted := 0, duplicate := 0, notRoster := 0, stray := 0,
    mismatch := 0, stale := 0, rx := [] }

/-- The log link (R45). -/
structure LogLink where
  state : LinkState
  badRun : Nat
  goodFrames : Word
  badFrames : Word
  taken : Word
  rx : List Byte
  deriving DecidableEq, Repr

/-- The Scan Assembler's state (chapter 2). The aligned delay and the strobe credit of each head are DA's. -/
structure Scan where
  heads : List Head
  standbyTimer : Bool
  longStop : Bool
  logLink : LogLink
  deriving DecidableEq, Repr

/-- SA at power-on (R47). -/
def Scan.powerOn : Scan :=
  { heads := List.replicate 8 Head.powerOn, standbyTimer := false, longStop := false,
    logLink := { state := .absent, badRun := 0, goodFrames := 0, badFrames := 0, taken := 0, rx := [] } }

/-- The end of the most recent search (R60). -/
structure LastSearch where
  cause : SearchCause
  head : Nat
  delay : Nat
  deriving DecidableEq, Repr

/-- The alignment context and DA's count (3.2, R51). -/
structure Align where
  search : SearchState
  head : Nat
  cell : Nat
  d : Nat
  unseen : Bool
  outstanding : Bool
  miss : Nat
  strayEchoes : Word
  last : Option LastSearch
  downgrades : Word
  deriving DecidableEq, Repr

/-- DA at power-on (R63). R63 gives search state, stray echo count, last outcome and downgrade count; head, cell, delay
and miss count 0 and the two marks clear are the model's (log 38). -/
def Align.powerOn : Align :=
  { search := .idle, head := 0, cell := 0, d := 0, unseen := false, outstanding := false, miss := 0,
    strayEchoes := 0, last := none, downgrades := 0 }

/-! ## Rule Store -/

/-- A grade table entry: code, minimum density code, and per find kind the count limit and the maximum
size class, in the order of 10.6 (R65). -/
structure GradeRow where
  code : Nat
  minDensity : Nat
  limits : List (Nat × Nat)
  deriving DecidableEq, Repr

/-- A size table entry (R66). -/
structure SizeRow where
  widthMin : Nat
  widthMax : Nat
  thickMin : Nat
  thickMax : Nat
  nominalWidth : Nat
  nominalThick : Nat
  deriving DecidableEq, Repr

/-- The policy record, with the codes of 10.6 (R71). -/
structure Policy where
  density : Nat
  cutInTwo : Nat
  fallback : Nat
  remanBin : Nat
  recutBin : Nat
  offSizeGrade : Nat
  overflowGrade : Nat
  offSizeWidth : Nat
  offSizeThick : Nat
  deriving DecidableEq, Repr

/-- A copied rule bank (R64). `prices` and `sort` are the bytes of the price and sort tables from offset 0. -/
structure Rules where
  label : Word
  gradeCount : Nat
  sizeCount : Nat
  lengthCount : Nat
  logCount : Nat
  grades : List GradeRow
  sizes : List SizeRow
  lengths : List Nat
  logs : List (Nat × Nat)
  prices : Memory
  sort : Memory
  policy : Policy
  deriving DecidableEq, Repr

/-- Tables of zeros: what a slot holds from power-on to its first valid staging, which R82 does not give
(log 41). -/
def Rules.zero : Rules :=
  { label := 0, gradeCount := 0, sizeCount := 0, lengthCount := 0, logCount := 0, grades := [],
    sizes := [], lengths := [], logs := [], prices := [], sort := [],
    policy := { density := 0, cutInTwo := 0, fallback := 0, remanBin := 0, recutBin := 0,
                offSizeGrade := 0, overflowGrade := 0, offSizeWidth := 0, offSizeThick := 0 } }

/-- A Rule Store slot (R72). -/
structure Slot where
  state : SlotState
  bank : Option Nat
  number : Option Nat
  label : Option Word
  bound : Nat
  rules : Rules
  deriving DecidableEq, Repr

/-- A FREE slot at power-on (R82), its tables of zeros (log 41). -/
def Slot.powerOn : Slot :=
  { state := .free, bank := none, number := none, label := none, bound := 0, rules := Rules.zero }

/-- A staging in hand (R73). `kept` holds the bytes of each word that the copy had read before a later host
write changed it (R74, log 21). -/
structure Staging where
  slot : Nat
  bank : Nat
  cell : Nat
  saws : Nat
  kept : List (Nat × Byte)
  deriving DecidableEq, Repr

/-- The last staging outcome (R72, R76, R77). -/
inductive StagingOutcome where
  | activated (slot number : Nat) (label : Word)
  | badRules (table index check : Nat)
  deriving DecidableEq, Repr

/-- The Rule Store's state (chapter 4). -/
structure RuleStore where
  slots : List Slot
  staging : Option Staging
  nextNumber : Nat
  last : Option StagingOutcome
  deriving DecidableEq, Repr

/-- RS at power-on (R82). -/
def RuleStore.powerOn : RuleStore :=
  { slots := List.replicate 3 Slot.powerOn, staging := none, nextNumber := 1, last := none }

/-! ## Trim Solver -/

/-- The solve in hand (R84). `trim` is the trim override taken, with its reference length then (log 22). -/
structure Solve where
  serial : Word
  slot : Nat
  lockView : SawSet
  trim : Option (TrimKind × Option Nat)
  arrival : Bool
  deriving DecidableEq, Repr

/-- The Trim Solver's state (chapter 5). -/
structure Solver where
  queue : List Word
  inHand : Option Solve
  taken : Word
  kept : Word
  discarded : Word
  abandoned : Word
  fallbacks : Word
  nones : Word
  deadlines : Word
  deadlineFallbacks : Word
  deriving DecidableEq, Repr

/-- TS at power-on (R106). -/
def Solver.powerOn : Solver :=
  { queue := [], inHand := none, taken := 0, kept := 0, discarded := 0, abandoned := 0, fallbacks := 0,
    nones := 0, deadlines := 0, deadlineFallbacks := 0 }

/-! ## Override Unit -/

/-- A key entry (R107). -/
structure KeyEntry where
  key : BitVec 4
  tag : Byte
  authority : Bool
  deriving DecidableEq, Repr

/-- The lamps of a SHOWING station (R109). -/
structure Lamps where
  ok : Bool
  refuse : Bool
  deriving DecidableEq, Repr

/-- A station's last answer (R109). The tag is none for a press that met no geometry (log 27). -/
structure LastAnswer where
  key : BitVec 4
  tag : Option Byte
  answer : Result
  serial : Option Word
  deriving DecidableEq, Repr

/-- The take counts of a station or of the remote source (R123), refused ones by answer. -/
structure TakeCounts where
  taken : Word
  accepted : Word
  notFound : Word
  tooLate : Word
  refusedState : Word
  badParam : Word
  noAuthority : Word
  deriving DecidableEq, Repr

/-- No take counted. -/
def TakeCounts.zero : TakeCounts :=
  { taken := 0, accepted := 0, notFound := 0, tooLate := 0, refusedState := 0, badParam := 0,
    noAuthority := 0 }

/-- An operator station (R107, R108, R109, R123); `showing` is none while IDLE. -/
structure Station where
  queue : List KeyEntry
  showing : Option Lamps
  last : Option LastAnswer
  presses : Word
  refusedAtPress : Word
  counts : TakeCounts
  deriving DecidableEq, Repr

/-- A station at power-on (R124). -/
def Station.powerOn : Station :=
  { queue := [], showing := none, last := none, presses := 0, refusedAtPress := 0,
    counts := TakeCounts.zero }

/-- The Override Unit's state (chapter 6). -/
structure Overrides where
  stations : List Station
  remote : TakeCounts
  deriving DecidableEq, Repr

/-- OU at power-on (R124). -/
def Overrides.powerOn : Overrides :=
  { stations := List.replicate 2 Station.powerOn, remote := TakeCounts.zero }

/-! ## Actuation Unit -/

/-- A drive window entry (R129); `issued` false is RELEASED. -/
structure WindowEntry where
  tag : Byte
  command : SawSet
  issued : Bool
  deriving DecidableEq, Repr

/-- A saw's reasons in the lock set and its counts (R134, R144). -/
structure Saw where
  host : Bool
  fault : Bool
  mismatches : Word
  unlocks : Word
  deriving DecidableEq, Repr

/-- A bin table entry (R139). -/
structure Bin where
  closed : Bool
  isFull : Bool
  pulsing : Bool
  pulses : Word
  toAlternate : Word
  toFallout : Word
  deriving DecidableEq, Repr

/-- The Actuation Unit's state (chapter 7). `window` is by rising station from T − D; a station past its end
holds no entry. -/
structure Actuation where
  sawOut : SawSet
  window : List WindowEntry
  saws : List Saw
  bins : List Bin
  commits : Word
  cutOk : Word
  cutMismatch : Word
  cutUncut : Word
  cutEmpty : Word
  recuts : Word
  fallouts : Word
  deriving DecidableEq, Repr

/-- AX at power-on: full states sampled from the inputs (R139, R145). -/
def Actuation.powerOn (inputs : Inputs) : Actuation :=
  { sawOut := 0, window := [],
    saws := List.replicate 20 { host := false, fault := false, mismatches := 0, unlocks := 0 },
    bins := (List.range' 1 24).map (fun b =>
      { closed := false, isFull := inputs.binFull.getLsbD b, pulsing := false, pulses := 0,
        toAlternate := 0, toFallout := 0 }),
    commits := 0, cutOk := 0, cutMismatch := 0, cutUncut := 0, cutEmpty := 0, recuts := 0, fallouts := 0 }

/-! ## Tally Unit -/

/-- A run table entry (R146). `swept` is how many words of the area, from the first on, a clearing has zeroed
before a later host write (R151, log 21). -/
structure RunEntry where
  area : AreaState
  number : Option Nat
  label : Option Word
  run : Option RunState
  live : Nat
  logPending : Nat
  reason : Option CloseReason
  reservation : Nat
  clearingCell : Option Nat
  swept : Nat
  deriving DecidableEq, Repr

/-- A FREE area (R146). -/
def RunEntry.empty : RunEntry :=
  { area := .free, number := none, label := none, run := none, live := 0, logPending := 0,
    reason := none, reservation := 0, clearingCell := none, swept := 0 }

/-- A log record waiting for journal room, with its run (R156, R157). -/
structure LogRecord where
  report : LogReport
  logClass : Option Nat
  volume : Nat
  run : Nat
  generation : Nat
  deriving DecidableEq, Repr

/-- The Tally Unit's state (chapter 8). -/
structure Tally where
  areaA : RunEntry
  areaB : RunEntry
  nextRun : Nat
  lastOpened : Option Area
  pendingLogs : List LogRecord
  logHold : Bool
  refusedLogs : Word
  unclassedLogs : Word
  unjournaledLogs : Word
  deriving DecidableEq, Repr

/-- TU at power-on (R146, R158, R160). -/
def Tally.powerOn : Tally :=
  { areaA := RunEntry.empty, areaB := RunEntry.empty, nextRun := 1, lastOpened := none,
    pendingLogs := [], logHold := true, refusedLogs := 0, unclassedLogs := 0, unjournaledLogs := 0 }

/-! ## Exchange Interface -/

/-- A record asked for and not yet written (R173): a piece's, or the oldest pending log not yet named. -/
inductive Waiting where
  | piece (serial : Word)
  | log
  deriving DecidableEq, Repr

/-- A cell of the in-hand set with the host tag and kind code read at the take (R165, R169, log 19). -/
structure InHand where
  cell : Nat
  tag : Word
  kind : Nat
  deriving DecidableEq, Repr

/-- The raise counts of the notice causes (R177). -/
structure Raises where
  journal : Word
  cellDone : Word
  runClosed : Word
  deck : Word
  fault : Word
  hold : Word
  deriving DecidableEq, Repr

/-- The Exchange Interface's state (chapter 9). `port` is the host's configuration of the port (R179, log 29);
`sweep` is the next cell that the sweep in progress visits (R166, log 5). -/
structure Exchange where
  enable : Bool
  notice : BitVec 6
  noticeMask : BitVec 6
  port : Bool
  causePower : Bool
  causePort : Bool
  causeLine : Bool
  fill : Nat
  release : Nat
  starts : List Nat
  waiting : List Waiting
  sequence : Half
  recordsSince : Nat
  notifyCount : Nat
  releaseBad : Bool
  inHand : List InHand
  sweep : Option Nat
  sweeps : Word
  cellsTaken : Word
  unknownKinds : Word
  dropped : Word
  pieceRecords : Word
  logRecords : Word
  closeRecords : Word
  fillers : Word
  fillerUnits : Word
  releaseBads : Word
  raises : Raises
  updateCount : Word
  deriving DecidableEq, Repr

/-- XI at power-on, before the Status Block's first write (R161, R163, R180). -/
def Exchange.powerOn : Exchange :=
  { enable := false, notice := 0, noticeMask := 0, port := false, causePower := true, causePort := false,
    causeLine := false, fill := 0, release := 0, starts := [], waiting := [], sequence := 0,
    recordsSince := 0, notifyCount := 0, releaseBad := false, inHand := [], sweep := none, sweeps := 0,
    cellsTaken := 0, unknownKinds := 0, dropped := 0, pieceRecords := 0, logRecords := 0,
    closeRecords := 0, fillers := 0, fillerUnits := 0, releaseBads := 0,
    raises := { journal := 0, cellDone := 0, runClosed := 0, deck := 0, fault := 0, hold := 0 },
    updateCount := 0 }

end Sys2Proof.Machine
end

