-- ==== Sys2Proof/Machine/Views.lean ====
section
/-! DEFINITION. What the part shows but does not hold apart: values computed from the blocks' state
(log 10). -/

namespace Sys2Proof.Machine

/-- The least of a list of numbers. -/
def leastOf : List Nat → Option Nat
  | [] => none
  | n :: rest => some (rest.foldl min n)

/-- The greatest of a list of numbers. -/
def greatestOf : List Nat → Option Nat
  | [] => none
  | n :: rest => some (rest.foldl max n)

/-- The reverse depth: high-water mark less deck position (1.1). -/
def Deck.depth (d : Deck) : Nat := (d.highWater - d.position).toNat

/-- A head's segment: (h − 1) × L to h × L − 1 mm, both ends capped at 16383 (R28). -/
def Geometry.segment (g : Geometry) (h : Nat) : Nat × Nat :=
  (min ((h - 1) * g.segmentLength) 16383, min (h * g.segmentLength - 1) 16383)

/-- The station of bin 1..24 (R139). -/
def Geometry.binStation (g : Geometry) (b : Nat) : Option Nat := if b = 0 then none else g.bins[b - 1]?

/-- The aim station of operator station 1 or 2 (6.1). -/
def Geometry.aim (g : Geometry) (station : Nat) : Nat := if station = 1 then g.aim1 else g.aim2

/-- The position of saw k in mm from the evener fence (R93). -/
def Geometry.sawPos (g : Geometry) (k : Nat) : Nat := (k - 1) * g.sawSpacing

/-- The lug at a station of the map. -/
def Deck.lugAt (d : Deck) (station : Nat) : Option Lug := d.lugs[station]?

/-- The piece table entry with a serial. -/
def Deck.piece? (d : Deck) (serial : Word) : Option Piece := d.pieces.find? (fun p => p.serial == serial)

/-- The piece that a lug carries. -/
def Deck.pieceOf (d : Deck) (lug : Lug) : Option Piece :=
  match lug.piece with
  | none => none
  | some serial => d.piece? serial

/-- The piece on the lug at a station. -/
def Deck.pieceAt (d : Deck) (station : Nat) : Option Piece :=
  match d.lugAt station with
  | none => none
  | some lug => d.pieceOf lug

/-- The place of the first lug of a list that meets a test. -/
def lugIndex (p : Lug → Bool) (lugs : List Lug) : Option Nat := lugs.findIdx? p

/-- The lug of the map or the upstream list that meets a test, with its station, which is −k at upstream
place k (R3, R5). -/
def Deck.findLug (d : Deck) (p : Lug → Bool) : Option (Int × Lug) :=
  match lugIndex p d.lugs with
  | some i => (d.lugs[i]?).map (fun l => ((i : Int), l))
  | none =>
    match lugIndex p d.upstream with
    | some i => (d.upstream[i]?).map (fun l => (-((i : Int) + 1), l))
    | none => none

/-- The lug that carries a tag (R22, R34, R111). -/
def Deck.lugByTag (d : Deck) (tag : Byte) : Option (Int × Lug) := d.findLug (fun l => l.tag == tag)

/-- The lug that carries a piece, with the piece's station field (R5); none once it is detached. -/
def Deck.lugOfPiece (d : Deck) (serial : Word) : Option (Int × Lug) :=
  d.findLug (fun l => l.piece == some serial)

/-- Some lug of the map or the upstream list carries a piece (R15, R17). -/
def Deck.loaded (d : Deck) : Bool :=
  d.lugs.any (fun l => l.piece.isSome) || d.upstream.any (fun l => l.piece.isSome)

/-- The clear zone: no piece stands at a station 0..SE and none on the upstream list (R53). -/
def Deck.clearZone (d : Deck) (g : Geometry) : Bool :=
  (d.lugs.take (g.se + 1)).all (fun l => l.piece.isNone) && d.upstream.all (fun l => l.piece.isNone)

/-- A bin is available: not closed by the host, not full, and the deck not FAULTED (R139). -/
def Bin.available (b : Bin) (deck : DeckState) : Bool := !b.closed && !b.isFull && deck != .faulted

/-- A saw is in the lock set (R134). -/
def Saw.locked (s : Saw) : Bool := s.host || s.fault

/-- The lock set as a set of saws (R134). -/
def Actuation.lockSet (ax : Actuation) : SawSet :=
  maskOf 20 ((List.range' 1 20).filter (fun k => ((ax.saws[k - 1]?).map Saw.locked).getD false))

/-- The run table entry of an area (R146). -/
def Tally.entry (tu : Tally) : Area → RunEntry
  | .a => tu.areaA
  | .b => tu.areaB

/-- The area whose run meets a test, A before B. -/
def Tally.findArea (tu : Tally) (p : RunEntry → Bool) : Option Area :=
  if p tu.areaA then some .a else if p tu.areaB then some .b else none

/-- The area of the OPEN run (R146). -/
def Tally.openArea (tu : Tally) : Option Area := tu.findArea (fun e => e.run == some .opened)

/-- The area of the DRAINING run (R146). -/
def Tally.drainingArea (tu : Tally) : Option Area := tu.findArea (fun e => e.run == some .draining)

/-- The area of the live run with a number (R153). -/
def Tally.areaOfRun (tu : Tally) (run : Nat) : Option Area :=
  tu.findArea (fun e => e.run.isSome && e.number == some run)

/-- The number of the OPEN run (R8). -/
def Tally.openRunNumber (tu : Tally) : Option Nat :=
  match tu.openArea with
  | none => none
  | some a => (tu.entry a).number

/-- The ACTIVE slot (R72). -/
def RuleStore.activeSlot (rs : RuleStore) : Option Nat := rs.slots.findIdx? (fun s => s.state == .active)

/-- The rules of a slot (R80). -/
def RuleStore.rulesOf (rs : RuleStore) (slot : Nat) : Rules :=
  match rs.slots[slot]? with
  | some s => s.rules
  | none => Rules.zero

/-- The rules that a piece is bound to (R80). -/
def RuleStore.boundRules (rs : RuleStore) (p : Piece) : Rules :=
  match p.generation with
  | some (_, slot) => rs.rulesOf slot
  | none => Rules.zero

/-- The free units: (release − fill − 1) modulo 49,152 (R170). -/
def Exchange.freeUnits (xi : Exchange) : Nat :=
  (xi.release + 2 * journalUnits - xi.fill - 1) % journalUnits

/-- The reserved total: every piece reservation and every run's close reservation (R170). -/
def reservedTotal (dt : Deck) (tu : Tally) : Nat :=
  (dt.pieces.map (fun p => p.reservation)).sum + tu.areaA.reservation + tu.areaB.reservation

/-- The unreserved units: the free units less the reserved total (R170). -/
def unreservedUnits (dt : Deck) (tu : Tally) (xi : Exchange) : Nat :=
  xi.freeUnits - reservedTotal dt tu

/-- The head number h of the head table (R28). -/
def Scan.head? (sa : Scan) (h : Nat) : Option Head := if h = 0 then none else sa.heads[h - 1]?

/-- The state of head h; a head that does not exist reads OFFLINE. -/
def Scan.headState (sa : Scan) (h : Nat) : HeadState :=
  match sa.head? h with
  | some hd => hd.state
  | none => .offline

/-- The set of heads in a state. -/
def Scan.headsIn (sa : Scan) (p : HeadState → Bool) : HeadSet :=
  maskOf 8 ((List.range' 1 8).filter (fun h => p (sa.headState h)))

/-- The heads that are READY (R32). -/
def Scan.readySet (sa : Scan) : HeadSet := sa.headsIn (fun st => st == .ready)

/-- Some head is WAKING (R41). -/
def Scan.anyWaking (sa : Scan) : Bool := sa.heads.any (fun h => h.state == .waking)

end Sys2Proof.Machine
end

