-- ==== Sys2Proof/Machine/Status.lean ====
section
/-! DEFINITION. The Status Block as bytes (R176, 9.5, 10.8). The groups stand in the order of 10.8 and their
items in the order of 9.5; the packing of the items inside a group is the model's (log 8). -/

namespace Sys2Proof.Machine

/-- A flag as a byte. -/
def flag8 (b : Bool) : List Byte := le8 (if b then 1 else 0)

/-- An optional number in one byte, absent as all ones (R183). -/
def opt8 (n : Option Nat) : List Byte := le8 (n.getD 0xFF)

/-- An optional number in two bytes, absent as all ones (R183). -/
def opt16 (n : Option Nat) : List Byte := le16 (n.getD 0xFFFF)

/-- An optional word, absent as all ones (R183). -/
def opt32 (w : Option Word) : List Byte := le32 (w.getD 0xFFFFFFFF)

/-- A number in a 32-bit word. -/
def nat32 (n : Nat) : List Byte := le32 (BitVec.ofNat 32 n)

/-- One bit of a mask. -/
def bit (b : Bool) (i : Nat) : Nat := if b then 2 ^ i else 0

/-- The hold set as its mask (R183). -/
def HoldSet.mask (h : HoldSet) : Nat :=
  bit h.host 0 + bit h.journal 1 + bit h.table 2 + bit h.run 3 + bit h.rules 4 + bit h.align 5
    + bit h.wake 6 + bit h.fault 7

/-- The fault causes for which a test holds, as a mask (R183). -/
def Causes.mask (c : Causes) (p : CauseState → Bool) : Nat :=
  bit (p c.estop) 0 + bit (p c.stall) 1 + bit (p c.reverse) 2

/-- DT's items (9.5). -/
def statusDeck (dt : Deck) : List Byte :=
  le8 dt.state.code ++ le8 (dt.causes.mask (fun c => c != .absent))
    ++ le8 (dt.causes.mask (fun c => c == .cleared))
    ++ le32 dt.position ++ le32 dt.highWater ++ nat32 dt.depth ++ le32 dt.forwardBeats
    ++ le32 dt.backBeats ++ le8 dt.hold.mask ++ flag8 dt.gate ++ le32 dt.strangers ++ le32 dt.dropMisses

/-- One head of SA's head table (R28). Without a geometry record the segment is absent: its first mm all ones, and its
last mm, which is never 0 with a segment length of 250 or more (R21), 0 (R183). 9.5 names a head's state, segment,
counts and last status time alone: where its entry shows R28's last identity and condition is open, and the two words
stand last, after the last status time, which is the model's choice (log 8). -/
def statusHead (g : Option Geometry) (h : Nat) (hd : Head) : List Byte :=
  le8 hd.state.code ++ opt16 (g.map (fun g => (g.segment h).1)) ++ le16 ((g.map (fun g => (g.segment h).2)).getD 0)
    ++ nat32 hd.badRun ++ le32 hd.goodFrames ++ le32 hd.badFrames ++ le32 hd.accepted ++ le32 hd.duplicate
    ++ le32 hd.notRoster ++ le32 hd.stray ++ le32 hd.mismatch ++ le32 hd.stale ++ opt32 hd.lastStatus
    ++ opt32 (hd.identity.map Prod.fst) ++ opt32 (hd.identity.map Prod.snd)

/-- The heads of a list with their numbers, from number n. -/
def numbered (n : Nat) : List Head → List (Nat × Head)
  | [] => []
  | h :: rest => (n, h) :: numbered (n + 1) rest

/-- The number of heads in a state (R31). -/
def Scan.count (sa : Scan) (st : HeadState) : Nat := (sa.heads.filter (fun h => h.state == st)).length

/-- SA's items (9.5, R31, R45). 9.5 does not name R31's number of heads in each state and so gives it no place: seven
bytes, one for each state in the order of the head-state codes, stand between the head table and the set of unwatched
heads, which is the model's choice (log 8). -/
def statusScan (g : Option Geometry) (sa : Scan) : List Byte :=
  (numbered 1 sa.heads).flatMap (fun x => statusHead g x.1 x.2)
    ++ le8 (sa.count .absent) ++ le8 (sa.count .offline) ++ le8 (sa.count .standby)
    ++ le8 (sa.count .waking) ++ le8 (sa.count .ready) ++ le8 (sa.count .aligning)
    ++ le8 (sa.count .linkFault)
    ++ le8 (sa.headsIn (fun st => st == .linkFault || st == .absent)).toNat
    ++ le8 sa.logLink.state.code ++ le32 sa.logLink.goodFrames ++ le32 sa.logLink.badFrames
    ++ le32 sa.logLink.taken

/-- DA's items (9.5, R53). -/
def statusAlign (sa : Scan) (da : Align) : List Byte :=
  sa.heads.flatMap (fun h => le8 h.credit) ++ sa.heads.flatMap (fun h => le8 h.delay)
    ++ le8 da.search.code ++ le8 da.head ++ le8 da.d ++ flag8 da.unseen ++ nat32 da.miss
    ++ le32 da.strayEchoes
    ++ opt8 (da.last.map (fun l => l.cause.result.code)) ++ le8 ((da.last.map (fun l => l.head)).getD 0)
    ++ opt8 (da.last.map (fun l => l.delay))
    ++ le32 da.downgrades

/-- One slot of RS (R72). -/
def statusSlot (s : Slot) : List Byte :=
  le8 s.state.code ++ opt8 s.bank ++ le16 (s.number.getD 0) ++ opt32 s.label ++ nat32 s.bound

/-- The last staging outcome (R72, R76, R77): result code, slot, number, label and detail word side by side, those that
the outcome has not shown absent (log 8); the detail is then 0, since a check code is never 0 (R183). -/
def statusOutcome : Option StagingOutcome → List Byte
  | none => opt8 none ++ opt8 none ++ le16 0 ++ opt32 none ++ le32 0
  | some (.activated slot number label) =>
    le8 Result.done.code ++ le8 slot ++ le16 number ++ le32 label ++ le32 0
  | some (.badRules table index check) =>
    le8 Result.badRules.code ++ opt8 none ++ le16 0 ++ opt32 none
      ++ (le8 table ++ le8 check ++ le16 index)

/-- RS's items (9.5, R72). -/
def statusRules (rs : RuleStore) : List Byte :=
  rs.slots.flatMap statusSlot
    ++ opt8 (rs.staging.map (fun st => st.slot)) ++ opt8 (rs.staging.map (fun st => st.bank))
    ++ le16 rs.nextNumber ++ statusOutcome rs.last

/-- TS's items (9.5, R105). -/
def statusSolver (ts : Solver) : List Byte :=
  le8 ts.queue.length ++ le32 ((ts.inHand.map (fun c => c.serial)).getD 0)
    ++ le32 ts.taken ++ le32 ts.kept ++ le32 ts.discarded ++ le32 ts.abandoned ++ le32 ts.fallbacks
    ++ le32 ts.nones ++ le32 ts.deadlines ++ le32 ts.deadlineFallbacks

/-- One station's last answer (R109). -/
def statusAnswer : Option LastAnswer → List Byte
  | none => opt8 none ++ opt8 none ++ opt8 none ++ le32 0
  | some a =>
    le8 a.key.toNat ++ opt8 (a.tag.map (fun t => t.toNat)) ++ le8 a.answer.code
      ++ le32 (a.serial.getD 0)

/-- The refused counts by answer (R123). -/
def statusRefused (c : TakeCounts) : List Byte :=
  le32 c.notFound ++ le32 c.tooLate ++ le32 c.refusedState ++ le32 c.badParam ++ le32 c.noAuthority

/-- OU's items (9.5, R123); each count for every station, then remote, before the next count (log 8). -/
def statusOverrides (ou : Overrides) : List Byte :=
  ou.stations.flatMap (fun s => le8 s.queue.length) ++ ou.stations.flatMap (fun s => statusAnswer s.last)
    ++ ou.stations.flatMap (fun s => le32 s.presses)
    ++ ou.stations.flatMap (fun s => le32 s.refusedAtPress)
    ++ ou.stations.flatMap (fun s => le32 s.counts.taken) ++ le32 ou.remote.taken
    ++ ou.stations.flatMap (fun s => le32 s.counts.accepted) ++ le32 ou.remote.accepted
    ++ ou.stations.flatMap (fun s => statusRefused s.counts) ++ statusRefused ou.remote

/-- One bin of the bin table with its station, but for its counts (R139); a station exceeds T (R21), so a bin without
one shows 0 there (R183). The gate's code is REST 0, PULSING 1 (log 8). -/
def statusBin (deck : DeckState) (station : Option Nat) (b : Bin) : List Byte :=
  le8 (station.getD 0) ++ flag8 b.closed ++ flag8 b.isFull ++ flag8 (b.available deck) ++ flag8 b.pulsing

/-- The bin table (R139). -/
def statusBins (deck : DeckState) (g : Option Geometry) : Nat → List Bin → List Byte
  | _, [] => []
  | n, b :: rest =>
    statusBin deck (g.bind (fun g => g.binStation n)) b ++ statusBins deck g (n + 1) rest

/-- AX's items (9.5, R144). The drive window shows the entries it holds, from T − D up, so that it and what follows it
move when a station holds none; the code of an entry's status is RELEASED 0, ISSUED 1. The lock set is the mask of its
saws, saw k at bit k − 1 (R183, 10.8), and then the reasons of each saw 1 to 20 in a byte, HOST in bit 0 and FAULT in
bit 1. The counts of each bin, which R139 and R144 both name, stand once, among the counts in R144's order, a count of
every saw or bin in the order of their numbers before the next (log 8). -/
def statusActuation (dt : Deck) (ax : Actuation) : List Byte :=
  le24 ax.sawOut.toNat
    ++ ax.window.flatMap (fun w => le8 w.tag.toNat ++ le24 w.command.toNat ++ flag8 w.issued)
    ++ le24 ax.lockSet.toNat ++ ax.saws.flatMap (fun s => le8 (bit s.host 0 + bit s.fault 1))
    ++ statusBins dt.state dt.geometry 1 ax.bins
    ++ le32 ax.commits ++ le32 ax.cutOk ++ le32 ax.cutMismatch ++ le32 ax.cutUncut ++ le32 ax.cutEmpty
    ++ ax.saws.flatMap (fun s => le32 s.mismatches) ++ ax.saws.flatMap (fun s => le32 s.unlocks)
    ++ le32 ax.recuts ++ ax.bins.flatMap (fun b => le32 b.pulses)
    ++ ax.bins.flatMap (fun b => le32 b.toAlternate) ++ ax.bins.flatMap (fun b => le32 b.toFallout)
    ++ le32 ax.fallouts

/-- One run table entry (R146). -/
def statusRun (e : RunEntry) : List Byte :=
  le8 e.area.code ++ le16 (e.number.getD 0) ++ opt32 e.label ++ le8 ((e.run.map RunState.code).getD 0)
    ++ nat32 e.live ++ nat32 e.logPending ++ le8 ((e.reason.map CloseReason.code).getD 0) ++ le8 e.reservation

/-- Code of the last-opened area: A 0, B 1 (10.4), none as all ones. -/
def areaCode : Option Area → Option Nat
  | none => none
  | some .a => some 0
  | some .b => some 1

/-- TU's items (9.5, R146). -/
def statusTally (tu : Tally) : List Byte :=
  statusRun tu.areaA ++ statusRun tu.areaB ++ opt8 (areaCode tu.lastOpened) ++ le16 tu.nextRun
    ++ le8 tu.pendingLogs.length ++ flag8 tu.logHold ++ le32 tu.refusedLogs ++ le32 tu.unclassedLogs
    ++ le32 tu.unjournaledLogs

/-- XI's items (9.5, R170, R177); the update count stands at 0x000 of the block instead (10.8). 9.5 gives no place to
R170's number of records written and not released: it follows the unreserved units and counts fillers. The in-hand set
is a mask with cell c at bit c (log 8). -/
def statusExchange (dt : Deck) (tu : Tally) (xi : Exchange) : List Byte :=
  nat32 xi.fill ++ nat32 xi.release ++ nat32 xi.freeUnits ++ nat32 (reservedTotal dt tu)
    ++ nat32 (unreservedUnits dt tu xi) ++ nat32 xi.starts.length ++ le8 xi.waiting.length
    ++ le16 xi.sequence.toNat ++ nat32 xi.recordsSince ++ nat32 xi.notifyCount ++ flag8 xi.releaseBad
    ++ le32 xi.sweeps ++ le32 xi.cellsTaken ++ le32 xi.unknownKinds ++ le32 xi.dropped
    ++ le32 xi.pieceRecords ++ le32 xi.logRecords ++ le32 xi.closeRecords ++ le32 xi.fillers
    ++ le32 xi.fillerUnits ++ le32 xi.releaseBads
    ++ le32 xi.raises.journal ++ le32 xi.raises.cellDone ++ le32 xi.raises.runClosed
    ++ le32 xi.raises.deck ++ le32 xi.raises.fault ++ le32 xi.raises.hold
    ++ le32 (xi.inHand.foldl (fun m h => m ||| BitVec.ofNat 32 (2 ^ h.cell)) 0)

/-- A group: its word with the block's number in byte 0 and the group's length in bytes 3:2, then its items,
padded to the next 16-byte boundary (10.8). -/
def statusGroup (number : Nat) (items : List Byte) : List Byte :=
  let bytes := le8 number ++ le8 0 ++ le16 (items.length + 4) ++ items
  bytes ++ List.replicate ((16 - bytes.length % 16) % 16) 0

/-- The Status Block from its offset 0x004 on: every item with its present value. -/
def statusImage (dt : Deck) (sa : Scan) (da : Align) (rs : RuleStore) (ts : Solver) (ou : Overrides)
    (ax : Actuation) (tu : Tally) (xi : Exchange) : List Byte :=
  List.replicate 12 0
    ++ statusGroup 1 (statusDeck dt) ++ statusGroup 2 (statusScan dt.geometry sa)
    ++ statusGroup 3 (statusAlign sa da) ++ statusGroup 4 (statusRules rs)
    ++ statusGroup 5 (statusSolver ts) ++ statusGroup 6 (statusOverrides ou)
    ++ statusGroup 7 (statusActuation dt ax) ++ statusGroup 8 (statusTally tu)
    ++ statusGroup 9 (statusExchange dt tu xi)

/-- One rewrite of the Status Block (R176): the update count ends two higher and every item is written. The bytes past
the last group stay as they stand (log 8). -/
def statusRewrite (m : Memory) (count : Word) (image : List Byte) : Memory :=
  m.splice statusAddr ((le32 (count + 2) ++ image).take statusBytes)

end Sys2Proof.Machine
end

