-- ==== Sys2Proof/Machine/State.lean ====
section
/-! DEFINITION. The state of the part, what can stop a step, and the state right after power-on. -/

namespace Sys2Proof.Machine

/-- What stops the part. -/
inductive Fault where
  /-- Raised by a command whose host writes reach an address outside the 1 MiB window BAR0 (R161): no such
  byte of exchange memory exists. Safe: the model stops where the port would not deliver the access. -/
  | outsideWindow
  deriving DecidableEq, Repr

/-- What the model refuses. -/
inductive Refusal where
  /-- Raised by an arm of `exec` whose command has no meaning yet. Safe. No arm raises it. -/
  | notModelled (mnemonic : String)
  deriving DecidableEq, Repr

/-- The state of the part: the commands waiting, what the last command sent out (log 25), exchange memory,
and the nine blocks. -/
structure State where
  pending : List Instr
  out : List Output
  mem : Memory
  dt : Deck
  sa : Scan
  da : Align
  rs : RuleStore
  ts : Solver
  ou : Overrides
  ax : Actuation
  tu : Tally
  xi : Exchange
  deriving DecidableEq, Repr

/-- The Status Block's items in a state. -/
def State.image (s : State) : List Byte :=
  statusImage s.dt s.sa s.da s.rs s.ts s.ou s.ax s.tu s.xi

/-- The part right after power-on with the given input levels: every block at its power-on value, exchange
memory zeroed, then the Status Block written once, leaving the update count at 2 (R176, R180). -/
def State.powerOn (inputs : Inputs) : State :=
  let blocks : State :=
    { pending := [], out := [], mem := [], dt := Deck.powerOn inputs, sa := Scan.powerOn,
      da := Align.powerOn, rs := RuleStore.powerOn, ts := Solver.powerOn, ou := Overrides.powerOn,
      ax := Actuation.powerOn inputs, tu := Tally.powerOn, xi := Exchange.powerOn }
  { blocks with
    mem := statusRewrite [] 0 blocks.image
    xi := { blocks.xi with updateCount := 2 } }

/-- The input levels at reset: run line down, e-stop released, no bin full (log 6, DESIGN CHOICE). -/
def resetInputs : Inputs := { runLine := false, estop := false, binFull := 0 }

/-- The part right after reset: power-on (R23, R47, R63, R82, R106, R124, R145, R160, R180). -/
def State.reset : State := State.powerOn resetInputs

end Sys2Proof.Machine
end

