-- ==== Sys2Proof/Machine/Ops.lean ====
section
/-! DEFINITION. The named operations on the state: one for each block, one for each table entry that the rules
change by number. Every meaning changes the state through these. -/

namespace Sys2Proof.Machine

/-- Change exchange memory. -/
def State.onMem (f : Memory → Memory) (s : State) : State := { s with mem := f s.mem }

/-- Change DT's state. -/
def State.onDt (f : Deck → Deck) (s : State) : State := { s with dt := f s.dt }

/-- Change SA's state. -/
def State.onSa (f : Scan → Scan) (s : State) : State := { s with sa := f s.sa }

/-- Change DA's state. -/
def State.onDa (f : Align → Align) (s : State) : State := { s with da := f s.da }

/-- Change RS's state. -/
def State.onRs (f : RuleStore → RuleStore) (s : State) : State := { s with rs := f s.rs }

/-- Change TS's state. -/
def State.onTs (f : Solver → Solver) (s : State) : State := { s with ts := f s.ts }

/-- Change OU's state. -/
def State.onOu (f : Overrides → Overrides) (s : State) : State := { s with ou := f s.ou }

/-- Change AX's state. -/
def State.onAx (f : Actuation → Actuation) (s : State) : State := { s with ax := f s.ax }

/-- Change TU's state. -/
def State.onTu (f : Tally → Tally) (s : State) : State := { s with tu := f s.tu }

/-- Change XI's state. -/
def State.onXi (f : Exchange → Exchange) (s : State) : State := { s with xi := f s.xi }

/-- Send something out of the part (log 25). -/
def State.emit (o : Output) (s : State) : State := { s with out := s.out ++ [o] }

/-- Send a frame to a head. -/
def State.send (head : Nat) (f : Frame) (s : State) : State := s.emit (.frame head f)

/-- Start a command with nothing sent yet (log 25). -/
def State.clearOut (s : State) : State := { s with out := [] }

/-- Take one operation for each element of a list, in order. -/
def State.each {α : Type} (l : List α) (f : α → State → State) (s : State) : State :=
  l.foldl (fun s x => f x s) s

/-- Change the piece table entry with a serial. -/
def State.onPiece (serial : Word) (f : Piece → Piece) (s : State) : State :=
  s.onDt (fun d => { d with pieces := d.pieces.map (fun p => if p.serial = serial then f p else p) })

/-- Change every piece table entry. -/
def State.onPieces (f : Piece → Piece) (s : State) : State :=
  s.onDt (fun d => { d with pieces := d.pieces.map f })

/-- Change every lug of the map and the upstream list. -/
def State.onLugs (f : Lug → Lug) (s : State) : State :=
  s.onDt (fun d => { d with lugs := d.lugs.map f, upstream := d.upstream.map f })

/-- Change the lug at a station of the map. -/
def State.onLugAt (station : Nat) (f : Lug → Lug) (s : State) : State :=
  s.onDt (fun d => { d with lugs := d.lugs.modify station f })

/-- Change head h of the head table. -/
def State.onHead (h : Nat) (f : Head → Head) (s : State) : State :=
  s.onSa (fun sa => { sa with heads := if h = 0 then sa.heads else sa.heads.modify (h - 1) f })

/-- Change a Rule Store slot. -/
def State.onSlot (i : Nat) (f : Slot → Slot) (s : State) : State :=
  s.onRs (fun rs => { rs with slots := rs.slots.modify i f })

/-- Change operator station 1 or 2. -/
def State.onStation (n : Nat) (f : Station → Station) (s : State) : State :=
  s.onOu (fun ou => { ou with stations := if n = 0 then ou.stations else ou.stations.modify (n - 1) f })

/-- Change saw k of the lock set. -/
def State.onSaw (k : Nat) (f : Saw → Saw) (s : State) : State :=
  s.onAx (fun ax => { ax with saws := if k = 0 then ax.saws else ax.saws.modify (k - 1) f })

/-- Change bin b of the bin table. -/
def State.onBin (b : Nat) (f : Bin → Bin) (s : State) : State :=
  s.onAx (fun ax => { ax with bins := if b = 0 then ax.bins else ax.bins.modify (b - 1) f })

/-- Change a run table entry. -/
def State.onArea (a : Area) (f : RunEntry → RunEntry) (s : State) : State :=
  s.onTu (fun tu =>
    match a with
    | .a => { tu with areaA := f tu.areaA }
    | .b => { tu with areaB := f tu.areaB })

/-- Write bytes into exchange memory. -/
def State.store (addr : Nat) (bytes : List Byte) (s : State) : State := s.onMem (fun m => m.splice addr bytes)

/-- Add to a 32-bit count in exchange memory, wrapping, by reading it and writing back the sum (R152). -/
def State.addTo (addr n : Nat) (s : State) : State :=
  s.store addr (le32 (s.mem.read32 addr + BitVec.ofNat 32 n))

end Sys2Proof.Machine
end

