-- ==== Sys2Proof/Machine/Flags.lean ====
section
/-! DEFINITION. The flags of the part: notices and the interrupt (9.6), the hold set, the loader gate and the
log hold (R9, R10, R158), and the end of an event: what follows from every event's state change. -/

namespace Sys2Proof.Machine

/-- A notice cause's bit as a mask. -/
def NoticeCause.mask (c : NoticeCause) : BitVec 6 := BitVec.ofNat 6 (2 ^ c.bit)

/-- One more raising of a cause (R177). -/
def Raises.add (c : NoticeCause) (r : Raises) : Raises :=
  match c with
  | .journal => { r with journal := r.journal + 1 }
  | .cellDone => { r with cellDone := r.cellDone + 1 }
  | .runClosed => { r with runClosed := r.runClosed + 1 }
  | .deck => { r with deck := r.deck + 1 }
  | .fault => { r with fault := r.fault + 1 }
  | .hold => { r with hold := r.hold + 1 }

/-- The raise count of a cause. -/
def Raises.count (c : NoticeCause) (r : Raises) : Word :=
  match c with
  | .journal => r.journal
  | .cellDone => r.cellDone
  | .runClosed => r.runClosed
  | .deck => r.deck
  | .fault => r.fault
  | .hold => r.hold

/-- An MSI message follows a change of NOTICE and NOTICE_MASK that takes their AND from zero to non-zero, when
the port's configuration lets messages go (R179). -/
def msiFollows (port : Bool) (notice mask notice' mask' : BitVec 6) : Bool :=
  port && (notice &&& mask) == 0 && (notice' &&& mask') != 0

/-- Set NOTICE and NOTICE_MASK, with the message R179 gives. -/
def State.setNotice (notice mask : BitVec 6) (s : State) : State :=
  { s with
    xi := { s.xi with notice := notice, noticeMask := mask }
    out := s.out ++
      (if msiFollows s.xi.port s.xi.notice s.xi.noticeMask notice mask then [.msi] else []) }

/-- Raise a notice cause (R178): its bit is set, its raise count rises by one, an MSI follows by R179. -/
def State.notify (c : NoticeCause) (s : State) : State :=
  (s.setNotice (s.xi.notice ||| c.mask) s.xi.noticeMask).onXi
    (fun xi => { xi with raises := xi.raises.add c })

/-- Raise a notice cause a number of times. -/
def State.notifyTimes (c : NoticeCause) : Nat → State → State
  | 0, s => s
  | n + 1, s => State.notifyTimes c n (s.notify c)

/-- The hold set that the present conditions give: HOST as it stands, every other reason by the condition the
table of R9 states for it. -/
def State.holdNow (s : State) : HoldSet :=
  { host := s.dt.hold.host
    journal := decide (unreservedUnits s.dt s.tu s.xi < 39)
    table := decide (96 ≤ s.dt.pieces.length)
    run := s.tu.openArea.isNone
    rules := s.rs.activeSlot.isNone
    align := s.da.search != .idle
    wake := s.sa.anyWaking
    fault := s.dt.state == .faulted }

/-- How many of the four reasons that raise HOLD join the set (R9). -/
def holdJoins (old new : HoldSet) : Nat :=
  (if new.journal && !old.journal then 1 else 0) + (if new.table && !old.table then 1 else 0)
    + (if new.run && !old.run then 1 else 0) + (if new.rules && !old.rules then 1 else 0)

/-- The loader gate: open only while the deck is RUNNING and the hold set is empty (R10). -/
def gateNow (deck : DeckState) (hold : HoldSet) : Bool := deck == .running && hold.isEmpty

/-- The log hold: 6 or more records pending, or no run OPEN (R158). -/
def logHoldNow (tu : Tally) : Bool := decide (6 ≤ tu.pendingLogs.length) || tu.openArea.isNone

/-- Bring the hold set, the loader gate and the log hold into step with the state they describe, and raise
HOLD for each resource reason that joins and for the log hold becoming asserted (R9, R10, R158). -/
def State.syncHolds (s : State) : State :=
  let hold := s.holdNow
  let logHold := logHoldNow s.tu
  let n := holdJoins s.dt.hold hold + (if logHold && !s.tu.logHold then 1 else 0)
  State.notifyTimes .hold n
    { s with
      dt := { s.dt with hold := hold, gate := gateNow s.dt.state hold }
      tu := { s.tu with logHold := logHold } }

/-- While the deck is stopped, it is STOPPED_LOADED with a piece on the map or the upstream list and
STOPPED_CLEAR without (R17). -/
def stoppedNow (dt : Deck) : DeckState := if dt.loaded then .stoppedLoaded else .stoppedClear

/-- Move a stopped deck between STOPPED_LOADED and STOPPED_CLEAR as pieces join or leave the map; the change
raises DECK (R17). -/
def State.syncStopped (s : State) : State :=
  if s.dt.state.stopped && s.dt.state != stoppedNow s.dt then
    (s.onDt (fun d => { d with state := stoppedNow d })).notify .deck
  else s

/-- One rewrite of the Status Block (R176). -/
def State.rewriteStatus (s : State) : State :=
  { s with
    mem := statusRewrite s.mem s.xi.updateCount s.image
    xi := { s.xi with updateCount := s.xi.updateCount + 2 } }

/-- The Status Block is rewritten at each beat, each sweep and each change of an item it shows (R176); one
rewrite for an event (log 9). -/
def State.refreshStatus (always : Bool) (before : List Byte) (s : State) : State :=
  let due := always || decide (s.image ≠ before)
  { s with
    mem := if due then statusRewrite s.mem s.xi.updateCount s.image else s.mem
    xi := { s.xi with
            updateCount := if due then s.xi.updateCount + 2 else s.xi.updateCount } }

/-- The end of an event: the stopped states, the holds and the Status Block follow the change. -/
def State.endEvent (always : Bool) (before : List Byte) (s : State) : State :=
  (s.syncStopped.syncHolds).refreshStatus always before

/-- An event: a change of the state, with nothing sent before it, and what follows from it. `always` asks for
a rewrite of the Status Block whatever changed. -/
def State.event (always : Bool) (f : State → State) (s : State) : State :=
  (f s.clearOut).endEvent always s.image

/-- The outcome of a command that always completes. -/
def completes (always : Bool) (f : State → State) (s : State) : Host.Outcome State Fault Refusal :=
  .next (s.event always f)

end Sys2Proof.Machine
end

