-- ==== Sys2Proof/Machine/Operands.lean ====
section
/-! DEFINITION. The operands of the commands: the host's writes into exchange memory (R161), the contents of a
request cell (R165, 10.4), and the geometry record with its checks (R21, R184, 10.3). -/

namespace Sys2Proof.Machine

/-! ## Host writes (log 2, log 21) -/

/-- The addresses of the aligned words that a host write touches. -/
def touchedWords (w : HostWrite) : List Nat :=
  if w.bytes.isEmpty then []
  else (List.range ((w.addr + w.bytes.length - 1) / 4 - w.addr / 4 + 1)).map (fun i => 4 * (w.addr / 4 + i))

/-- A staging that has read the words: their present bytes are in the copy, whatever the host writes later
(R74). -/
def Staging.keep (m : Memory) (st : Staging) (words : List Nat) : Staging :=
  words.foldl (fun st a =>
    if bankAddr st.bank ≤ a ∧ a < bankAddr st.bank + bankBytes ∧ st.kept.all (fun c => c.1 != a) = true then
      { st with kept := st.kept ++ [(a, m.read a), (a + 1, m.read (a + 1)), (a + 2, m.read (a + 2)),
                                    (a + 3, m.read (a + 3))] }
    else st) st

/-- How many words of an area stand from its first word through the last one that a host write touches; 0 where
it touches none. -/
def wordsThrough (a : Area) (w : HostWrite) : Nat :=
  if w.bytes.isEmpty ∨ areaAddr a + areaBytes ≤ w.addr then 0
  else (min (w.addr + w.bytes.length) (areaAddr a + areaBytes) + 3 - areaAddr a) / 4

/-- The clearing of an area goes on from the word it stands at through the area's first `n` words, from the first
to the last (R151). -/
def State.zeroThrough (a : Area) (n : Nat) (s : State) : State :=
  let k := (s.tu.entry a).swept
  s.onMem (fun m => m.zero (areaAddr a + 4 * k) (4 * (n - k)))

/-- A clearing has zeroed the area's first `n` words and does not come back to them (R151). -/
def State.sweepThrough (a : Area) (n : Nat) (s : State) : State :=
  if (s.tu.entry a).area = .clearing ∧ (s.tu.entry a).swept < n then
    (s.zeroThrough a n).onArea a (fun e => { e with swept := n })
  else s

/-- The part has read the words that a late host write is about to reach, and a clearing has zeroed them and every
word of the area below them. -/
def State.passWords (w : HostWrite) (s : State) : State :=
  let s := s.onRs (fun rs => { rs with staging := rs.staging.map (fun st => st.keep s.mem (touchedWords w)) })
  (s.sweepThrough .a (wordsThrough .a w)).sweepThrough .b (wordsThrough .b w)

/-- One host write into exchange memory. -/
def State.hostWrite (w : HostWrite) (s : State) : State :=
  ((if w.late then s.passWords w else s)).store w.addr w.bytes

/-- The host writes that a command carries, in order. -/
def State.hostWrites (host : List HostWrite) (s : State) : State := s.each host State.hostWrite

/-- The outcome of a command that carries host writes: a fault where one lies outside the window (R161). -/
def withHost (host : List HostWrite) (always : State → Bool) (f : State → State) (s : State) :
    Host.Outcome State Fault Refusal :=
  if hostInWindow host then
    .next (s.event (always s) (fun s => f (s.hostWrites host)))
  else .fault .outsideWindow

/-! ## Request cells -/

/-- A request as taken: the cell, its kind code, its host tag and its 48 parameter bytes (R165). -/
structure Request where
  cell : Nat
  kind : Nat
  tag : Word
  params : List Byte
  deriving DecidableEq, Repr

/-- Values of a cell's state word (R165). -/
def cellPosted : Word := 1

/-- The state word of a taken cell (R165). -/
def cellTaken : Word := 2

/-- The state word of a served cell (R165). -/
def cellDone : Word := 3

/-- A cell's state word. -/
def cellState (m : Memory) (cell : Nat) : Word := m.read32 (cellAddr cell)

/-- A cell's kind code. -/
def cellKind (m : Memory) (cell : Nat) : Nat := m.read16 (cellAddr cell + 4)

/-- A cell's request, read once at the take (R165). -/
def readRequest (m : Memory) (cell : Nat) : Request :=
  { cell, kind := cellKind m cell, tag := m.read32 (cellAddr cell + 8),
    params := m.readBytes (cellAddr cell + 0x10) 48 }

/-- The parameter byte at an offset of the cell, from 0x10 on. -/
def Request.byte (r : Request) (offset : Nat) : Nat := (byteAt r.params (offset - 0x10)).toNat

/-- A 16-bit parameter at an offset of the cell. -/
def Request.half (r : Request) (offset : Nat) : Nat := Machine.half r.params (offset - 0x10)

/-- A 32-bit parameter at an offset of the cell. -/
def Request.word (r : Request) (offset : Nat) : Word := Machine.word r.params (offset - 0x10)

/-! ## The geometry record -/

/-- The raw fields of the geometry record, in the record order of 10.3. -/
def geometryFields (m : Memory) : List Nat :=
  let at8 := fun o => (m.read (geometryAddr + o)).toNat
  let at16 := fun o => m.read16 (geometryAddr + o)
  (List.range 8).map at8 ++ (List.range 24).map (fun i => at8 (8 + i))
    ++ [at16 0x20, at8 0x22, at16 0x24, at16 0x26, at16 0x28, at16 0x2A, at8 0x2C, at16 0x2E]

/-- Field number n of the record. -/
def geoField (f : List Nat) (n : Nat) : Nat := f.getD n 0

/-- Field n holds: its value lies in its range and it breaks no ordering relation with a field of lower number
(R21, R184). -/
def geometryFieldOk (f : List Nat) (n : Nat) : Bool :=
  let v := geoField f
  match n with
  | 0 => decide (0 < v 0 ∧ v 0 ≤ 63)
  | 1 => decide (v 1 ≤ 63 ∧ v 0 ≤ v 1)
  | 2 => decide (v 2 ≤ 63 ∧ v 1 < v 2)
  | 3 => decide (v 3 ≤ 63 ∧ v 1 < v 3)
  | 4 => decide (v 4 ≤ 63 ∧ v 2 < v 4 ∧ v 3 < v 4)
  | 5 => decide (1 ≤ v 5 ∧ v 5 ≤ 4)
  | 6 => decide (v 6 ≤ 63 ∧ v 4 + v 5 ≤ v 6)
  | 7 => decide (v 7 ≤ 63)
  | 8 => decide (v 8 ≤ 63 ∧ v 6 < v 8)
  | 31 => decide (v 31 ≤ 63 ∧ v 30 < v 31 ∧ v 31 < v 7)
  | 32 => decide (64 ≤ v 32 ∧ v 32 ≤ 4096)
  | 33 => decide (2 ≤ v 33 ∧ v 33 ≤ 20)
  | 34 => decide (300 ≤ v 34 ∧ v 34 ≤ 700)
  | 35 => decide (100 ≤ v 35 ∧ v 35 ≤ 1400)
  | 36 => decide (250 ≤ v 36 ∧ v 36 ≤ 4096)
  | 37 => decide (1 ≤ v 37 ∧ v 37 ≤ 600)
  | 38 => decide (1 ≤ v 38 ∧ v 38 ≤ 30)
  | 39 => decide (v 39 ≤ 2000)
  | n => decide (v n ≤ 63 ∧ v (n - 1) < v n)

/-- The number of the first field that fails, in record order (R184). -/
def geometryFailure (f : List Nat) : Option Nat := (List.range 40).find? (fun n => !geometryFieldOk f n)

/-- The record that the fields give. -/
def geometryOf (f : List Nat) : Geometry :=
  let v := geoField f
  { ss := v 0, se := v 1, aim1 := v 2, aim2 := v 3, c := v 4, d := v 5, t := v 6, e := v 7,
    bins := (List.range 24).map (fun i => v (8 + i)), countsPerPitch := v 32, sawCount := v 33,
    sawSpacing := v 34, maxOffFall := v 35, segmentLength := v 36, standbyDelay := v 37,
    stallTime := v 38, settleTime := v 39 }

end Sys2Proof.Machine
end

