-- ==== Sys2Proof/Machine/Queue.lean ====
section
/-! DEFINITION. The solver queue and the solve in hand: joining, taking, leaving, abandoning (5.1). -/

namespace Sys2Proof.Machine

/-- A piece's place in admission order: the piece table is kept in that order (1.3, R83). -/
def Deck.age (d : Deck) (serial : Word) : Nat := d.pieces.findIdx (fun p => p.serial == serial)

/-- The queue with a piece at the place its serial gives (R83). -/
def insertByAge (age : Word → Nat) (x : Word) : List Word → List Word
  | [] => [x]
  | y :: rest => if age x < age y then x :: y :: rest else y :: insertByAge age x rest

/-- The trim override that a solve takes: that of a PENDING part, with its reference length (R84, R99). -/
def Piece.trimTaken (p : Piece) : Option (TrimKind × Option Nat) :=
  match p.trimPart with
  | some part => if part.state = .pending then some (part.kind, part.reference) else none
  | none => none

/-- The slot that a piece is bound to; a piece in the queue is bound (R79). -/
def Piece.slot (p : Piece) : Nat :=
  match p.generation with
  | some (_, slot) => slot
  | none => 0

/-- TS takes the head piece of the queue when it has no solve in hand (R84). -/
def State.takeNext (s : State) : State :=
  match s.ts.inHand, s.ts.queue with
  | none, serial :: rest =>
    match s.dt.piece? serial with
    | some p =>
      (s.onPiece serial (fun p => { p with state := .solving })).onTs (fun ts =>
        { ts with
          queue := rest
          inHand := some { serial, slot := p.slot, lockView := s.ax.lockSet, trim := p.trimTaken,
                           arrival := false }
          taken := ts.taken + 1 })
    | none => s.onTs (fun ts => { ts with queue := rest })
  | _, _ => s

/-- A SCANNED piece joins the queue at its serial's place, and TS takes a piece if it can (R83, R84). -/
def State.joinQueue (serial : Word) (s : State) : State :=
  ((s.onPiece serial (fun p => { p with state := .scanned })).onTs (fun ts =>
    { ts with queue := insertByAge s.dt.age serial ts.queue })).takeNext

/-- A piece leaves the queue (R83). -/
def State.leaveQueue (serial : Word) (s : State) : State :=
  s.onTs (fun ts => { ts with queue := ts.queue.filter (fun x => x != serial) })

/-- The solve in hand is for a piece. -/
def Solver.solves (ts : Solver) (serial : Word) : Bool :=
  match ts.inHand with
  | some c => c.serial == serial
  | none => false

/-- The solve in hand is abandoned when it is for the piece, and TS takes the next piece (R86). -/
def State.abandonSolve (serial : Word) (s : State) : State :=
  if s.ts.solves serial then
    (s.onTs (fun ts => { ts with inHand := none, abandoned := ts.abandoned + 1 })).takeNext
  else s

end Sys2Proof.Machine
end

