-- ==== Sys2Proof/Machine/Journal.lean ====
section
/-! DEFINITION. The journal: when a record may be written, the writing of one record at the fill mark with the
filler it needs (R172), and the records' bytes (10.5). -/

namespace Sys2Proof.Machine

/-! ## Bytes of the records -/

/-- A find as its 32-bit word (R183). -/
def Find.word (f : Find) : Word :=
  BitVec.ofNat 32 (f.along + f.across * 2 ^ 14 + f.kind.code * 2 ^ 22 + f.size * 2 ^ 26 + f.face * 2 ^ 30)

/-- The scan flags byte: bits 0..4 the flags, bit 7 scan record present (10.4.1). -/
def scanFlags : Option ScanRecord → Nat
  | none => 0
  | some r =>
    bit r.incomplete 0 + bit r.gap 1 + bit r.truncated 2 + bit r.downgraded 3 + bit r.stale 4 + bit true 7

/-- The number of finds of a piece's scan record, 0 where the piece has none (log 20). -/
def Piece.findCount (p : Piece) : Nat :=
  match p.scan with
  | some r => r.finds.length
  | none => 0

/-- The length of a piece's record in units: 4 + ceil(finds / 4) (R172). -/
def Piece.recordUnits (p : Piece) : Nat := 4 + (p.findCount + 3) / 4

/-- Two 12-bit measures in three bytes, absent as all ones (10.5, R183). -/
def packMeasures : Option (Nat × Nat) → List Byte
  | none => le24 0xFFFFFF
  | some (lo, hi) => le24 (lo % 4096 + hi % 4096 * 4096)

/-- A product's three bytes: grade and length class, then value (10.5). -/
def packProduct : Option Product → List Byte
  | none => le8 0xF0 ++ le16 0xFFFF
  | some p => le8 (p.grade + 16 * p.lengthClass) ++ le16 p.value

/-- The code of a source where no part is: all ones in its two bits, since the codes of the sources include 0
(R183, log 20). -/
def sourceAbsent : Nat := 3

/-- The grade part's byte (10.5); absent as state 0, since its codes start at 1, and source and authority all ones,
since theirs include 0 (R114, R183); the FORCE_GRADE bit, which names a kind, is then clear (log 20). -/
def packGradePart : Option GradePart → List Byte
  | none => le8 (sourceAbsent * 8 + bit true 5)
  | some g =>
    le8 (g.state.code + bit (match g.kind with | .forceGrade _ => true | .accept => false) 2
      + g.source.code * 8 + bit g.authority 5)

/-- The trim part's byte (10.5); absent as state 0 and kind 0, whose codes start at 1, and source absent (R183,
log 20). -/
def packTrimPart : Option TrimPart → List Byte
  | none => le8 (sourceAbsent * 16)
  | some t => le8 (t.state.code + t.kind.code * 4 + t.source.code * 16)

/-- The forced grade of a grade part, absent as 0. -/
def forcedGrade : Option GradePart → Nat
  | some { kind := .forceGrade g, .. } => g
  | _ => 0

/-- The solved grades of a grade part: product 1 in bits 3:0, product 2 in bits 7:4, absent as 0. -/
def solvedGrades : Option GradePart → Nat
  | some { solved := some l, .. } =>
    ((l[0]?).map Prod.fst).getD 0 + 16 * ((l[1]?).map Prod.fst).getD 0
  | _ => 0

/-- Saw number i of a solution, absent as 0. -/
def sawOf (s : Option Solution) (i : Nat) : Nat :=
  match s with
  | some s => s.saws.getD i 0
  | none => 0

/-- The byte of solution kind and reason (10.4.1, 10.5); an absent kind is 0, since its codes start at 1, an absent
reason all ones, since its codes include 0 (R183, log 20). -/
def packKind : Option Solution → List Byte
  | none => le8 (16 * 0xF)
  | some s => le8 (s.kind.code + 16 * s.reason.code)

/-- Product number i of a solution. -/
def productOf (s : Option Solution) (i : Nat) : Option Product :=
  match s with
  | some s => s.products[i]?
  | none => none

/-- A PIECE record from its offset 0x04 on (10.5). The mismatch saws are absent, all ones, until the cut check sets them
(R128, R183); the RECUT saws of a piece whose RECUT is clear are empty, not absent (R128, log 20). -/
def pieceBody (p : Piece) : List Byte :=
  le32 p.serial ++ le16 p.run ++ le16 ((p.generation.map Prod.fst).getD 0)
    ++ [p.tag] ++ le8 p.findCount
    ++ le8 (bit p.handLoaded 0 + bit p.lost 1 + bit p.recut 2
        + bit ((p.solution.map (fun s => s.deadline)).getD false) 3 + bit p.scan.isSome 4
        + bit p.commit.isSome 5)
    ++ le8 ((p.density.map Density.code).getD 0)
    ++ opt8 (p.roster.map (fun r => r.toNat)) ++ opt8 (p.scan.map (fun r => r.missing.toNat))
    ++ le8 (scanFlags p.scan) ++ opt8 p.sizeClass
    ++ opt16 (p.scan.bind (fun r => r.ends.map Prod.fst))
    ++ opt16 (p.scan.bind (fun r => r.ends.map Prod.snd))
    ++ packMeasures (p.scan.bind (fun r => r.measures.map (fun m => (m.widthMin, m.widthMax))))
    ++ packMeasures (p.scan.bind (fun r => r.measures.map (fun m => (m.thickMin, m.thickMax))))
    ++ packKind p.solution
    ++ le8 ((p.solution.map (fun s => s.constraint.code)).getD 0xF
        + 16 * (p.cutCheck.map CutCheck.code).getD 0)
    ++ le8 (sawOf p.solution 0) ++ le8 (sawOf p.solution 1) ++ le8 (sawOf p.solution 2)
    ++ opt8 (p.solution.map (fun s => min s.number 255))
    ++ packProduct (productOf p.solution 0) ++ packProduct (productOf p.solution 1)
    ++ packGradePart p.gradePart ++ packTrimPart p.trimPart
    ++ le24 ((p.commit.map (fun c => c.dropSet.toNat)).getD 0xFFFFF
        + 2 ^ 20 * (p.commit.map (fun c => c.cause.code)).getD 0)
    ++ opt8 p.bin
    ++ le24 ((p.cutCheck.map (fun _ => p.mismatch.toNat)).getD 0xFFFFF) ++ opt8 (p.commit.map (fun c => c.primary))
    ++ le24 p.recutSaws.toNat ++ opt8 (p.commit.bind (fun c => c.alternate))
    ++ opt8 (p.commit.map (fun c => c.target)) ++ le8 (forcedGrade p.gradePart)
    ++ opt16 (p.trimPart.bind (fun t => t.reference)) ++ le8 (solvedGrades p.gradePart)
    ++ [0, 0, 0]
    ++ (match p.scan with
        | some r => r.finds.flatMap (fun f => le32 f.word)
        | none => [])

/-- A LOG record from its offset 0x04 on (10.5). -/
def logBody (r : LogRecord) : List Byte :=
  le16 r.report.tag.toNat ++ opt8 r.logClass ++ [r.report.sweep] ++ le16 r.report.length.toNat
    ++ le16 r.report.smallEnd.toNat ++ le16 r.report.largeEnd.toNat ++ le16 r.run ++ nat32 r.volume
    ++ le16 r.generation

/-! ## Writing -/

/-- The kind codes of the records (10.5). -/
inductive RecordKind where
  | piece | log | runClose | filler
  deriving DecidableEq, Repr

/-- Codes of the record kinds (10.5). -/
def RecordKind.code : RecordKind → Nat
  | .piece => 1 | .log => 2 | .runClose => 3 | .filler => 4

/-- The filler that a record of `len` units needs at a fill mark: the units left before the ring's end when
they are fewer than the record's, else none (R172). -/
def fillerUnits (fill len : Nat) : Nat :=
  if journalUnits - fill < len then journalUnits - fill else 0

/-- A record that holds a reservation of `held` units may be written when its filler is no more than the
unreserved units plus the reservation less its length (R172). -/
def mayWriteHeld (s : State) (held len : Nat) : Bool :=
  decide (fillerUnits s.xi.fill len + len ≤ unreservedUnits s.dt s.tu s.xi + held)

/-- A LOG record, which holds no reservation, may be written when 19 units are left unreserved after its filler
and its 2 units (R172). -/
def mayWriteLog (s : State) : Bool :=
  decide (fillerUnits s.xi.fill 2 + 2 + 19 ≤ unreservedUnits s.dt s.tu s.xi)

/-- A reservation of n units is granted when 19 unreserved units are left after it (R171). -/
def mayReserve (s : State) (n : Nat) : Bool := decide (n + 19 ≤ unreservedUnits s.dt s.tu s.xi)

/-- Lay `len` units with a header and a body at the fill mark, mark the record's first unit, move the fill mark
and take the next sequence number (R172). -/
def State.layRecord (kind : RecordKind) (len : Nat) (body : List Byte) (s : State) : State :=
  (s.store (journalAddr + 16 * s.xi.fill)
      (padTo (16 * len) (le8 kind.code ++ le8 len ++ le16 s.xi.sequence.toNat ++ body))).onXi
    (fun xi =>
      { xi with
        fill := (xi.fill + len) % journalUnits
        starts := xi.starts ++ [xi.fill]
        sequence := xi.sequence + 1 })

/-- Count a record written (R177). -/
def countRecord (kind : RecordKind) (len : Nat) (xi : Exchange) : Exchange :=
  match kind with
  | .piece => { xi with pieceRecords := xi.pieceRecords + 1 }
  | .log => { xi with logRecords := xi.logRecords + 1 }
  | .runClose => { xi with closeRecords := xi.closeRecords + 1 }
  | .filler =>
    { xi with fillers := xi.fillers + 1, fillerUnits := xi.fillerUnits + BitVec.ofNat 32 len }

/-- Raise JOURNAL when the records-since count has reached the notify count in force (R175). -/
def State.testNotify (s : State) : State :=
  if 1 ≤ s.xi.notifyCount ∧ s.xi.notifyCount ≤ s.xi.recordsSince then
    (s.notify .journal).onXi (fun xi => { xi with recordsSince := 0 })
  else s

/-- The filler before a record, when it needs one (R172). -/
def State.layFiller (len : Nat) (s : State) : State :=
  if fillerUnits s.xi.fill len = 0 then s
  else
    (s.layRecord .filler (fillerUnits s.xi.fill len) []).onXi
      (countRecord .filler (fillerUnits s.xi.fill len))

/-- Write one record: its filler, its units, the counts, and the JOURNAL notice it may call for (R172, R175,
R177). -/
def State.writeRecord (kind : RecordKind) (len : Nat) (body : List Byte) (s : State) : State :=
  (((s.layFiller len).layRecord kind len body).onXi (fun xi =>
    { countRecord kind len xi with recordsSince := xi.recordsSince + 1 })).testNotify

end Sys2Proof.Machine
end

