-- ==== Sys2Proof/Machine/Runs.lean ====
section
/-! DEFINITION. The tally areas and the run table: the rows (R152, 10.7), the tally of a sorted piece
(R153, R154, R155), the closing of runs (R150). -/

namespace Sys2Proof.Machine

/-! ## Rows of an area (10.7) -/

/-- A product row: count at +0, cm³ at +4. -/
def productRow (a : Area) (size grade lengthClass : Nat) : Nat :=
  areaAddr a + 0x40 + 8 * ((size * 13 + grade - 1) * 16 + lengthClass)

/-- A bin row: product count at +0, drop-miss count at +4. -/
def binRow (a : Area) (bin : Nat) : Nat := areaAddr a + 0xD040 + 8 * bin

/-- A log row: log count at +0, dm³ at +4. -/
def logRow (a : Area) (logClass : Nat) : Nat := areaAddr a + 0xD108 + 8 * logClass

/-- The exception counts, in the order of 10.7. -/
inductive Exception where
  | scanIncomplete | gap | deadline | lost | stranger | cutMismatch | uncut | recut | noSolution
  | downgraded | unjournaledLogs
  deriving DecidableEq, Repr

/-- Place of an exception count. -/
def Exception.place : Exception → Nat
  | .scanIncomplete => 0 | .gap => 1 | .deadline => 2 | .lost => 3 | .stranger => 4 | .cutMismatch => 5
  | .uncut => 6 | .recut => 7 | .noSolution => 8 | .downgraded => 9 | .unjournaledLogs => 10

/-- An exception count's address. -/
def exceptionAddr (a : Area) (e : Exception) : Nat := areaAddr a + 0xD188 + 4 * e.place

/-- An override count's address, for index 5s + k of source s and kind k. -/
def overrideAddr (a : Area) (i : Nat) : Nat := areaAddr a + 0xD1B4 + 4 * i

/-- The area state byte of a header (10.7). -/
def headerClosed : Nat := 3

/-- Write the header's first word: run, state, close reason (10.7). -/
def State.writeHeader (a : Area) (state : Nat) (s : State) : State :=
  s.store (areaAddr a)
    (le16 ((s.tu.entry a).number.getD 0) ++ le8 state
      ++ le8 (((s.tu.entry a).reason.map CloseReason.code).getD 0))

/-- Add one to an exception count of an area. -/
def State.addException (a : Area) (e : Exception) (s : State) : State := s.addTo (exceptionAddr a e) 1

/-- Add one to an exception count when a condition holds. -/
def State.addExceptionIf (c : Bool) (a : Area) (e : Exception) (s : State) : State :=
  if c then s.addException a e else s

/-! ## Closing (R150) -/

/-- A RUN_CLOSE record from its offset 0x04 on (10.5); the opening serial, the discarded counts and the
UNJOURNALED_LOGS count are the area's own. -/
def closeBody (m : Memory) (a : Area) (e : RunEntry) : List Byte :=
  le16 (e.number.getD 0) ++ opt8 (areaCode (some a)) ++ le8 ((e.reason.map CloseReason.code).getD 0)
    ++ le32 (e.label.getD 0) ++ le32 (m.read32 (areaAddr a + 0x08)) ++ le32 (m.read32 (areaAddr a + 0x0C))
    ++ le32 (m.read32 (areaAddr a + 0x10)) ++ le32 (m.read32 (exceptionAddr a .unjournaledLogs))

/-- A run closes: its RUN_CLOSE record is written from its reservation, its header reads CLOSED, its area is
HELD, and RUN_CLOSED is raised (R150). -/
def State.closeRun (a : Area) (s : State) : State :=
  ((((s.onArea a (fun e => { e with reservation := 0 })).writeRecord .runClose 2
      (closeBody s.mem a (s.tu.entry a))).writeHeader a headerClosed).onArea a
        (fun e => { e with area := .held, run := none })).notify .runClosed

/-- A DRAINING run with no live piece and no pending log record closes (R150). -/
def State.closeIfDrained (a : Area) (s : State) : State :=
  if (s.tu.entry a).run = some .draining ∧ (s.tu.entry a).live = 0 ∧ (s.tu.entry a).logPending = 0 then
    s.closeRun a
  else s

/-! ## The tally of a piece -/

/-- A piece's products go to the product rows: its cut check is OK and it is neither RECUT nor LOST (R153). -/
def Piece.madeProducts (p : Piece) : Bool := p.cutCheck == some .clean && !p.recut && !p.lost

/-- The products of a piece's solution. -/
def Piece.products (p : Piece) : List Product :=
  match p.solution with
  | some s => s.products
  | none => []

/-- The products that a piece adds to the product rows (R153). -/
def Piece.tallied (p : Piece) : List Product := if p.madeProducts then p.products else []

/-- The nominal width and thickness of a size class under a generation, the off-size nominals for class 0
(R80, R153). -/
def nominals (r : Rules) (size : Nat) : Nat × Nat :=
  if size = 0 then (r.policy.offSizeWidth, r.policy.offSizeThick)
  else
    match r.sizes[size - 1]? with
    | some row => (row.nominalWidth, row.nominalThick)
    | none => (0, 0)

/-- A product's volume in whole cm³, rounded down (R153). -/
def productVolume (nominal : Nat × Nat) (length : Nat) : Nat := nominal.1 * nominal.2 * length / 1000

/-- Add one product to its row (R153). -/
def State.tallyProduct (a : Area) (nominal : Nat × Nat) (size : Nat) (p : Product) (s : State) : State :=
  (s.addTo (productRow a size p.grade p.lengthClass) 1).addTo
    (productRow a size p.grade p.lengthClass + 4) (productVolume nominal p.length)

/-- Add a sorted piece to the bin row of the bin it went to; a LOST piece adds nothing (R154). -/
def State.tallyBin (a : Area) (p : Piece) (s : State) : State :=
  if p.lost then s
  else s.addTo (binRow a (p.bin.getD 0)) (if p.tallied.isEmpty then 1 else p.tallied.length)

/-- Whether a piece adds to an exception count at its sort (R155). -/
def Piece.counts (p : Piece) : Exception → Bool
  | .scanIncomplete => (p.scan.map (fun r => r.incomplete)).getD false
  | .gap => (p.scan.map (fun r => r.gap)).getD false
  | .downgraded => (p.scan.map (fun r => r.downgraded)).getD false
  | .deadline => p.commit.isSome && (p.solution.map (fun s => s.deadline)).getD false
  | .noSolution => p.commit.isSome && (p.solution.map (fun s => s.kind == .noSolution)).getD false
  | .cutMismatch => p.cutCheck == some .mismatch
  | .uncut => p.cutCheck == some .uncut
  | .recut => p.recut
  | .lost => p.lost
  | .stranger => false
  | .unjournaledLogs => false

/-- The exception counts that R155's table lists for a piece. -/
def pieceExceptions : List Exception :=
  [.scanIncomplete, .gap, .downgraded, .deadline, .noSolution, .cutMismatch, .uncut, .recut, .lost]

/-- Tally a sorted piece into the run stamped at its admission (R153, R154, R155). -/
def State.tallyPiece (p : Piece) (s : State) : State :=
  match s.tu.areaOfRun p.run with
  | none => s
  | some a =>
    let size := p.sizeClass.getD 0
    let nominal := nominals (s.rs.boundRules p) size
    ((s.each p.tallied (State.tallyProduct a nominal size)).tallyBin a p).each pieceExceptions
      (fun e s => s.addExceptionIf (p.counts e) a e)

/-- Count a stranger in the OPEN run, if one is OPEN, and on the Status Block (R11, R13). -/
def State.countStranger (s : State) : State :=
  (match s.tu.openArea with
    | some a => s.addException a .stranger
    | none => s).onDt (fun d => { d with strangers := d.strangers + 1 })

/-- Count a drop miss in bin b's row of run r, while r is OPEN or DRAINING, and on the Status Block (R14,
R154). -/
def State.countDropMiss (mark : DropMark) (s : State) : State :=
  (match s.tu.areaOfRun mark.run with
    | some a => s.addTo (binRow a mark.bin + 4) 1
    | none => s).onDt (fun d => { d with dropMisses := d.dropMisses + 1 })

end Sys2Proof.Machine
end

