-- ==== Sys2Proof/Machine/Retire.lean ====
section
/-! DEFINITION. From SORTED to free: detaching a piece (R7), asking for its record, the waiting list (R173),
and retirement (R16, R81). -/

namespace Sys2Proof.Machine

/-! ## Retirement -/

/-- A slot loses a bound piece; a RETIRING slot at 0 becomes FREE (R81). -/
def Slot.unbind (sl : Slot) : Slot :=
  if sl.state = .retiring ∧ sl.bound ≤ 1 then
    { sl with state := .free, bank := none, number := none, label := none, bound := 0 }
  else { sl with bound := sl.bound - 1 }

/-- A piece retires once its record is written: its entry is freed, which returns its reservation, and its run
and its generation lose it (R16, R81). -/
def State.retire (p : Piece) (s : State) : State :=
  let s := s.onDt (fun d => { d with pieces := d.pieces.filter (fun q => q.serial != p.serial) })
  let s := match p.generation with
    | some (_, slot) => s.onSlot slot Slot.unbind
    | none => s
  match s.tu.areaOfRun p.run with
  | some a => (s.onArea a (fun e => { e with live := e.live - 1 })).closeIfDrained a
  | none => s

/-- Write a piece's PIECE record and retire the piece (R16, R172). -/
def State.writePiece (p : Piece) (s : State) : State :=
  ((s.onPiece p.serial (fun q => { q with reservation := 0 })).writeRecord .piece p.recordUnits
    (pieceBody p)).retire p

/-- Write a LOG record (R157, R172). -/
def State.writeLog (r : LogRecord) (s : State) : State := s.writeRecord .log 2 (logBody r)

/-- Write the oldest pending log record; its run loses it and may close (R157, R150). -/
def State.writePending (s : State) : State :=
  match s.tu.pendingLogs with
  | [] => s
  | r :: rest =>
    let s := (s.onTu (fun tu => { tu with pendingLogs := rest })).writeLog r
    match s.tu.areaOfRun r.run with
    | some a => (s.onArea a (fun e => { e with logPending := e.logPending - 1 })).closeIfDrained a
    | none => s

/-! ## The waiting list (R173) -/

/-- A record asked for may be written now (R172). -/
def mayWrite (s : State) : Waiting → Bool
  | .piece serial =>
    match s.dt.piece? serial with
    | some p => mayWriteHeld s p.reservation p.recordUnits
    | none => true
  | .log => mayWriteLog s

/-- Write a record asked for. -/
def State.writeWaiting (w : Waiting) (s : State) : State :=
  match w with
  | .piece serial =>
    match s.dt.piece? serial with
    | some p => s.writePiece p
    | none => s
  | .log => s.writePending

/-- Write records from the head of the waiting list, one after the other, while the head may be written
(R173). -/
def State.drain : Nat → State → State
  | 0, s => s
  | fuel + 1, s =>
    match s.xi.waiting with
    | [] => s
    | w :: rest =>
      if mayWrite s w then
        State.drain fuel ((s.onXi (fun xi => { xi with waiting := rest })).writeWaiting w)
      else s

/-- Drain the waiting list: at most one writing for each entry. -/
def State.drainAll (s : State) : State := State.drain s.xi.waiting.length s

/-- Ask for a piece's record: written at once when no record waits and it may be written, else at the tail of
the waiting list (R173). -/
def State.askPiece (serial : Word) (s : State) : State :=
  if s.xi.waiting.isEmpty && mayWrite s (.piece serial) then (s.writeWaiting (.piece serial)).syncHolds
  else s.onXi (fun xi => { xi with waiting := xi.waiting ++ [.piece serial] })

/-! ## Sorting -/

/-- Take a piece off its lug; a gate drop leaves the bin and the piece's run as the lug's drop mark (R7). -/
def State.detach (serial : Word) (run bin : Nat) (s : State) : State :=
  s.onLugs (fun l =>
    if l.piece = some serial then
      { l with piece := none, dropMark := if bin = 0 then l.dropMark else some { bin, run } }
    else l)

/-- A piece becomes SORTED with a bin: it is detached, leaves the solver, is tallied, and its record is asked for
(R7, R16, R86, R153). A piece already SORTED is left as it stands. -/
def State.sortPiece (serial : Word) (bin : Nat) (s : State) : State :=
  match s.dt.piece? serial with
  | none => s
  | some p =>
    if p.state = .sorted then s
    else
      let s := s.onPiece serial (fun p => { p with state := .sorted, bin := some bin, assembly := none })
      let s := s.detach serial p.run bin
      let s := (s.leaveQueue serial).abandonSolve serial
      match s.dt.piece? serial with
      | some p => (s.tallyPiece p).askPiece serial
      | none => s

/-- A piece is found LOST: it goes straight to SORTED with bin 0 (R3, R13, R15). -/
def State.losePiece (serial : Word) (s : State) : State :=
  (s.onPiece serial (fun p => { p with lost := true })).sortPiece serial 0

end Sys2Proof.Machine
end

