-- ==== Sys2Proof/Machine/Exchange.lean ====
section
/-! DEFINITION. The end of a request (R168), the release mark and the notify count (R164, R174). -/

namespace Sys2Proof.Machine

/-! ## The end of a request (R168) -/

/-- The bytes of a cell from its kind on, as XI writes them at the request's end: kind as taken and result
code in one word, host tag, detail, and the 48-byte result area padded with zeros (R165, R183). A result field that a
request does not use, because of its kind or because it does not end OK, counts as unused and not as absent, and is
written 0 also where its values include 0 (the model's choice, log 19). -/
def cellResult (kind : Nat) (tag : Word) (result : Result) (detail : Word) (area : List Byte) : List Byte :=
  le16 kind ++ le16 result.code ++ le32 tag ++ le32 detail ++ padTo 48 area

/-- A request ends: its result is written and the cell reads DONE, with CELL_DONE, if the cell still reads
TAKEN; else nothing is written and the result is counted as dropped. The cell leaves the in-hand set (R168). -/
def State.endCell (cell kind : Nat) (tag : Word) (result : Result) (detail : Word) (area : List Byte)
    (s : State) : State :=
  (if cellState s.mem cell = cellTaken then
      ((s.store (cellAddr cell + 4) (cellResult kind tag result detail area)).store (cellAddr cell)
        (le32 cellDone)).notify .cellDone
    else s.onXi (fun xi => { xi with dropped := xi.dropped + 1 })).onXi
      (fun xi => { xi with inHand := xi.inHand.filter (fun h => h.cell != cell) })

/-- An immediate request ends on its take. -/
def State.reply (r : Request) (result : Result) (detail : Word) (area : List Byte) (s : State) : State :=
  s.endCell r.cell r.kind r.tag result detail area

/-- A timed request ends on a later event, with the host tag and kind read at its take (R165, R169). -/
def State.endInHand (cell : Nat) (result : Result) (detail : Word) (area : List Byte) (s : State) : State :=
  match s.xi.inHand.find? (fun h => h.cell == cell) with
  | some h => s.endCell cell h.kind h.tag result detail area
  | none => s

/-- A timed request is kept: its cell stays TAKEN and joins the in-hand set (R167, R169). -/
def State.keepInHand (r : Request) (s : State) : State :=
  s.onXi (fun xi => { xi with inHand := xi.inHand ++ [{ cell := r.cell, tag := r.tag, kind := r.kind }] })

/-! ## The release mark and the notify count -/

/-- A release mark is valid: an offset of the ring that equals the fill mark, the last valid release mark, or
the first unit of a record written and not released (R174). -/
def Exchange.validMark (xi : Exchange) (mark : Nat) : Bool :=
  decide (mark < journalUnits) && (mark == xi.fill || mark == xi.release || xi.starts.contains mark)

/-- The start map with the marks of the records before a valid mark cleared (R174). -/
def releasedStarts (starts : List Nat) (mark : Nat) : List Nat := starts.dropWhile (fun u => u != mark)

/-- XI reads the release mark (R174): a valid mark releases the records before it, clears RELEASE_BAD and lets
waiting records be written, after which the holds, JOURNAL among them, are tested once; an invalid one sets
RELEASE_BAD. -/
def State.readReleaseMark (s : State) : State :=
  let mark := (s.mem.read32 releaseMarkAddr).toNat
  if s.xi.validMark mark then
    let s := s.onXi (fun xi => { xi with releaseBad := false })
    if mark = s.xi.release then s
    else
      (((s.onXi (fun xi =>
        { xi with release := mark, starts := releasedStarts xi.starts mark })).drainAll).syncHolds)
  else if s.xi.releaseBad then s
  else
    (s.onXi (fun xi => { xi with releaseBad := true, releaseBads := xi.releaseBads + 1 })).notify .fault

/-- XI reads the notify count: 0 as never, a value above 256 as 256; the test of R175 follows (R164). -/
def State.readNotifyCount (s : State) : State :=
  (s.onXi (fun xi =>
    { xi with notifyCount := min (s.mem.read32 notifyCountAddr).toNat 256 })).testNotify

end Sys2Proof.Machine
end

