-- ==== Sys2Proof/Machine/Rules.lean ====
section
/-! DEFINITION. Rule generations (chapter 4): the copy of a bank (R64, R74), its checks (R75), activation
(R76, R77, R78), binding (R79), and the tables' readings (R69, R70). -/

namespace Sys2Proof.Machine

/-! ## The copy of a bank -/

/-- The bank as the staging copy has read it: memory now, but for the words that the copy had read before a
later host write (R74, log 21). -/
def stagedMemory (m : Memory) (st : Staging) : Memory :=
  st.kept.foldl (fun m c => m.splice c.1 [c.2]) m

/-- The bytes of memory from an address on for a length, moved down to offset 0. -/
def Memory.window (m : Memory) (base len : Nat) : Memory :=
  (m.filter (fun c => decide (base ≤ c.1 ∧ c.1 < base + len))).map (fun c => (c.1 - base, c.2))

/-- A grade table entry (10.6). -/
def parseGrade (m : Memory) (base : Nat) : GradeRow :=
  { code := (m.read base).toNat, minDensity := (m.read (base + 1)).toNat,
    limits := (List.range 11).map (fun k =>
      ((m.read (base + 2 + 2 * k)).toNat, (m.read (base + 3 + 2 * k)).toNat)) }

/-- A size table entry (10.6). -/
def parseSize (m : Memory) (base : Nat) : SizeRow :=
  { widthMin := m.read16 base, widthMax := m.read16 (base + 2), thickMin := m.read16 (base + 4),
    thickMax := m.read16 (base + 6), nominalWidth := m.read16 (base + 8),
    nominalThick := m.read16 (base + 10) }

/-- The policy record (10.6). -/
def parsePolicy (m : Memory) (base : Nat) : Policy :=
  { density := (m.read base).toNat, cutInTwo := (m.read (base + 1)).toNat,
    fallback := (m.read (base + 2)).toNat, remanBin := (m.read (base + 3)).toNat,
    recutBin := (m.read (base + 4)).toNat, offSizeGrade := (m.read (base + 5)).toNat,
    overflowGrade := (m.read (base + 6)).toNat, offSizeWidth := m.read16 (base + 8),
    offSizeThick := m.read16 (base + 10) }

/-- A bank read whole: header, counted entries up to each table's room, price and sort tables, policy
(R64, 10.6). -/
def parseBank (m : Memory) (base : Nat) : Rules :=
  let grades := (m.read (base + 4)).toNat
  let sizes := (m.read (base + 5)).toNat
  let lengths := (m.read (base + 6)).toNat
  let logs := (m.read (base + 7)).toNat
  { label := m.read32 base, gradeCount := grades, sizeCount := sizes, lengthCount := lengths,
    logCount := logs,
    grades := (List.range (min grades 12)).map (fun i => parseGrade m (base + 0x10 + 24 * i)),
    sizes := (List.range (min sizes 31)).map (fun i => parseSize m (base + 0x130 + 16 * i)),
    lengths := (List.range (min lengths 16)).map (fun i => (m.read (base + 0x320 + 4 * i)).toNat),
    logs := (List.range (min logs 16)).map (fun i =>
      (m.read16 (base + 0x360 + 4 * i), m.read16 (base + 0x362 + 4 * i))),
    prices := m.window (base + 0x400) 0x3000, sort := m.window (base + 0x3400) 0x3400,
    policy := parsePolicy m (base + 0x3A0) }

/-- The copy that a staging makes (R74). -/
def stagedRules (m : Memory) (st : Staging) : Rules := parseBank (stagedMemory m st) (bankAddr st.bank)

/-! ## The checks of R75 -/

/-- The check codes (10.4). -/
inductive Check where
  | count | range | order | density | span | bin | policy | gradeRef
  deriving DecidableEq, Repr

/-- Codes of the checks (10.4). -/
def Check.code : Check → Nat
  | .count => 1 | .range => 2 | .order => 3 | .density => 4 | .span => 5 | .bin => 6 | .policy => 7
  | .gradeRef => 8

/-- A failed test: table code, index, check (R75, 10.4). -/
structure BankFailure where
  table : Nat
  index : Nat
  check : Check
  deriving DecidableEq, Repr

/-- The first test of a list that fails, as the failure it names. -/
def firstFailure (tests : List (Bool × BankFailure)) : Option BankFailure :=
  (tests.find? (fun t => !t.1)).map Prod.snd

/-- The value lies in a range. -/
def inRange (lo hi n : Nat) : Bool := decide (lo ≤ n) && decide (n ≤ hi)

/-- The tests of the header; the index is the field's number in 10.6. -/
def headerTests (r : Rules) : List (Bool × BankFailure) :=
  [(inRange 1 12 r.gradeCount, { table := 0, index := 1, check := .count }),
   (inRange 1 31 r.sizeCount, { table := 0, index := 2, check := .count }),
   (inRange 1 16 r.lengthCount, { table := 0, index := 3, check := .count }),
   (inRange 1 16 r.logCount, { table := 0, index := 4, check := .count })]

/-- The tests of the grade table from entry i on, `last` being the code of the entry before. -/
def gradeTests (i last : Nat) : List GradeRow → List (Bool × BankFailure)
  | [] => []
  | g :: rest =>
    [(inRange 1 12 g.code, { table := 1, index := i, check := .range }),
     (decide (last < g.code), { table := 1, index := i, check := .order }),
     (g.minDensity == 1 || g.minDensity == 2 || g.minDensity == 4,
       { table := 1, index := i, check := .density }),
     (g.limits.all (fun l => decide (l.2 ≤ 15)), { table := 1, index := i, check := .range })]
      ++ gradeTests (i + 1) g.code rest

/-- The tests of the size table from entry i on. -/
def sizeTests (i : Nat) : List SizeRow → List (Bool × BankFailure)
  | [] => []
  | z :: rest =>
    [(decide (z.widthMin ≤ 4095 ∧ z.widthMax ≤ 4095 ∧ z.thickMin ≤ 4095 ∧ z.thickMax ≤ 4095
        ∧ z.widthMin ≤ z.widthMax ∧ z.thickMin ≤ z.thickMax),
       { table := 2, index := i, check := .range }),
     (inRange 1 1023 z.nominalWidth && inRange 1 1023 z.nominalThick,
       { table := 2, index := i, check := .range })]
      ++ sizeTests (i + 1) rest

/-- The tests of the length class table from entry i on, under the recorded saw count. -/
def lengthTests (saws i last : Nat) : List Nat → List (Bool × BankFailure)
  | [] => []
  | span :: rest =>
    [(inRange 1 19 span && decide (span + 1 ≤ saws), { table := 3, index := i, check := .span }),
     (decide (last < span), { table := 3, index := i, check := .order })]
      ++ lengthTests saws (i + 1) span rest

/-- The tests of the log class table from entry i on. -/
def logTests (i : Nat) : List (Nat × Nat) → List (Bool × BankFailure)
  | [] => []
  | l :: rest =>
    [(inRange 1 1023 l.1 && inRange 1 1023 l.2 && decide (l.1 ≤ l.2),
       { table := 4, index := i, check := .range })]
      ++ logTests (i + 1) rest

/-- The tests of the sort table: every listed byte is a bin 0..24, and an unlisted byte is bin 0. Entry n
stands at offset 2n (10.6), so rising offsets are rising entries. -/
def sortTests : Memory → List (Bool × BankFailure)
  | [] => []
  | c :: rest =>
    (decide (c.2.toNat ≤ 24), { table := 6, index := c.1 / 2, check := .bin }) :: sortTests rest

/-- A grade code that the copied grade table holds, or 13 (R71). -/
def gradeKnown (r : Rules) (g : Nat) : Bool := g == 13 || r.grades.any (fun row => row.code == g)

/-- The tests of the policy record; the index is the field's number in 10.6. -/
def policyTests (r : Rules) : List (Bool × BankFailure) :=
  [(inRange 1 5 r.policy.density, { table := 7, index := 0, check := .policy }),
   (inRange 1 2 r.policy.fallback, { table := 7, index := 2, check := .policy }),
   (inRange 0 1 r.policy.cutInTwo, { table := 7, index := 1, check := .policy }),
   (inRange 0 24 r.policy.remanBin, { table := 7, index := 3, check := .bin }),
   (inRange 0 24 r.policy.recutBin, { table := 7, index := 4, check := .bin }),
   (gradeKnown r r.policy.offSizeGrade, { table := 7, index := 5, check := .gradeRef }),
   (gradeKnown r r.policy.overflowGrade, { table := 7, index := 6, check := .gradeRef }),
   (inRange 1 1023 r.policy.offSizeWidth, { table := 7, index := 7, check := .range }),
   (inRange 1 1023 r.policy.offSizeThick, { table := 7, index := 8, check := .range })]

/-- The first test of the copy that fails, in the order of R75, under the recorded saw count. -/
def bankFailure (saws : Nat) (r : Rules) : Option BankFailure :=
  firstFailure (headerTests r ++ gradeTests 0 0 r.grades ++ sizeTests 0 r.sizes
    ++ lengthTests saws 0 0 r.lengths ++ logTests 0 r.logs ++ sortTests r.sort ++ policyTests r)

/-! ## Readings of the tables -/

/-- The price of a product: 0 for REJECT, else entry ((grade − 1) × 16 + length class) × 32 + size class
(R69, 10.6). -/
def Rules.price (r : Rules) (grade lengthClass size : Nat) : Nat :=
  if grade = 13 then 0 else r.prices.read16 (2 * (((grade - 1) * 16 + lengthClass) * 32 + size))

/-- The offset of a sort table entry: (size class × 13 + grade − 1) × 16 + length class (10.6). -/
def sortOffset (size grade lengthClass : Nat) : Nat := 2 * ((size * 13 + grade - 1) * 16 + lengthClass)

/-- The primary bin of the sort table (R70). -/
def Rules.primary (r : Rules) (size grade lengthClass : Nat) : Nat :=
  (r.sort.read (sortOffset size grade lengthClass)).toNat

/-- The alternate bin of the sort table (R70). -/
def Rules.alternate (r : Rules) (size grade lengthClass : Nat) : Nat :=
  (r.sort.read (sortOffset size grade lengthClass + 1)).toNat

/-- The bin of the fallback kind: 0 for FALLOUT, the reman bin for REMAN (R89). -/
def Policy.fallbackBin (p : Policy) : Nat := if p.fallback = 2 then p.remanBin else 0

/-- The target density of the density policy (R50). -/
def Policy.targetDensity (p : Policy) : Density :=
  if p.density = 2 ∨ p.density = 4 then .x2 else if p.density = 3 ∨ p.density = 5 then .x4 else .x1

/-- The density policy is FIXED_2X or FIXED_4X, under which a lowered density is DOWNGRADED (R51). -/
def Policy.marksDowngrade (p : Policy) : Bool := p.density == 2 || p.density == 3

/-! ## Activation and binding -/

/-- The generation number after one: 65535 is followed by 1 (R78). -/
def numberAfter (n : Nat) : Nat := if n = 65535 then 1 else n + 1

/-- A slot that is not FREE holds a number (R78). -/
def RuleStore.holdsNumber (rs : RuleStore) (n : Nat) : Bool :=
  rs.slots.any (fun s => s.state != .free && s.number == some n)

/-- The number to give: the next one that no slot holds (R78); at most three can be held. -/
def RuleStore.numberToGive (rs : RuleStore) : Nat → Nat → Nat
  | 0, n => n
  | fuel + 1, n => if rs.holdsNumber n then rs.numberToGive fuel (numberAfter n) else n

/-- A slot that was ACTIVE and is replaced (R76). -/
def Slot.replace (sl : Slot) : Slot :=
  if sl.state = .active then
    if 0 < sl.bound then { sl with state := .retiring }
    else { sl with state := .free, bank := none, number := none, label := none }
  else sl

/-- The generation of a valid copy becomes ACTIVE in its slot, and the former ACTIVE slot RETIRING or FREE
(R76). -/
def RuleStore.activate (rs : RuleStore) (st : Staging) (rules : Rules) : RuleStore :=
  let number := rs.numberToGive 3 rs.nextNumber
  { rs with
    slots := (rs.slots.map Slot.replace).modify st.slot (fun sl =>
      { sl with state := .active, number := some number, label := some rules.label, bound := 0,
                rules := rules })
    staging := none
    nextNumber := numberAfter number
    last := some (.activated st.slot number rules.label) }

/-- A failed staging frees its slot (R77), which keeps the tables it held before the staging (log 46). -/
def RuleStore.reject (rs : RuleStore) (st : Staging) (f : BankFailure) : RuleStore :=
  { rs with
    slots := rs.slots.modify st.slot (fun sl => { sl with state := .free, bank := none })
    staging := none
    last := some (.badRules f.table f.index f.check.code) }

/-- The detail of BAD_RULES (10.4). -/
def BankFailure.detail (f : BankFailure) : Word :=
  BitVec.ofNat 32 (f.table + 256 * f.check.code + 65536 * f.index)

/-- The staging completion (R76, R77). With no staging in hand there is no such event. -/
def State.completeStaging (s : State) : State :=
  match s.rs.staging with
  | none => s
  | some st =>
    let rules := stagedRules s.mem st
    match bankFailure st.saws rules with
    | some f => (s.onRs (fun rs => rs.reject st f)).endInHand st.cell .badRules f.detail []
    | none =>
      let number := s.rs.numberToGive 3 s.rs.nextNumber
      (s.onRs (fun rs => rs.activate st rules)).endInHand st.cell .done 0
        (le8 st.slot ++ le8 0 ++ le16 number ++ le32 rules.label)

/-- RS binds the ACTIVE generation to a piece (R79). -/
def State.bindGeneration (serial : Word) (s : State) : State :=
  match s.rs.activeSlot with
  | none => s
  | some i =>
    (s.onPiece serial (fun p =>
      { p with generation := ((s.rs.slots[i]?).bind (fun sl => sl.number)).map (fun n => (n, i)) })).onSlot i
        (fun sl => { sl with bound := sl.bound + 1 })

end Sys2Proof.Machine
end

