-- ==== Sys2Proof/Machine/Grading.lean ====
section
/-! DEFINITION. Size classification, grading, candidates and choice (5.2, 5.3, 5.4): functions of the scan
record, the bound generation, the kept geometry and a lock view. -/

namespace Sys2Proof.Machine

/-! ## Size (R88) -/

/-- A size class's ranges hold the measures (R88). -/
def SizeRow.holds (z : SizeRow) (m : Measures) : Bool :=
  decide (z.widthMin ≤ m.widthMin ∧ m.widthMax ≤ z.widthMax
    ∧ z.thickMin ≤ m.thickMin ∧ m.thickMax ≤ z.thickMax)

/-- The size class: the first class that holds the piece, or 0 (R88). Class k is table entry k − 1. -/
def sizeClassOf (r : Rules) (scan : ScanRecord) : Nat :=
  match scan.measures with
  | none => 0
  | some m =>
    match r.sizes.findIdx? (fun z => z.holds m) with
    | some i => i + 1
    | none => 0

/-! ## Grading a span (R91, R92) -/

/-- The started metres of a span (R91). -/
def startedMetres (len : Nat) : Nat := (len + 999) / 1000

/-- The finds of a kind that lie in a span, its ends included (R91). -/
def findsIn (finds : List Find) (p q place : Nat) : List Find :=
  finds.filter (fun f => decide (p ≤ f.along) && decide (f.along ≤ q) && f.kind.place == place)

/-- A grade's limits for one kind hold for a span (R91). -/
def limitHolds (limit : Nat × Nat) (metres : Nat) (found : List Find) : Bool :=
  (limit.1 == 255 || decide (found.length ≤ limit.1 * metres))
    && found.all (fun f => decide (f.size ≤ limit.2))

/-- A grade's limits hold for a span (R91). -/
def limitsHold (row : GradeRow) (finds : List Find) (p q : Nat) : Bool :=
  (List.range 11).all (fun k =>
    limitHolds (row.limits.getD k (0, 0)) (startedMetres (q - p)) (findsIn finds p q k))

/-- The cap's code: the worse of the off-size grade for size class 0 and the overflow grade under
FINDS_TRUNCATED; 0 is no cap (R92). -/
def capOf (r : Rules) (size : Nat) (truncated : Bool) : Nat :=
  max (if size = 0 then r.policy.offSizeGrade else 0) (if truncated then r.policy.overflowGrade else 0)

/-- The grade of a span: the first grade that is open to the density, no better than the cap, and whose limits
hold; else REJECT, 13 (R52, R92). -/
def gradeSpan (r : Rules) (finds : List Find) (density cap p q : Nat) : Nat :=
  match r.grades.find? (fun g =>
      decide (g.minDensity ≤ density) && decide (cap ≤ g.code) && limitsHold g finds p q) with
  | some g => g.code
  | none => 13

/-! ## Candidates (R93, R94, R95, R96) -/

/-- What a solve reads: the kept geometry, the bound rules, the scan record, the density code, the size class and
the lock view. -/
structure SolveInput where
  g : Geometry
  rules : Rules
  scan : ScanRecord
  density : Nat
  size : Nat
  view : SawSet
  left : Nat
  right : Nat
  deriving DecidableEq, Repr

/-- The usable saws: 1 up to the saw count, not in the lock view (R93). -/
def SolveInput.usable (x : SolveInput) : List Nat :=
  (List.range' 1 x.g.sawCount).filter (fun k => !has x.view k)

/-- A saw stands within the piece: above its left end and below its right end (R93). -/
def SolveInput.within (x : SolveInput) (k : Nat) : Bool :=
  decide (x.left < x.g.sawPos k) && decide (x.g.sawPos k < x.right)

/-- A candidate: its product saws and its products (R95, R96). -/
structure Candidate where
  saws : List Nat
  products : List Product
  deriving DecidableEq, Repr

/-- A product between two saws, graded and valued; none when no length class holds its span (R67, R92, R93). -/
def SolveInput.product (x : SolveInput) (a b : Nat) : Option Product :=
  match x.rules.lengths.findIdx? (fun n => n == b - a) with
  | none => none
  | some lc =>
    let grade := gradeSpan x.rules x.scan.finds x.density (capOf x.rules x.size x.scan.truncated)
      (x.g.sawPos a) (x.g.sawPos b)
    some { grade, lengthClass := lc, length := (b - a) * x.g.sawSpacing,
           value := x.rules.price grade lc x.size }

/-- The chop saws below the lowest product saw, rising (R94). -/
def SolveInput.chopBelow (x : SolveInput) (a : Nat) : List Nat :=
  x.usable.filter (fun k => x.within k && decide (x.g.sawPos k < x.g.sawPos a))

/-- The chop saws above the highest product saw, rising (R94). -/
def SolveInput.chopAbove (x : SolveInput) (b : Nat) : List Nat :=
  x.usable.filter (fun k => x.within k && decide (x.g.sawPos b < x.g.sawPos k))

/-- Every block between consecutive points is no longer than a limit (R94). -/
def blocksOk (limit : Nat) : List Nat → Bool
  | p :: q :: rest => decide (q - p ≤ limit) && blocksOk limit (q :: rest)
  | _ => true

/-- The off-fall condition of a candidate from saw a to saw b (R94). -/
def SolveInput.offFallOk (x : SolveInput) (a b : Nat) : Bool :=
  blocksOk x.g.maxOffFall (x.left :: ((x.chopBelow a).map x.g.sawPos ++ [x.g.sawPos a]))
    && blocksOk x.g.maxOffFall (x.g.sawPos b :: ((x.chopAbove b).map x.g.sawPos ++ [x.right]))

/-- The saws from a to b lie within the wood, ends included (R93). -/
def SolveInput.inWood (x : SolveInput) (a b : Nat) : Bool :=
  decide (x.left ≤ x.g.sawPos a) && decide (x.g.sawPos b ≤ x.right)

/-- The single-product candidate of a pair of saws, if it is one (R95). -/
def SolveInput.single (x : SolveInput) (a b : Nat) : Option Candidate :=
  if a < b ∧ x.inWood a b = true ∧ x.offFallOk a b = true then
    (x.product a b).map (fun p => { saws := [a, b], products := [p] })
  else none

/-- The single-product candidates (R95). -/
def SolveInput.singles (x : SolveInput) : List Candidate :=
  x.usable.flatMap (fun a => x.usable.filterMap (fun b => x.single a b))

/-- The two-product candidate of a triple of saws, if it is one: both products exist and share their primary bin
(R96). -/
def SolveInput.double (x : SolveInput) (a b c : Nat) : Option Candidate :=
  if a < b ∧ b < c ∧ x.inWood a c = true ∧ x.offFallOk a c = true then
    match x.product a b, x.product b c with
    | some p, some q =>
      if x.rules.primary x.size p.grade p.lengthClass = x.rules.primary x.size q.grade q.lengthClass then
        some { saws := [a, b, c], products := [p, q] }
      else none
    | _, _ => none
  else none

/-- The two-product candidates (R96). -/
def SolveInput.doubles (x : SolveInput) : List Candidate :=
  x.usable.flatMap (fun a => x.usable.flatMap (fun b => x.usable.filterMap (fun c => x.double a b c)))

/-- The candidates of a solve under no trim override: single products, and two products where the generation's
cut-in-two is on (R95, R96). -/
def SolveInput.candidates (x : SolveInput) : List Candidate :=
  x.singles ++ (if x.rules.policy.cutInTwo = 1 then x.doubles else [])

/-! ## Choice (R97) -/

/-- A candidate's total value. -/
def Candidate.value (c : Candidate) : Nat := (c.products.map (fun p => p.value)).sum

/-- A candidate's total product length. -/
def Candidate.length (c : Candidate) : Nat := (c.products.map (fun p => p.length)).sum

/-- One candidate is chosen over another by the five tests of R97, in order. -/
def Candidate.over (c d : Candidate) : Bool :=
  if c.value ≠ d.value then decide (d.value < c.value)
  else if c.length ≠ d.length then decide (d.length < c.length)
  else if c.products.length ≠ d.products.length then decide (c.products.length < d.products.length)
  else if c.saws.getD 0 0 ≠ d.saws.getD 0 0 then decide (c.saws.getD 0 0 < d.saws.getD 0 0)
  else decide (c.saws.getD 1 0 < d.saws.getD 1 0)

/-- The choice among candidates (R97). -/
def chooseFrom : List Candidate → Option Candidate
  | [] => none
  | c :: rest => some (rest.foldl (fun best d => if d.over best then d else best) c)

/-! ## Results (R98) -/

/-- A NORMAL result from a candidate: its saw set is its product saws and its chop saws (R98). -/
def SolveInput.normal (x : SolveInput) (c : Candidate) (constraint : Constraint) : Solution :=
  { kind := .normal, reason := .noReason, saws := c.saws, products := c.products, totalValue := c.value,
    totalLength := c.length, target := none, constraint, deadline := false, number := 0,
    sawSet := maskOf 20 (c.saws ++ x.chopBelow (c.saws.getD 0 0) ++ x.chopAbove (c.saws.getLastD 0)) }

/-- A FALLBACK solution with a reason and a target bin (R89, R99, R104). -/
def fallbackSolution (reason : Reason) (target : Nat) (constraint : Constraint) (deadline : Bool)
    (number : Nat) : Solution :=
  { kind := .fallback, reason, saws := [], products := [], totalValue := 0, totalLength := 0,
    target := some target, constraint, deadline, number, sawSet := 0 }

/-- A NONE solution with a reason (R90), its constraint NONE (log 39). -/
def noneSolution (reason : Reason) : Solution :=
  { kind := .noSolution, reason, saws := [], products := [], totalValue := 0, totalLength := 0,
    target := some 0, constraint := .free, deadline := false, number := 0, sawSet := 0 }

/-- The result of a choice (R97). -/
def SolveInput.result (x : SolveInput) (c : Option Candidate) (constraint : Constraint) : Solution :=
  match c with
  | some c => x.normal c constraint
  | none => noneSolution .noCandidate

/-- What a solve builds: the size class, the solution, whether a trim override taken is APPLIED, and the
reference length that the solve fixed (R98, R100). -/
structure SolveResult where
  size : Nat
  solution : Solution
  applied : Bool
  reference : Option Nat
  deriving DecidableEq, Repr

/-- A saw set meets a lock view or a lock set. -/
def meets (a b : SawSet) : Bool := (a &&& b) != 0

/-- What a restricted choice that found no candidate falls back to: the last solution when one exists and its saw
set holds no saw of the lock view, else the unconstrained choice (R100, R101). -/
def SolveInput.orLast (x : SolveInput) (last : Option Solution) : Solution :=
  match last with
  | some sol => if meets sol.sawSet x.view then x.result (chooseFrom x.candidates) .free else sol
  | none => x.result (chooseFrom x.candidates) .free

/-- The solve of a piece whose record calls for candidates, under the trim override taken (R87 steps 5 to 7,
R100, R101). `last` is the piece's last solution with the solver's grades and values. -/
def SolveInput.solveTrim (x : SolveInput) (trim : Option (TrimKind × Option Nat)) (last : Option Solution) :
    SolveResult :=
  match trim with
  | some (.shorter, reference) =>
    let reference := match reference with
      | some n => some n
      | none => (chooseFrom x.candidates).map Candidate.length
    match chooseFrom (x.candidates.filter (fun c => decide (c.length < reference.getD 0))) with
    | some c => { size := x.size, solution := x.normal c .shorter, applied := true, reference }
    | none => { size := x.size, solution := x.orLast last, applied := false, reference }
  | some (.cutInTwo, _) =>
    match chooseFrom x.doubles with
    | some c => { size := x.size, solution := x.normal c .twoOnly, applied := true, reference := none }
    | none => { size := x.size, solution := x.orLast last, applied := false, reference := none }
  | _ =>
    { size := x.size, solution := x.result (chooseFrom x.candidates) .free, applied := false,
      reference := none }

/-- A solve (R87): size; REMAN; fallback; no wood; candidates, grades and choice. A SCAN FALLBACK and a NONE have
constraint NONE whatever trim override the solve took (log 39). -/
def solve (g : Geometry) (rules : Rules) (scan : ScanRecord) (density : Nat) (view : SawSet)
    (trim : Option (TrimKind × Option Nat)) (last : Option Solution) : SolveResult :=
  let size := sizeClassOf rules scan
  if trim.map Prod.fst = some .reman then
    { size, solution := fallbackSolution .override rules.policy.remanBin .reman false 0, applied := true,
      reference := none }
  else if scan.incomplete || scan.gap then
    { size, solution := fallbackSolution .scan rules.policy.fallbackBin .free false 0, applied := false,
      reference := none }
  else
    match scan.ends with
    | none => { size, solution := noneSolution .noWood, applied := false, reference := none }
    | some (left, right) =>
      let x : SolveInput := { g, rules, scan, density, size, view, left, right }
      x.solveTrim trim last

end Sys2Proof.Machine
end

