-- ==== Sys2Proof/Machine/Override.lean ====
section
/-! DEFINITION. Overrides (chapter 6): the solved grade, the application of a grade override to a solution, the
acceptance of overrides, their resolution, the keys and lamps. -/

namespace Sys2Proof.Machine

/-! ## Grade overrides on a solution -/

/-- A solution with the solver's grades and values put back from a grade part (R115). -/
def restoreSolved (part : Option GradePart) (sol : Solution) : Solution :=
  match part with
  | some { state := .applied, solved := some l, .. } =>
    let products := (sol.products.zip l).map (fun x => { x.1 with grade := x.2.1, value := x.2.2 })
    { sol with products := products, totalValue := (products.map (fun p => p.value)).sum }
  | _ => sol

/-- The solved grade: the best grade among a solution's products, 13 without products (R112). -/
def solvedGrade (sol : Option Solution) : Nat :=
  match sol with
  | some sol => (leastOf (sol.products.map (fun p => p.grade))).getD 13
  | none => 13

/-- A piece's solution with the solver's grades and values. -/
def Piece.solverSolution (p : Piece) : Option Solution := p.solution.map (restoreSolved p.gradePart)

/-- A FORCE_GRADE of grade g would send the two products of a solution to different primary bins (R117). -/
def splitsBins (r : Rules) (size g : Nat) (products : List Product) : Bool :=
  match products with
  | [p, q] => r.primary size g p.lengthClass != r.primary size g q.lengthClass
  | _ => false

/-- A grade override part applied to a solution that carries the solver's grades (R117, R118). -/
def applyGrade (r : Rules) (size : Nat) (part : GradePart) (sol : Solution) : GradePart × Solution :=
  match part.kind with
  | .accept => ({ part with state := .applied, solved := none }, sol)
  | .forceGrade g =>
    if sol.products.isEmpty || (!part.authority && decide (g < solvedGrade (some sol)))
        || splitsBins r size g sol.products then
      ({ part with state := .notApplied, solved := none }, sol)
    else
      let products := sol.products.map (fun p => { p with grade := g, value := r.price g p.lengthClass size })
      ({ part with state := .applied, solved := some (sol.products.map (fun p => (p.grade, p.value))) },
       { sol with products := products, totalValue := (products.map (fun p => p.value)).sum })

/-- OU applies a piece's grade part, if one is present, to its solution, which carries the solver's grades
(R116, R119). -/
def Piece.applyGradePart (r : Rules) (p : Piece) : Piece :=
  match p.gradePart, p.solution with
  | some part, some sol =>
    let (part, sol) := applyGrade r (p.sizeClass.getD 0) part sol
    { p with gradePart := some part, solution := some sol }
  | _, _ => p

/-- A grade override accepted for a piece: an APPLIED FORCE_GRADE before it is undone, the part is written
PENDING, and it is applied at once to a solution the piece holds (R115, R116). -/
def Piece.acceptGrade (r : Rules) (kind : GradeKind) (source : Source) (authority : Bool) (p : Piece) : Piece :=
  ({ p with
      solution := p.solverSolution
      gradePart := some { kind, source, authority, state := .pending, solved := none } } : Piece).applyGradePart r

/-- A trim override accepted for a piece: the part is written PENDING, TRIM_SHORTER with the total length of the
solution held (R120). -/
def Piece.acceptTrim (kind : TrimKind) (source : Source) (p : Piece) : Piece :=
  { p with
    trimPart := some
      { kind, source, state := .pending,
        reference := if kind = .shorter then p.solution.map (fun s => s.totalLength) else none } }

/-- One more accepted override of a source and kind, held at 255 (R122). -/
def Piece.countOverride (source : Source) (kind : OverrideKind) (p : Piece) : Piece :=
  { p with overrides := p.overrides.modify (5 * source.code + kind.code) (fun n => min 255 (n + 1)) }

/-! ## Resolution (R111) -/

/-- The override kind that a key names (6.1). -/
def keyKind (key : BitVec 4) : OverrideKind :=
  if key = 0 then .accept
  else if key = 13 then .trimShorter
  else if key = 14 then .cutInTwo
  else if key = 15 then .reman
  else .forceGrade key.toNat

/-- The grade class kind of an override kind. -/
def OverrideKind.gradeKind : OverrideKind → Option GradeKind
  | .accept => some .accept
  | .forceGrade g => some (.forceGrade g)
  | .trimShorter => none
  | .cutInTwo => none
  | .reman => none

/-- The trim class kind of an override kind. -/
def OverrideKind.trimKind : OverrideKind → Option TrimKind
  | .trimShorter => some .shorter
  | .cutInTwo => some .cutInTwo
  | .reman => some .reman
  | .accept => none
  | .forceGrade _ => none

/-- The piece that an override for a tag finds: the one the tag's lug carries now (R111). -/
def Deck.pieceByTag (d : Deck) (tag : Byte) : Option Piece :=
  match d.lugByTag tag with
  | none => none
  | some (_, lug) => d.pieceOf lug

/-- The answer to an override for a piece, by the first case of R111 that applies. -/
def answerFor (r : Rules) (kind : OverrideKind) (authority : Bool) (p : Piece) : Result :=
  if p.state = .committed ∨ p.state = .cut then .tooLate
  else if p.state = .admitted ∨ p.state = .scanning then .refusedState
  else
    match kind with
    | .forceGrade g =>
      if g ≠ 13 ∧ r.grades.all (fun row => row.code != g) = true then .badParam
      else if authority = false ∧ g < solvedGrade p.solverSolution then .noAuthority
      else .done
    | _ => .done

/-- TS acts on an accepted trim override by the piece's state (R103). -/
def State.trimAccepted (p : Piece) (s : State) : State :=
  match p.state with
  | .solved => s.joinQueue p.serial
  | .solving =>
    s.onTs (fun ts => { ts with inHand := ts.inHand.map (fun c =>
      if c.serial = p.serial then { c with arrival := true } else c) })
  | _ => s

/-- An accepted override is written into its class's part and counted in the piece's tally (R116, R120, R122). -/
def State.acceptOverride (kind : OverrideKind) (source : Source) (authority : Bool) (p : Piece) (s : State) :
    State :=
  let r := s.rs.boundRules p
  match kind.gradeKind, kind.trimKind with
  | some k, _ =>
    s.onPiece p.serial (fun p => (p.acceptGrade r k source authority).countOverride source kind)
  | none, some k =>
    (s.onPiece p.serial (fun p => (p.acceptTrim k source).countOverride source kind)).trimAccepted p
  | none, none => s

/-- The take counts after an answer (R123). -/
def TakeCounts.add (c : TakeCounts) (answer : Result) : TakeCounts :=
  let c := { c with taken := c.taken + 1 }
  match answer with
  | .done => { c with accepted := c.accepted + 1 }
  | .notFound => { c with notFound := c.notFound + 1 }
  | .tooLate => { c with tooLate := c.tooLate + 1 }
  | .refusedState => { c with refusedState := c.refusedState + 1 }
  | .badParam => { c with badParam := c.badParam + 1 }
  | .noAuthority => { c with noAuthority := c.noAuthority + 1 }
  | _ => c

/-- Count a take for its source (R123). -/
def State.countTake (source : Source) (answer : Result) (s : State) : State :=
  match source with
  | .station1 => s.onStation 1 (fun st => { st with counts := st.counts.add answer })
  | .station2 => s.onStation 2 (fun st => { st with counts := st.counts.add answer })
  | .remote => s.onOu (fun ou => { ou with remote := ou.remote.add answer })

/-- The answer to an override for a tag, and the piece found (R111). -/
def State.answerTag (tag : Byte) (kind : OverrideKind) (authority : Bool) (s : State) : Result × Option Piece :=
  match s.dt.pieceByTag tag with
  | none => (.notFound, none)
  | some p => (answerFor (s.rs.boundRules p) kind authority p, some p)

/-- OU resolves an override (R111): the answer is counted, and an accepted override takes effect. -/
def State.resolve (tag : Byte) (kind : OverrideKind) (source : Source) (authority : Bool) (s : State) : State :=
  match s.answerTag tag kind authority with
  | (.done, some p) => (s.countTake source .done).acceptOverride kind source authority p
  | (answer, _) => s.countTake source answer

/-! ## Keys and lamps (R107, R108, R109) -/

/-- The source of a station's overrides. -/
def stationSource (n : Nat) : Source := if n = 1 then .station1 else .station2

/-- The lamps for an answer (R109). -/
def lampsFor : Result → Lamps
  | .done => { ok := true, refuse := false }
  | .noAuthority => { ok := true, refuse := true }
  | _ => { ok := false, refuse := true }

/-- Light an answer: the station is SHOWING and its last answer is rewritten (R109). -/
def State.light (n : Nat) (key : BitVec 4) (tag : Option Byte) (answer : Result) (serial : Option Word)
    (s : State) : State :=
  s.onStation n (fun st =>
    { st with showing := some (lampsFor answer), last := some { key, tag, answer, serial } })

/-- Station number n. -/
def Overrides.station? (ou : Overrides) (n : Nat) : Option Station :=
  if n = 0 then none else ou.stations[n - 1]?

/-- OU takes a station's head key entry when the station is IDLE (R109). -/
def State.takeKey (n : Nat) (s : State) : State :=
  match s.ou.station? n with
  | none => s
  | some st =>
    match st.showing, st.queue with
    | none, e :: rest =>
      let answer := s.answerTag e.tag (keyKind e.key) e.authority
      ((s.onStation n (fun st => { st with queue := rest })).resolve e.tag (keyKind e.key)
          (stationSource n) e.authority).light n e.key (some e.tag) answer.1
        (answer.2.map (fun p => p.serial))
    | _, _ => s

/-- A press refused at once: REFUSE lights and the press is counted as refused (R107, R108). -/
def State.refusePress (n : Nat) (key : BitVec 4) (tag : Option Byte) (answer : Result) (s : State) : State :=
  (s.onStation n (fun st => { st with refusedAtPress := st.refusedAtPress + 1 })).light n key tag answer none

/-- A key press (R107, R108): refused without a geometry record or with 4 entries queued, else queued with the
tag at the aim station, and taken at once at an IDLE station. -/
def State.pressKey (n : Nat) (key : BitVec 4) (authority : Bool) (s : State) : State :=
  match s.ou.station? n with
  | none => s
  | some st =>
    let s := s.onStation n (fun st => { st with presses := st.presses + 1 })
    match s.dt.geometry with
    | none => s.refusePress n key none .refusedState
    | some g =>
      let tag := ((s.dt.lugAt (g.aim n)).map (fun l => l.tag)).getD 0
      if 4 ≤ st.queue.length then s.refusePress n key (some tag) .queueFull
      else (s.onStation n (fun st => { st with queue := st.queue ++ [{ key, tag, authority }] })).takeKey n

/-- A lamp pulse ends: the lamps go dark and the next queued entry is taken (R109). With no pulse there is no
such event. -/
def State.endPulse (n : Nat) (s : State) : State :=
  match s.ou.station? n with
  | none => s
  | some st =>
    if st.showing.isSome then (s.onStation n (fun st => { st with showing := none })).takeKey n else s

end Sys2Proof.Machine
end

