-- ==== Sys2Proof/Machine/Solve.lean ====
section
/-! DEFINITION. The end of a solve (R85) and the deadline (R104). -/

namespace Sys2Proof.Machine

/-! ## The solve completion (R85) -/

/-- The solve in hand leaves the solve context. -/
def Solver.close (ts : Solver) : Solver := { ts with inHand := none }

/-- The number of the solution that follows a solution (R98). -/
def solveNumberAfter (last : Option Solution) : Nat := (last.map (fun s => s.number)).getD 0 + 1

/-- The outcome of a trim override taken, as OU records it at a kept completion (R85 step 2, R100, R121). -/
def TrimPart.settle (part : TrimPart) (applied : Bool) (reference : Option Nat) : TrimPart :=
  { part with
    state := if applied then .applied else .notApplied
    reference := if part.kind = .shorter then
        (match part.reference with
          | some n => some n
          | none => reference)
      else part.reference }

/-- A kept completion on the piece: size class and solution, the trim override's outcome where the solve took one
and no other has come since, the grade override part, SOLVED (R85 steps 1 to 4, R119). -/
def Piece.keepSolve (rules : Rules) (r : SolveResult) (report : Bool) (p : Piece) : Piece :=
  (({ p with
      state := .solved
      sizeClass := some r.size
      solution := some { r.solution with number := solveNumberAfter p.solution }
      trimPart := if report then p.trimPart.map (fun t => t.settle r.applied r.reference) else p.trimPart }
    : Piece).applyGradePart rules)

/-- The counts of a kept completion (R105). -/
def Solver.countKept (ts : Solver) (sol : Solution) : Solver :=
  { ts with
    kept := ts.kept + 1
    fallbacks := if sol.kind = .fallback ∧ sol.reason = .scan then ts.fallbacks + 1 else ts.fallbacks
    nones := if sol.kind = .noSolution then ts.nones + 1 else ts.nones }

/-- The result that a solve context builds for its piece (R87); none where no scan record or no geometry
stands, which no run reaches. -/
def State.solveResult (c : Solve) (p : Piece) (s : State) : Option SolveResult :=
  match s.dt.geometry, p.scan with
  | some g, some scan =>
    some (solve g (s.rs.rulesOf c.slot) scan ((p.density.map Density.code).getD 0) c.lockView c.trim
      p.solverSolution)
  | _, _ => none

/-- A result that a saw locked since the take discards: the piece keeps its last solution, is SCANNED, and
stands at the head of the queue (R85). -/
def State.discardSolve (serial : Word) (s : State) : State :=
  ((s.onPiece serial (fun p => { p with state := .scanned })).onTs (fun ts =>
    { ts.close with queue := serial :: ts.queue, discarded := ts.discarded + 1 })).takeNext

/-- A result kept (R85); with the arrival mark set the piece returns at once to the queue (step 5). -/
def State.keepResult (c : Solve) (r : SolveResult) (s : State) : State :=
  let report := c.trim.isSome && !c.arrival
  let s := (s.onPiece c.serial (Piece.keepSolve (s.rs.rulesOf c.slot) r report)).onTs
    (fun ts => ts.countKept r.solution)
  let s := if c.arrival then
      (s.onPiece c.serial (fun p => { p with state := .scanned })).onTs (fun ts =>
        { ts with queue := insertByAge s.dt.age c.serial ts.queue })
    else s
  (s.onTs Solver.close).takeNext

/-- The solve completion (R85). With no solve in hand there is no such event. -/
def State.completeSolve (s : State) : State :=
  match s.ts.inHand with
  | none => s
  | some c =>
    match s.dt.piece? c.serial with
    | none => (s.onTs Solver.close).takeNext
    | some p =>
      match s.solveResult c p with
      | none => (s.onTs Solver.close).takeNext
      | some r =>
        if meets r.solution.sawSet s.ax.lockSet then s.discardSolve c.serial else s.keepResult c r

/-! ## The deadline (R104) -/

/-- A last solution that the deadline may commit: its saw set holds no locked saw. -/
def Piece.holdsSafe (lockSet : SawSet) (p : Piece) : Bool :=
  match p.solution with
  | some sol => !meets sol.sawSet lockSet
  | none => false

/-- The FALLBACK that the deadline writes over a piece's last solution, if any (R104), its constraint NONE (log 39). -/
def Piece.writeDeadline (bin : Nat) (p : Piece) : Piece :=
  { p with solution := some (fallbackSolution .deadline bin .free true
      ((p.solution.map (fun s => s.number)).getD 0)) }

/-- The grade part at the commit beat: applied when PENDING or when the deadline wrote a FALLBACK (R119). -/
def Piece.gradeAtCommit (rules : Rules) (written : Bool) (p : Piece) : Piece :=
  match p.gradePart with
  | some part => if written || part.state == .pending then p.applyGradePart rules else p
  | none => p

/-- A PENDING trim part becomes NOT_APPLIED at the commit (R104, R121, R125). -/
def Piece.trimAtCommit (p : Piece) : Piece :=
  { p with
    trimPart := p.trimPart.map (fun t => if t.state = .pending then { t with state := .notApplied } else t) }

/-- A piece as the deadline and OU leave it for the commit (R104, R119, R121). -/
def Piece.settle (rules : Rules) (write : Bool) (p : Piece) : Piece :=
  ((if write then p.writeDeadline rules.policy.fallbackBin else p).gradeAtCommit rules write).trimAtCommit

/-- The deadline writes a FALLBACK: the piece is not SOLVED and holds no safe last solution (R104). -/
def Piece.deadlineWrites (lockSet : SawSet) (p : Piece) : Bool :=
  p.state != .solved && !p.holdsSafe lockSet

/-- The deadline's counts (R105). -/
def Solver.countDeadline (late write : Bool) (ts : Solver) : Solver :=
  { ts with
    deadlines := if late then ts.deadlines + 1 else ts.deadlines
    deadlineFallbacks := if write then ts.deadlineFallbacks + 1 else ts.deadlineFallbacks }

/-- The deadline of a piece at C (R104): a queued piece leaves the queue, a solve in hand for it is abandoned,
and its solution and override parts are settled. -/
def State.settleDeadline (p : Piece) (s : State) : State :=
  let write := p.deadlineWrites s.ax.lockSet
  let rules := s.rs.boundRules p
  (((s.leaveQueue p.serial).abandonSolve p.serial).onPiece p.serial (Piece.settle rules write)).onTs
    (Solver.countDeadline (p.state != .solved) write)

end Sys2Proof.Machine
end

