-- ==== Sys2Proof/Machine/Actuation.lean ====
section
/-! DEFINITION. Commit, saw drive, cut check, lock set, bins and gates (chapter 7). -/

namespace Sys2Proof.Machine

/-! ## The lock set (7.4) -/

/-- A saw taken out of a window entry's command (R135 step 2). -/
def WindowEntry.without (saws : SawSet) (w : WindowEntry) : WindowEntry := { w with command := w.command &&& ~~~saws }

/-- A commit part whose drop set loses saws to locks (R136): the target becomes the recut bin. -/
def CommitPart.recut (saws : SawSet) (bin : Nat) (c : CommitPart) : CommitPart :=
  { c with dropSet := c.dropSet &&& ~~~saws, target := bin, cause := .recut }

/-- The saws of a set that a COMMITTED piece's drop set holds (R135 step 3). -/
def Piece.losesSaws (saws : SawSet) (p : Piece) : SawSet :=
  if p.state = .committed then
    match p.commit with
    | some c => c.dropSet &&& saws
    | none => 0
  else 0

/-- A COMMITTED piece loses the saws that its drop set holds and is RECUT (R136). -/
def Piece.recutBy (saws : SawSet) (bin : Nat) (p : Piece) : Piece :=
  if p.losesSaws saws = 0 then p
  else
    { p with
      recut := true
      recutSaws := p.recutSaws ||| p.losesSaws saws
      commit := p.commit.map (CommitPart.recut saws bin) }

/-- The number of pieces that saws joining the lock set newly mark RECUT (R136). -/
def Deck.newRecuts (d : Deck) (saws : SawSet) : Nat :=
  (d.pieces.filter (fun p => p.losesSaws saws != 0 && !p.recut)).length

/-- The SOLVED pieces whose saw set holds a saw of a set, oldest first (R102). -/
def Deck.solvedWith (d : Deck) (saws : SawSet) : List Word :=
  (d.pieces.filter (fun p => p.state == .solved
    && (match p.solution with
        | some sol => meets sol.sawSet saws
        | none => false))).map (fun p => p.serial)

/-- Saws join the lock set (R135): outputs UP, out of every window command, out of the drop sets of COMMITTED
pieces, which are RECUT, and SOLVED pieces that used them back to the queue (R102). -/
def State.joinLock (saws : SawSet) (s : State) : State :=
  if saws = 0 then s
  else
    let recuts := s.dt.newRecuts saws
    let s := s.onAx (fun ax =>
      { ax with
        sawOut := ax.sawOut &&& ~~~saws
        window := ax.window.map (WindowEntry.without saws)
        recuts := ax.recuts + BitVec.ofNat 32 recuts })
    let s := s.onPieces (fun p => p.recutBy saws (s.rs.boundRules p).policy.recutBin)
    s.each (s.dt.solvedWith saws) State.joinQueue

/-! ## The outputs released (R130, R131) -/

/-- A window entry released (R130, R131). -/
def WindowEntry.release (w : WindowEntry) : WindowEntry := { w with command := 0, issued := false }

/-- Every saw output UP, every gate at rest, every window entry RELEASED: the entry into FAULTED (R131). -/
def Actuation.releaseAll (ax : Actuation) : Actuation :=
  { ax with
    sawOut := 0
    window := ax.window.map WindowEntry.release
    bins := ax.bins.map (fun b => { b with pulsing := false }) }

/-- The window after a back beat: a RELEASED entry for each lug that stands at T − D..T once the map has moved (R130),
also at a station that held none before (log 44). -/
def releasedWindow (g : Geometry) (d : Deck) : List WindowEntry :=
  ((d.lugs.drop (g.t - g.d)).take (g.d + 1)).map (fun l => { tag := l.tag, command := 0, issued := false })

/-- AX on a back beat (R130). -/
def State.backRelease (g : Geometry) (s : State) : State :=
  s.onAx (fun ax => { ax with sawOut := 0, window := releasedWindow g s.dt })

/-- The window entry of the lug with a tag is RELEASED with an empty command (R13). -/
def State.releaseTag (tag : Byte) (s : State) : State :=
  s.onAx (fun ax =>
    { ax with window := ax.window.map (fun w => if w.tag = tag then w.release else w) })

/-! ## The cut check (7.3) -/

/-- The saws 1..n at which feedback differs from a command (R133). -/
def mismatchSaws (n : Nat) (command feedback : SawSet) : SawSet :=
  maskOf 20 ((List.range' 1 20).filter (fun k => decide (k ≤ n) && (has command k != has feedback k)))

/-- A cut check result on a piece: CUT, with the result, its mismatch saws, and where the check retargets it, the
new target with cause CUT_CHECK (R132, R133). -/
def Piece.cutWith (result : CutCheck) (saws : SawSet) (target : Option Nat) (p : Piece) : Piece :=
  { p with
    state := .cut
    cutCheck := some result
    mismatch := saws
    commit := p.commit.map (fun c =>
      match target with
      | some b => { c with target := b, cause := .cutCheck }
      | none => c) }

/-- Count a cut check result (R132, R144). -/
def Actuation.countCheck (ax : Actuation) : CutCheck → Actuation
  | .clean => { ax with cutOk := ax.cutOk + 1 }
  | .mismatch => { ax with cutMismatch := ax.cutMismatch + 1 }
  | .uncut => { ax with cutUncut := ax.cutUncut + 1 }
  | .notCutEmpty => { ax with cutEmpty := ax.cutEmpty + 1 }

/-- A piece is CUT with a result. -/
def State.cutPiece (serial : Word) (result : CutCheck) (saws : SawSet) (target : Option Nat) (s : State) : State :=
  (s.onPiece serial (Piece.cutWith result saws target)).onAx (fun ax => ax.countCheck result)

/-- The drop set of a piece, empty without a commit part. -/
def Piece.dropSet (p : Piece) : SawSet := (p.commit.map (fun c => c.dropSet)).getD 0

/-- The saws of a mismatch that carry no FAULT reason yet (R133). -/
def Actuation.newlyFaulted (ax : Actuation) (saws : SawSet) : List Nat :=
  (members 20 saws).filter (fun k => ((ax.saws[k - 1]?).map (fun s => !s.fault)).getD false)

/-- The mismatched saws get their count and FAULT (R133); FAULT is raised for each saw that gets the reason
newly, and the saws that were not locked join the lock set together. -/
def State.faultSaws (saws : SawSet) (s : State) : State :=
  let fresh := s.ax.newlyFaulted saws
  let joining := saws &&& ~~~s.ax.lockSet
  let s := s.each (members 20 saws) (fun k s =>
    s.onSaw k (fun w => { w with fault := true, mismatches := w.mismatches + 1 }))
  (State.notifyTimes .fault fresh.length s).joinLock joining

/-- What the cut check finds for the lug that a forward beat moves off T. -/
inductive CutAction where
  | nothing
  | cut (result : CutCheck) (saws : SawSet) (target : Option Nat)
  | mismatchOnly (saws : SawSet)
  deriving DecidableEq, Repr

/-- The comparison of R133 for a lug with a COMMITTED piece, or without a piece. -/
def compareAction (p : Option Piece) (saws : SawSet) (recutBin : Nat) : CutAction :=
  match p with
  | some p =>
    if saws != 0 then .cut .mismatch saws (some recutBin)
    else if p.dropSet = 0 then .cut .notCutEmpty 0 none
    else .cut .clean 0 none
  | none => if saws != 0 then .mismatchOnly saws else .nothing

/-- The table of R132. `entry` is the entry that the lug held at T; none is taken as RELEASED with an empty
command (R129). A lug without a piece is compared against an empty command. -/
def cutAction (deck : DeckState) (entry : Option WindowEntry) (p : Option Piece) (sawCount : Nat)
    (feedback : SawSet) (recutBin : Nat) : CutAction :=
  let committed := p.filter (fun p => p.state == .committed)
  let compare := p.isNone || committed.isSome
  let issued := (entry.map (fun w => w.issued)).getD false
  let command := if committed.isSome then (entry.map (fun w => w.command)).getD 0 else 0
  if deck = .faulted then
    if committed.isSome then .cut .uncut 0 (some 0) else .nothing
  else if issued then
    if compare then compareAction committed (mismatchSaws sawCount command feedback) recutBin else .nothing
  else
    match committed with
    | some p => if p.dropSet = 0 then .cut .notCutEmpty 0 none else .cut .uncut 0 (some recutBin)
    | none => .nothing

/-- The saws that a cut action found wrong. -/
def CutAction.faulty : CutAction → SawSet
  | .nothing => 0
  | .cut _ saws _ => saws
  | .mismatchOnly saws => saws

/-- A cut action on the piece of the lug. -/
def State.applyCut (p : Option Piece) (a : CutAction) (s : State) : State :=
  match a, p with
  | .cut result saws target, some p => s.cutPiece p.serial result saws target
  | _, _ => s

/-- The cut check of the lug that a forward beat has moved to T + 1 (R132), then the locks it calls for (R133,
R135). -/
def State.checkCut (g : Geometry) (feedback : SawSet) (s : State) : State :=
  let p := s.dt.pieceAt (g.t + 1)
  let recutBin := (p.map (fun p => (s.rs.boundRules p).policy.recutBin)).getD 0
  let action := cutAction s.dt.state s.ax.window[g.d]? p g.sawCount feedback recutBin
  (s.applyCut p action).faultSaws action.faulty

/-! ## Commit (7.1) -/

/-- The saws that chop off-fall at the commit: not locked, within the piece, below the lowest or above the highest
product saw (R126). -/
def chopSaws (g : Geometry) (lockSet : SawSet) (left right low high : Nat) : List Nat :=
  (List.range' 1 g.sawCount).filter (fun k =>
    !(has lockSet k) && decide (left < g.sawPos k) && decide (g.sawPos k < right)
      && (decide (g.sawPos k < low) || decide (high < g.sawPos k)))

/-- The drop set at the commit (R126). -/
def dropSetOf (g : Geometry) (lockSet : SawSet) (sol : Solution) (ends : Option (Nat × Nat)) : SawSet :=
  if sol.kind = .normal then
    match ends with
    | some (left, right) =>
      maskOf 20 (sol.saws ++ chopSaws g lockSet left right (g.sawPos (sol.saws.getD 0 0))
        (g.sawPos (sol.saws.getLastD 0)))
    | none => maskOf 20 sol.saws
  else 0

/-- The bins that a commit chooses: primary, alternate, cause; the target is the primary (R127). -/
def binsOf (rules : Rules) (size : Nat) (sol : Solution) : Nat × Option Nat × TargetCause :=
  match sol.kind, sol.products with
  | .fallback, _ => (sol.target.getD 0, none, .solution)
  | .noSolution, _ => (0, none, .solution)
  | .normal, [] => (0, none, .solution)
  | .normal, [p] =>
    (rules.primary size p.grade p.lengthClass, some (rules.alternate size p.grade p.lengthClass), .sortPrimary)
  | .normal, p :: q :: _ =>
    let first := rules.alternate size p.grade p.lengthClass
    let second := rules.alternate size q.grade q.lengthClass
    (rules.primary size p.grade p.lengthClass, some (if first = second then first else 0), .sortPrimary)

/-- The commit part that AX writes (R126, R127, R128). -/
def commitPartOf (g : Geometry) (rules : Rules) (lockSet : SawSet) (p : Piece) (sol : Solution) : CommitPart :=
  let bins := binsOf rules (p.sizeClass.getD 0) sol
  { dropSet := dropSetOf g lockSet sol (p.scan.bind (fun r => r.ends)), primary := bins.1,
    alternate := bins.2.1, target := bins.1, cause := bins.2.2, lastStation := none }

/-- A piece committed (R125, R128). -/
def Piece.commitWith (g : Geometry) (rules : Rules) (lockSet : SawSet) (p : Piece) : Piece :=
  { p with
    state := .committed
    commit := p.solution.map (commitPartOf g rules lockSet p) }

/-- OU hands a piece's override tally to the run stamped at its admission (R122, R155). -/
def State.handOver (p : Piece) (s : State) : State :=
  match s.tu.areaOfRun p.run with
  | none => s
  | some a =>
    s.each (List.range 15) (fun i s =>
      if p.overrides.getD i 0 = 0 then s else s.addTo (overrideAddr a i) (p.overrides.getD i 0))

/-- The commit of the piece that a forward beat brings to C, after its deadline (R104, R125). -/
def State.commitAt (g : Geometry) (s : State) : State :=
  match s.dt.pieceAt g.c with
  | none => s
  | some p =>
    if p.state.committable then
      let s := s.settleDeadline p
      let s := s.onPiece p.serial (Piece.commitWith g (s.rs.boundRules p) s.ax.lockSet)
      (s.handOver p).onAx (fun ax => { ax with commits := ax.commits + 1 })
    else s

/-! ## Issue (7.2) -/

/-- The command for the lug that a forward beat brings to T − D (R129). -/
def Deck.commandAt (d : Deck) (g : Geometry) : SawSet :=
  match d.pieceAt (g.t - g.d) with
  | some p => if p.state = .committed then p.dropSet else 0
  | none => 0

/-- AX issues the command of the lug at T − D, and the window moves with the map (R129). In FAULTED the new entry
is RELEASED and the outputs stay as they are (R131). -/
def State.issue (g : Geometry) (s : State) : State :=
  let tag := ((s.dt.lugAt (g.t - g.d)).map (fun l => l.tag)).getD 0
  let tracking := s.dt.state.tracking
  let command := if tracking then s.dt.commandAt g else 0
  s.onAx (fun ax =>
    { ax with
      sawOut := if tracking then command else ax.sawOut
      window := { tag, command, issued := tracking } :: ax.window.take g.d })

/-! ## Bins (7.5) -/

/-- What a bin test does (R140). -/
inductive BinAction where
  | nothing
  | drop
  | alternate (bin : Nat)
  | fallout
  deriving DecidableEq, Repr

/-- The bin test of bin b for a commit part (R140). -/
def binAction (g : Geometry) (available : Bool) (b : Nat) (c : CommitPart) : BinAction :=
  if c.target ≠ b then .nothing
  else if available then .drop
  else
    match c.alternate with
    | some alt =>
      if c.cause = .sortPrimary ∧ alt ≠ 0 ∧ (g.binStation b).getD 0 < (g.binStation alt).getD 0 then
        .alternate alt
      else .fallout
    | none => .fallout

/-- A bin test's effect on the commit part of the piece tested (R140). -/
def CommitPart.test (station : Nat) (a : BinAction) (c : CommitPart) : CommitPart :=
  let c := { c with lastStation := some station }
  match a with
  | .alternate alt => { c with target := alt, cause := .sortAlternate }
  | .fallout => { c with target := 0, cause := .unavailable }
  | .nothing => c
  | .drop => c

/-- A bin test's effect on the bin's table entry (R140, R142). -/
def Bin.test (a : BinAction) (b : Bin) : Bin :=
  match a with
  | .drop => { b with pulsing := true, pulses := b.pulses + 1 }
  | .alternate _ => { b with toAlternate := b.toAlternate + 1 }
  | .fallout => { b with toFallout := b.toFallout + 1 }
  | .nothing => b

/-- Bin b can take a board now (R139). -/
def State.binAvailable (b : Nat) (s : State) : Bool :=
  ((s.ax.bins[b - 1]?).map (fun x => x.available s.dt.state)).getD false

/-- The bin test of bin b on a forward beat (R140): the CUT piece at the bin's station, once for each station. -/
def State.testBin (g : Geometry) (b : Nat) (s : State) : State :=
  match g.binStation b with
  | none => s
  | some station =>
    match s.dt.pieceAt station with
    | none => s
    | some p =>
      match p.state, p.commit with
      | .cut, some c =>
        if (c.lastStation.map (fun l => decide (l < station))).getD true then
          let a := binAction g (s.binAvailable b) b c
          let s := (s.onPiece p.serial (fun p =>
            { p with commit := p.commit.map (CommitPart.test station a) })).onBin b (Bin.test a)
          if a = .drop then s.sortPiece p.serial b else s
        else s
      | _, _ => s

/-- A CUT piece at E is sorted to fallout (R141). -/
def State.fallOut (g : Geometry) (s : State) : State :=
  match s.dt.pieceAt g.e with
  | none => s
  | some p =>
    if p.state = .cut then
      (s.sortPiece p.serial 0).onAx (fun ax => { ax with fallouts := ax.fallouts + 1 })
    else s

/-- The bin tests of a forward beat, the station farthest downstream first (log 12). -/
def State.testBins (g : Geometry) (s : State) : State :=
  s.each ((List.range' 1 24).reverse) (State.testBin g)

end Sys2Proof.Machine
end

