-- ==== Sys2Proof/Machine/Frames.lean ====
section
/-! DEFINITION. The link frames: what makes a received frame good (R25, R45, R185), the frames the part
sends, and the reading of a link's byte stream into frames. -/

namespace Sys2Proof.Machine

/-- The face code of a find word (R183). -/
def findWordFace (w : Word) : Nat := (w.extractLsb' 30 2).toNat

/-- The limits R25 sets on the body of a HEAD_REPORT: the density code is 1x, 2x or 4x, at most 32 finds,
no face code outside TOP, BOTTOM and EDGE, first ≤ last, and each minimum at most its maximum. -/
def reportGood (r : HeadReport) : Bool :=
  (r.density == 1 || r.density == 2 || r.density == 4)
    && decide (r.finds.length ≤ 32)
    && r.finds.all (fun w => findWordFace w != 3)
    && (match r.extent with
        | none => true
        | some (first, last) => decide (first.toNat ≤ last.toNat))
    && decide (r.widthMin.toNat ≤ r.widthMax.toNat)
    && decide (r.thickMin.toNat ≤ r.thickMax.toNat)

/-- The ranges R45 sets on the body of a LOG_REPORT. -/
def logGood (r : LogReport) : Bool :=
  decide (1 ≤ r.length.toNat) && decide (r.length.toNat ≤ 16383)
    && decide (1 ≤ r.smallEnd.toNat) && decide (r.smallEnd.toNat ≤ 1023)
    && decide (r.smallEnd.toNat ≤ r.largeEnd.toNat) && decide (r.largeEnd.toNat ≤ 1023)

/-- The two delimiter bytes (10.9). -/
def delimiter : List Byte := [0x5A, 0xC3]

/-- The bytes of a frame with the given kind byte and body (10.9). -/
def frameBytes (kind : Byte) (body : List Byte) : List Byte :=
  le16 (body.length + 1) ++ [kind] ++ body ++ delimiter

/-- The bytes of a frame the part sends (10.9). -/
def Frame.bytes : Frame → List Byte
  | .beat tag density scan =>
    frameBytes 0x01 ([tag] ++ le8 density.code ++ le8 (if scan then 1 else 0))
  | .standby => frameBytes 0x02 []
  | .wake => frameBytes 0x03 []
  | .alignStep delay => frameBytes 0x04 (le8 delay)

/-- What the reading of a link's stream yields: the payload (kind byte and body) of a frame whose delimiter
stands where its length word gives, or a run of discarded bytes that counts as one bad frame (R25). -/
inductive Received where
  | payload (bytes : List Byte)
  | bad
  deriving DecidableEq, Repr

/-- The bytes after the next delimiter pair, or none where no pair has arrived. -/
def afterDelimiter : List Byte → Option (List Byte)
  | [] => none
  | [_] => none
  | b :: c :: rest =>
    if b = 0x5A ∧ c = 0xC3 then some rest else afterDelimiter (c :: rest)

/-- The first frame of a stream and the bytes after it, or none while it is unfinished. A length word above
145 is bad at once and a delimiter that does not stand where the length word places it is bad; both discard
up to and including the next delimiter, looked for from the run's first byte (R25, R185, log 24). -/
def takeFrame (bytes : List Byte) : Option (Received × List Byte) :=
  match bytes with
  | b0 :: b1 :: rest =>
    let len := b0.toNat + 256 * b1.toNat
    if 145 < len then (afterDelimiter bytes).map (fun r => (.bad, r))
    else if rest.length < len + 2 then none
    else if (rest.drop len).take 2 = delimiter then some (.payload (rest.take len), rest.drop (len + 2))
    else (afterDelimiter bytes).map (fun r => (.bad, r))
  | _ => none

/-- All frames of a stream and the bytes left unfinished; `fuel` bounds the frames taken. -/
def takeFrames : Nat → List Byte → List Received × List Byte
  | 0, bytes => ([], bytes)
  | fuel + 1, bytes =>
    match takeFrame bytes with
    | none => ([], bytes)
    | some (f, rest) =>
      let (fs, left) := takeFrames fuel rest
      (f :: fs, left)

/-- The find words of a body, `n` of them from position `i`. -/
def findWords (body : List Byte) (i : Nat) : Nat → List Word
  | 0 => []
  | n + 1 => word body i :: findWords body (i + 4) n

/-- A HEAD_REPORT's fields by the layout of 10.9; the payload's kind byte stands at position 0. -/
def parseReport (p : List Byte) : Option HeadReport :=
  let count := (byteAt p 4).toNat
  let first := half p 5
  let last := half p 7
  let extent := byteAt p 3
  let extentGood := extent == 1 || (extent == 0 && first == 0 && last == 0)
  if p.length = 17 + 4 * count ∧ count ≤ 32 ∧ extentGood = true then
    let report : HeadReport :=
      { tag := byteAt p 1, density := byteAt p 2,
        extent := if extent = 1 then some (BitVec.ofNat 16 first, BitVec.ofNat 16 last) else none,
        widthMin := BitVec.ofNat 16 (half p 9), widthMax := BitVec.ofNat 16 (half p 11),
        thickMin := BitVec.ofNat 16 (half p 13), thickMax := BitVec.ofNat 16 (half p 15),
        finds := findWords p 17 count }
    if reportGood report then some report else none
  else none

/-- The command of one thing received on the link of a head, at the given clock reading (R25, R185). -/
def headLinkCommand (head : Nat) (clock : Word) : Received → Instr
  | .bad => .badFrame head
  | .payload p =>
    if byteAt p 0 = 0x11 then
      match parseReport p with
      | some r => .headReport head r
      | none => .badFrame head
    else if byteAt p 0 = 0x12 ∧ p.length = 2 ∧ (byteAt p 1 = 0 ∨ byteAt p 1 = 1) then
      .alignEcho head (byteAt p 1 == 1)
    else if byteAt p 0 = 0x13 ∧ p.length = 9 then
      .headStatus head (word p 1) (word p 5) clock
    else .badFrame head

/-- A LOG_REPORT's fields by the layout of 10.9. -/
def parseLog (p : List Byte) : LogReport :=
  { tag := BitVec.ofNat 16 (half p 1), length := BitVec.ofNat 16 (half p 3),
    smallEnd := BitVec.ofNat 16 (half p 5), largeEnd := BitVec.ofNat 16 (half p 7), sweep := byteAt p 9 }

/-- The command of one thing received on the log link (R45, R185). -/
def logLinkCommand : Received → Instr
  | .bad => .logBadFrame
  | .payload p =>
    if byteAt p 0 = 0x21 ∧ p.length = 11 ∧ logGood (parseLog p) = true then .logReport (parseLog p)
    else .logBadFrame

end Sys2Proof.Machine
end

