-- ==== Sys2Proof/Machine/Heads.lean ====
section
/-! DEFINITION. The heads: their state changes (R29), the alignment search (3.2), reports into assembly records
(R33, R34, R35), roster, density and credit at SS (R32, R48, R50), the close into a scan record
(R36, R37, R38), standby and wake (R40, R41, R42). -/

namespace Sys2Proof.Machine

/-! ## Head states -/

/-- A head becomes READY, and STANDBY at once while the long-stop mark is set (R29). `step` sends its aligned
delay first (R60, R62). -/
def State.enterReady (h : Nat) (step : Bool) (s : State) : State :=
  let delay := ((s.sa.head? h).map (fun hd => hd.delay)).getD 0
  let s := if step then s.send h (.alignStep delay) else s
  if s.sa.longStop then (s.onHead h (fun hd => { hd with state := .standby })).send h .standby
  else s.onHead h (fun hd => { hd with state := .ready })

/-- The detail of an ended search: cause in byte 0, delay in byte 1 (10.4). -/
def searchDetail (cause : SearchCause) (d : Nat) : Word := BitVec.ofNat 32 (cause.code + 256 * d)

/-- A search ends (R60): a locked delay is kept as the head's aligned delay, the cell gets its result, the last
outcome is set, the search state is NONE, and a head that was ALIGNING returns to READY, sent its unchanged
aligned delay unless the search locked one. No step is outstanding after it, and head, cell, d, unseen mark and miss
count stay, which R60 leaves open (log 40). With no search there is no such event. -/
def State.endSearch (cause : SearchCause) (s : State) : State :=
  if s.da.search = .idle then s
  else
    let h := s.da.head
    let d := s.da.d
    let s := if cause = .locked then s.onHead h (fun hd => { hd with delay := d }) else s
    let s := s.endInHand s.da.cell cause.result (searchDetail cause d) []
    let s := s.onDa (fun da =>
      { da with search := .idle, outstanding := false, last := some { cause, head := h, delay := d } })
    if s.sa.headState h = .aligning then s.enterReady h (cause != .locked) else s

/-- A head enters LINK_FAULT by a cause other than ENABLE_HEAD: FAULT is raised (R29), and a search for this
head ends with LINK (R54, R59). -/
def State.headFault (h : Nat) (s : State) : State :=
  let s := (s.onHead h (fun hd => { hd with state := .linkFault })).notify .fault
  if s.da.head = h then s.endSearch .link else s

/-- A STEPPING search is suspended: its outstanding step is abandoned and its miss count is 0 (R58). -/
def State.suspendSearch (s : State) : State :=
  if s.da.search = .stepping then
    s.onDa (fun da => { da with search := .suspended, outstanding := false, miss := 0 })
  else s

/-- SA sends WAKE to every head in STANDBY, and each becomes WAKING (R41). -/
def State.wakeHeads (s : State) : State :=
  s.each (List.range' 1 8) (fun h s =>
    if s.sa.headState h = .standby then
      (s.onHead h (fun hd => { hd with state := .waking })).send h .wake
    else s)

/-- SA sends STANDBY to every READY head, and each becomes STANDBY (R40). -/
def State.standbyHeads (s : State) : State :=
  s.each (List.range' 1 8) (fun h s =>
    if s.sa.headState h = .ready then
      (s.onHead h (fun hd => { hd with state := .standby })).send h .standby
    else s)

/-! ## Assembly records -/

/-- The heads of the received set (R33). -/
def Assembly.receivedSet (a : Assembly) : HeadSet := maskOf 8 (a.received.map (fun p => p.head))

/-- A roster's heads that have not reported. -/
def Assembly.absentHeads (a : Assembly) (roster : HeadSet) : HeadSet := roster &&& ~~~a.receivedSet

/-- The STALE marking of R42 on one piece: the roster heads not received join the dropped set. -/
def Piece.markStale (p : Piece) : Piece :=
  if p.state = .scanning then
    { p with assembly := p.assembly.map (fun a =>
        { a with stale := true, dropped := a.dropped ||| a.absentHeads (p.roster.getD 0) }) }
  else p

/-- A find from its word; kind codes 10..14 are taken as OTHER (R183, R25). -/
def Find.ofWord (w : Word) : Find :=
  { along := (w.extractLsb' 0 14).toNat, across := (w.extractLsb' 14 8).toNat,
    kind := FindKind.ofCode (w.extractLsb' 22 4).toNat, size := (w.extractLsb' 26 4).toNat,
    face := (w.extractLsb' 30 2).toNat }

/-- A wood extent clipped to a segment; none when the clipping leaves first above last (R33). -/
def clipExtent (segment : Nat × Nat) (extent : Nat × Nat) : Option (Nat × Nat) :=
  let first := max extent.1 segment.1
  let last := min extent.2 segment.2
  if first ≤ last then some (first, last) else none

/-- A head's partial result: its report cut to its segment, with measures and density as reported (R33). -/
def partialOf (g : Geometry) (h : Nat) (r : HeadReport) : Partial :=
  let segment := g.segment h
  { head := h, density := r.density.toNat
    extent := r.extent.bind (fun x => clipExtent segment (x.1.toNat, x.2.toNat))
    widthMin := r.widthMin.toNat, widthMax := r.widthMax.toNat
    thickMin := r.thickMin.toNat, thickMax := r.thickMax.toNat
    finds := (r.finds.map Find.ofWord).filter (fun f =>
      decide (segment.1 ≤ f.along) && decide (f.along ≤ segment.2)) }

/-- Why a report is discarded (R35). -/
inductive Discard where
  | stray | notRoster | stale | duplicate | mismatch
  deriving DecidableEq, Repr

/-- The SCANNING piece and assembly that a report is for: its lug stands in SS..SE and carries a SCANNING piece
(R34). -/
def Deck.scanningPiece (d : Deck) (g : Geometry) (tag : Byte) : Option (Piece × Assembly) :=
  match d.lugByTag tag with
  | none => none
  | some (station, lug) =>
    if (g.ss : Int) ≤ station ∧ station ≤ (g.se : Int) then
      match d.pieceOf lug with
      | none => none
      | some p => if p.state = .scanning then p.assembly.map (fun a => (p, a)) else none
    else none

/-- The first reason of R35 that applies to a report from head h for a piece, or none when R34 accepts it. -/
def discardReason (p : Piece) (a : Assembly) (h : Nat) (r : HeadReport) : Option Discard :=
  if has (p.roster.getD 0) h = false then some .notRoster
  else if has a.dropped h then some .stale
  else if has a.receivedSet h then some .duplicate
  else if r.density.toNat ≠ (p.density.map Density.code).getD 0 then some .mismatch
  else none

/-- Count a discarded report against its head (R35). -/
def Head.countDiscard (hd : Head) : Discard → Head
  | .stray => { hd with stray := hd.stray + 1 }
  | .notRoster => { hd with notRoster := hd.notRoster + 1 }
  | .stale => { hd with stale := hd.stale + 1 }
  | .duplicate => { hd with duplicate := hd.duplicate + 1 }
  | .mismatch => { hd with mismatch := hd.mismatch + 1 }

/-- Offer a report to acceptance (R34, R35). -/
def State.offerReport (h : Nat) (r : HeadReport) (s : State) : State :=
  match s.dt.geometry with
  | none => s.onHead h (fun hd => hd.countDiscard .stray)
  | some g =>
    match s.dt.scanningPiece g r.tag with
    | none => s.onHead h (fun hd => hd.countDiscard .stray)
    | some (p, a) =>
      match discardReason p a h r with
      | some why => s.onHead h (fun hd => hd.countDiscard why)
      | none =>
        (s.onPiece p.serial (fun p =>
          { p with assembly := p.assembly.map (fun a =>
              { a with received := a.received ++ [partialOf g h r] }) })).onHead h
          (fun hd => { hd with accepted := hd.accepted + 1 })

/-! ## The close (R36, R37, R38) -/

/-- Insert a find before the first one that lies farther along, after the equal ones (R37). -/
def insertFind (f : Find) : List Find → List Find
  | [] => [f]
  | g :: rest => if f.along < g.along then f :: g :: rest else g :: insertFind f rest

/-- Finds by position along; finds at equal positions keep their order (R37). -/
def sortFinds (l : List Find) : List Find := l.foldl (fun acc f => insertFind f acc) []

/-- The partial results by head number (R37, R38). -/
def byHead (l : List Partial) : List Partial :=
  (List.range' 1 8).flatMap (fun h => l.filter (fun p => p.head == h))

/-- GAP: a received head that saw no wood stands between two that did, in head number order (R38). -/
def gapIn (received : List Partial) : Bool :=
  received.any (fun p => p.extent.isNone
    && received.any (fun q => q.extent.isSome && decide (q.head < p.head))
    && received.any (fun q => q.extent.isSome && decide (p.head < q.head)))

/-- The scan record that an assembly record closes into (R36, R37, R38). -/
def closeAssembly (roster : HeadSet) (a : Assembly) : ScanRecord :=
  let received := byHead a.received
  let wood := received.filter (fun p => p.extent.isSome)
  let firsts := wood.filterMap (fun p => p.extent.map Prod.fst)
  let lasts := wood.filterMap (fun p => p.extent.map Prod.snd)
  let finds := sortFinds (received.flatMap (fun p => p.finds))
  let missing := a.absentHeads roster
  { ends := (leastOf firsts).bind (fun l => (greatestOf lasts).map (fun r => (l, r)))
    measures :=
      (leastOf (wood.map (fun p => p.widthMin))).bind (fun wl =>
      (greatestOf (wood.map (fun p => p.widthMax))).bind (fun wh =>
      (leastOf (wood.map (fun p => p.thickMin))).bind (fun tl =>
      (greatestOf (wood.map (fun p => p.thickMax))).map (fun th =>
        { widthMin := wl, widthMax := wh, thickMin := tl, thickMax := th }))))
    finds := finds.take 64
    incomplete := missing != 0 || roster == 0
    gap := gapIn received
    truncated := decide (64 < finds.length)
    downgraded := a.downgraded
    stale := a.stale
    missing := missing }

/-- The forward beat that moves a SCANNING piece's lug off SE closes its assembly record; the piece becomes
SCANNED and joins the solver queue (R36). -/
def State.closeAtZoneEnd (g : Geometry) (s : State) : State :=
  match s.dt.pieceAt (g.se + 1) with
  | none => s
  | some p =>
    match p.state, p.assembly with
    | .scanning, some a =>
      (s.onPiece p.serial (fun p =>
        { p with scan := some (closeAssembly (p.roster.getD 0) a), assembly := none })).joinQueue p.serial
    | _, _ => s

/-! ## The scan-zone entry (R32, R48, R50) -/

/-- A density is affordable to a roster: every head's credit covers its cost (R50). -/
def affordable (heads : List Head) (roster : HeadSet) (d : Density) : Bool :=
  (numbered 1 heads).all (fun x => !(has roster x.1) || decide (d.cost ≤ x.2.credit))

/-- The densities from a target downward. -/
def densitiesFrom : Density → List Density
  | .x4 => [.x4, .x2, .x1]
  | .x2 => [.x2, .x1]
  | .x1 => [.x1]

/-- The highest affordable density not above the target (R50). -/
def densityFor (heads : List Head) (roster : HeadSet) (target : Density) : Density :=
  ((densitiesFrom target).find? (affordable heads roster)).getD .x1

/-- A head's credit after a SCAN at a density, or after a rest (none), clamped to 0..16 (R48, R49). -/
def creditAfter (credit : Nat) : Option Density → Nat
  | none => min 16 (credit + 2)
  | some .x1 => min 16 (credit + 1)
  | some .x2 => credit - 1
  | some .x4 => credit - 4

/-- Apply a beat's delta to the heads READY at its roster decision (R48). -/
def State.chargeHeads (ready : HeadSet) (scan : Option Density) (s : State) : State :=
  s.each (List.range' 1 8) (fun h s =>
    if has ready h then s.onHead h (fun hd => { hd with credit := creditAfter hd.credit scan }) else s)

/-- The piece that becomes SCANNING on this beat: the ADMITTED piece on the lug at SS (R32). -/
def Deck.entering (d : Deck) (g : Geometry) : Option Piece :=
  match d.pieceAt g.ss with
  | none => none
  | some p => if p.state = .admitted then some p else none

/-- The density that DA fixes for a piece at SS under the generation bound to it (R50). -/
def State.fixedDensity (ready : HeadSet) (s : State) : Density :=
  densityFor s.sa.heads ready
    (s.rs.rulesOf (s.rs.activeSlot.getD 0)).policy.targetDensity

/-- The density falls below a fixed policy's target (R51). -/
def State.isDowngrade (ready : HeadSet) (s : State) : Bool :=
  let policy := (s.rs.rulesOf (s.rs.activeSlot.getD 0)).policy
  policy.marksDowngrade && s.fixedDensity ready != policy.targetDensity

/-- An ADMITTED piece at SS: RS binds, DA fixes the density, SA the roster and the assembly record, and the
piece becomes SCANNING (R32, R50, R51, R79). -/
def State.startScan (serial : Word) (ready : HeadSet) (s : State) : State :=
  let density := s.fixedDensity ready
  let down := s.isDowngrade ready
  ((s.bindGeneration serial).onPiece serial (fun p =>
      { p with state := .scanning, density := some density, roster := some ready,
               assembly := some { received := [], dropped := 0, downgraded := down, stale := false } })).onDa
    (fun da => { da with downgrades := if down then da.downgrades + 1 else da.downgrades })

/-- The scan-zone entry of a forward beat: the piece entering, if any, starts its scan, and the READY heads are
charged or rested (R32, R48). -/
def State.zoneEntry (g : Geometry) (ready : HeadSet) (s : State) : State :=
  match s.dt.entering g with
  | some p => ((s.startScan p.serial ready)).chargeHeads ready (some (s.fixedDensity ready))
  | none => s.chargeHeads ready none

/-- Send BEAT to the heads READY at the roster decision that are still READY (R26, log 16): the tag at SS, and
the density and mode SCAN for the piece that entered on this beat, else 1x and IDLE. -/
def State.sendBeats (tag : Byte) (scan : Option Density) (ready : HeadSet) (s : State) : State :=
  s.each (List.range' 1 8) (fun h s =>
    if has ready h && s.sa.headState h == .ready then
      s.send h (.beat tag (scan.getD .x1) scan.isSome)
    else s)

/-! ## The search on a forward beat (R54, R55, R58) -/

/-- DA sends ALIGN_STEP at the present delay and marks the step outstanding (R55). -/
def State.sendStep (s : State) : State :=
  (s.send s.da.head (.alignStep s.da.d)).onDa (fun da => { da with outstanding := true })

/-- A forward beat's part in the alignment search, once the map has moved and the roster decision is made. -/
def State.alignBeat (g : Geometry) (ready : HeadSet) (s : State) : State :=
  let go := s.dt.state == .running && s.dt.clearZone g
  match s.da.search with
  | .idle => s
  | .pending =>
    if go && has ready s.da.head then
      ((s.onDa (fun da => { da with search := .stepping })).onHead s.da.head
        (fun hd => { hd with state := .aligning })).sendStep
    else s
  | .suspended => if go then (s.onDa (fun da => { da with search := .stepping })).sendStep else s
  | .stepping =>
    if s.da.outstanding then
      if s.da.miss = 0 then (s.onDa (fun da => { da with miss := 1 })).sendStep
      else s.endSearch .echo
    else s.sendStep

/-- The echo of the outstanding step (R56): an unseen marker sets the unseen mark; a seen marker after an unseen
one locks the delay; otherwise the delay rises, and past 63 the search ends with RANGE. -/
def State.answerStep (seen : Bool) (s : State) : State :=
  let s := s.onDa (fun da => { da with outstanding := false, miss := 0 })
  if seen && s.da.unseen then s.endSearch .locked
  else
    let s := s.onDa (fun da => { da with unseen := da.unseen || !seen })
    if 63 ≤ s.da.d then s.endSearch .range else s.onDa (fun da => { da with d := da.d + 1 })

/-- DA takes an echo from the ALIGNING head (R56, R57). -/
def State.takeEcho (seen : Bool) (s : State) : State :=
  if s.da.search = .stepping ∧ s.da.outstanding = true then s.answerStep seen
  else s.onDa (fun da => { da with strayEchoes := da.strayEchoes + 1 })

end Sys2Proof.Machine
end

