-- ==== Sys2Proof/Machine/Deck.lean ====
section
/-! DEFINITION. The deck: its state machine and fault causes (1.8), the moves of the lug map (1.2), admission
(1.4, 1.5) and the presence checks (1.6). -/

namespace Sys2Proof.Machine

/-! ## The deck state machine (R17) -/

/-- A change is a stop from RUNNING: to a stopped state or to FAULTED (R17). -/
def stopsFromRunning (old new : DeckState) : Bool := old == .running && (new.stopped || new == .faulted)

/-- What leaving RUNNING does: a pending restart check is cancelled (R15) and a STEPPING search is suspended
(R58). -/
def State.leaveRunning (s : State) : State :=
  (s.onDt (fun d => { d with restartPending := false })).suspendSearch

/-- The standby timer starts on a stop from RUNNING and on START_LINE into a stopped state (R40). -/
def State.startStandby (s : State) : State := s.onSa (fun sa => { sa with standbyTimer := true })

/-- SA's part in the entry to RUNNING: STANDBY heads are woken (R41), SCANNING pieces are marked STALE under the
long-stop mark (R42), and then the mark is cleared and the standby timer stops (R40). -/
def State.wakeLine (s : State) : State :=
  let long := s.sa.longStop
  let s := s.wakeHeads
  let s := if long then s.onPieces Piece.markStale else s
  s.onSa (fun sa => { sa with longStop := false, standbyTimer := false })

/-- The restart check that the entry to RUNNING calls for (R15). -/
def restartDue (old : DeckState) (loaded : Bool) : Bool :=
  old == .stoppedLoaded || (old == .faulted && loaded)

/-- The notices of a deck state change: DECK, and on a stop from RUNNING JOURNAL, which sets the records-since
count to 0 (R17, R175). -/
def State.reportDeck (old new : DeckState) (s : State) : State :=
  let s := s.notify .deck
  if stopsFromRunning old new then
    (s.notify .journal).onXi (fun xi => { xi with recordsSince := 0 })
  else s

/-- A change of the deck state with everything that follows it in the blocks (R15, R17, R40, R41, R42, R58,
R131). -/
def State.setDeck (new : DeckState) (s : State) : State :=
  let old := s.dt.state
  if old = new then s
  else
    let s := (s.onDt (fun d => { d with state := new })).reportDeck old new
    let s := if old = .running then s.leaveRunning else s
    let s := if new = .faulted then s.onAx Actuation.releaseAll else s
    let s := if stopsFromRunning old new || (old == .halted && new.stopped) then s.startStandby else s
    if new = .running then
      (s.wakeLine).onDt (fun d => { d with restartPending := restartDue old d.loaded })
    else s

/-! ## Fault causes (R18) -/

/-- A fault cause set with a cause standing. -/
def Causes.add (c : Causes) : CauseName → Causes
  | .estop => { c with estop := .standing }
  | .stall => { c with stall := .standing }
  | .reverse => { c with reverse := .standing }

/-- A cause that stands is marked cleared. -/
def CauseState.clear : CauseState → CauseState
  | .absent => .absent
  | .standing => .cleared
  | .cleared => .cleared

/-- A deck fault cause is added: a tracking deck becomes FAULTED, a FAULTED one stays so, and FAULT is raised
(R18). In UNCONFIGURED and HALTED no cause is added (log 14). -/
def State.addCause (c : CauseName) (s : State) : State :=
  if s.dt.state.takesBeats then
    ((s.onDt (fun d => { d with causes := d.causes.add c })).notify .fault).setDeck .faulted
  else s

/-- STALL clears when a beat is taken or the run line drops (R18). -/
def State.clearStall (s : State) : State :=
  s.onDt (fun d => { d with causes := { d.causes with stall := d.causes.stall.clear } })

/-! ## The moves of the map (R2, R3) -/

/-- The multiples of the counts per pitch that the encoder crosses on its way to a position, rising less falling (R1,
log 28): a rising crossing is the arrival at a multiple, a falling one the departure below it. -/
def Deck.crossings (g : Geometry) (encoder : Int) (d : Deck) : Int :=
  encoder / (g.countsPerPitch : Int) - d.encoder / (g.countsPerPitch : Int)

/-- A beat's counts, the map one station downstream, and the nearest upstream lug or a new one at station 0 (R1,
R2). -/
def Deck.forward (d : Deck) : Deck :=
  let advancing := d.depth = 0
  let tag := d.tagCounter + 1
  let arriving := d.upstream.headD (Lug.empty tag)
  { d with
    position := d.position + 1
    highWater := if advancing then d.position + 1 else d.highWater
    forwardBeats := d.forwardBeats + 1
    tagCounter := tag
    lugs := arriving :: d.lugs.take 63
    upstream := d.upstream.tail }

/-- A beat's counts, the map one station upstream, and a slot for station 63 (R1, R3). The lug of station 0 joins
the upstream list, which may then hold nine. -/
def Deck.backward (d : Deck) : Deck :=
  let tag := d.tagCounter - 1
  { d with
    position := d.position - 1
    backBeats := d.backBeats + 1
    tagCounter := tag
    lugs := d.lugs.tail ++ [Lug.empty (tag - 63)]
    upstream := d.lugs.head?.toList ++ d.upstream }

/-- A lug pushed to upstream place 9 leaves tracking, and its piece, if it has one, is LOST (R3). -/
def State.dropNinth (s : State) : State :=
  match s.dt.upstream[8]? with
  | none => s
  | some lug =>
    let s := match lug.piece with
      | some serial => s.losePiece serial
      | none => s
    s.onDt (fun d => { d with upstream := d.upstream.take 8 })

/-! ## Admission (R8, R11) -/

/-- The serials after one in order, `k` = 0 the first: 4294967295 is followed by 1 (R5). -/
def serialAfter (n : Word) (k : Nat) : Word := BitVec.ofNat 32 ((n.toNat + k) % 4294967295 + 1)

/-- A piece of a table holds a serial. -/
def holdsSerial (pieces : List Piece) (n : Word) : Bool := pieces.any (fun p => p.serial == n)

/-- The next serial once a serial has been given: the first after it that no entry of the table holds (R5, log 43). -/
def nextSerialAfter (pieces : List Piece) (n : Word) : Word :=
  serialAfter n
    (((List.range (pieces.length + 1)).find? (fun k => !holdsSerial pieces (serialAfter n k))).getD 0)

/-- DT admits a piece for the lug at station 0 (R8): entry, serial, reservation of 20 units, piece reference, and
the OPEN run's live piece count. The next serial passes over those that entries still hold after a wrap (log 43). -/
def State.admitBoard (a : Area) (handLoaded : Bool) (s : State) : State :=
  let serial := s.dt.nextSerial
  let tag := ((s.dt.lugAt 0).map (fun l => l.tag)).getD 0
  let run := (s.tu.entry a).number.getD 0
  let pieces := s.dt.pieces ++ [Piece.fresh serial tag run handLoaded]
  let s := s.onDt (fun d => { d with pieces, nextSerial := nextSerialAfter pieces serial })
  let s := s.onLugAt 0 (fun l => { l with piece := some serial })
  (s.onArea a (fun e => { e with live := e.live + 1 })).syncHolds

/-- A free piece table entry exists (R4). -/
def Deck.entryFree (d : Deck) : Bool := decide (d.pieces.length < 96)

/-- The conditions of a HAND_LOADED admission (R11). -/
def State.handLoadAllowed (s : State) : Bool :=
  s.dt.hold.onlyHost && s.dt.state.tracking && s.dt.entryFree
    && decide (39 ≤ unreservedUnits s.dt s.tu s.xi) && s.rs.activeSlot.isSome

/-- The lug at a station becomes untracked, and a stranger is counted (R11, R13, R15). -/
def State.markStranger (station : Nat) (s : State) : State :=
  (s.onLugAt station (fun l => { l with untracked := true })).countStranger

/-- A new lug at station 0 is offered for admission (R8, R11). -/
def State.offerLug (wood : Bool) (s : State) : State :=
  if wood then
    match s.tu.openArea with
    | some a =>
      if s.dt.gate && s.dt.entryFree then s.admitBoard a false
      else if !s.dt.gate && s.handLoadAllowed then s.admitBoard a true
      else s.markStranger 0
    | none => s.markStranger 0
  else s

/-! ## Presence checks (R13, R14, R15) -/

/-- A lug is a stranger under an eye that sees wood: no piece, and not marked untracked yet. -/
def Lug.stranger (l : Lug) (wood : Bool) : Bool := l.piece.isNone && !l.untracked && wood

/-- The trim eye's check of the lug at T (R13). -/
def State.checkTrim (g : Geometry) (wood : Bool) (s : State) : State :=
  match s.dt.lugAt g.t with
  | none => s
  | some lug =>
    match s.dt.pieceOf lug with
    | some p =>
      if p.state = .committed ∧ wood = false then (s.releaseTag lug.tag).losePiece p.serial else s
    | none => if lug.stranger wood then s.markStranger g.t else s

/-- The end eye's check of the lug at E (R14): a drop-marked lug that is not untracked and on which the eye sees
wood counts a drop miss, and its mark is cleared. -/
def State.checkEnd (g : Geometry) (wood : Bool) (s : State) : State :=
  match s.dt.lugAt g.e with
  | none => s
  | some lug =>
    match lug.dropMark with
    | some mark =>
      if wood && !lug.untracked then
        (s.countDropMiss mark).onLugAt g.e (fun l => { l with dropMark := none })
      else s
    | none => s

/-- The restart check's look at station 0 (R15). -/
def State.checkLoader (wood : Bool) (s : State) : State :=
  match s.dt.lugAt 0 with
  | none => s
  | some lug =>
    match s.dt.pieceOf lug with
    | some p => if p.state = .admitted ∧ wood = false then s.losePiece p.serial else s
    | none => if lug.stranger wood then s.markStranger 0 else s

/-- The restart check (R15): the eyes sampled against the lugs at E, T and station 0, the farthest downstream first
(log 12). -/
def State.checkRestart (g : Geometry) (eyes : Eyes) (s : State) : State :=
  (((s.onDt (fun d => { d with restartPending := false })).checkEnd g eyes.deckEnd).checkTrim g
    eyes.trim).checkLoader eyes.loader

end Sys2Proof.Machine
end

