-- ==== Sys2Proof/Machine/Beats.lean ====
section
/-! DEFINITION. The deck commands: beats (R1, R2, R3), the run line (R17), the e-stop input, the stall timer
(R18) and the restart check (R15). -/

namespace Sys2Proof.Machine

/-! ## Encoder and beats (R1) -/

/-- The encoder moves to a position (R1): DT counts the position in every deck state. In the states that take beats
the one crossing of the turn, +1 rising and −1 falling, is the beat, a motion that crosses no multiple is counted
alone, and one that crosses otherwise is no event of its row (logs 3, 28). -/
def State.turnEncoder (turn : Int) (beat : Geometry → State → State) (encoder : Int) (s : State) : State :=
  let m := s.onDt (fun d => { d with encoder := encoder })
  match s.dt.geometry with
  | none => m
  | some g =>
    if s.dt.state.takesBeats = false ∨ s.dt.crossings g encoder = 0 then m
    else if s.dt.crossings g encoder = turn then beat g m
    else s

/-- DT takes a beat of the turn when the encoder moves to a position (R1). -/
def takesBeat (turn encoder : Int) (s : State) : Bool :=
  match s.dt.geometry with
  | none => false
  | some g => s.dt.state.takesBeats && s.dt.crossings g encoder == turn

/-! ## FORWARD_BEAT -/

/-- Sorting actions of a forward beat, farthest downstream first: fallout at E, the bin tests, and on an advancing
beat the end eye and the trim eye (R13, R14, R140, R141, log 12). -/
def State.sortStage (g : Geometry) (advancing : Bool) (eyes : Eyes) (s : State) : State :=
  let s := (s.fallOut g).testBins g
  if advancing then (s.checkEnd g eyes.deckEnd).checkTrim g eyes.trim else s

/-- The scan actions of a forward beat: the zone entry with its roster, density and credits, the alignment search,
and the BEAT frames (R26, R32, R48, R50, R54). -/
def State.scanStage (g : Geometry) (s : State) : State :=
  let ready := s.sa.readySet
  let tag := ((s.dt.lugAt g.ss).map (fun l => l.tag)).getD 0
  let scan := (s.dt.entering g).map (fun _ => s.fixedDensity ready)
  ((s.zoneEntry g ready).alignBeat g ready).sendBeats tag scan ready

/-- The station actions of a forward beat once the map has moved (log 11): admission to a new lug, the cut check
and its locks, the sorting actions, the commit, the issue, the assembly close, the scan actions. -/
def State.stationActions (g : Geometry) (offered advancing : Bool) (eyes : Eyes) (feedback : SawSet)
    (s : State) : State :=
  let s := if offered then s.offerLug eyes.loader else s
  let s := (s.checkCut g feedback).sortStage g advancing eyes
  ((((s.commitAt g).issue g).closeAtZoneEnd g).scanStage g)

/-- A forward beat that DT takes: a pending restart check is sampled before the map moves (R15), STALL clears
(R18), the map moves (R2), and the station actions follow. -/
def State.takeForward (g : Geometry) (eyes : Eyes) (feedback : SawSet) (restart : Eyes) (s : State) : State :=
  let s := if s.dt.restartPending then s.checkRestart g restart else s
  let advancing := decide (s.dt.depth = 0)
  let offered := s.dt.upstream.isEmpty
  ((s.clearStall).onDt Deck.forward).stationActions g offered advancing eyes feedback

/-- A forward beat (R1): a rising crossing, with the beat itself in the states that take beats. -/
def State.forwardBeat (encoder : Int) (eyes : Eyes) (feedback : SawSet) (restart : Eyes) (s : State) : State :=
  s.turnEncoder 1 (fun g s => s.takeForward g eyes feedback restart) encoder

/-- FORWARD_BEAT (R1, R2). -/
def execForwardBeat (encoder : Int) (eyes : Eyes) (feedback : SawSet) (restart : Eyes) (s : State) :
    Host.Outcome State Fault Refusal :=
  completes (takesBeat 1 encoder s) (State.forwardBeat encoder eyes feedback restart) s

/-! ## BACK_BEAT -/

/-- A pending restart check is taken after a back beat when the command says so (R15, log 13). -/
def State.restartAfterBack (g : Geometry) (restart : Option Eyes) (s : State) : State :=
  match restart with
  | some eyes => if s.dt.restartPending then s.checkRestart g eyes else s
  | none => s

/-- A back beat that leaves the reverse depth above 4 adds REVERSE (R18, R20). -/
def State.testReverse (s : State) : State := if 4 < s.dt.depth then s.addCause .reverse else s

/-- A back beat that DT takes (R3): STALL clears, the map moves, an overflowing lug leaves tracking, AX releases
(R130), a STEPPING search is suspended (R58), and the reverse depth is tested (R18). The overflowing lug's piece is
sorted before the reverse depth is tested; the spec gives no order (log 37). -/
def State.takeBack (g : Geometry) (restart : Option Eyes) (s : State) : State :=
  let s := ((((s.clearStall).onDt Deck.backward).dropNinth).backRelease g).suspendSearch
  (s.testReverse).restartAfterBack g restart

/-- A back beat (R1): a falling crossing, with the beat itself in the states that take beats. -/
def State.backBeat (encoder : Int) (restart : Option Eyes) (s : State) : State :=
  s.turnEncoder (-1) (fun g s => s.takeBack g restart) encoder

/-- BACK_BEAT (R1, R3). -/
def execBackBeat (encoder : Int) (restart : Option Eyes) (s : State) : Host.Outcome State Fault Refusal :=
  completes (takesBeat (-1) encoder s) (State.backBeat encoder restart) s

/-! ## The line inputs and timers of the deck -/

/-- The run line rises (R17): a stopped deck becomes RUNNING. -/
def State.runLineUp (s : State) : State := if s.dt.state.stopped then s.setDeck .running else s

/-- The run line drops (R17, R18): RUNNING becomes stopped, and STALL clears. -/
def State.runLineDown (s : State) : State :=
  let s := s.clearStall
  if s.dt.state = .running then s.setDeck (stoppedNow s.dt) else s

/-- DECK_RUN_LINE_CHANGE (R17); a command that names the level that stands is no change (log 3). -/
def State.changeRunLine (up : Bool) (s : State) : State :=
  if s.dt.runLine = up then s
  else
    let s := s.onDt (fun d => { d with runLine := up })
    if up then s.runLineUp else s.runLineDown

/-- DECK_RUN_LINE_CHANGE (R17). -/
def execDeckRunLineChange (up : Bool) (s : State) : Host.Outcome State Fault Refusal :=
  completes false (State.changeRunLine up) s

/-- The e-stop input is asserted (R18). -/
def State.assertEstop (s : State) : State :=
  if s.dt.estop then s else (s.onDt (fun d => { d with estop := true })).addCause .estop

/-- ESTOP_ASSERT (R18). -/
def execEstopAssert (s : State) : Host.Outcome State Fault Refusal := completes false State.assertEstop s

/-- The e-stop input is released: ESTOP clears (R18). -/
def State.releaseEstop (s : State) : State :=
  s.onDt (fun d => { d with estop := false, causes := { d.causes with estop := d.causes.estop.clear } })

/-- ESTOP_RELEASE (R18). -/
def execEstopRelease (s : State) : Host.Outcome State Fault Refusal := completes false State.releaseEstop s

/-- The stall timer expires: it runs in RUNNING with the run line up (R18). -/
def State.expireStall (s : State) : State :=
  if s.dt.state = .running ∧ s.dt.runLine = true then s.addCause .stall else s

/-- STALL_TIMER_EXPIRY (R18). -/
def execStallTimerExpiry (s : State) : Host.Outcome State Fault Refusal := completes false State.expireStall s

/-- The settle time runs out: a pending restart check is taken (R15). -/
def State.settleRestart (eyes : Eyes) (s : State) : State :=
  match s.dt.geometry with
  | some g => if s.dt.restartPending then s.checkRestart g eyes else s
  | none => s

/-- RESTART_CHECK (R15). -/
def execRestartCheck (eyes : Eyes) (s : State) : Host.Outcome State Fault Refusal :=
  completes false (State.settleRestart eyes) s

end Sys2Proof.Machine
end

