-- ==== Sys2Proof/Machine/Requests.lean ====
section
/-! DEFINITION. The requests (9.3): what each kind's owner does with a request taken (10.4), and the take of a cell
by the sweep (R166, R167). -/

namespace Sys2Proof.Machine

/-! ## Deck Tracker -/

/-- SET_GEOMETRY (R21, R184). -/
def State.serveSetGeometry (r : Request) (s : State) : State :=
  if s.dt.state = .unconfigured then
    let fields := geometryFields s.mem
    match geometryFailure fields with
    | some n => s.reply r .badParam (BitVec.ofNat 32 n) []
    | none =>
      ((s.onDt (fun d => { d with geometry := some (geometryOf fields) })).setDeck .halted).reply r .done 0 []
  else s.reply r .alreadySet 0 []

/-- START_LINE (R17). -/
def State.serveStartLine (r : Request) (s : State) : State :=
  if s.dt.state = .halted ∧ s.dt.estop = false then
    ((s.onDt (fun d => { d with position := 0, highWater := 0 })).setDeck
      (if s.dt.runLine then .running else .stoppedClear)).reply r .done 0 []
  else s.reply r .refusedState 0 []

/-- The causes that keep RESUME from being taken: ESTOP and STALL not cleared; REVERSE counts as cleared
(R19). -/
def Causes.blocking (c : Causes) : Nat := bit (c.estop == .standing) 0 + bit (c.stall == .standing) 1

/-- The deck once RESUME has taken the causes away (R19). -/
def Deck.resumed (d : Deck) : Deck :=
  { d with
    highWater := if d.causes.reverse = .absent then d.highWater else d.position
    causes := Causes.empty }

/-- RESUME (R19). -/
def State.serveResume (r : Request) (s : State) : State :=
  if s.dt.state = .faulted then
    if s.dt.causes.blocking = 0 then
      ((s.onDt Deck.resumed).setDeck (if s.dt.runLine then .running else stoppedNow s.dt)).reply r .done 0 []
    else s.reply r .refusedState (BitVec.ofNat 32 s.dt.causes.blocking) []
  else s.reply r .refusedState 0 []

/-- DT sets or removes HOST in the hold set (R12). -/
def State.setHostHold (on : Bool) (s : State) : State :=
  s.onDt (fun d => { d with hold := { d.hold with host := on } })

/-- HOLD_LOADER (R12). -/
def State.serveHoldLoader (r : Request) (s : State) : State := (s.setHostHold true).reply r .done 0 []

/-- RELEASE_LOADER (R12). -/
def State.serveReleaseLoader (r : Request) (s : State) : State := (s.setHostHold false).reply r .done 0 []

/-- The lug part of the image (10.4.1); an absent lug as log 20 gives. The bin and the run of a lug without a drop mark
are written 0, the absent value of a field whose values exclude 0: a drop mark's bin is 1..24 (R7), though R183 gives
0xFF as its example for a bin (the model's choice, log 20). -/
def lugImage (lug : Option (Int × Lug)) (piece : Bool) : List Byte :=
  match lug with
  | some (station, l) =>
    le8 (bit true 0 + bit l.untracked 1 + bit piece 2) ++ [l.tag, BitVec.ofInt 8 station]
      ++ le8 ((l.dropMark.map (fun m => m.bin)).getD 0) ++ le16 ((l.dropMark.map (fun m => m.run)).getD 0)
      ++ [0, 0]
  | none => le8 (bit piece 2) ++ [0xFF, 0xFF, 0, 0, 0, 0, 0]

/-- The piece part of the image (10.4.1). -/
def pieceImage (p : Piece) : List Byte :=
  le32 p.serial ++ le16 p.run ++ le16 ((p.generation.map Prod.fst).getD 0)
    ++ le8 (p.state.code + bit p.handLoaded 4 + bit p.lost 5 + bit p.recut 6)
    ++ le8 ((p.density.map Density.code).getD 0) ++ le8 (scanFlags p.scan) ++ opt8 p.sizeClass
    ++ packKind p.solution
    ++ le8 (sawOf p.solution 0) ++ le8 (sawOf p.solution 1) ++ le8 (sawOf p.solution 2)
    ++ le8 (((productOf p.solution 0).map (fun x => x.grade)).getD 0)
    ++ le8 (((productOf p.solution 1).map (fun x => x.grade)).getD 0)
    ++ le8 ((p.gradePart.map (fun x => x.state.code)).getD 0
        + 16 * (p.trimPart.map (fun x => x.state.code)).getD 0)
    ++ le8 ((p.cutCheck.map CutCheck.code).getD 0)
    ++ opt8 (p.commit.map (fun c => c.primary)) ++ opt8 (p.commit.bind (fun c => c.alternate))
    ++ opt8 (p.commit.map (fun c => c.target)) ++ opt8 p.bin
    ++ p.overrides.flatMap le8 ++ [0]

/-- The piece part when no piece is there: every field absent, the fifteen counts of the override tally among them,
whose values include 0; the flags, which say present or not, are clear (R183, log 20). -/
def noPieceImage : List Byte :=
  List.replicate 11 0 ++ [0xFF] ++ packKind none ++ List.replicate 7 0 ++ List.replicate 4 0xFF
    ++ List.replicate 15 0xFF ++ [0]

/-- The whole image of a lug and a piece (10.4.1). -/
def queryImage (lug : Option (Int × Lug)) (p : Option Piece) : List Byte :=
  lugImage lug p.isSome ++ (match p with
    | some p => pieceImage p
    | none => noPieceImage)

/-- The answer of QUERY_LUG: a result and the image (R22). -/
def queryAnswer (d : Deck) (selector : Nat) (value : Word) : Result × List Byte :=
  if selector = 1 then
    if value.toNat ≤ 63 then
      match d.lugAt value.toNat with
      | some l => (.done, queryImage (some ((value.toNat : Int), l)) (d.pieceOf l))
      | none => (.notFound, [])
    else (.badParam, [])
  else if selector = 2 then
    if value.toNat ≤ 255 then
      match d.lugByTag (BitVec.ofNat 8 value.toNat) with
      | some (station, l) => (.done, queryImage (some (station, l)) (d.pieceOf l))
      | none => (.notFound, [])
    else (.badParam, [])
  else if selector = 3 then
    match d.piece? value with
    | some p => (.done, queryImage (d.lugOfPiece value) (some p))
    | none => (.notFound, [])
  else (.badParam, [])

/-- QUERY_LUG (R22). The image is written 0 in a cell that does not end OK (log 19). -/
def State.serveQueryLug (r : Request) (s : State) : State :=
  let answer := queryAnswer s.dt (r.byte 0x10) (r.word 0x14)
  s.reply r answer.1 0 answer.2

/-! ## Scan Assembler and Duty and Alignment Unit -/

/-- A head number names a head. -/
def headNumber (h : Nat) : Bool := decide (1 ≤ h) && decide (h ≤ 8)

/-- ENABLE_HEAD (R44). -/
def State.serveEnableHead (r : Request) (s : State) : State :=
  let h := r.byte 0x10
  if headNumber h = false then s.reply r .badParam 0 []
  else if s.sa.headState h = .offline then
    (s.onHead h (fun hd => { hd with state := .linkFault, badRun := 0, rx := [] })).reply r .done 0 []
  else s.reply r .done 0 []

/-- The head is searched: PENDING, STEPPING or SUSPENDED (R43, R59). -/
def Align.searches (da : Align) (h : Nat) : Bool := da.search != .idle && da.head == h

/-- DISABLE_HEAD (R43). -/
def State.serveDisableHead (r : Request) (s : State) : State :=
  let h := r.byte 0x10
  if headNumber h = false then s.reply r .badParam 0 []
  else if s.sa.headState h = .aligning ∨ s.da.searches h = true then s.reply r .refusedState 0 []
  else if s.sa.headState h = .offline then s.reply r .done 0 []
  else (s.onHead h (fun hd => { hd with state := .offline, badRun := 0, rx := [] })).reply r .done 0 []

/-- The alignment context of a search that begins (R53). -/
def Align.begin (da : Align) (head cell : Nat) : Align :=
  { da with search := .pending, head, cell, d := 0, unseen := false, outstanding := false, miss := 0 }

/-- ALIGN_HEAD (R53). -/
def State.serveAlignHead (r : Request) (s : State) : State :=
  let h := r.byte 0x10
  if headNumber h = false then s.reply r .badParam 0 []
  else if s.da.search ≠ .idle then s.reply r .busy 0 []
  else if s.dt.state.tracking = false then s.reply r .refusedState 0 []
  else if s.sa.headState h ≠ .ready then s.reply r .refusedState 0 []
  else (s.onDa (fun da => da.begin h r.cell)).keepInHand r

/-- CANCEL_ALIGN (R61). -/
def State.serveCancelAlign (r : Request) (s : State) : State :=
  if s.da.search = .idle then s.reply r .refusedState 0 []
  else (s.endSearch .cancel).reply r .done 0 []

/-! ## Rule Store -/

/-- The FREE slot with the lowest number (R73). -/
def RuleStore.freeSlot (rs : RuleStore) : Option Nat := rs.slots.findIdx? (fun sl => sl.state == .free)

/-- Staging begins in a slot (R73). -/
def RuleStore.stage (rs : RuleStore) (slot bank cell saws : Nat) : RuleStore :=
  { rs with
    slots := rs.slots.modify slot (fun sl => { sl with state := .staging, bank := some bank })
    staging := some { slot, bank, cell, saws, kept := [] } }

/-- ACTIVATE_RULES (R73). Slot, generation and label are written 0 in a cell that does not end OK (log 19). -/
def State.serveActivateRules (r : Request) (s : State) : State :=
  let bank := r.byte 0x10
  if 1 < bank then s.reply r .badParam 0 []
  else if s.rs.staging.isSome then s.reply r .busy 0 []
  else
    match s.rs.freeSlot, s.dt.geometry with
    | none, _ => s.reply r .noSlot 0 []
    | some _, none => s.reply r .refusedState 0 []
    | some slot, some g => (s.onRs (fun rs => rs.stage slot bank r.cell g.sawCount)).keepInHand r

/-! ## Override Unit -/

/-- The override kind that REMOTE_OVERRIDE's parameters name (R110); none is out of range. -/
def remoteKind (code grade : Nat) : Option OverrideKind :=
  if code = 0 then some .accept
  else if code = 1 then (if 1 ≤ grade ∧ grade ≤ 13 then some (.forceGrade grade) else none)
  else if code = 2 then some .trimShorter
  else if code = 3 then some .cutInTwo
  else if code = 4 then some .reman
  else none

/-- The state that the part of an override's class holds on a piece. -/
def Piece.partState (kind : OverrideKind) (p : Piece) : Nat :=
  if kind.gradeKind.isSome then (p.gradePart.map (fun x => x.state.code)).getD 0
  else (p.trimPart.map (fun x => x.state.code)).getD 0

/-- The result area of an accepted remote override: class and part state (10.4), a byte each (log 19). -/
def remoteArea (kind : OverrideKind) (p : Option Piece) : List Byte :=
  le8 (if kind.gradeKind.isSome then 0 else 1) ++ le8 ((p.map (fun p => p.partState kind)).getD 0)

/-- REMOTE_OVERRIDE (R110). Class and part state are written 0 in a cell that does not end OK, though the class has a
value 0 and the spec gives no other value for it there (the model's choice, log 19). -/
def State.serveRemoteOverride (r : Request) (s : State) : State :=
  match remoteKind (r.byte 0x12) (r.byte 0x13) with
  | none => s.reply r .badParam 0 []
  | some kind =>
    if 255 < r.half 0x10 then s.reply r .badParam 0 []
    else
      let tag := BitVec.ofNat 8 (r.half 0x10)
      let answer := s.answerTag tag kind true
      let serial := (answer.2.map (fun p => p.serial)).getD 0
      let s := s.resolve tag kind .remote true
      s.reply r answer.1 serial
        (if answer.1 = .done then remoteArea kind (s.dt.piece? serial) else [])

/-! ## Actuation Unit -/

/-- A saw's reasons as the detail of LOCK_SAW and UNLOCK_SAW (10.4). -/
def State.sawDetail (k : Nat) (s : State) : Word :=
  match s.ax.saws[k - 1]? with
  | some w => BitVec.ofNat 32 (bit w.host 0 + bit w.fault 1)
  | none => 0

/-- A saw number names a saw (R137). -/
def sawNumber (k : Nat) : Bool := decide (1 ≤ k) && decide (k ≤ 20)

/-- HOST is added to a saw's reasons; a saw that was not locked joins the lock set (R135, R137). -/
def State.lockSaw (k : Nat) (s : State) : State :=
  let joins := !(has s.ax.lockSet k)
  let s := s.onSaw k (fun w => { w with host := true })
  if joins then s.joinLock (single 20 k) else s

/-- LOCK_SAW (R137). -/
def State.serveLockSaw (r : Request) (s : State) : State :=
  let k := r.byte 0x10
  if sawNumber k = false then s.reply r .badParam 0 []
  else
    let s := s.lockSaw k
    s.reply r .done (s.sawDetail k) []

/-- A saw after UNLOCK_SAW (R138): HOST removed, FAULT too under the flag, and the unlock counted when the saw
leaves the lock set. -/
def Saw.unlock (clearFault : Bool) (w : Saw) : Saw :=
  let fault := w.fault && !clearFault
  { w with host := false, fault, unlocks := if w.locked && !fault then w.unlocks + 1 else w.unlocks }

/-- UNLOCK_SAW (R138). -/
def State.serveUnlockSaw (r : Request) (s : State) : State :=
  let k := r.byte 0x10
  if sawNumber k = false then s.reply r .badParam 0 []
  else
    let s := s.onSaw k (Saw.unlock (r.byte 0x11 != 0))
    s.reply r .done (s.sawDetail k) []

/-- A bin's state as the detail of SET_BIN (10.4). -/
def State.binDetail (b : Nat) (s : State) : Word :=
  match s.ax.bins[b - 1]? with
  | some x => BitVec.ofNat 32 (bit x.closed 0 + bit x.isFull 1 + bit (x.available s.dt.state) 2)
  | none => 0

/-- SET_BIN (R143). -/
def State.serveSetBin (r : Request) (s : State) : State :=
  let b := r.byte 0x10
  let action := r.byte 0x11
  if 1 ≤ b ∧ b ≤ 24 ∧ (action = 1 ∨ action = 2) then
    let s := s.onBin b (fun x => { x with closed := decide (action = 1) })
    s.reply r .done (s.binDetail b) []
  else s.reply r .badParam 0 []

/-! ## Tally Unit -/

/-- The other area. -/
def otherArea : Area → Area
  | .a => .b
  | .b => .a

/-- The target area of an OPEN_RUN (R147). -/
def Tally.target (tu : Tally) : Area :=
  match tu.lastOpened with
  | some a => otherArea a
  | none => .a

/-- The run number after one: 65535 is followed by 1 (R147). -/
def runAfter (n : Nat) : Nat := if n = 65535 then 1 else n + 1

/-- The run number that an OPEN_RUN into an area gives (R147). -/
def Tally.runToGive (tu : Tally) (target : Area) : Nat :=
  if (tu.entry (otherArea target)).number = some tu.nextRun then runAfter tu.nextRun else tu.nextRun

/-- An OPEN run becomes DRAINING with a close reason, and its header says so (R148, R149). -/
def State.drainRun (a : Area) (reason : CloseReason) (s : State) : State :=
  (s.onArea a (fun e => { e with run := some .draining, reason := some reason })).writeHeader a
    RunState.draining.code

/-- A run opens in an area: entry and header (R148 step 3). -/
def State.startRun (a : Area) (number : Nat) (label : Word) (s : State) : State :=
  ((s.onArea a (fun e =>
    { e with area := .inUse, number := some number, label := some label, run := some .opened, live := 0,
             logPending := 0, reason := none, reservation := 2 })).writeHeader a RunState.opened.code).store
    (areaAddr a + 4) (le32 label ++ le32 s.dt.nextSerial ++ le32 0 ++ le32 0)

/-- The OK case of OPEN_RUN (R148 steps 1 to 5). -/
def State.openRunIn (a : Area) (label : Word) (s : State) : State :=
  let number := s.tu.runToGive a
  let former := s.tu.openArea
  let s := match former with
    | some o => s.drainRun o .switch
    | none => s
  let s := (s.startRun a number label).onTu (fun tu =>
    { tu with nextRun := runAfter number, lastOpened := some a })
  match former with
  | some o => s.closeIfDrained o
  | none => s

/-- OPEN_RUN (R148). Run and area are written 0 in a cell that does not end OK (log 19). -/
def State.serveOpenRun (r : Request) (s : State) : State :=
  let a := s.tu.target
  if (s.tu.entry a).area ≠ .free then s.reply r .areaBusy 0 []
  else if s.tu.drainingArea.isSome then s.reply r .busy 0 []
  else if mayReserve s 2 = false then s.reply r .noRoom 0 []
  else
    (s.openRunIn a (r.word 0x10)).reply r .done 0
      (le16 (s.tu.runToGive a) ++ opt8 (areaCode (some a)))

/-- CLOSE_RUN (R149). -/
def State.serveCloseRun (r : Request) (s : State) : State :=
  match s.tu.openArea with
  | none => s.reply r .refusedState 0 []
  | some a =>
    if s.tu.drainingArea.isSome then s.reply r .busy 0 []
    else
      ((s.drainRun a .close).reply r .done 0 (le16 ((s.tu.entry a).number.getD 0))).closeIfDrained a

/-- The area that RELEASE_AREA names (10.4). -/
def areaOfCode : Nat → Option Area
  | 0 => some .a
  | 1 => some .b
  | _ => none

/-- The run table entry of an area that begins clearing (R151). -/
def RunEntry.clear (cell : Nat) (e : RunEntry) : RunEntry :=
  { e with area := .clearing, number := none, label := none, reason := none, clearingCell := some cell,
           swept := 0 }

/-- RELEASE_AREA (R151). The area is written 0 in a cell that does not end OK (log 19). -/
def State.serveReleaseArea (r : Request) (s : State) : State :=
  match areaOfCode (r.byte 0x10) with
  | none => s.reply r .badParam 0 []
  | some a =>
    if (s.tu.entry a).area = .held then (s.onArea a (RunEntry.clear r.cell)).keepInHand r
    else s.reply r .refusedState 0 []

/-! ## Exchange Interface -/

/-- A kind code that 9.3.1 does not list (R167). -/
def State.serveUnknownKind (r : Request) (s : State) : State :=
  (s.onXi (fun xi => { xi with unknownKinds := xi.unknownKinds + 1 })).reply r .unknownKind 0 []

/-- The owner of a kind takes a request (R167, 9.3.1). -/
def State.serve (kind : Option ReqKind) (r : Request) (s : State) : State :=
  match kind with
  | some .setGeometry => s.serveSetGeometry r
  | some .startLine => s.serveStartLine r
  | some .resume => s.serveResume r
  | some .holdLoader => s.serveHoldLoader r
  | some .releaseLoader => s.serveReleaseLoader r
  | some .queryLug => s.serveQueryLug r
  | some .enableHead => s.serveEnableHead r
  | some .disableHead => s.serveDisableHead r
  | some .alignHead => s.serveAlignHead r
  | some .cancelAlign => s.serveCancelAlign r
  | some .activateRules => s.serveActivateRules r
  | some .remoteOverride => s.serveRemoteOverride r
  | some .lockSaw => s.serveLockSaw r
  | some .unlockSaw => s.serveUnlockSaw r
  | some .setBin => s.serveSetBin r
  | some .openRun => s.serveOpenRun r
  | some .closeRun => s.serveCloseRun r
  | some .releaseArea => s.serveReleaseArea r
  | none => s.serveUnknownKind r

/-! ## The take (R166, R167) -/

/-- A cell is in hand (R169). -/
def Exchange.holds (xi : Exchange) (cell : Nat) : Bool := xi.inHand.any (fun h => h.cell == cell)

/-- The sweep takes a cell that reads POSTED and is not in hand (R166, R169). -/
def State.takeable (cell : Nat) (s : State) : Bool :=
  cellState s.mem cell == cellPosted && !s.xi.holds cell

/-- The sweep's next cell after one; it ends when it has visited cell 31 (R166). -/
def cellAfter (cell : Nat) : Option Nat := if cell < 31 then some (cell + 1) else none

/-- XI takes a cell (R167): TAKEN is written, the request is read once and counted, and its owner takes it. -/
def State.takeCell (kind : Option ReqKind) (cell : Nat) (s : State) : State :=
  let r := readRequest s.mem cell
  ((s.store (cellAddr cell) (le32 cellTaken)).onXi (fun xi =>
    { xi with sweep := cellAfter cell, cellsTaken := xi.cellsTaken + 1 })).serve kind r

/-- The sweep in progress comes to a cell next: it has not passed the cell, and takes none before it. -/
def State.sweepReaches (cell : Nat) (s : State) : Bool :=
  match s.xi.sweep with
  | none => false
  | some p => decide (p ≤ cell) && decide (cell < 32)
      && (List.range' p (cell - p)).all (fun c => !s.takeable c)

/-- The take of a cell as a row of the table: the sweep in progress comes to the cell, the cell can be taken, and
its kind is the row's; else there is no such event (logs 3, 5). -/
def State.takeRow (kind : Option ReqKind) (cell : Nat) (s : State) : State :=
  if s.sweepReaches cell && s.takeable cell && ReqKind.ofCode (cellKind s.mem cell) == kind then
    s.takeCell kind cell
  else s

/-- The sweep in progress visits its next cell and takes it if it can (R166). -/
def State.visitCell (s : State) : State :=
  match s.xi.sweep with
  | none => s
  | some cell =>
    if s.takeable cell then s.takeCell (ReqKind.ofCode (cellKind s.mem cell)) cell
    else s.onXi (fun xi => { xi with sweep := cellAfter cell })

/-- The sweep in progress comes to a cell: a take is an event of its own (R166), and a cell passed is none. -/
def State.visitNext (cell : Nat) (s : State) : State :=
  if s.takeable cell then (s.visitCell).endEvent false s.image else s.visitCell

/-- The rest of a sweep in progress, `n` visits at most (R166). -/
def State.visitCells : Nat → State → State
  | 0, s => s
  | n + 1, s =>
    match s.xi.sweep with
    | none => s
    | some cell => State.visitCells n (s.visitNext cell)

/-! ## SWEEP (R166) -/

/-- A sweep starts: the release mark and the notify count are read, in that order (log 23), and the visits begin at
cell 0. -/
def State.startSweep (s : State) : State :=
  (((s.onXi (fun xi => { xi with sweeps := xi.sweeps + 1 })).readReleaseMark).readNotifyCount).onXi
    (fun xi => { xi with sweep := some 0 })

/-- SWEEP's own event: a sweep starts while ENABLE is 1 (R162, R166). -/
def State.tickSweep (s : State) : State :=
  (if s.xi.enable then s.startSweep else s).endEvent s.xi.enable s.image

/-- SWEEP: the rest of the sweep before is visited first (log 5), then a sweep starts while ENABLE is 1 (R162,
R166). -/
def State.sweepCells (s : State) : State := (State.visitCells 32 s).tickSweep

/-- SWEEP (R166). -/
def execSweep (host : List HostWrite) (s : State) : Host.Outcome State Fault Refusal :=
  if hostInWindow host then .next (s.clearOut.hostWrites host).sweepCells else .fault .outsideWindow

/-- SET_GEOMETRY (R21). -/
def execSetGeometry (cell : Nat) (host : List HostWrite) (s : State) : Host.Outcome State Fault Refusal :=
  withHost host (fun _ => false) (State.takeRow (some .setGeometry) cell) s

/-- START_LINE (R17). -/
def execStartLine (cell : Nat) (host : List HostWrite) (s : State) : Host.Outcome State Fault Refusal :=
  withHost host (fun _ => false) (State.takeRow (some .startLine) cell) s

/-- RESUME (R19). -/
def execResume (cell : Nat) (host : List HostWrite) (s : State) : Host.Outcome State Fault Refusal :=
  withHost host (fun _ => false) (State.takeRow (some .resume) cell) s

/-- HOLD_LOADER (R12). -/
def execHoldLoader (cell : Nat) (host : List HostWrite) (s : State) : Host.Outcome State Fault Refusal :=
  withHost host (fun _ => false) (State.takeRow (some .holdLoader) cell) s

/-- RELEASE_LOADER (R12). -/
def execReleaseLoader (cell : Nat) (host : List HostWrite) (s : State) : Host.Outcome State Fault Refusal :=
  withHost host (fun _ => false) (State.takeRow (some .releaseLoader) cell) s

/-- QUERY_LUG (R22). -/
def execQueryLug (cell : Nat) (host : List HostWrite) (s : State) : Host.Outcome State Fault Refusal :=
  withHost host (fun _ => false) (State.takeRow (some .queryLug) cell) s

/-- ENABLE_HEAD (R44). -/
def execEnableHead (cell : Nat) (host : List HostWrite) (s : State) : Host.Outcome State Fault Refusal :=
  withHost host (fun _ => false) (State.takeRow (some .enableHead) cell) s

/-- DISABLE_HEAD (R43). -/
def execDisableHead (cell : Nat) (host : List HostWrite) (s : State) : Host.Outcome State Fault Refusal :=
  withHost host (fun _ => false) (State.takeRow (some .disableHead) cell) s

/-- ALIGN_HEAD (R53). -/
def execAlignHead (cell : Nat) (host : List HostWrite) (s : State) : Host.Outcome State Fault Refusal :=
  withHost host (fun _ => false) (State.takeRow (some .alignHead) cell) s

/-- CANCEL_ALIGN (R61). -/
def execCancelAlign (cell : Nat) (host : List HostWrite) (s : State) : Host.Outcome State Fault Refusal :=
  withHost host (fun _ => false) (State.takeRow (some .cancelAlign) cell) s

/-- ACTIVATE_RULES (R73). -/
def execActivateRules (cell : Nat) (host : List HostWrite) (s : State) : Host.Outcome State Fault Refusal :=
  withHost host (fun _ => false) (State.takeRow (some .activateRules) cell) s

/-- REMOTE_OVERRIDE (R110). -/
def execRemoteOverride (cell : Nat) (host : List HostWrite) (s : State) : Host.Outcome State Fault Refusal :=
  withHost host (fun _ => false) (State.takeRow (some .remoteOverride) cell) s

/-- LOCK_SAW (R137). -/
def execLockSaw (cell : Nat) (host : List HostWrite) (s : State) : Host.Outcome State Fault Refusal :=
  withHost host (fun _ => false) (State.takeRow (some .lockSaw) cell) s

/-- UNLOCK_SAW (R138). -/
def execUnlockSaw (cell : Nat) (host : List HostWrite) (s : State) : Host.Outcome State Fault Refusal :=
  withHost host (fun _ => false) (State.takeRow (some .unlockSaw) cell) s

/-- SET_BIN (R143). -/
def execSetBin (cell : Nat) (host : List HostWrite) (s : State) : Host.Outcome State Fault Refusal :=
  withHost host (fun _ => false) (State.takeRow (some .setBin) cell) s

/-- OPEN_RUN (R148). -/
def execOpenRun (cell : Nat) (host : List HostWrite) (s : State) : Host.Outcome State Fault Refusal :=
  withHost host (fun _ => false) (State.takeRow (some .openRun) cell) s

/-- CLOSE_RUN (R149). -/
def execCloseRun (cell : Nat) (host : List HostWrite) (s : State) : Host.Outcome State Fault Refusal :=
  withHost host (fun _ => false) (State.takeRow (some .closeRun) cell) s

/-- RELEASE_AREA (R151). -/
def execReleaseArea (cell : Nat) (host : List HostWrite) (s : State) : Host.Outcome State Fault Refusal :=
  withHost host (fun _ => false) (State.takeRow (some .releaseArea) cell) s

/-- UNKNOWN_KIND (R167). -/
def execUnknownKind (cell : Nat) (host : List HostWrite) (s : State) : Host.Outcome State Fault Refusal :=
  withHost host (fun _ => false) (State.takeRow none cell) s

end Sys2Proof.Machine
end

