-- ==== Sys2Proof/Machine/Links.lean ====
section
/-! DEFINITION. The scan links (R25 to R31, R40, R41) and the log link with its logs (R45, R46, R156, R157). -/

namespace Sys2Proof.Machine

/-! ## Frames from the heads -/

/-- A link that SA reads: the head exists and is not OFFLINE (R25, R43). -/
def State.linkRead (h : Nat) (s : State) : Bool := s.sa.headState h != .offline

/-- A good frame's counts (R25). -/
def Head.countGood (hd : Head) : Head := { hd with badRun := 0, goodFrames := hd.goodFrames + 1 }

/-- A bad frame's counts: the consecutive count stays at 3 once there (R25). -/
def Head.countBad (hd : Head) : Head := { hd with badRun := min 3 (hd.badRun + 1), badFrames := hd.badFrames + 1 }

/-- The words of a good HEAD_STATUS and the clock at its arrival (R27, R28). -/
def Head.setStatus (identity condition clock : Word) (hd : Head) : Head :=
  { hd with lastStatus := some clock, identity := some (identity, condition) }

/-- What a good HEAD_STATUS does to the head's state (R27, R29, R62). -/
def State.answerStatus (h : Nat) (s : State) : State :=
  match s.sa.headState h with
  | .absent => s.enterReady h true
  | .linkFault => s.enterReady h true
  | .waking => s.enterReady h false
  | .ready => s
  | .standby => s
  | .aligning => s
  | .offline => s

/-- A good HEAD_STATUS (R27). -/
def State.takeStatus (h : Nat) (identity condition clock : Word) (s : State) : State :=
  if s.linkRead h then
    (s.onHead h (fun hd => hd.countGood.setStatus identity condition clock)).answerStatus h
  else s

/-- HEAD_STATUS (R27). -/
def execHeadStatus (head : Nat) (identity condition clock : Word) (s : State) :
    Host.Outcome State Fault Refusal :=
  completes false (State.takeStatus head identity condition clock) s

/-- The consecutive bad-frame count of a head. -/
def Scan.badRun (sa : Scan) (h : Nat) : Nat := ((sa.head? h).map (fun hd => hd.badRun)).getD 0

/-- A bad frame (R25, R29): counted; an ABSENT head, or a head whose count reaches 3, becomes LINK_FAULT. -/
def State.takeBad (h : Nat) (s : State) : State :=
  if s.linkRead h then
    let s := s.onHead h Head.countBad
    match s.sa.headState h with
    | .absent => s.headFault h
    | .linkFault => s
    | .offline => s
    | .ready => if s.sa.badRun h = 3 then s.headFault h else s
    | .standby => if s.sa.badRun h = 3 then s.headFault h else s
    | .waking => if s.sa.badRun h = 3 then s.headFault h else s
    | .aligning => if s.sa.badRun h = 3 then s.headFault h else s
  else s

/-- BAD_FRAME (R25). -/
def execBadFrame (head : Nat) (s : State) : Host.Outcome State Fault Refusal :=
  completes false (State.takeBad head) s

/-- A good HEAD_REPORT (R27): offered to acceptance, or discarded by the head's state. -/
def State.takeGoodReport (h : Nat) (r : HeadReport) (s : State) : State :=
  let s := s.onHead h Head.countGood
  match s.sa.headState h with
  | .absent => s.headFault h
  | .linkFault => s
  | .offline => s
  | .ready => s.offerReport h r
  | .standby => s.offerReport h r
  | .waking => s.offerReport h r
  | .aligning => s.offerReport h r

/-- A HEAD_REPORT frame; one whose body breaks the limits of R25 is a bad frame. -/
def State.takeReport (h : Nat) (r : HeadReport) (s : State) : State :=
  if s.linkRead h then
    if reportGood r then s.takeGoodReport h r else s.takeBad h
  else s

/-- HEAD_REPORT (R34). -/
def execHeadReport (head : Nat) (report : HeadReport) (s : State) : Host.Outcome State Fault Refusal :=
  completes false (State.takeReport head report) s

/-- A good ALIGN_ECHO (R27): DA takes it from an ALIGNING head; an ABSENT head becomes LINK_FAULT. -/
def State.takeEchoFrame (h : Nat) (seen : Bool) (s : State) : State :=
  if s.linkRead h then
    let s := s.onHead h Head.countGood
    match s.sa.headState h with
    | .absent => s.headFault h
    | .aligning => s.takeEcho seen
    | .linkFault => s
    | .offline => s
    | .ready => s
    | .standby => s
    | .waking => s
  else s

/-- ALIGN_ECHO (R56). -/
def execAlignEcho (head : Nat) (seen : Bool) (s : State) : Host.Outcome State Fault Refusal :=
  completes false (State.takeEchoFrame head seen) s

/-- Link silence (R30): a head whose silence timer runs becomes LINK_FAULT, and the bytes of an unfinished frame are
discarded. -/
def State.silence (h : Nat) (s : State) : State :=
  if (s.sa.headState h).silenceRuns then (s.onHead h (fun hd => { hd with rx := [] })).headFault h else s

/-- LINK_SILENCE (R30). -/
def execLinkSilence (head : Nat) (s : State) : Host.Outcome State Fault Refusal :=
  completes false (State.silence head) s

/-- A wake timer runs out (R41): a WAKING head becomes LINK_FAULT. -/
def State.wakeExpires (h : Nat) (s : State) : State :=
  if s.sa.headState h = .waking then s.headFault h else s

/-- WAKE_TIMEOUT (R41). -/
def execWakeTimeout (head : Nat) (s : State) : Host.Outcome State Fault Refusal :=
  completes false (State.wakeExpires head) s

/-- The standby timer expires (R40): READY heads go to STANDBY and the long-stop mark is set. -/
def State.expireStandby (s : State) : State :=
  if s.sa.standbyTimer then
    (s.standbyHeads).onSa (fun sa => { sa with standbyTimer := false, longStop := true })
  else s

/-- STANDBY_TIMER_EXPIRY (R40). -/
def execStandbyTimerExpiry (s : State) : Host.Outcome State Fault Refusal :=
  completes false State.expireStandby s

/-! ## Logs (R156, R157) -/

/-- π as a fraction, right to 35 decimal places: no rounding of a log's volume within the ranges of R45 depends on a
later place (log 32). -/
def piNum : Nat := 314159265358979323846264338327950288

/-- The denominator of π's fraction. -/
def piDen : Nat := 100000000000000000000000000000000000

/-- A log's volume in dm³, halves up (R156): π/12 × L × (D1² + D1 × D2 + D2²) mm³ over 1,000,000. -/
def logVolume (r : LogReport) : Nat :=
  let d1 := r.smallEnd.toNat
  let d2 := r.largeEnd.toNat
  let n := r.length.toNat * (d1 * d1 + d1 * d2 + d2 * d2)
  (2 * piNum * n + 12000000 * piDen) / (24000000 * piDen)

/-- A log's class: the first class whose band holds the small-end diameter (R156). -/
def logClassOf (rules : Rules) (r : LogReport) : Option Nat :=
  rules.logs.findIdx? (fun b => decide (b.1 ≤ r.smallEnd.toNat) && decide (r.smallEnd.toNat ≤ b.2))

/-- A log's class under the ACTIVE generation; UNCLASSED while no slot is ACTIVE (R156, R80). -/
def RuleStore.logClass (rs : RuleStore) (r : LogReport) : Option Nat :=
  match rs.activeSlot with
  | some i => logClassOf (rs.rulesOf i) r
  | none => none

/-- The number of the ACTIVE generation, 0 when none is ACTIVE (10.5). -/
def RuleStore.activeNumber (rs : RuleStore) : Nat :=
  match rs.activeSlot with
  | some i => ((rs.slots[i]?).bind (fun sl => sl.number)).getD 0
  | none => 0

/-- The record of a log in the OPEN run of an area (R156, 10.5). -/
def State.logRecord (a : Area) (r : LogReport) (s : State) : LogRecord :=
  { report := r, logClass := s.rs.logClass r, volume := logVolume r, run := (s.tu.entry a).number.getD 0,
    generation := s.rs.activeNumber }

/-- A log's tally: its class's row, or the unclassed count (R156). -/
def State.tallyLog (a : Area) (r : LogRecord) (s : State) : State :=
  match r.logClass with
  | some c => (s.addTo (logRow a c) 1).addTo (logRow a c + 4) r.volume
  | none => s.onTu (fun tu => { tu with unclassedLogs := tu.unclassedLogs + 1 })

/-- A log's record is written, queued, or goes unjournaled (R157). -/
def State.queueLog (a : Area) (r : LogRecord) (s : State) : State :=
  if s.tu.pendingLogs.isEmpty && s.xi.waiting.isEmpty && mayWriteLog s then (s.writeLog r).syncHolds
  else if s.tu.pendingLogs.length < 8 then
    ((s.onTu (fun tu => { tu with pendingLogs := tu.pendingLogs ++ [r] })).onXi (fun xi =>
      { xi with waiting := xi.waiting ++ [.log] })).onArea a (fun e => { e with logPending := e.logPending + 1 })
  else
    (s.addException a .unjournaledLogs).onTu (fun tu => { tu with unjournaledLogs := tu.unjournaledLogs + 1 })

/-- TU takes a log, or refuses it with no run OPEN (R156). -/
def State.takeLog (r : LogReport) (s : State) : State :=
  match s.tu.openArea with
  | none => s.onTu (fun tu => { tu with refusedLogs := tu.refusedLogs + 1 })
  | some a => (s.tallyLog a (s.logRecord a r)).queueLog a (s.logRecord a r)

/-! ## Frames on the log link (R45) -/

/-- Change the log link. -/
def State.onLogLink (f : LogLink → LogLink) (s : State) : State :=
  s.onSa (fun sa => { sa with logLink := f sa.logLink })

/-- A good frame on the log link (R45, R46). -/
def LogLink.good (l : LogLink) : LogLink :=
  { l with state := .up, badRun := 0, goodFrames := l.goodFrames + 1, taken := l.taken + 1 }

/-- A bad frame on the log link (R45). -/
def LogLink.bad (l : LogLink) : LogLink :=
  { l with
    state := if min 3 (l.badRun + 1) = 3 then .linkFault else l.state
    badRun := min 3 (l.badRun + 1)
    badFrames := l.badFrames + 1 }

/-- A bad frame on the log link: entering LINK_FAULT raises FAULT (R45, R178). -/
def State.takeLogBad (s : State) : State :=
  let before := s.sa.logLink.state
  let s := s.onLogLink LogLink.bad
  if s.sa.logLink.state = .linkFault ∧ before ≠ .linkFault then s.notify .fault else s

/-- A LOG_REPORT frame; one whose body breaks the limits of R45 is a bad frame. -/
def State.takeLogReport (r : LogReport) (s : State) : State :=
  if logGood r then (s.onLogLink LogLink.good).takeLog r else s.takeLogBad

/-- LOG_REPORT (R46). -/
def execLogReport (report : LogReport) (s : State) : Host.Outcome State Fault Refusal :=
  completes false (State.takeLogReport report) s

/-- LOG_BAD_FRAME (R45). -/
def execLogBadFrame (s : State) : Host.Outcome State Fault Refusal := completes false State.takeLogBad s

/-! ## Bytes into commands -/

/-- Bytes arrive on a head's link (R25, R185): the frames they finish become commands at the tail of the queue, and
the bytes of an unfinished frame are kept. An OFFLINE head's bytes are discarded unread (R43). -/
def State.receiveHead (h : Nat) (clock : Word) (bytes : List Byte) (s : State) : State :=
  match s.sa.head? h with
  | none => s
  | some hd =>
    if hd.state = .offline then s
    else
      let stream := hd.rx ++ bytes
      let frames := takeFrames stream.length stream
      { s.onHead h (fun hd => { hd with rx := frames.2 }) with
        pending := s.pending ++ frames.1.map (headLinkCommand h clock) }

/-- Bytes arrive on the log link (R45, R185). -/
def State.receiveLog (bytes : List Byte) (s : State) : State :=
  let stream := s.sa.logLink.rx ++ bytes
  let frames := takeFrames stream.length stream
  { s.onLogLink (fun l => { l with rx := frames.2 }) with
    pending := s.pending ++ frames.1.map logLinkCommand }

end Sys2Proof.Machine
end

