-- ==== Sys2Proof/Machine/Resets.lean ====
section
/-! DEFINITION. The resets (R23, R24, R180, R181, R182) and the register window (R161, R162, R163, R178, R179). -/

namespace Sys2Proof.Machine

/-! ## POWER_ON -/

/-- Power comes on (R180): every block at its power-on value and the Status Block written once. The commands still
waiting stay: they are not the part's. -/
def State.powerUp (inputs : Inputs) (s : State) : State := { State.powerOn inputs with pending := s.pending }

/-- POWER_ON (R23, R47, R63, R82, R106, R124, R145, R160, R180). -/
def execPowerOn (inputs : Inputs) (s : State) : Host.Outcome State Fault Refusal := .next (s.powerUp inputs)

/-! ## PORT_RESET -/

/-- A port reset (R182): ENABLE, NOTICE and NOTICE_MASK are 0 and RESET_CAUSE holds PORT alone. No sweep runs after
it, so one in progress ends (log 18). -/
def State.resetPort (s : State) : State :=
  s.onXi (fun xi =>
    { xi with
      enable := false, notice := 0, noticeMask := 0, causePower := false, causePort := true,
      causeLine := false, sweep := none })

/-- PORT_RESET (R182). -/
def execPortReset (s : State) : Host.Outcome State Fault Refusal := completes false State.resetPort s

/-! ## Line reset -/

/-- Count a discarded piece in its run's header (R159). -/
def State.discardPiece (p : Piece) (s : State) : State :=
  match s.tu.areaOfRun p.run with
  | none => s
  | some a =>
    let s := s.addTo (areaAddr a + 0x0C) 1
    if p.state = .sorted then s.addTo (areaAddr a + 0x10) 1 else s

/-- Every piece is discarded, counted in its run (R16, R159). -/
def State.discardPieces (s : State) : State :=
  (s.each s.dt.pieces State.discardPiece).onDt (fun d => { d with pieces := [] })

/-- The lug map and upstream list cleared; the slots keep their tags (R4). -/
def Deck.clearMap (d : Deck) : Deck :=
  { d with lugs := d.lugs.map (fun l => Lug.empty l.tag), upstream := [] }

/-- TS empties its queue and abandons the solve in hand without taking another (R106). -/
def Solver.lineReset (ts : Solver) : Solver :=
  { ts with queue := [], inHand := none,
            abandoned := if ts.inHand.isSome then ts.abandoned + 1 else ts.abandoned }

/-- A slot at line reset: bound count 0, RETIRING to FREE (R82). -/
def Slot.lineReset (sl : Slot) : Slot :=
  if sl.state = .retiring then { sl with state := .free, bank := none, number := none, label := none, bound := 0 }
  else { sl with bound := 0 }

/-- A pending log record is discarded: its run's UNJOURNALED_LOGS and the Status Block's count rise (R157,
R159). -/
def State.discardLog (r : LogRecord) (s : State) : State :=
  let s := s.onTu (fun tu => { tu with unjournaledLogs := tu.unjournaledLogs + 1 })
  match s.tu.areaOfRun r.run with
  | some a => s.addException a .unjournaledLogs
  | none => s

/-- The log pending list and the waiting list are discarded (R159, R181). -/
def State.discardLogs (s : State) : State :=
  ((s.each s.tu.pendingLogs State.discardLog).onTu (fun tu => { tu with pendingLogs := [] })).onXi
    (fun xi => { xi with waiting := [] })

/-- A live run at line reset: reason LINE_RESET and both counts 0, then closed by R150 (R159). -/
def State.closeAtReset (a : Option Area) (s : State) : State :=
  match a with
  | none => s
  | some a =>
    (s.onArea a (fun e => { e with reason := some .lineReset, live := 0, logPending := 0 })).closeRun a

/-- A station at line reset: its queue empty, its lamps dark (R124). -/
def Station.lineReset (st : Station) : Station := { st with queue := [], showing := none }

/-- AX at line reset: outputs UP, gates at rest, the window empty (R145). -/
def Actuation.lineReset (ax : Actuation) : Actuation :=
  { ax with
    sawOut := 0, window := [], bins := ax.bins.map (fun b => { b with pulsing := false }) }

/-- DT at line reset, but for pieces and map (R24). -/
def Deck.lineReset (d : Deck) : Deck :=
  { d with
    state := .unconfigured, geometry := none, position := 0, highWater := 0, encoder := 0,
    causes := Causes.empty, restartPending := false }

/-- SA and DA at line reset (R47, R49, R63): the standby timer stops and the long-stop mark clears, the search ends
with LINE_RESET, and every credit is 16. -/
def State.resetScan (s : State) : State :=
  ((s.onSa (fun sa => { sa with standbyTimer := false, longStop := false })).endSearch .lineReset).onSa
    (fun sa => { sa with heads := sa.heads.map (fun hd => { hd with credit := 16 }) })

/-- TU's and XI's part of the line reset: the logs discarded, the DRAINING run closed and then the OPEN one
(R159). -/
def State.resetRuns (s : State) : State :=
  let draining := s.tu.drainingArea
  let opened := s.tu.openArea
  ((s.discardLogs).closeAtReset draining).closeAtReset opened

/-- DT leaves its state for UNCONFIGURED, which raises DECK when it is a change (R17, R24). -/
def State.resetDeck (s : State) : State :=
  let changed := s.dt.state != .unconfigured
  let s := s.onDt Deck.lineReset
  if changed then s.notify .deck else s

/-- A line reset, one event (R24, R162, R181), its parts in the order of log 17. -/
def State.lineReset (s : State) : State :=
  let s := (s.resetScan).onTs Solver.lineReset
  let s := (s.discardPieces).onDt Deck.clearMap
  let s := s.onRs (fun rs => { rs with slots := rs.slots.map Slot.lineReset })
  let s := (s.resetRuns).onOu (fun ou => { ou with stations := ou.stations.map Station.lineReset })
  let s := (s.onAx Actuation.lineReset).resetDeck
  s.onXi (fun xi => { xi with causeLine := true })

/-- A host write of EXCH_CTL (R162): ENABLE takes the written value, and a 1 in LINE_RESET then starts a line
reset. -/
def State.writeExchCtl (value : Word) (s : State) : State :=
  let s := s.onXi (fun xi => { xi with enable := value.getLsbD 0 })
  if value.getLsbD 1 then s.lineReset else s

/-- LINE_RESET (R162): a host write of EXCH_CTL with LINE_RESET set. -/
def execLineReset (value : Word) (s : State) : Host.Outcome State Fault Refusal :=
  completes false (State.writeExchCtl value) s

/-- LINE_RESET_INPUT (R162). -/
def execLineResetInput (s : State) : Host.Outcome State Fault Refusal := completes false State.lineReset s

/-- ENABLE (R162). -/
def execEnable (value : Word) (s : State) : Host.Outcome State Fault Refusal :=
  completes false (State.writeExchCtl value) s

/-! ## The other registers -/

/-- A host write of NOTICE (R178): the bits written 1 are cleared. -/
def State.clearNotice (value : Word) (s : State) : State :=
  s.setNotice (s.xi.notice &&& ~~~(value.extractLsb' 0 6)) s.xi.noticeMask

/-- NOTICE_CLEAR (R178). -/
def execNoticeClear (value : Word) (s : State) : Host.Outcome State Fault Refusal :=
  completes false (State.clearNotice value) s

/-- A host write of NOTICE_MASK (R179). -/
def State.writeMask (value : Word) (s : State) : State := s.setNotice s.xi.notice (value.extractLsb' 0 6)

/-- The host's configuration of the port, message-signalled interrupts on or off (R179, log 29). -/
def State.configurePort (port : Bool) (s : State) : State := s.onXi (fun xi => { xi with port := port })

/-- NOTICE_MASK_WRITE (R179). -/
def execNoticeMaskWrite (value : Word) (port : Bool) (s : State) : Host.Outcome State Fault Refusal :=
  completes false (fun s => (s.configurePort port).writeMask value) s

/-- RESET_CAUSE's value: POWER, PORT, LINE in bits 0 to 2 (R163, 10.2). -/
def Exchange.resetCause (xi : Exchange) : Word :=
  BitVec.ofNat 32 (bit xi.causePower 0 + bit xi.causePort 1 + bit xi.causeLine 2)

/-- A host read of RESET_CAUSE (R163): the set is returned and emptied. -/
def State.readResetCause (s : State) : State :=
  (s.emit (.readData s.xi.resetCause)).onXi (fun xi =>
    { xi with causePower := false, causePort := false, causeLine := false })

/-- RESET_CAUSE_READ (R163). -/
def execResetCauseRead (s : State) : Host.Outcome State Fault Refusal := completes false State.readResetCause s

/-- A host write at an offset of the register window (R161, log 30): a register's own write at its offset, no
effect elsewhere or on a register without a write. An offset inside a register past its first byte is elsewhere
(log 30). -/
def State.writeRegister (offset : Nat) (value : Word) (s : State) : State :=
  if offset = 0x04 then s.writeExchCtl value
  else if offset = 0x08 then s.clearNotice value
  else if offset = 0x0C then s.writeMask value
  else s

/-- REGISTER_WRITE_OTHER (R161). -/
def execRegisterWriteOther (offset : Nat) (value : Word) (s : State) : Host.Outcome State Fault Refusal :=
  completes false (State.writeRegister offset value) s

/-- What a host read of the register window returns (R161, R163, 10.2). The read of RESET_CAUSE also empties it,
which is the command RESET_CAUSE_READ. An offset inside a register past its first byte is elsewhere and reads 0
(log 30). -/
def registerRead (offset : Nat) (s : State) : Word :=
  if offset = 0x00 then BitVec.ofNat 32 (0x0240 + 65536 * Config.revision.toNat)
  else if offset = 0x04 then BitVec.ofNat 32 (bit s.xi.enable 0)
  else if offset = 0x08 then s.xi.notice.setWidth 32
  else if offset = 0x0C then s.xi.noticeMask.setWidth 32
  else if offset = 0x10 then s.xi.resetCause
  else 0

end Sys2Proof.Machine
end

