-- ==== Sys2Proof/Machine/Works.lean ====
section
/-! DEFINITION. The part's long works and its stations and bins: staging (R76), solve (R85) and clearing (R151)
completions, keys and lamps (R107, R109), gates and bin inputs (R139, R142). -/

namespace Sys2Proof.Machine

/-- STAGING_COMPLETION (R76, R77). -/
def execStagingCompletion (host : List HostWrite) (s : State) : Host.Outcome State Fault Refusal :=
  withHost host (fun _ => false) State.completeStaging s

/-- SOLVE_COMPLETION (R85). -/
def execSolveCompletion (s : State) : Host.Outcome State Fault Refusal := completes false State.completeSolve s

/-- The clearing completion (R151): the clearing has zeroed the rest of the area's words (log 21), the area is
FREE and its RELEASE_AREA cell ends OK. With no clearing in the area there is no such event. -/
def State.completeClearing (a : Area) (s : State) : State :=
  if (s.tu.entry a).area = .clearing then
    let cell := (s.tu.entry a).clearingCell.getD 0
    let free := fun e : RunEntry => { e with area := .free, clearingCell := none, swept := 0 }
    ((s.zeroThrough a areaWords).onArea a free).endInHand cell .done 0 (opt8 (areaCode (some a)))
  else s

/-- CLEARING_COMPLETION (R151). -/
def execClearingCompletion (a : Area) (host : List HostWrite) (s : State) :
    Host.Outcome State Fault Refusal :=
  withHost host (fun _ => false) (State.completeClearing a) s

/-- KEY_PRESS (R107, R108). -/
def execKeyPress (station : Nat) (key : BitVec 4) (authority : Bool) (s : State) :
    Host.Outcome State Fault Refusal :=
  completes false (State.pressKey station key authority) s

/-- LAMP_PULSE_END (R109). -/
def execLampPulseEnd (station : Nat) (s : State) : Host.Outcome State Fault Refusal :=
  completes false (State.endPulse station) s

/-- A gate pulse ends: the output returns to rest (R142). -/
def State.endGate (b : Nat) (s : State) : State := s.onBin b (fun x => { x with pulsing := false })

/-- GATE_PULSE_END (R142). -/
def execGatePulseEnd (bin : Nat) (s : State) : Host.Outcome State Fault Refusal :=
  completes false (State.endGate bin) s

/-- A bin's full input changes (R139). -/
def State.setFull (b : Nat) (level : Bool) (s : State) : State := s.onBin b (fun x => { x with isFull := level })

/-- BIN_FULL_CHANGE (R139). -/
def execBinFullChange (bin : Nat) (level : Bool) (s : State) : Host.Outcome State Fault Refusal :=
  completes false (State.setFull bin level) s

end Sys2Proof.Machine
end

