-- ==== Sys2Proof/Machine/Dispatch.lean ====
section
/-! DEFINITION. The meaning of every command: one arm for each constructor of `Instr`. -/

namespace Sys2Proof.Machine

/-- The effect of a command on everything but the queue. -/
def exec (i : Instr) (s : State) : Host.Outcome State Fault Refusal :=
  match i with
  | .powerOn inputs => Sys2Proof.Machine.execPowerOn inputs s
  | .portReset => Sys2Proof.Machine.execPortReset s
  | .lineReset value => Sys2Proof.Machine.execLineReset value s
  | .lineResetInput => Sys2Proof.Machine.execLineResetInput s
  | .enable value => Sys2Proof.Machine.execEnable value s
  | .noticeClear value => Sys2Proof.Machine.execNoticeClear value s
  | .noticeMaskWrite value port => Sys2Proof.Machine.execNoticeMaskWrite value port s
  | .resetCauseRead => Sys2Proof.Machine.execResetCauseRead s
  | .registerWriteOther offset value => Sys2Proof.Machine.execRegisterWriteOther offset value s
  | .forwardBeat encoder eyes feedback restart => Sys2Proof.Machine.execForwardBeat encoder eyes feedback restart s
  | .backBeat encoder restart => Sys2Proof.Machine.execBackBeat encoder restart s
  | .deckRunLineChange up => Sys2Proof.Machine.execDeckRunLineChange up s
  | .estopAssert => Sys2Proof.Machine.execEstopAssert s
  | .estopRelease => Sys2Proof.Machine.execEstopRelease s
  | .stallTimerExpiry => Sys2Proof.Machine.execStallTimerExpiry s
  | .restartCheck eyes => Sys2Proof.Machine.execRestartCheck eyes s
  | .sweep host => Sys2Proof.Machine.execSweep host s
  | .setGeometry cell host => Sys2Proof.Machine.execSetGeometry cell host s
  | .startLine cell host => Sys2Proof.Machine.execStartLine cell host s
  | .resume cell host => Sys2Proof.Machine.execResume cell host s
  | .holdLoader cell host => Sys2Proof.Machine.execHoldLoader cell host s
  | .releaseLoader cell host => Sys2Proof.Machine.execReleaseLoader cell host s
  | .queryLug cell host => Sys2Proof.Machine.execQueryLug cell host s
  | .enableHead cell host => Sys2Proof.Machine.execEnableHead cell host s
  | .disableHead cell host => Sys2Proof.Machine.execDisableHead cell host s
  | .alignHead cell host => Sys2Proof.Machine.execAlignHead cell host s
  | .cancelAlign cell host => Sys2Proof.Machine.execCancelAlign cell host s
  | .activateRules cell host => Sys2Proof.Machine.execActivateRules cell host s
  | .remoteOverride cell host => Sys2Proof.Machine.execRemoteOverride cell host s
  | .lockSaw cell host => Sys2Proof.Machine.execLockSaw cell host s
  | .unlockSaw cell host => Sys2Proof.Machine.execUnlockSaw cell host s
  | .setBin cell host => Sys2Proof.Machine.execSetBin cell host s
  | .openRun cell host => Sys2Proof.Machine.execOpenRun cell host s
  | .closeRun cell host => Sys2Proof.Machine.execCloseRun cell host s
  | .releaseArea cell host => Sys2Proof.Machine.execReleaseArea cell host s
  | .unknownKind cell host => Sys2Proof.Machine.execUnknownKind cell host s
  | .headStatus head identity condition clock => Sys2Proof.Machine.execHeadStatus head identity condition clock s
  | .headReport head report => Sys2Proof.Machine.execHeadReport head report s
  | .alignEcho head seen => Sys2Proof.Machine.execAlignEcho head seen s
  | .badFrame head => Sys2Proof.Machine.execBadFrame head s
  | .linkSilence head => Sys2Proof.Machine.execLinkSilence head s
  | .wakeTimeout head => Sys2Proof.Machine.execWakeTimeout head s
  | .standbyTimerExpiry => Sys2Proof.Machine.execStandbyTimerExpiry s
  | .logReport report => Sys2Proof.Machine.execLogReport report s
  | .logBadFrame => Sys2Proof.Machine.execLogBadFrame s
  | .stagingCompletion host => Sys2Proof.Machine.execStagingCompletion host s
  | .solveCompletion => Sys2Proof.Machine.execSolveCompletion s
  | .keyPress station key authority => Sys2Proof.Machine.execKeyPress station key authority s
  | .lampPulseEnd station => Sys2Proof.Machine.execLampPulseEnd station s
  | .gatePulseEnd bin => Sys2Proof.Machine.execGatePulseEnd bin s
  | .binFullChange bin level => Sys2Proof.Machine.execBinFullChange bin level s
  | .clearingCompletion area host => Sys2Proof.Machine.execClearingCompletion area host s

end Sys2Proof.Machine
end

