-- ==== Sys2Proof/Machine/Step.lean ====
section
/-! DEFINITION. One step: the command at the front of the queue, or with no command waiting the next visit of a sweep
in progress. -/

namespace Sys2Proof.Machine

/-- With no command waiting the part idles, but for a sweep in progress, which visits its next cell (R166,
log 5). -/
def State.idle (s : State) : State := if s.xi.sweep.isSome then s.event false State.visitCell else s

/-- One step: the front command is run on the state with the queue's rest; on an empty queue the part idles. -/
def step (s : State) : Host.Outcome State Fault Refusal :=
  match s.pending with
  | [] => .next s.idle
  | c :: rest => exec c { s with pending := rest }

/-- The state with the command that a word spells at the front of its queue; unchanged where the word spells
none. -/
def State.withFetchWord (s : State) (nbits w : Nat) : State :=
  match decodeTableWord nbits w with
  | some c => { s with pending := c :: s.pending }
  | none => s

end Sys2Proof.Machine
end

