-- ==== Sys2Proof/Safety.lean ====
section
/-! DEFINITION. What the statements speak of: what an event settles, how a request is answered, and the conditions
that every step keeps. -/

namespace Sys2Proof

/-- The host writes that a command carries (log 2). -/
def Instr.host : Instr → List HostWrite
  | .sweep host => host
  | .setGeometry _ host => host
  | .startLine _ host => host
  | .resume _ host => host
  | .holdLoader _ host => host
  | .releaseLoader _ host => host
  | .queryLug _ host => host
  | .enableHead _ host => host
  | .disableHead _ host => host
  | .alignHead _ host => host
  | .cancelAlign _ host => host
  | .activateRules _ host => host
  | .remoteOverride _ host => host
  | .lockSaw _ host => host
  | .unlockSaw _ host => host
  | .setBin _ host => host
  | .openRun _ host => host
  | .closeRun _ host => host
  | .releaseArea _ host => host
  | .unknownKind _ host => host
  | .stagingCompletion host => host
  | .clearingCompletion _ host => host
  | _ => []

end Sys2Proof

namespace Sys2Proof.Machine

/-! ## The end of an event -/

/-- How often the end of an event raises HOLD: once for each of JOURNAL, TABLE, RUN and RULES that joins the hold
set and once for the log hold becoming asserted (R9, R158, R178), against the set that the event's own effect left
(log 31). -/
def settledHolds (u t : State) : Nat :=
  holdJoins u.dt.hold t.dt.hold + (if t.tu.logHold && !u.tu.logHold then 1 else 0)

/-- What follows from every event: `u` is the state that the event's own effect leaves, `t` the state after it, and
`before` the items that the Status Block shows of the state before the event. The stopped states, the hold set, the
loader gate and the log hold follow the state they describe (R9, R10, R17, R158), DECK and HOLD are raised for what
changed, at most one message goes out (R179), the Status Block is rewritten once with every item of `t` where an item
has changed or the event is a beat or a sweep, which `always` says, and left where neither is so (R176), and everything
else stands as `u` has it. One rewrite for an event is the model's choice (log 9), and so is the point at which the end
of an event counts the raisings of HOLD (log 31). -/
structure State.Settles (always : Bool) (before : List Byte) (u t : State) : Prop where
  pending : t.pending = u.pending
  sa : t.sa = u.sa
  da : t.da = u.da
  rs : t.rs = u.rs
  ts : t.ts = u.ts
  ou : t.ou = u.ou
  ax : t.ax = u.ax
  dt : t.dt =
    { u.dt with
      state := if u.dt.state.stopped then stoppedNow u.dt else u.dt.state
      hold := { t.holdNow with host := u.dt.hold.host }
      gate := gateNow t.dt.state t.dt.hold }
  tu : t.tu = { u.tu with logHold := logHoldNow u.tu }
  xi : t.xi =
    { u.xi with
      notice := u.xi.notice
        ||| (if t.dt.state = u.dt.state then 0 else NoticeCause.deck.mask)
        ||| (if settledHolds u t = 0 then 0 else NoticeCause.hold.mask)
      raises := { u.xi.raises with
                  deck := u.xi.raises.deck + (if t.dt.state = u.dt.state then 0 else 1)
                  hold := u.xi.raises.hold + BitVec.ofNat 32 (settledHolds u t) }
      updateCount := t.xi.updateCount }
  out : t.out = u.out
    ++ (if msiFollows u.xi.port u.xi.notice u.xi.noticeMask t.xi.notice u.xi.noticeMask then [.msi] else [])
  status :
    if always = true ∨ t.image ≠ before then
      t.xi.updateCount = u.xi.updateCount + 2 ∧ t.mem = statusRewrite u.mem u.xi.updateCount t.image
    else t.xi.updateCount = u.xi.updateCount ∧ t.mem = u.mem

/-- A command completes: its own effect leaves `u`, and the event settles, with the Status Block rewritten exactly where
an item it shows has changed (R176). -/
def Does (c : Instr) (s u : State) : Prop := ∃ t, exec c s = .next t ∧ u.Settles false s.image t

/-- A command completes as `Does` says, and the Status Block is rewritten whatever changed (R176). -/
def DoesAndShows (c : Instr) (s u : State) : Prop := ∃ t, exec c s = .next t ∧ u.Settles true s.image t

/-! ## Requests -/

/-- The state in which a command that carries host writes acts. -/
def State.met (host : List HostWrite) (s : State) : State := s.clearOut.hostWrites host

/-- The sweep in progress comes next to a cell that can be taken and that holds a request of a kind (R166,
R167). -/
structure State.Comes (kind : Option ReqKind) (cell : Nat) (m : State) : Prop where
  reaches : m.sweepReaches cell = true
  takeable : m.takeable cell = true
  kind : ReqKind.ofCode (cellKind m.mem cell) = kind

/-- A request handed to its owner: its cell reads TAKEN, the sweep has passed it, and it is counted (R167, R177). -/
def State.handed (cell : Nat) (m : State) : State :=
  (m.store (cellAddr cell) (le32 cellTaken)).onXi (fun xi =>
    { xi with sweep := cellAfter cell, cellsTaken := xi.cellsTaken + 1 })

/-- A request ends over a state `u` and leaves `v` (R168): the cell reads DONE with the kind and host tag as
taken, the result code, the detail and the result area; no other byte changes; the cell leaves the in-hand
set; CELL_DONE is raised; everything else stands. That a detail no rule gives is 0, that the unused bytes of the result
area are written zero, those of a field among them that the kind has but that a request not ended OK does not use, and
that the kind as taken is written back are the model's choices (log 19). -/
structure State.Answers (cell kind : Nat) (tag : Word) (result : Result) (detail : Word) (area : List Byte)
    (u v : State) : Prop where
  state : cellState v.mem cell = cellDone
  kind : cellKind v.mem cell = kind % 65536
  code : v.mem.read16 (cellAddr cell + 6) = result.code
  tag : v.mem.read32 (cellAddr cell + 8) = tag
  detail : v.mem.read32 (cellAddr cell + 12) = detail
  area : v.mem.readBytes (cellAddr cell + 16) 48 = padTo 48 area
  elsewhere : ∀ a, a < cellAddr cell ∨ cellAddr cell + 64 ≤ a → v.mem.read a = u.mem.read a
  rest : v =
    { u with
      mem := v.mem
      out := u.out ++ (if msiFollows u.xi.port u.xi.notice u.xi.noticeMask
        (u.xi.notice ||| NoticeCause.cellDone.mask) u.xi.noticeMask then [.msi] else [])
      xi := { u.xi with
              notice := u.xi.notice ||| NoticeCause.cellDone.mask
              raises := { u.xi.raises with cellDone := u.xi.raises.cellDone + 1 }
              inHand := u.xi.inHand.filter (fun h => h.cell != cell) } }

/-- The take of a cell completes and its request ends with it: over the state `u` that the request's own effect
leaves, the cell is answered, and the event settles. -/
def AnswersAtOnce (c : Instr) (s m : State) (cell : Nat) (u : State) (result : Result) (detail : Word)
    (area : List Byte) : Prop :=
  ∃ v t, exec c s = .next t
    ∧ State.Answers cell (cellKind m.mem cell) (m.mem.read32 (cellAddr cell + 8)) result detail area u v
    ∧ v.Settles false s.image t

/-- The take of a cell completes and its request is kept in hand (R167, R169). -/
def KeepsInHand (c : Instr) (s m : State) (cell : Nat) (u : State) : Prop :=
  Does c s (u.onXi (fun xi =>
    { xi with inHand := xi.inHand ++
        [{ cell, tag := m.mem.read32 (cellAddr cell + 8), kind := cellKind m.mem cell }] }))

/-- A request in hand ends with a command, over the state `u` that the command's own effect leaves: its cell is
answered if it still reads TAKEN, else the result is dropped (R168); then the event settles. -/
def EndsHeld (c : Instr) (s : State) (held : InHand) (u : State) (result : Result) (detail : Word)
    (area : List Byte) : Prop :=
  if cellState u.mem held.cell = cellTaken then
    ∃ v t, exec c s = .next t ∧ State.Answers held.cell held.kind held.tag result detail area u v
      ∧ v.Settles false s.image t
  else
    Does c s (u.onXi (fun xi =>
      { xi with dropped := xi.dropped + 1, inHand := xi.inHand.filter (fun h => h.cell != held.cell) }))

/-- The row of the table that takes a request of a kind; `none` is a kind code that 9.3.1 does not list. -/
def takeCommand (kind : Option ReqKind) (cell : Nat) (host : List HostWrite) : Instr :=
  match kind with
  | some .setGeometry => .setGeometry cell host
  | some .startLine => .startLine cell host
  | some .resume => .resume cell host
  | some .holdLoader => .holdLoader cell host
  | some .releaseLoader => .releaseLoader cell host
  | some .queryLug => .queryLug cell host
  | some .enableHead => .enableHead cell host
  | some .disableHead => .disableHead cell host
  | some .alignHead => .alignHead cell host
  | some .cancelAlign => .cancelAlign cell host
  | some .activateRules => .activateRules cell host
  | some .remoteOverride => .remoteOverride cell host
  | some .lockSaw => .lockSaw cell host
  | some .unlockSaw => .unlockSaw cell host
  | some .setBin => .setBin cell host
  | some .openRun => .openRun cell host
  | some .closeRun => .closeRun cell host
  | some .releaseArea => .releaseArea cell host
  | none => .unknownKind cell host

/-- What `P` says holds of every take of a request of a kind, in every state in which the sweep comes to its cell;
`P` reads the command, the state before it, the state it acts in and the cell. -/
def OnTake (kind : Option ReqKind) (P : Instr → State → State → Nat → Prop) : Prop :=
  ∀ cell host s, hostInWindow host = true → (s.met host).Comes kind cell →
    P (takeCommand kind cell host) s (s.met host) cell

/-- The 48 parameter bytes of a cell. -/
def params (m : State) (cell : Nat) : Request := readRequest m.mem cell

/-! ## Conditions that every step keeps -/

/-- The hold set, the loader gate, the log hold and the stopped states agree with what they describe (R9, R10, R17,
R158). -/
structure State.Synced (s : State) : Prop where
  hold : s.dt.hold = s.holdNow
  gate : s.dt.gate = gateNow s.dt.state s.dt.hold
  logHold : s.tu.logHold = logHoldNow s.tu
  stopped : s.dt.state.stopped = true → s.dt.state = stoppedNow s.dt

/-- The lug map is rigid (1.2, R2, R3): 64 stations, the lug at station s carries tag (tag counter − s) and the
lug at upstream place k carries tag (tag counter + k), modulo 256; at most `room` lugs stand upstream. -/
structure Deck.Rigid (room : Nat) (d : Deck) : Prop where
  lugs : d.lugs.map (fun l => l.tag) = (List.range 64).map (fun s => d.tagCounter - BitVec.ofNat 8 s)
  upstream : d.upstream.map (fun l => l.tag)
    = (List.range d.upstream.length).map (fun k => d.tagCounter + BitVec.ofNat 8 (k + 1))
  room : d.upstream.length ≤ room

/-- The marks of the journal are offsets of the ring, and the notify count in force is at most 256 (R164, R172,
R174). -/
structure Exchange.InRing (xi : Exchange) : Prop where
  fill : xi.fill < journalUnits
  release : xi.release < journalUnits
  starts : ∀ u ∈ xi.starts, u < journalUnits
  notify : xi.notifyCount ≤ 256

/-- Every head's strobe credit, aligned delay and consecutive bad-frame count are in range, and so is a search's
delay (R28, R49, R56). -/
structure HeadsInRange (sa : Scan) (da : Align) : Prop where
  heads : ∀ hd ∈ sa.heads, hd.credit ≤ 16 ∧ hd.delay ≤ 63 ∧ hd.badRun ≤ 3
  search : da.d ≤ 63

/-- The tables hold what they have room for (R4, R28, R72, R107, R134, R139, R157). -/
structure State.Sized (s : State) : Prop where
  heads : s.sa.heads.length = 8
  slots : s.rs.slots.length = 3
  stations : s.ou.stations.length = 2
  saws : s.ax.saws.length = 20
  bins : s.ax.bins.length = 24
  pieces : s.dt.pieces.length ≤ 96
  logs : s.tu.pendingLogs.length ≤ 8
  keys : ∀ st ∈ s.ou.stations, st.queue.length ≤ 4

/-- A piece keeps off the locked saws: no drop set of a COMMITTED piece and no solution of a SOLVED piece holds one,
and a solution's product saws are in its saw set (R102, R126, R135). -/
structure Piece.KeepsOff (locked : SawSet) (p : Piece) : Prop where
  committed : p.state = .committed → p.dropSet &&& locked = 0
  solved : p.state = .solved → ∀ sol, p.solution = some sol → sol.sawSet &&& locked = 0
  saws : ∀ sol, p.solution = some sol → maskOf 20 sol.saws &&& ~~~sol.sawSet = 0

/-- No locked saw is driven (R129, R135): every saw output and every window command leaves the lock set out, and so
do the pieces that will be commanded. -/
structure State.LockedUp (s : State) : Prop where
  out : s.ax.sawOut &&& s.ax.lockSet = 0
  window : ∀ w ∈ s.ax.window, w.command &&& s.ax.lockSet = 0
  pieces : ∀ n p, s.dt.piece? n = some p → p.KeepsOff s.ax.lockSet

/-- At most one run is OPEN and at most one DRAINING, and only an IN_USE area holds a run (R146, R148). -/
structure Tally.Apart (tu : Tally) : Prop where
  one : tu.areaA.run = tu.areaB.run → tu.areaA.run = none
  inUse : ∀ a, (tu.entry a).run ≠ none → (tu.entry a).area = .inUse

/-- No two entries of the piece table hold one serial, none holds the next serial, and no serial is 0 (R5). -/
def Deck.Distinct (d : Deck) : Prop := (0 :: d.nextSerial :: d.pieces.map (fun p => p.serial)).Nodup

/-- The conditions that every step keeps, together. -/
structure State.Inv (s : State) : Prop where
  mem : s.mem.wf = true
  rigid : s.dt.Rigid 8
  ring : s.xi.InRing
  heads : HeadsInRange s.sa s.da
  sized : s.Sized
  locks : s.LockedUp
  runs : s.tu.Apart
  serials : s.dt.Distinct

end Sys2Proof.Machine
end

