-- ==== Sys2Proof/Certificates/Slice0/Obligations.lean ====
section
/-! DEFINITION. The statements for the provers. -/

open Sys2Proof Sys2Proof.Machine

/-! ## The machine -/

/-- One step runs the command at the front of the queue on the state with the queue's rest. -/
def Obligations.StepRunsFrontCommand : Prop :=
  ∀ (c : Instr) (rest : List Instr) (s : State), s.pending = c :: rest → step s = exec c { s with pending := rest }

/-- With no command waiting the part idles, but for a sweep in progress (the model's choice, log 5): it takes the
next cell as the row of the cell's kind does, or passes a cell that cannot be taken (R166). -/
def Obligations.IdleStepVisitsTheNextCell : Prop :=
  ∀ s : State, s.pending = [] →
    (s.xi.sweep = none → step s = .next s)
    ∧ ∀ cell, s.xi.sweep = some cell → cell < 32 →
      if s.takeable cell = true then step s = exec (takeCommand (ReqKind.ofCode (cellKind s.mem cell)) cell []) s
      else ∃ t, step s = .next t ∧ (s.clearOut.onXi (fun xi => { xi with sweep := cellAfter cell })).Settles
        false s.image t

/-- Every command completes, but for one whose host writes reach past the window BAR0: that one faults (the
model's choice, log 2). No command is refused. -/
def Obligations.EveryCommandCompletesOrLeavesTheWindow : Prop :=
  ∀ (c : Instr) (s : State),
    if hostInWindow c.host = true then ∃ t, exec c s = .next t else exec c s = .fault .outsideWindow

/-- Every step keeps the conditions of `State.Inv`: canonical memory, the rigid lug map, the journal's marks on the
ring, the head ranges, the tables' sizes, no locked saw driven, the runs apart, the serials of the piece table distinct
(R5; that held serials are passed over is the model's choice, log 43). -/
def Obligations.EveryStepKeepsTheConditions : Prop :=
  ∀ s t : State, s.Inv → step s = .next t → t.Inv

/-- The part right after reset meets the conditions that every step keeps, and its holds agree with its state. -/
def Obligations.ResetMeetsTheConditions : Prop := State.reset.Inv ∧ State.reset.Synced

/-- Every step keeps the hold set, the loader gate, the log hold and the stopped states in agreement with what they
describe. That is: JOURNAL stands while fewer than 39 units are unreserved, TABLE while the piece table holds 96
entries, RUN while no run is OPEN, RULES while no slot is ACTIVE, ALIGN while there is a search, WAKE while a head is
WAKING, FAULT while the deck is FAULTED (R9); the gate is open exactly while the deck is RUNNING and no reason stands
(R10); the log hold is asserted while 6 or more records are pending or no run is OPEN (R158); and a stopped deck is
STOPPED_LOADED with a piece on the map or the upstream list and STOPPED_CLEAR without (R17). -/
def Obligations.EveryStepKeepsHoldsInAgreement : Prop :=
  (∀ s t : State, s.Synced → step s = .next t → t.Synced)
  ∧ ∀ s : State,
    let opened := ∃ a, (s.tu.entry a).run = some .opened
    let loaded := ∃ l ∈ s.dt.lugs ++ s.dt.upstream, l.piece ≠ none
    s.Synced ↔
      (s.dt.hold.journal = true ↔ unreservedUnits s.dt s.tu s.xi < 39)
      ∧ (s.dt.hold.table = true ↔ 96 ≤ s.dt.pieces.length)
      ∧ (s.dt.hold.run = true ↔ ¬opened)
      ∧ (s.dt.hold.rules = true ↔ ∀ sl ∈ s.rs.slots, sl.state ≠ .active)
      ∧ (s.dt.hold.align = true ↔ s.da.search ≠ .idle)
      ∧ (s.dt.hold.wake = true ↔ ∃ hd ∈ s.sa.heads, hd.state = .waking)
      ∧ (s.dt.hold.fault = true ↔ s.dt.state = .faulted)
      ∧ (s.dt.gate = true ↔ s.dt.state = .running
        ∧ s.dt.hold = { host := false, journal := false, table := false, run := false, rules := false,
                        align := false, wake := false, fault := false })
      ∧ (s.tu.logHold = true ↔ 6 ≤ s.tu.pendingLogs.length ∨ ¬opened)
      ∧ (s.dt.state = .stoppedLoaded → loaded) ∧ (s.dt.state = .stoppedClear → ¬loaded)

/-- A step takes exactly the front command off the queue, and an idle step leaves the queue empty: no command puts
another into it. That commands wait in a queue, which a power-on keeps, is the model's choice (log 1). -/
def Obligations.EveryStepTakesOneCommand : Prop :=
  ∀ s t : State, s.Inv → step s = .next t → t.pending = s.pending.tail

/-! ## Resets and registers -/

/-- What power-on leaves in exchange memory, the registers and the Exchange Interface (R180). -/
def Obligations.PowerOnLeavesTheExchangeAsStated : Prop :=
  ∀ (inputs : Inputs) (s : State), ∃ t, exec (.powerOn inputs) s = .next t
    ∧ (∀ a, a < statusAddr ∨ statusAddr + statusBytes ≤ a → t.mem.read a = 0)
    ∧ (∀ cell, cell < 32 → cellState t.mem cell = 0)
    ∧ t.mem.read32 releaseMarkAddr = 0 ∧ t.mem.read32 notifyCountAddr = 0
    ∧ (∀ (a : Area) (i : Nat), i < areaBytes → t.mem.read (areaAddr a + i) = 0)
    ∧ registerRead 0x04 t = 0 ∧ registerRead 0x08 t = 0 ∧ registerRead 0x0C t = 0 ∧ registerRead 0x10 t = 1
    ∧ t.xi.fill = 0 ∧ t.xi.release = 0 ∧ reservedTotal t.dt t.tu = 0 ∧ unreservedUnits t.dt t.tu t.xi = 49151
    ∧ t.xi.starts = [] ∧ t.xi.waiting = [] ∧ t.xi.inHand = []
    ∧ t.xi.sequence = 0 ∧ t.xi.recordsSince = 0 ∧ t.xi.notifyCount = 0 ∧ t.xi.releaseBad = false
    ∧ t.xi.sweeps = 0 ∧ t.xi.cellsTaken = 0 ∧ t.xi.unknownKinds = 0 ∧ t.xi.dropped = 0
    ∧ t.xi.pieceRecords = 0 ∧ t.xi.logRecords = 0 ∧ t.xi.closeRecords = 0 ∧ t.xi.fillers = 0
    ∧ t.xi.fillerUnits = 0 ∧ t.xi.releaseBads = 0 ∧ (∀ c : NoticeCause, t.xi.raises.count c = 0)
    ∧ t.xi.updateCount = 2 ∧ t.mem = statusRewrite [] 0 t.image
    ∧ ∀ (kind : RecordKind) (len : Nat) (body : List Byte), 1 ≤ len → len ≤ 20 →
        (t.writeRecord kind len body).mem.read journalAddr = BitVec.ofNat 8 kind.code
        ∧ (t.writeRecord kind len body).mem.read16 (journalAddr + 2) = 0

/-- What power-on leaves in the eight other blocks (R4, R9, R23, R28, R47, R63, R82, R106, R124, R139, R145,
R160). -/
def Obligations.PowerOnLeavesTheBlocksAsStated : Prop :=
  ∀ (inputs : Inputs) (s : State), ∃ t, exec (.powerOn inputs) s = .next t
    ∧ (t.dt.state = .unconfigured ∧ t.dt.geometry = none ∧ t.dt.pieces = [] ∧ t.dt.nextSerial = 1
      ∧ t.dt.tagCounter = 0 ∧ t.dt.upstream = [] ∧ t.dt.lugs.length = 64
      ∧ (∀ n, n < 64 → t.dt.lugAt n
          = some { tag := 0 - BitVec.ofNat 8 n, piece := none, untracked := false, dropMark := none })
      ∧ t.dt.position = 0 ∧ t.dt.highWater = 0 ∧ t.dt.depth = 0 ∧ t.dt.forwardBeats = 0 ∧ t.dt.backBeats = 0
      ∧ t.dt.encoder = 0 ∧ t.dt.causes = { estop := .absent, stall := .absent, reverse := .absent }
      ∧ t.dt.hold = { host := false, journal := false, table := false, run := true, rules := true,
                      align := false, wake := false, fault := false }
      ∧ t.dt.gate = false ∧ t.dt.strangers = 0 ∧ t.dt.dropMisses = 0)
    ∧ (t.sa.heads.length = 8
      ∧ (∀ hd ∈ t.sa.heads, hd.state = .absent ∧ hd.delay = 32 ∧ hd.credit = 16 ∧ hd.badRun = 0
          ∧ hd.lastStatus = none ∧ hd.identity = none ∧ hd.goodFrames = 0 ∧ hd.badFrames = 0 ∧ hd.accepted = 0
          ∧ hd.duplicate = 0 ∧ hd.notRoster = 0 ∧ hd.stray = 0 ∧ hd.mismatch = 0 ∧ hd.stale = 0)
      ∧ t.sa.standbyTimer = false ∧ t.sa.longStop = false
      ∧ t.sa.logLink = { state := .absent, badRun := 0, goodFrames := 0, badFrames := 0, taken := 0, rx := [] })
    ∧ (t.da.search = .idle ∧ t.da.strayEchoes = 0 ∧ t.da.last = none ∧ t.da.downgrades = 0)
    ∧ (t.rs.slots.length = 3
      ∧ (∀ sl ∈ t.rs.slots, sl.state = .free ∧ sl.bound = 0 ∧ sl.number = none ∧ sl.label = none ∧ sl.bank = none)
      ∧ t.rs.staging = none ∧ t.rs.nextNumber = 1 ∧ t.rs.last = none)
    ∧ t.ts = { queue := [], inHand := none, taken := 0, kept := 0, discarded := 0, abandoned := 0, fallbacks := 0,
               nones := 0, deadlines := 0, deadlineFallbacks := 0 }
    ∧ (t.ou.stations.length = 2
      ∧ (∀ st ∈ t.ou.stations, st.queue = [] ∧ st.showing = none ∧ st.last = none ∧ st.presses = 0
          ∧ st.refusedAtPress = 0 ∧ st.counts = TakeCounts.zero)
      ∧ t.ou.remote = TakeCounts.zero)
    ∧ (t.ax.lockSet = 0 ∧ t.ax.saws.length = 20
      ∧ (∀ w ∈ t.ax.saws, w = { host := false, fault := false, mismatches := 0, unlocks := 0 })
      ∧ t.ax.sawOut = 0 ∧ t.ax.window = [] ∧ t.ax.bins.length = 24
      ∧ (∀ b, 1 ≤ b → b ≤ 24 → t.ax.bins[b - 1]?
          = some { closed := false, isFull := inputs.binFull.getLsbD b, pulsing := false, pulses := 0,
                   toAlternate := 0, toFallout := 0 })
      ∧ t.ax.commits = 0 ∧ t.ax.cutOk = 0 ∧ t.ax.cutMismatch = 0 ∧ t.ax.cutUncut = 0 ∧ t.ax.cutEmpty = 0
      ∧ t.ax.recuts = 0 ∧ t.ax.fallouts = 0)
    ∧ ((∀ x, t.tu.entry x =
          { area := .free, number := none, label := none, run := none, live := 0, logPending := 0, reason := none,
            reservation := 0, clearingCell := none, swept := 0 })
      ∧ t.tu.openArea = none ∧ t.tu.drainingArea = none
      ∧ t.tu.nextRun = 1 ∧ t.tu.lastOpened = none ∧ t.tu.pendingLogs = [] ∧ t.tu.logHold = true
      ∧ t.tu.refusedLogs = 0 ∧ t.tu.unclassedLogs = 0 ∧ t.tu.unjournaledLogs = 0)


/-- The Status Block as bytes (R176, 9.5, 10.8). A rewrite leaves the update count two higher at 0x1000 and the items
after it, as far as 0x4FFF at most, and changes no other byte. The items stand from 0x1010 on in nine groups, each with
its block's number and length, padded to 16 bytes, in 10.8's order; each group's items are those of 9.5, with R31's
numbers of heads, R28's identity and condition, R170's records not released and R139's counts. A set is a mask (R183),
a count a word, an absent item as R183 gives. The packing of the items, the places of those that 9.5 does not name, the
codes of slot, area, search and log link states, and the bytes past the last group are the model's choices (log 8), and
so is one rewrite for an event (log 9). -/
def Obligations.StatusBlockShowsItsItems : Prop :=
  (∀ (m : Memory) (count : Word) (image : List Byte) (a : Nat),
    let block := (le32 (count + 2) ++ image).take 0x4000
    (statusRewrite m count image).read a =
      if 0x1000 ≤ a ∧ a < 0x1000 + block.length then block.getD (a - 0x1000) 0 else m.read a)
  ∧ (∀ s : State,
    let num := fun n : Nat => le32 (BitVec.ofNat 32 n)
    let on := fun (c : Bool) (v : Nat) => if c then v else 0
    let or8 := fun x : Option Nat => le8 (x.getD 0xFF)
    let or32 := fun x : Option Word => le32 (x.getD 0xFFFFFFFF)
    let group := fun (number : Nat) (items : List Byte) =>
      let bytes := le8 number ++ [0] ++ le16 (items.length + 4) ++ items
      bytes ++ List.replicate ((16 - bytes.length % 16) % 16) 0
    ∃ (unwatched : HeadSet) (locked : SawSet) (inHand : Word),
      (∀ h, 1 ≤ h → h ≤ 8 → has unwatched h = decide (s.sa.headState h = .linkFault ∨ s.sa.headState h = .absent))
      ∧ (∀ k, 1 ≤ k → k ≤ 20 → has locked k = (s.ax.saws[k - 1]?).any (fun w => w.host || w.fault))
      ∧ (∀ c, c < 32 → inHand.getLsbD c = s.xi.inHand.any (fun x => x.cell == c))
      ∧ (let d := s.dt
        let causes := fun p : CauseState → Bool => on (p d.causes.estop) 1 + on (p d.causes.stall) 2
          + on (p d.causes.reverse) 4
        let hold := on d.hold.host 1 + on d.hold.journal 2 + on d.hold.table 4 + on d.hold.run 8 + on d.hold.rules 16
          + on d.hold.align 32 + on d.hold.wake 64 + on d.hold.fault 128
        let deck := le8 d.state.code ++ le8 (causes (fun c => c != .absent)) ++ le8 (causes (fun c => c == .cleared))
          ++ le32 d.position ++ le32 d.highWater ++ le32 (d.highWater - d.position) ++ le32 d.forwardBeats
          ++ le32 d.backBeats ++ le8 hold ++ le8 (on d.gate 1) ++ le32 d.strangers ++ le32 d.dropMisses
        let head := fun (hd : Head) (h : Nat) =>
          le8 hd.state.code
          ++ (match d.geometry with
            | none => [0xFF, 0xFF, 0, 0]
            | some g => le16 (min ((h - 1) * g.segmentLength) 16383) ++ le16 (min (h * g.segmentLength - 1) 16383))
          ++ num hd.badRun ++ le32 hd.goodFrames ++ le32 hd.badFrames ++ le32 hd.accepted ++ le32 hd.duplicate
          ++ le32 hd.notRoster ++ le32 hd.stray ++ le32 hd.mismatch ++ le32 hd.stale ++ or32 hd.lastStatus
          ++ or32 (hd.identity.map Prod.fst) ++ or32 (hd.identity.map Prod.snd)
        let states : List HeadState := [.absent, .offline, .standby, .waking, .ready, .aligning, .linkFault]
        let link := s.sa.logLink
        let scan := (s.sa.heads.zipIdx 1).flatMap (fun x => head x.1 x.2)
          ++ states.flatMap (fun st => le8 (s.sa.heads.filter (fun hd => hd.state == st)).length)
          ++ le8 unwatched.toNat
          ++ le8 link.state.code ++ le32 link.goodFrames ++ le32 link.badFrames ++ le32 link.taken
        let da := s.da
        let align := s.sa.heads.flatMap (fun hd => le8 hd.credit) ++ s.sa.heads.flatMap (fun hd => le8 hd.delay)
          ++ le8 da.search.code ++ le8 da.head ++ le8 da.d ++ le8 (on da.unseen 1) ++ num da.miss
          ++ le32 da.strayEchoes
          ++ (match da.last with
            | none => [0xFF, 0, 0xFF]
            | some l => le8 l.cause.result.code ++ le8 l.head ++ le8 l.delay)
          ++ le32 da.downgrades
        let rs := s.rs
        let rules := rs.slots.flatMap (fun sl =>
            le8 sl.state.code ++ or8 sl.bank ++ le16 (sl.number.getD 0) ++ or32 sl.label ++ num sl.bound)
          ++ (match rs.staging with
            | none => [0xFF, 0xFF]
            | some st => le8 st.slot ++ le8 st.bank)
          ++ le16 rs.nextNumber
          ++ (match rs.last with
            | none => [0xFF, 0xFF, 0, 0, 0xFF, 0xFF, 0xFF, 0xFF, 0, 0, 0, 0]
            | some (.activated slot number label) => [0] ++ le8 slot ++ le16 number ++ le32 label ++ [0, 0, 0, 0]
            | some (.badRules table index check) => [6, 0xFF, 0, 0, 0xFF, 0xFF, 0xFF, 0xFF] ++ le8 table ++ le8 check
                ++ le16 index)
        let ts := s.ts
        let solver := le8 ts.queue.length ++ le32 ((ts.inHand.map (fun c => c.serial)).getD 0) ++ le32 ts.taken
          ++ le32 ts.kept ++ le32 ts.discarded ++ le32 ts.abandoned ++ le32 ts.fallbacks ++ le32 ts.nones
          ++ le32 ts.deadlines ++ le32 ts.deadlineFallbacks
        let sts := s.ou.stations
        let remote := s.ou.remote
        let refused := fun c : TakeCounts => le32 c.notFound ++ le32 c.tooLate ++ le32 c.refusedState
          ++ le32 c.badParam ++ le32 c.noAuthority
        let overrides := sts.flatMap (fun st => le8 st.queue.length)
          ++ sts.flatMap (fun st => match st.last with
            | none => [0xFF, 0xFF, 0xFF, 0, 0, 0, 0]
            | some a => le8 a.key.toNat ++ [a.tag.getD 0xFF] ++ le8 a.answer.code ++ le32 (a.serial.getD 0))
          ++ sts.flatMap (fun st => le32 st.presses) ++ sts.flatMap (fun st => le32 st.refusedAtPress)
          ++ sts.flatMap (fun st => le32 st.counts.taken) ++ le32 remote.taken
          ++ sts.flatMap (fun st => le32 st.counts.accepted) ++ le32 remote.accepted
          ++ sts.flatMap (fun st => refused st.counts) ++ refused remote
        let ax := s.ax
        let bin := fun (x : Bin) (b : Nat) =>
          le8 ((d.geometry.bind (fun g => g.binStation b)).getD 0) ++ le8 (on x.closed 1) ++ le8 (on x.isFull 1)
          ++ le8 (on (!x.closed && !x.isFull && d.state != .faulted) 1) ++ le8 (on x.pulsing 1)
        let actuation := le24 ax.sawOut.toNat
          ++ ax.window.flatMap (fun w => [w.tag] ++ le24 w.command.toNat ++ le8 (on w.issued 1))
          ++ le24 locked.toNat ++ ax.saws.flatMap (fun w => le8 (on w.host 1 + on w.fault 2))
          ++ (ax.bins.zipIdx 1).flatMap (fun x => bin x.1 x.2)
          ++ le32 ax.commits ++ le32 ax.cutOk ++ le32 ax.cutMismatch ++ le32 ax.cutUncut ++ le32 ax.cutEmpty
          ++ ax.saws.flatMap (fun w => le32 w.mismatches) ++ ax.saws.flatMap (fun w => le32 w.unlocks)
          ++ le32 ax.recuts ++ ax.bins.flatMap (fun x => le32 x.pulses) ++ ax.bins.flatMap (fun x => le32 x.toAlternate)
          ++ ax.bins.flatMap (fun x => le32 x.toFallout) ++ le32 ax.fallouts
        let tu := s.tu
        let run := fun e : RunEntry =>
          le8 e.area.code ++ le16 (e.number.getD 0) ++ or32 e.label ++ le8 ((e.run.map RunState.code).getD 0)
          ++ num e.live ++ num e.logPending ++ le8 ((e.reason.map CloseReason.code).getD 0) ++ le8 e.reservation
        let tally := run tu.areaA ++ run tu.areaB
          ++ (match tu.lastOpened with | none => [0xFF] | some .a => [0] | some .b => [1])
          ++ le16 tu.nextRun ++ le8 tu.pendingLogs.length ++ le8 (on tu.logHold 1) ++ le32 tu.refusedLogs
          ++ le32 tu.unclassedLogs ++ le32 tu.unjournaledLogs
        let xi := s.xi
        let exchange := num xi.fill ++ num xi.release ++ num xi.freeUnits ++ num (reservedTotal d tu)
          ++ num (unreservedUnits d tu xi) ++ num xi.starts.length ++ le8 xi.waiting.length ++ le16 xi.sequence.toNat
          ++ num xi.recordsSince ++ num xi.notifyCount ++ le8 (on xi.releaseBad 1) ++ le32 xi.sweeps
          ++ le32 xi.cellsTaken ++ le32 xi.unknownKinds ++ le32 xi.dropped ++ le32 xi.pieceRecords
          ++ le32 xi.logRecords ++ le32 xi.closeRecords ++ le32 xi.fillers ++ le32 xi.fillerUnits ++ le32 xi.releaseBads
          ++ le32 xi.raises.journal ++ le32 xi.raises.cellDone ++ le32 xi.raises.runClosed ++ le32 xi.raises.deck
          ++ le32 xi.raises.fault ++ le32 xi.raises.hold ++ le32 inHand
        s.image = List.replicate 12 0 ++ group 1 deck ++ group 2 scan ++ group 3 align ++ group 4 rules
          ++ group 5 solver ++ group 6 overrides ++ group 7 actuation ++ group 8 tally ++ group 9 exchange))
  ∧ ([.unconfigured, .halted, .running, .stoppedLoaded, .stoppedClear, .faulted].map DeckState.code = [0, 1, 2, 3, 4, 5]
    ∧ [.absent, .offline, .standby, .waking, .ready, .aligning, .linkFault].map HeadState.code = [0, 1, 2, 3, 4, 5, 6]
    ∧ [.idle, .pending, .stepping, .suspended].map SearchState.code = [0, 1, 2, 3]
    ∧ [.absent, .up, .linkFault].map LinkState.code = [0, 1, 2]
    ∧ [.free, .staging, .active, .retiring].map SlotState.code = [0, 1, 2, 3]
    ∧ [.free, .clearing, .inUse, .held].map AreaState.code = [0, 1, 2, 3]
    ∧ [.opened, .draining].map RunState.code = [1, 2]
    ∧ [.switch, .close, .lineReset].map CloseReason.code = [1, 2, 3]
    ∧ [.done, .busy, .refusedState, .tooLate, .noAuthority, .badParam, .badRules, .noSlot, .noRoom, .areaBusy,
        .notFound, .alreadySet, .noTransition, .cancelled, .unknownKind, .queueFull].map Result.code = List.range 16)

/-- A write of 1 to LINE_RESET sets ENABLE to the written bit and is then the line reset input's line reset (R162);
that the row ENABLE with bit 1 set acts as LINE_RESET is the model's choice (log 30). The line reset leaves the deck
UNCONFIGURED and empty, with serial, tags and counts kept (R4, R24), and the hold set as R9 gives. -/
def Obligations.LineResetClearsTheDeck : Prop :=
  (∀ (value : Word) (s : State), value.getLsbD 1 = true →
    exec (.lineReset value) s = exec .lineResetInput (s.onXi (fun xi => { xi with enable := value.getLsbD 0 }))
    ∧ exec (.enable value) s = exec (.lineReset value) s)
  ∧ ∀ s : State, s.Inv → ∃ t, exec .lineResetInput s = .next t
    ∧ t.dt =
      { s.dt with
        state := .unconfigured, geometry := none, position := 0, highWater := 0, encoder := 0
        lugs := s.dt.lugs.map (fun l => { tag := l.tag, piece := none, untracked := false, dropMark := none })
        upstream := [], pieces := []
        causes := { estop := .absent, stall := .absent, reverse := .absent }
        hold := { host := s.dt.hold.host, journal := decide (unreservedUnits t.dt t.tu t.xi < 39), table := false,
                  run := true, rules := s.rs.activeSlot.isNone, align := false, wake := s.sa.anyWaking,
                  fault := false }
        gate := false, restartPending := false }

/-- A line reset, part by part, the parts in the model's order (log 17). The standby timer stops, the mark clears, the
search ends with LINE_RESET, so that its cell ends CANCELLED (R60, R63), and every credit is 16 (R47); the solver is
empty (R106); each piece is discarded and counted in its run's header, twice when it was SORTED (R16, R159), map and
upstream list cleared; bound counts are 0 and RETIRING slots FREE (R82); each pending log adds to its run's
UNJOURNALED_LOGS and to the count (log 17), and both lists are empty (R159, R181); the DRAINING run and then the OPEN
one close with reason LINE_RESET, each with its RUN_CLOSE record, a CLOSED header and RUN_CLOSED (R150, R159); the
stations' queues are empty and their lamps dark (R124); outputs go up, gates to rest, the drive window is empty, locks
and bins are kept (R145); the deck is UNCONFIGURED, with DECK when it was not; LINE joins RESET_CAUSE (R163). Nothing
else changes. Then what that comes to in each block. -/
def Obligations.LineResetReachesEveryBlock : Prop :=
  (∀ s : State,
    let a := (s.clearOut.onSa (fun sa => { sa with standbyTimer := false, longStop := false })).endSearch .lineReset
    let a := a.onSa (fun sa => { sa with heads := sa.heads.map (fun hd => { hd with credit := 16 }) })
    let a := a.onTs (fun ts =>
      { ts with
        queue := [], inHand := none
        abandoned := if ts.inHand.isSome then ts.abandoned + 1 else ts.abandoned })
    let discard := fun (u : State) (p : Piece) =>
      match u.tu.areaOfRun p.run with
      | none => u
      | some x =>
        let v := u.addTo (areaAddr x + 0x0C) 1
        if p.state = .sorted then v.addTo (areaAddr x + 0x10) 1 else v
    let b := (s.dt.pieces.foldl discard a).onDt (fun d =>
      { d with
        pieces := [], upstream := []
        lugs := d.lugs.map (fun l => { tag := l.tag, piece := none, untracked := false, dropMark := none }) })
    let b := b.onRs (fun rs =>
      { rs with
        slots := rs.slots.map (fun sl =>
          if sl.state = .retiring then
            { sl with state := .free, bank := none, number := none, label := none, bound := 0 }
          else { sl with bound := 0 }) })
    let unjournaled := fun (u : State) (r : LogRecord) =>
      let v := u.onTu (fun tu => { tu with unjournaledLogs := tu.unjournaledLogs + 1 })
      match v.tu.areaOfRun r.run with
      | none => v
      | some x => v.addTo (areaAddr x + 0xD188 + 4 * 10) 1
    let c := ((s.tu.pendingLogs.foldl unjournaled b).onTu (fun tu => { tu with pendingLogs := [] })).onXi (fun xi =>
      { xi with waiting := [] })
    let close := fun (x : Option Area) (u : State) =>
      match x with
      | none => u
      | some x => (u.onArea x (fun e => { e with reason := some .lineReset, live := 0, logPending := 0 })).closeRun x
    let d := close s.tu.openArea (close s.tu.drainingArea c)
    let d := d.onOu (fun ou =>
      { ou with stations := ou.stations.map (fun st => { st with queue := [], showing := none }) })
    let d := d.onAx (fun ax =>
      { ax with sawOut := 0, window := [], bins := ax.bins.map (fun x => { x with pulsing := false }) })
    let e := d.onDt (fun d =>
      { d with
        state := .unconfigured, geometry := none, position := 0, highWater := 0, encoder := 0
        causes := { estop := .absent, stall := .absent, reverse := .absent }, restartPending := false })
    let e := if s.dt.state = .unconfigured then e else e.notify .deck
    Does .lineResetInput s (e.onXi (fun xi => { xi with causeLine := true })))
  ∧ ∀ s : State, s.Inv → ∃ t, exec .lineResetInput s = .next t
    ∧ (t.sa.standbyTimer = false ∧ t.sa.longStop = false ∧ t.sa.logLink = s.sa.logLink
      ∧ t.sa.heads.length = 8 ∧ ∀ (i : Nat) (hd : Head), s.sa.heads[i]? = some hd → t.sa.heads[i]?
        = some { hd with
                 credit := 16
                 state := if hd.state = .aligning ∧ s.da.search ≠ .idle ∧ s.da.head = i + 1 then .ready
                   else hd.state })
    ∧ (t.da.search = .idle ∧ t.da.strayEchoes = s.da.strayEchoes ∧ t.da.downgrades = s.da.downgrades
      ∧ t.da.last = (if s.da.search = .idle then s.da.last
          else some { cause := .lineReset, head := s.da.head, delay := s.da.d }))
    ∧ t.rs =
      { s.rs with
        slots := s.rs.slots.map (fun sl =>
          if sl.state = .retiring then
            { sl with state := .free, bank := none, number := none, label := none, bound := 0 }
          else { sl with bound := 0 }) }
    ∧ t.ts =
      { s.ts with
        queue := [], inHand := none
        abandoned := if s.ts.inHand.isSome then s.ts.abandoned + 1 else s.ts.abandoned }
    ∧ t.ou = { s.ou with stations := s.ou.stations.map (fun st => { st with queue := [], showing := none }) }
    ∧ t.ax =
      { s.ax with sawOut := 0, window := [], bins := s.ax.bins.map (fun b => { b with pulsing := false }) }
    ∧ (t.tu.pendingLogs = [] ∧ t.tu.logHold = true ∧ t.tu.nextRun = s.tu.nextRun
      ∧ t.tu.lastOpened = s.tu.lastOpened ∧ t.tu.openArea = none ∧ t.tu.drainingArea = none
      ∧ ∀ a, t.tu.entry a =
        if (s.tu.entry a).run = none then s.tu.entry a
        else
          { s.tu.entry a with
            area := .held, run := none, reason := some .lineReset, live := 0, logPending := 0, reservation := 0 })
    ∧ t.xi.waiting = [] ∧ reservedTotal t.dt t.tu
        = (if (s.tu.areaA.run = none) then s.tu.areaA.reservation else 0)
          + (if (s.tu.areaB.run = none) then s.tu.areaB.reservation else 0)
    ∧ t.xi.causeLine = true ∧ t.xi.causePower = s.xi.causePower ∧ t.xi.causePort = s.xi.causePort
    ∧ t.xi.enable = s.xi.enable ∧ t.xi.noticeMask = s.xi.noticeMask ∧ t.xi.release = s.xi.release
    ∧ t.xi.sweep = s.xi.sweep

/-- A port reset clears ENABLE, NOTICE and NOTICE_MASK, leaves RESET_CAUSE at PORT alone and changes nothing else
(R182), but that a sweep in progress ends, so that no sweep runs until the host sets ENABLE (the model's choice,
log 18). The host writes of the registers: EXCH_CTL without LINE_RESET sets ENABLE alone (R162), NOTICE clears the
bits written 1 (R178), NOTICE_MASK takes the written bits (R179), a write elsewhere has no effect (R161). At a
register's own offset the row REGISTER_WRITE_OTHER is that register's write, and an offset inside a register past
its first byte is elsewhere (the model's choice, log 30). A message goes out where R179 calls for one; the port's
configuration is an operand (log 29). Raising a notice cause sets its bit and adds one to its raise count (R178), and
one message goes out when the AND of NOTICE and NOTICE_MASK goes from zero to non-zero and the port lets messages go
(R179); nothing else changes. A host read returns ENABLE at 0x04, where LINE_RESET reads 0 (R162), NOTICE at 0x08
(R178), NOTICE_MASK at 0x0C (R179), and 0 at every other offset but PART_ID's and RESET_CAUSE's (R161; inside a
register past its first byte it is the model's choice, log 30). The bits of the causes are those of 10.2, JOURNAL 0,
CELL_DONE 1, RUN_CLOSED 2, DECK 3, FAULT 4, HOLD 5, in NOTICE and NOTICE_MASK alike, and each cause has a raise count of
its own. -/
def Obligations.RegistersAndNoticesChangeAsStated : Prop :=
  (∀ s : State, Does .portReset s (s.clearOut.onXi (fun xi =>
    { xi with
      enable := false, notice := 0, noticeMask := 0, causePower := false, causePort := true, causeLine := false,
      sweep := none })))
  ∧ (∀ (value : Word) (s : State),
    (value.getLsbD 1 = false →
      Does (.enable value) s (s.clearOut.onXi (fun xi => { xi with enable := value.getLsbD 0 })))
    ∧ Does (.noticeClear value) s
      { s with
        xi := { s.xi with notice := s.xi.notice &&& ~~~(value.extractLsb' 0 6) }
        out := if msiFollows s.xi.port s.xi.notice s.xi.noticeMask (s.xi.notice &&& ~~~(value.extractLsb' 0 6))
            s.xi.noticeMask then [.msi] else [] }
    ∧ (∀ port, Does (.noticeMaskWrite value port) s
      { s with
        xi := { s.xi with noticeMask := value.extractLsb' 0 6, port := port }
        out := if msiFollows port s.xi.notice s.xi.noticeMask s.xi.notice (value.extractLsb' 0 6) then [.msi]
            else [] })
    ∧ (∀ offset, offset ≠ 0x04 → offset ≠ 0x08 → offset ≠ 0x0C → Does (.registerWriteOther offset value) s s.clearOut)
    ∧ exec (.registerWriteOther 0x04 value) s = exec (.enable value) s
    ∧ exec (.registerWriteOther 0x08 value) s = exec (.noticeClear value) s
    ∧ exec (.registerWriteOther 0x0C value) s = exec (.noticeMaskWrite value s.xi.port) s)
  ∧ (∀ s : State,
    registerRead 0x04 s = (if s.xi.enable = true then 1 else 0)
    ∧ registerRead 0x08 s = s.xi.notice.setWidth 32 ∧ registerRead 0x0C s = s.xi.noticeMask.setWidth 32
    ∧ ∀ offset, offset ∉ [0x00, 0x04, 0x08, 0x0C, 0x10] → registerRead offset s = 0)
  ∧ [NoticeCause.journal, .cellDone, .runClosed, .deck, .fault, .hold].map NoticeCause.bit = [0, 1, 2, 3, 4, 5]
  ∧ (∀ c : NoticeCause, c.mask = BitVec.ofNat 6 (2 ^ c.bit))
  ∧ (∀ r : Raises, [NoticeCause.journal, .cellDone, .runClosed, .deck, .fault, .hold].map r.count
      = [r.journal, r.cellDone, r.runClosed, r.deck, r.fault, r.hold])
  ∧ (∀ port notice mask notice' mask', msiFollows port notice mask notice' mask' = true
      ↔ port = true ∧ notice &&& mask = 0 ∧ notice' &&& mask' ≠ 0)
  ∧ ∀ (c : NoticeCause) (s : State),
    (s.notify c).xi.notice = s.xi.notice ||| BitVec.ofNat 6 (2 ^ c.bit)
    ∧ (s.notify c).xi.raises.count c = s.xi.raises.count c + 1
    ∧ (∀ c', c' ≠ c → (s.notify c).xi.raises.count c' = s.xi.raises.count c')
    ∧ (s.notify c).out = s.out ++ (if s.xi.port = true ∧ s.xi.notice &&& s.xi.noticeMask = 0
        ∧ s.xi.noticeMask.getLsbD c.bit = true then [.msi] else [])
    ∧ s.notify c =
      { s with
        out := (s.notify c).out
        xi := { s.xi with notice := (s.notify c).xi.notice, raises := (s.notify c).xi.raises } }

/-- PART_ID and RESET_CAUSE (R163): PART_ID reads 0x0240 and the revision; power-on sets RESET_CAUSE to POWER alone, a
port reset to PORT alone, a line reset from the register or the input adds LINE; a host read returns the set and
empties it. Every other step, of another command or of none, leaves what a read would return, so a read that follows
with no reset between returns the empty set. That the read is an event that settles as others do is the model's (logs 9
and 31). That REGISTER_WRITE_OTHER at 0x04 counts as a write of EXCH_CTL, and ENABLE with bit 1 set as one of
LINE_RESET, so that each of them is a line reset here, is the model's choice (log 30). -/
def Obligations.ResetCauseHoldsTheResetsSinceItsRead : Prop :=
  (∀ s : State, registerRead 0x00 s = BitVec.ofNat 32 (0x0240 + 65536 * Config.revision.toNat))
  ∧ (∀ inputs s, ∃ t, exec (.powerOn inputs) s = .next t ∧ registerRead 0x10 t = 1)
  ∧ (∀ s, ∃ t, exec .portReset s = .next t ∧ registerRead 0x10 t = 2)
  ∧ (∀ s : State, s.Inv → ∃ t, exec .lineResetInput s = .next t
      ∧ registerRead 0x10 t = registerRead 0x10 s ||| 4)
  ∧ (∀ (value : Word) (c : Instr) (s : State), value.getLsbD 1 = true →
    c ∈ [Instr.lineReset value, .enable value, .registerWriteOther 0x04 value] → s.Inv →
    ∃ t, exec c s = .next t ∧ registerRead 0x10 t = registerRead 0x10 s ||| 4)
  ∧ (∀ s : State,
    let t : State :=
      { s with
        out := [.readData (registerRead 0x10 s)]
        xi := { s.xi with causePower := false, causePort := false, causeLine := false } }
    Does .resetCauseRead s t ∧ registerRead 0x10 t = 0)
  ∧ ∀ s t : State, s.Inv → step s = .next t →
    (∀ c, s.pending.head? = some c →
      c ≠ .portReset ∧ c ≠ .lineResetInput ∧ c ≠ .resetCauseRead ∧ (∀ inputs, c ≠ .powerOn inputs)
      ∧ ∀ value : Word, value.getLsbD 1 = true →
        c ∉ [Instr.lineReset value, .enable value, .registerWriteOther 0x04 value]) →
    registerRead 0x10 t = registerRead 0x10 s


/-! ## Beats -/


/-- FORWARD_BEAT (R1, R2, R15, R18, R176). In UNCONFIGURED and HALTED a motion of the encoder changes its position and
nothing else, and so does one that crosses no multiple of the counts per pitch in the other states; there one rising
crossing is the beat, and any other crossing is no event of the row and changes nothing (where a crossing lies is the
model's choice, log 28; log 3); the position is an integer without bounds (the model's choice, log 42). The beat: a
pending restart check is sampled first (R15), STALL clears (R18), position, high-water mark and forward beat count
move, and so does the map, with the nearest upstream lug or a new one at station 0 (R1, R2). Then the station actions
follow, in the model's order (log 11): admission to a new lug, cut check, fallout, bin tests, presence checks on an
advancing beat, commit, issue, assembly close, zone entry, search, BEAT frames. The Status Block is rewritten (R176).
-/
def Obligations.ForwardBeatMovesTheMapAndActs : Prop :=
  ∀ (encoder : Int) (eyes : Eyes) (feedback : SawSet) (restart : Eyes) (s : State),
    let turned := s.clearOut.onDt (fun d => { d with encoder := encoder })
    (s.dt.geometry = none → Does (.forwardBeat encoder eyes feedback restart) s turned)
    ∧ ∀ g : Geometry, s.dt.geometry = some g →
      let crossings : Int := encoder / (g.countsPerPitch : Int) - s.dt.encoder / (g.countsPerPitch : Int)
      (s.dt.state = .unconfigured ∨ s.dt.state = .halted ∨ crossings = 0 →
        Does (.forwardBeat encoder eyes feedback restart) s turned)
      ∧ (s.dt.state.takesBeats = true → crossings ≠ 0 → crossings ≠ 1 →
        Does (.forwardBeat encoder eyes feedback restart) s s.clearOut)
      ∧ (s.dt.state.takesBeats = true → crossings = 1 →
        let b := if s.dt.restartPending then turned.checkRestart g restart else turned
        let m := b.onDt (fun d =>
          { d with
            causes := { d.causes with stall := d.causes.stall.clear }
            position := d.position + 1
            highWater := if d.depth = 0 then d.position + 1 else d.highWater
            forwardBeats := d.forwardBeats + 1
            tagCounter := d.tagCounter + 1
            lugs := d.upstream.head?.getD (Lug.empty (d.tagCounter + 1)) :: d.lugs.take 63
            upstream := d.upstream.tail })
        let a := if b.dt.upstream = [] then m.offerLug eyes.loader else m
        let a := ((a.checkCut g feedback).fallOut g).testBins g
        let a := if b.dt.depth = 0 then (a.checkEnd g eyes.deckEnd).checkTrim g eyes.trim else a
        let a := ((a.commitAt g).issue g).closeAtZoneEnd g
        let ready := a.sa.readySet
        let tag := ((a.dt.lugAt g.ss).map (fun l => l.tag)).getD 0
        let scan := (a.dt.entering g).map (fun _ => a.fixedDensity ready)
        DoesAndShows (.forwardBeat encoder eyes feedback restart) s
          (((a.zoneEntry g ready).alignBeat g ready).sendBeats tag scan ready))

/-- BACK_BEAT (R1, R3, R18, R20, R58, R130). In UNCONFIGURED and HALTED a motion of the encoder changes its position
and nothing else, and so does one that crosses no multiple of the counts per pitch in the other states; there one
falling crossing is the beat, and any other crossing is no event of the row and changes nothing (where a crossing lies
is the model's choice, log 28; log 3); the position is an integer without bounds (the model's choice, log 42). The
beat: STALL clears, position, back beat count and map move, with a slot for station 63 and station 0's lug at upstream
place 1 (R3, R18); a lug pushed to place 9 leaves tracking and its piece is LOST, before the reverse depth is tested
(the model's order, log 37); every saw output goes UP and the window entries are RELEASED (R130), one for each lug at T
− D..T even where the window held none before (the model's choice, log 44); a STEPPING search is suspended (R58); a
reverse depth above 4 adds REVERSE (R18, R20); no other block acts. A pending restart check is taken after it when the
command says so (R15, log 13). -/
def Obligations.BackBeatMovesTheMapAndReleases : Prop :=
  ∀ (encoder : Int) (restart : Option Eyes) (s : State),
    let turned := s.clearOut.onDt (fun d => { d with encoder := encoder })
    (s.dt.geometry = none → Does (.backBeat encoder restart) s turned)
    ∧ ∀ g : Geometry, s.dt.geometry = some g →
      let crossings : Int := encoder / (g.countsPerPitch : Int) - s.dt.encoder / (g.countsPerPitch : Int)
      (s.dt.state = .unconfigured ∨ s.dt.state = .halted ∨ crossings = 0 → Does (.backBeat encoder restart) s turned)
      ∧ (s.dt.state.takesBeats = true → crossings ≠ 0 → crossings ≠ -1 →
        Does (.backBeat encoder restart) s s.clearOut)
      ∧ (s.dt.state.takesBeats = true → crossings = -1 →
        let m := turned.onDt (fun d =>
          { d with
            causes := { d.causes with stall := d.causes.stall.clear }
            position := d.position - 1
            backBeats := d.backBeats + 1
            tagCounter := d.tagCounter - 1
            lugs := d.lugs.tail ++ [Lug.empty (d.tagCounter - 1 - 63)]
            upstream := d.lugs.head?.toList ++ d.upstream })
        let lost := (m.dt.upstream[8]?).bind (fun l => l.piece)
        let m := match lost with
          | some serial => m.losePiece serial
          | none => m
        let m := m.onDt (fun d => { d with upstream := d.upstream.take 8 })
        let r := m.onAx (fun ax =>
          { ax with
            sawOut := 0
            window := ((m.dt.lugs.drop (g.t - g.d)).take (g.d + 1)).map (fun l =>
              { tag := l.tag, command := 0, issued := false }) })
        let r := r.onDa (fun da =>
          if da.search = .stepping then { da with search := .suspended, outstanding := false, miss := 0 } else da)
        let r := if 4 < r.dt.depth then r.addCause .reverse else r
        DoesAndShows (.backBeat encoder restart) s
          (match restart with
            | some eyes => if r.dt.restartPending then r.checkRestart g eyes else r
            | none => r))

/-- In FAULTED no saw is driven, no gate pulses and every window entry is RELEASED with an empty command: every
step keeps that (R131). -/
def Obligations.FaultedDeckDrivesNothing : Prop :=
  ∀ s t : State,
    let quiet := fun u : State => u.dt.state = .faulted →
      u.ax.sawOut = 0 ∧ (∀ b ∈ u.ax.bins, b.pulsing = false)
      ∧ ∀ w ∈ u.ax.window, w.command = 0 ∧ w.issued = false
    quiet s → step s = .next t → quiet t

/-! ## The deck state machine -/

/-- A change of the deck state: DECK is raised, and on a stop from RUNNING JOURNAL with the records-since count at
0 (R17, R175); leaving RUNNING cancels a pending restart check (R15) and suspends a STEPPING search (R58); entering
FAULTED releases outputs and window (R131); the standby timer starts on a stop and on START_LINE into a stopped
state (R40); entering RUNNING wakes the STANDBY heads (R41), marks SCANNING pieces STALE under the long-stop mark
(R42), clears the mark, stops the timer and calls for a restart check with a piece on the deck (R15). Nothing else
changes. -/
def Obligations.DeckStateChangeActsInEveryBlock : Prop :=
  ∀ (new : DeckState) (s : State), s.sa.heads.length = 8 → s.dt.state ≠ new →
    let t := s.setDeck new
    let stops := s.dt.state == .running && (new == .stoppedLoaded || new == .stoppedClear || new == .faulted)
    t.dt =
      { s.dt with
        state := new
        restartPending :=
          if new = .running then
            decide (s.dt.state = .stoppedLoaded ∨ (s.dt.state = .faulted ∧ s.dt.loaded = true))
          else if s.dt.state = .running then false
          else s.dt.restartPending
        pieces :=
          if new = .running ∧ s.sa.longStop = true then
            s.dt.pieces.map (fun p =>
              if p.state = .scanning then
                { p with assembly := p.assembly.map (fun a =>
                    { a with
                      stale := true
                      dropped := a.dropped ||| (p.roster.getD 0 &&& ~~~a.receivedSet) }) }
              else p)
          else s.dt.pieces }
    ∧ t.da = (if s.dt.state = .running ∧ s.da.search = .stepping then
        { s.da with search := .suspended, outstanding := false, miss := 0 } else s.da)
    ∧ t.ax = (if new = .faulted then
        { s.ax with
          sawOut := 0
          window := s.ax.window.map (fun w => { w with command := 0, issued := false })
          bins := s.ax.bins.map (fun b => { b with pulsing := false }) }
        else s.ax)
    ∧ t.sa = (if new = .running then
          { s.sa with
            heads := s.sa.heads.map (fun hd => if hd.state = .standby then { hd with state := .waking } else hd)
            longStop := false
            standbyTimer := false }
        else if stops = true ∨ (s.dt.state = .halted ∧ (new = .stoppedLoaded ∨ new = .stoppedClear)) then
          { s.sa with standbyTimer := true }
        else s.sa)
    ∧ t.xi =
      { s.xi with
        notice := s.xi.notice ||| BitVec.ofNat 6 8 ||| (if stops then BitVec.ofNat 6 1 else 0)
        raises :=
          { s.xi.raises with
            deck := s.xi.raises.deck + 1
            journal := s.xi.raises.journal + (if stops then 1 else 0) }
        recordsSince := if stops then 0 else s.xi.recordsSince }
    ∧ t.out = (if stops then (s.notify .deck).notify .journal else s.notify .deck).out
        ++ (if new = .running then
          ((List.range' 1 8).filter (fun h => s.sa.headState h == .standby)).map (fun h => .frame h .wake)
          else [])
    ∧ t.mem = s.mem ∧ t.rs = s.rs ∧ t.ts = s.ts ∧ t.ou = s.ou ∧ t.tu = s.tu ∧ t.pending = s.pending

/-- The line inputs and the stall timer (R17, R18). The run line rising takes a stopped deck to RUNNING; dropping, it
takes RUNNING to STOPPED_LOADED with a piece on the map or the upstream list, else to STOPPED_CLEAR, and clears STALL;
a command that names the level that stands changes nothing (the model's choice, log 3). In a tracking state or FAULTED
an added cause stands in the set, raises FAULT, once more when it stood there already (the model's choice, log 15),
and leaves the deck FAULTED, and elsewhere none is added (the model's choice, log 14); ESTOP is added by an assertion
and cleared by the release, STALL added by the stall timer's expiry in RUNNING with the run line up. -/
def Obligations.LineInputsMoveTheDeck : Prop :=
  (∀ (up : Bool) (s : State),
    if s.dt.runLine = up then Does (.deckRunLineChange up) s s.clearOut
    else
      let m := s.clearOut.onDt (fun d => { d with runLine := up })
      let n := m.onDt (fun d => { d with causes := { d.causes with stall := d.causes.stall.clear } })
      if up = true then
        Does (.deckRunLineChange up) s
          (if s.dt.state = .stoppedLoaded ∨ s.dt.state = .stoppedClear then m.setDeck .running else m)
      else
        Does (.deckRunLineChange up) s
          (if s.dt.state = .running then n.setDeck (if s.dt.loaded then .stoppedLoaded else .stoppedClear) else n))
  ∧ (∀ (c : CauseName) (s : State),
    if s.dt.state = .unconfigured ∨ s.dt.state = .halted then s.addCause c = s
    else
      s.addCause c = ((s.onDt (fun d =>
        { d with
          causes :=
            { estop := if c = .estop then .standing else d.causes.estop
              stall := if c = .stall then .standing else d.causes.stall
              reverse := if c = .reverse then .standing else d.causes.reverse } })).notify .fault).setDeck .faulted)
  ∧ ∀ s : State,
    (if s.dt.estop = true then Does .estopAssert s s.clearOut
      else Does .estopAssert s ((s.clearOut.onDt (fun d => { d with estop := true })).addCause .estop))
    ∧ Does .estopRelease s (s.clearOut.onDt (fun d =>
        { d with estop := false, causes := { d.causes with estop := d.causes.estop.clear } }))
    ∧ (if s.dt.state = .running ∧ s.dt.runLine = true then
        Does .stallTimerExpiry s (s.clearOut.addCause .stall)
      else Does .stallTimerExpiry s s.clearOut)


/-! ## Admission, presence checks, sorting -/

/-- A new lug at station 0 (R8, R11): no wood, no change; wood with the gate open and the resources there admits a
piece GATED; wood with the gate closed admits it HAND_LOADED when no reason but HOST stands, the deck is tracking and
entry, 39 unreserved units, OPEN run and ACTIVE generation are there, and else makes the lug untracked and counts a
stranger, in the OPEN run too when there is one. An admission takes the next serial, and its entry is ADMITTED, GATED
or HAND_LOADED, with the lug's tag, the OPEN run's number, 20 units reserved and every later field absent (R5, R8); it
adds one to the run's live pieces; the holds follow at once. The next serial is then the first in order, 1 following
4294967295, that no entry holds (R5); that those still held are passed over then is the model's choice (log 43). -/
def Obligations.NewLugIsAdmittedOrStranger : Prop :=
  ∀ s : State,
    let n := s.dt.nextSerial
    let inOrder := fun k : Nat => BitVec.ofNat 32 ((n.toNat + k) % 4294967295 + 1)
    let held := fun m : Word => m = n ∨ ∃ p ∈ s.dt.pieces, p.serial = m
    let isNext := fun m : Word => ∃ k, m = inOrder k ∧ ¬held m ∧ ∀ j, j < k → held (inOrder j)
    let admitted := fun (a : Area) (byHand : Bool) (next : Word) =>
      let d := s.onDt (fun d =>
        { d with
          pieces := d.pieces ++ [
            { serial := n, tag := ((d.lugAt 0).map (fun l => l.tag)).getD 0, state := .admitted, handLoaded := byHand,
              run := (s.tu.entry a).number.getD 0, reservation := 20, generation := none, density := none,
              roster := none, assembly := none, scan := none, sizeClass := none, solution := none, gradePart := none,
              trimPart := none, overrides := List.replicate 15 0, commit := none, cutCheck := none, mismatch := 0,
              recut := false, recutSaws := 0, bin := none, lost := false }]
          nextSerial := next
          lugs := d.lugs.modify 0 (fun l => { l with piece := some n }) })
      (d.onArea a (fun e => { e with live := e.live + 1 })).syncHolds
    let untracked := s.onDt (fun d => { d with lugs := d.lugs.modify 0 (fun l => { l with untracked := true }) })
    let resources := fun a : Area => s.tu.openArea = some a ∧ s.dt.pieces.length < 96
    let byHand := s.dt.hold.onlyHost = true ∧ s.dt.state.tracking = true
      ∧ 39 ≤ unreservedUnits s.dt s.tu s.xi ∧ s.rs.activeSlot ≠ none
    s.offerLug false = s
    ∧ (∀ a, s.dt.gate = true → resources a → ∃ m, isNext m ∧ s.offerLug true = admitted a false m)
    ∧ (∀ a, s.dt.gate = false → resources a → byHand → ∃ m, isNext m ∧ s.offerLug true = admitted a true m)
    ∧ (s.dt.gate = false → ¬(byHand ∧ ∃ a, resources a) →
        s.offerLug true =
          (match s.tu.openArea with
            | some a => untracked.addTo (areaAddr a + 0xD188 + 4 * 4) 1
            | none => untracked).onDt (fun d => { d with strangers := d.strangers + 1 }))

/-- The trim eye and the end eye (R13, R14). At T a COMMITTED piece without wood is LOST, with its lug's window
entry RELEASED, and wood on a lug without a piece and not untracked is a stranger. At E wood on a drop-marked lug
that is not untracked counts a drop miss, in the marked run's bin row while that run lives, and clears the mark. In
every other case nothing changes. The restart check (R15): when the settle time runs out with a check pending, the
eyes are held against the lugs at E, T and station 0, in that order (the model's, log 12): at E as R14 checks, at T
as R13 does; at station 0 an ADMITTED piece without wood is LOST, and wood on a lug without a piece and not untracked
is a stranger. Without a pending check there is no such event (log 3). A piece found LOST gets the LOST flag and is
then SORTED with bin 0 (R3, R13). -/
def Obligations.PresenceEyesFindLostStrangerAndMiss : Prop :=
  (∀ (g : Geometry) (wood : Bool) (s : State),
    (∀ lug, s.dt.lugAt g.t = some lug →
      s.checkTrim g wood =
        match s.dt.pieceOf lug with
        | some p =>
          if p.state = .committed ∧ wood = false then
            (s.onAx (fun ax =>
              { ax with
                window := ax.window.map (fun w =>
                  if w.tag = lug.tag then { w with command := 0, issued := false } else w) })).losePiece p.serial
          else s
        | none =>
          if lug.piece = none ∧ lug.untracked = false ∧ wood = true then
            let u := s.onDt (fun d => { d with lugs := d.lugs.modify g.t (fun l => { l with untracked := true }) })
            (match s.tu.openArea with
              | some a => u.addTo (areaAddr a + 0xD188 + 4 * 4) 1
              | none => u).onDt (fun d => { d with strangers := d.strangers + 1 })
          else s)
    ∧ ∀ lug, s.dt.lugAt g.e = some lug →
      s.checkEnd g wood =
        match lug.dropMark with
        | some mark =>
          if wood = true ∧ lug.untracked = false then
            (match s.tu.areaOfRun mark.run with
              | some a => s.addTo (areaAddr a + 0xD040 + 8 * mark.bin + 4) 1
              | none => s).onDt (fun d =>
                { d with
                  dropMisses := d.dropMisses + 1
                  lugs := d.lugs.modify g.e (fun l => { l with dropMark := none }) })
          else s
        | none => s)
  ∧ (∀ (eyes : Eyes) (s : State) (g : Geometry),
    let m := ((s.onDt (fun d => { d with restartPending := false })).checkEnd g eyes.deckEnd).checkTrim g eyes.trim
    s.checkRestart g eyes =
      match m.dt.lugAt 0 with
      | some lug =>
        match m.dt.pieceOf lug with
        | some p => if p.state = .admitted ∧ eyes.loader = false then m.losePiece p.serial else m
        | none =>
          if lug.piece = none ∧ lug.untracked = false ∧ eyes.loader = true then
            let u := m.onDt (fun d => { d with lugs := d.lugs.modify 0 (fun l => { l with untracked := true }) })
            (match m.tu.openArea with
              | some a => u.addTo (areaAddr a + 0xD188 + 4 * 4) 1
              | none => u).onDt (fun d => { d with strangers := d.strangers + 1 })
          else m
      | none => m)
  ∧ (∀ (eyes : Eyes) (s : State) (g : Geometry), s.dt.geometry = some g →
    Does (.restartCheck eyes) s (if s.dt.restartPending = true then s.clearOut.checkRestart g eyes else s.clearOut))
  ∧ ∀ (n : Word) (s : State),
    s.losePiece n = (s.onDt (fun d =>
      { d with pieces := d.pieces.map (fun p => if p.serial = n then { p with lost := true } else p) })).sortPiece n 0

/-- A piece that becomes SORTED with a bin (R7, R16, R81, R86, R153, R154, R155, R173). Its lug loses it, and after a
gate drop carries the bin and the piece's run as drop mark; it leaves the solver queue, a solve in hand for it is
abandoned; it is tallied in its run; and its record is written at once, and the piece retires, when no record waits
and R172 lets it be written, or joins the waiting list. Retiring frees the entry, lowers the bound count of its
generation's slot, a RETIRING slot at 0 becoming FREE, and its run's live count, and a DRAINING run with nothing left
closes. The tally adds each product that the piece made, one whose cut check is OK and that is neither RECUT nor LOST,
to its row with its volume, the products made, or one, to the bin row of a piece not LOST, and one to each exception
count that applies; each addition is to the 32-bit count as it stands in exchange memory (log 33). -/
def Obligations.SortedPieceIsDetachedAndRecorded : Prop :=
  let retired : Piece → State → State := fun p s =>
    let u := s.onDt (fun d => { d with pieces := d.pieces.filter (fun q => q.serial != p.serial) })
    let u : State := match p.generation with
      | some (_, slot) =>
        u.onRs (fun rs =>
          { rs with
            slots := rs.slots.modify slot (fun (sl : Slot) =>
              if sl.state = .retiring ∧ sl.bound ≤ 1 then
                { sl with state := .free, bank := none, number := none, label := none, bound := 0 }
              else { sl with bound := sl.bound - 1 }) })
      | none => u
    match u.tu.areaOfRun p.run with
    | some x =>
      let v := u.onArea x (fun e => { e with live := e.live - 1 })
      let e : RunEntry := v.tu.entry x
      if e.run = some .draining ∧ e.live = 0 ∧ e.logPending = 0 then v.closeRun x else v
    | none => u
  (∀ (n : Word) (bin : Nat) (s : State) (p : Piece), s.dt.piece? n = some p → p.state ≠ .sorted →
    let t := s.sortPiece n bin
    let detach := fun l : Lug =>
      if l.piece = some n then
        { l with piece := none, dropMark := if bin = 0 then l.dropMark else some { bin, run := p.run } }
      else l
    let q : Piece := { p with state := .sorted, bin := some bin, assembly := none }
    let u := s.onDt (fun d =>
      { d with
        pieces := d.pieces.map (fun p =>
          if p.serial = n then { p with state := .sorted, bin := some bin, assembly := none } else p)
        lugs := d.lugs.map detach, upstream := d.upstream.map detach })
    let u := u.onTs (fun ts => { ts with queue := ts.queue.filter (fun x => x != n) })
    let u := if s.ts.solves n = true then
        (u.onTs (fun ts => { ts with inHand := none, abandoned := ts.abandoned + 1 })).takeNext
      else u
    let v := u.tallyPiece q
    let len := 4 + (q.findCount + 3) / 4
    let left := 49152 - v.xi.fill
    let filler := if left < len then left else 0
    u.dt.piece? n = some q
    ∧ t = (if v.xi.waiting = [] ∧ filler + len ≤ unreservedUnits v.dt v.tu v.xi + q.reservation then
        (retired q ((v.onPiece n (fun p => { p with reservation := 0 })).writeRecord .piece len
          (pieceBody q))).syncHolds
      else v.onXi (fun xi => { xi with waiting := xi.waiting ++ [.piece n] }))
    ∧ t.dt.lugs = s.dt.lugs.map detach ∧ t.dt.upstream = s.dt.upstream.map detach
    ∧ n ∉ t.ts.queue ∧ t.ts.solves n = false)
  ∧ (∀ (p : Piece) (s : State), s.retire p = retired p s)
  ∧ (∀ (address n : Nat) (s : State), s.addTo address n =
    { s with mem := s.mem.splice address (le32 (s.mem.read32 address + BitVec.ofNat 32 n)) })
  ∧ ∀ (p : Piece) (s : State),
    (s.tu.areaOfRun p.run = none → s.tallyPiece p = s)
    ∧ ∀ x, s.tu.areaOfRun p.run = some x →
      let rules := s.rs.boundRules p
      let size := p.sizeClass.getD 0
      let nominal := if size = 0 then (rules.policy.offSizeWidth, rules.policy.offSizeThick)
        else ((rules.sizes[size - 1]?).map (fun z => (z.nominalWidth, z.nominalThick))).getD (0, 0)
      let made := if p.cutCheck = some .clean ∧ p.recut = false ∧ p.lost = false then
          (p.solution.map (fun sol => sol.products)).getD []
        else []
      let row := fun y : Product => areaAddr x + 0x40 + 8 * ((size * 13 + y.grade - 1) * 16 + y.lengthClass)
      let u := made.foldl (fun (u : State) y =>
        (u.addTo (row y) 1).addTo (row y + 4) (nominal.1 * nominal.2 * y.length / 1000)) s
      let v := if p.lost = true then u
        else u.addTo (areaAddr x + 0xD040 + 8 * p.bin.getD 0) (if made = [] then 1 else made.length)
      let scan := fun f : ScanRecord → Bool => (p.scan.map f).getD false
      let committed := fun f : Solution → Bool => p.commit.isSome && (p.solution.map f).getD false
      let exceptions : List (Nat × Bool) :=
        [(0, scan (fun r => r.incomplete)), (1, scan (fun r => r.gap)), (9, scan (fun r => r.downgraded)),
         (2, committed (fun sol => sol.deadline)), (8, committed (fun sol => sol.kind == .noSolution)),
         (5, p.cutCheck == some .mismatch), (6, p.cutCheck == some .uncut), (7, p.recut), (3, p.lost)]
      s.tallyPiece p = exceptions.foldl (fun (u : State) y =>
        if y.2 then u.addTo (areaAddr x + 0xD188 + 4 * y.1) 1 else u) v

/-- The waiting list (R157, R172, R173): records are written from its head, one after the other, each as long as R172
lets it be written, and the first that may not be stops it. A PIECE record is written from its reservation and its
piece retires; a LOG record is the oldest of the log pending list, is written when 19 units are left unreserved after
it and its filler, and leaves the list and its run's count, on which a DRAINING run with nothing left closes. The
units (R170): the free units are (release − fill − 1) modulo 49152, the reserved total is the sum of every piece's
reservation and both runs' close reservations, and the unreserved units are the free units less that total. A LOG
record may be written where its filler, its 2 units and 19 more are unreserved (R172). -/
def Obligations.WaitingRecordsAreWrittenInOrder : Prop :=
  (∀ s : State,
    (s.xi.fill < 49152 → s.xi.release < 49152 →
      (s.xi.freeUnits : Int) = ((s.xi.release : Int) - (s.xi.fill : Int) - 1) % 49152)
    ∧ reservedTotal s.dt s.tu
      = (s.dt.pieces.map (fun p => p.reservation)).sum + s.tu.areaA.reservation + s.tu.areaB.reservation
    ∧ unreservedUnits s.dt s.tu s.xi = s.xi.freeUnits - reservedTotal s.dt s.tu
    ∧ (mayWriteLog s = true ↔
      (if 49152 - s.xi.fill < 2 then 49152 - s.xi.fill else 0) + 2 + 19 ≤ unreservedUnits s.dt s.tu s.xi))
  ∧ ∀ s : State,
    let free := unreservedUnits s.dt s.tu s.xi
    let filler := fun len : Nat => if 49152 - s.xi.fill < len then 49152 - s.xi.fill else 0
    (s.xi.waiting = [] → s.drainAll = s)
    ∧ ∀ w rest, s.xi.waiting = w :: rest →
      let u := s.onXi (fun xi => { xi with waiting := rest })
      (∀ n p, w = .piece n → s.dt.piece? n = some p →
        let len := 4 + (p.findCount + 3) / 4
        s.drainAll =
          if filler len + len ≤ free + p.reservation then
            ((((u.onPiece p.serial (fun q => { q with reservation := 0 })).writeRecord .piece len
              (pieceBody p)).retire p).drainAll)
          else s)
      ∧ (∀ r logs, w = .log → s.tu.pendingLogs = r :: logs →
        s.drainAll =
          if filler 2 + 2 + 19 ≤ free then
            let v : State := (u.onTu (fun tu => { tu with pendingLogs := logs })).writeRecord .log 2 (logBody r)
            let z : State := match v.tu.areaOfRun r.run with
              | some x =>
                let y := v.onArea x (fun e => { e with logPending := e.logPending - 1 })
                let e : RunEntry := y.tu.entry x
                if e.run = some .draining ∧ e.live = 0 ∧ e.logPending = 0 then y.closeRun x else y
              | none => v
            z.drainAll
          else s)

/-! ## Saws and bins -/

/-- The table of the cut check (R132): what AX does for the lug that a forward beat moves off T, by the deck state,
the lug's window entry (none taken as RELEASED, R129) and its piece; and a mismatch is a saw up to the saw count
whose feedback is not as commanded (R133). On a forward beat the check is of the lug at T + 1 with the entry that it
held at T, which is the window's last: the piece on the lug is CUT with what the table gives, and the saws found
wrong are faulted and locked, without a piece too. -/
def Obligations.CutCheckFollowsItsTable : Prop :=
  (∀ (g : Geometry) (feedback : SawSet) (s : State),
    let p := s.dt.pieceAt (g.t + 1)
    let recut := match p with
      | some p => (s.rs.boundRules p).policy.recutBin
      | none => 0
    s.checkCut g feedback =
      match cutAction s.dt.state s.ax.window[g.d]? p g.sawCount feedback recut, p with
      | .cut result saws target, some p => (s.cutPiece p.serial result saws target).faultSaws saws
      | .mismatchOnly saws, _ => s.faultSaws saws
      | _, _ => s)
  ∧ ∀ (deck : DeckState) (entry : Option WindowEntry) (p : Option Piece) (saws : Nat) (feedback : SawSet) (recut : Nat),
    let action := cutAction deck entry p saws feedback recut
    let issued := entry.isSome = true ∧ ∀ w, entry = some w → w.issued = true
    (∀ q, p = some q → q.state = .committed →
      (deck = .faulted → action = .cut .uncut 0 (some 0))
      ∧ (deck ≠ .faulted → issued → ∀ w, entry = some w →
        let wrong := mismatchSaws saws w.command feedback
        action = if wrong ≠ 0 then .cut .mismatch wrong (some recut)
          else if q.dropSet = 0 then .cut .notCutEmpty 0 none
          else .cut .clean 0 none)
      ∧ (deck ≠ .faulted → ¬issued →
        action = if q.dropSet = 0 then .cut .notCutEmpty 0 none else .cut .uncut 0 (some recut)))
    ∧ (∀ q, p = some q → q.state ≠ .committed → action = .nothing)
    ∧ (p = none →
      action = if deck ≠ .faulted ∧ issued ∧ mismatchSaws saws 0 feedback ≠ 0 then
          .mismatchOnly (mismatchSaws saws 0 feedback)
        else .nothing)
    ∧ ∀ (command : SawSet) (k : Nat),
      has (mismatchSaws saws command feedback) k = decide (1 ≤ k ∧ k ≤ 20 ∧ k ≤ saws ∧ has command k ≠ has feedback k)

/-- What a cut check leaves (R132, R133): the piece CUT with result, mismatch saws and, where the table retargets
it, the new target with cause CUT_CHECK, the result counted; each mismatched saw with FAULT and one more mismatch,
FAULT raised once for each saw that had not the reason, and the saws not locked before joining the lock set
together, and so out of the outputs. -/
def Obligations.CutCheckMarksPieceAndSaws : Prop :=
  ∀ s : State,
    (∀ (n : Word) (result : CutCheck) (saws : SawSet) (target : Option Nat),
      s.cutPiece n result saws target =
        (s.onPiece n (fun p =>
          { p with
            state := .cut
            cutCheck := some result
            mismatch := saws
            commit := p.commit.map (fun c =>
              { c with
                target := target.getD c.target
                cause := if target.isSome then .cutCheck else c.cause }) })).onAx (fun ax =>
          { ax with
            cutOk := ax.cutOk + (if result = .clean then 1 else 0)
            cutMismatch := ax.cutMismatch + (if result = .mismatch then 1 else 0)
            cutUncut := ax.cutUncut + (if result = .uncut then 1 else 0)
            cutEmpty := ax.cutEmpty + (if result = .notCutEmpty then 1 else 0) }))
    ∧ ∀ saws : SawSet, s.ax.saws.length = 20 →
      let t := s.faultSaws saws
      (∀ k w, s.ax.saws[k]? = some w → t.ax.saws[k]? = some
        (if has saws (k + 1) then { w with fault := true, mismatches := w.mismatches + 1 } else w))
      ∧ t.xi.raises.fault = s.xi.raises.fault + BitVec.ofNat 32 ((List.range 20).filter (fun k =>
          has saws (k + 1) && ((s.ax.saws[k]?).map (fun w => !w.fault)).getD false)).length
      ∧ t.ax.sawOut = s.ax.sawOut &&& ~~~(saws &&& ~~~s.ax.lockSet)
      ∧ t = (State.notifyTimes .fault ((List.range 20).filter (fun k =>
          has saws (k + 1) && ((s.ax.saws[k]?).map (fun w => !w.fault)).getD false)).length
        (s.onAx (fun ax => { ax with saws := t.ax.saws }))).joinLock (saws &&& ~~~s.ax.lockSet)

/-- Saws join the lock set (R135, R136, R102): their outputs go UP, every window command loses them, and every
COMMITTED piece whose drop set holds some loses them, RECUT, its target the bound recut bin with cause RECUT; the
pieces newly marked are counted; every SOLVED piece whose saw set holds one is back in the solver queue, or the
solve in hand is for it. The pieces sent back join the queue one by one, each SCANNED and at its serial's place (R83),
and TS takes the head where it has no solve (R84): the whole change is that and what is said above. With a solve in hand
the queue holds after it what it held and the pieces sent back, each of them SCANNED, in admission order where it was in
that order. Every other piece keeps its state, but one that stood in the queue while TS had no solve in hand and that TS
takes. -/
def Obligations.JoiningTheLockSetReleasesTheSaws : Prop :=
  ∀ (saws : SawSet) (s : State),
    let t := s.joinLock saws
    let loses := fun p : Piece =>
      if p.state = .committed then ((p.commit.map (fun c => c.dropSet)).getD 0) &&& saws else 0
    t.ax.sawOut = s.ax.sawOut &&& ~~~saws
    ∧ t.ax.window = s.ax.window.map (fun w => { w with command := w.command &&& ~~~saws })
    ∧ t.ax.saws = s.ax.saws ∧ t.ax.bins = s.ax.bins ∧ t.ax.commits = s.ax.commits
    ∧ t.ax.recuts = s.ax.recuts
        + BitVec.ofNat 32 (s.dt.pieces.filter (fun p => loses p != 0 && !p.recut)).length
    ∧ (∀ n p, s.dt.piece? n = some p → ∃ q, t.dt.piece? n = some q
      ∧ (if loses p = 0 then { q with state := p.state } = p
        else { q with state := p.state } =
          { p with
            recut := true
            recutSaws := p.recutSaws ||| loses p
            commit := p.commit.map (fun c =>
              { c with
                dropSet := c.dropSet &&& ~~~saws
                target := (s.rs.boundRules p).policy.recutBin
                cause := .recut }) }))
    ∧ (∀ n p sol, s.dt.piece? n = some p → p.state = .solved → p.solution = some sol → sol.sawSet &&& saws ≠ 0 →
      (n ∈ t.ts.queue ∨ t.ts.solves n = true)
      ∧ ∃ q, t.dt.piece? n = some q ∧ (q.state = .scanned ∨ q.state = .solving))
    ∧ (let back := (s.dt.pieces.filter (fun p => p.state == .solved
          && (p.solution.map (fun sol => sol.sawSet &&& saws != 0)).getD false)).map (fun p => p.serial)
      (∃ pieces, pieces.map (fun p => p.serial) = s.dt.pieces.map (fun p => p.serial)
        ∧ t = back.foldl (fun (u : State) n => u.joinQueue n)
          { s with
            dt := { s.dt with pieces }
            ax := { s.ax with sawOut := t.ax.sawOut, window := t.ax.window, recuts := t.ax.recuts } })
      ∧ (∀ n p q, s.dt.piece? n = some p → t.dt.piece? n = some q → n ∉ back →
        q.state = p.state ∨ (s.ts.inHand = none ∧ n ∈ s.ts.queue ∧ q.state = .solving ∧ t.ts.solves n = true))
      ∧ (s.ts.inHand ≠ none →
        t.ts.inHand = s.ts.inHand ∧ t.ts.queue.Perm (back ++ s.ts.queue)
        ∧ (s.ts.queue.Pairwise (fun x y => s.dt.age x ≤ s.dt.age y) →
          t.ts.queue.Pairwise (fun x y => s.dt.age x ≤ s.dt.age y))
        ∧ ∀ n ∈ back, ∃ q, t.dt.piece? n = some q ∧ q.state = .scanned))

/-- The bin test of a CUT piece at a bin station above its last one (R140): its target's available bin drops it;
an unavailable one sends a SORT_PRIMARY piece to an alternate at a higher station, and any other to fallout; each is
counted on the bin. A bin is available while it is neither closed nor full and the deck is not FAULTED (R139). A piece
is not tested at a station again, and a CUT piece at E goes to fallout (R141); where no CUT piece stands nothing
changes. A forward beat takes the tests of all bins, from bin 24 down to bin 1 (the model's order, log 12). -/
def Obligations.BinTestDropsOrDiverts : Prop :=
  (∀ (g : Geometry) (s : State),
    (∀ p, s.dt.pieceAt g.e = some p → p.state = .cut →
      s.fallOut g = (s.sortPiece p.serial 0).onAx (fun ax => { ax with fallouts := ax.fallouts + 1 }))
    ∧ ((∀ p, s.dt.pieceAt g.e = some p → p.state ≠ .cut) → s.fallOut g = s)
    ∧ s.testBins g = [24, 23, 22, 21, 20, 19, 18, 17, 16, 15, 14, 13, 12, 11, 10, 9, 8, 7, 6, 5, 4, 3, 2, 1].foldl
        (fun (u : State) b => u.testBin g b) s
    ∧ (∀ b, ((∀ station p, g.binStation b = some station → s.dt.pieceAt station = some p → p.state ≠ .cut) →
      s.testBin g b = s))
    ∧ ∀ b, s.binAvailable b
      = ((s.ax.bins[b - 1]?).any (fun x => !x.closed && !x.isFull) && s.dt.state != .faulted))
  ∧ ∀ (g : Geometry) (b : Nat) (s : State) (station : Nat) (p : Piece) (c : CommitPart),
    g.binStation b = some station → s.dt.pieceAt station = some p → p.state = .cut → p.commit = some c →
    let part := fun f : CommitPart → CommitPart => s.onPiece p.serial (fun p =>
      { p with commit := p.commit.map (fun c => f { c with lastStation := some station }) })
    if (∀ l, c.lastStation = some l → l < station) then
      if c.target ≠ b then s.testBin g b = part id
      else if s.binAvailable b = true then
        s.testBin g b = ((part id).onBin b (fun x => { x with pulsing := true, pulses := x.pulses + 1 })).sortPiece
          p.serial b
      else if c.cause = .sortPrimary ∧ ∃ alt, c.alternate = some alt ∧ alt ≠ 0
          ∧ station < (g.binStation alt).getD 0 then
        s.testBin g b = (part (fun x => { x with target := c.alternate.getD 0, cause := .sortAlternate })).onBin b
          (fun x => { x with toAlternate := x.toAlternate + 1 })
      else
        s.testBin g b = (part (fun c => { c with target := 0, cause := .unavailable })).onBin b
          (fun x => { x with toFallout := x.toFallout + 1 })
    else s.testBin g b = s

/-- The commit of the piece that a forward beat brings to C (R104, R119, R121, R125, R126, R127, R128): a SOLVED
piece and one whose last solution holds no locked saw keep it, another gets a DEADLINE FALLBACK to the bound
fallback bin; a PENDING trim part is NOT_APPLIED, and a grade part PENDING, or met by that FALLBACK, is applied; the
commit part holds the drop set and the bins that the solution and the lock set give. No solve and no place in the
queue is left for the piece, and the commit is counted. A piece not SOLVED counts a deadline and an abandoned solve
its abandonment, a FALLBACK written a deadline fallback (R104, R105); the piece's override tally is added to its run's
override counts (R122). Where the solve in hand is the one abandoned, TS takes the next piece (R86); every other piece
of the table and everything else stands. Where no piece stands at C that can be committed, nothing changes. That the
FALLBACK's constraint is NONE is the model's choice (log 39). -/
def Obligations.CommitFixesDropSetAndBins : Prop :=
  (∀ (g : Geometry) (s : State),
    (∀ p, s.dt.pieceAt g.c = some p → p.state ≠ .scanned ∧ p.state ≠ .solving ∧ p.state ≠ .solved) →
    s.commitAt g = s)
  ∧ (∀ (g : Geometry) (s : State) (p : Piece), s.dt.pieceAt g.c = some p →
    p.state = .scanned ∨ p.state = .solving ∨ p.state = .solved →
    let t := s.commitAt g
    let rules := s.rs.boundRules p
    let write := p.state != .solved && (match p.solution with
      | some sol => sol.sawSet &&& s.ax.lockSet != 0
      | none => true)
    let fallback : Solution :=
      { kind := .fallback, reason := .deadline, saws := [], products := [], totalValue := 0, totalLength := 0,
        target := some (if rules.policy.fallback = 2 then rules.policy.remanBin else 0), constraint := .free,
        deadline := true, number := (p.solution.map (fun s => s.number)).getD 0, sawSet := 0 }
    t.ax.commits = s.ax.commits + 1 ∧ t.ax.lockSet = s.ax.lockSet
    ∧ t.ts.deadlines = s.ts.deadlines + (if p.state = .solved then 0 else 1)
    ∧ t.ts.deadlineFallbacks = s.ts.deadlineFallbacks + (if write then 1 else 0)
    ∧ t.ts.abandoned = s.ts.abandoned + (if s.ts.solves p.serial then 1 else 0)
    ∧ t.mem = (match s.tu.areaOfRun p.run with
      | none => s.mem
      | some x => (List.range 15).foldl (fun m i =>
          if p.overrides.getD i 0 = 0 then m
          else
            m.splice (areaAddr x + 0xD1B4 + 4 * i)
              (le32 (m.read32 (areaAddr x + 0xD1B4 + 4 * i) + BitVec.ofNat 32 (p.overrides.getD i 0)))) s.mem)
    ∧ p.serial ∉ t.ts.queue ∧ t.ts.solves p.serial = false
    ∧ (let left := s.onTs (fun ts => { ts with queue := ts.queue.filter (fun n => n != p.serial) })
      let freed := if s.ts.solves p.serial then
          (left.onTs (fun ts => { ts with inHand := none, abandoned := ts.abandoned + 1 })).takeNext
        else left
      t.dt.pieces.map (fun x => x.serial) = s.dt.pieces.map (fun x => x.serial)
      ∧ (∀ n, n ≠ p.serial → t.dt.piece? n = freed.dt.piece? n)
      ∧ (∀ n x, n ≠ p.serial → s.dt.piece? n = some x → ∃ y, t.dt.piece? n = some y ∧ { y with state := x.state } = x
        ∧ (y.state = x.state ∨ (s.ts.solves p.serial = true ∧ y.state = .solving ∧ t.ts.solves n = true)))
      ∧ t =
        { s with
          mem := t.mem
          dt := { s.dt with pieces := t.dt.pieces }
          ax := { s.ax with commits := t.ax.commits }
          ts := { freed.ts with deadlines := t.ts.deadlines, deadlineFallbacks := t.ts.deadlineFallbacks } })
    ∧ ∃ held q : Piece, t.dt.piece? p.serial = some q
      ∧ held = (if write then { p with solution := some fallback } else p)
      ∧ (let r : Piece := match p.gradePart with
          | some part => if write = true ∨ part.state = .pending then held.applyGradePart rules else held
          | none => held
        q =
          { r with
            state := .committed
            trimPart := p.trimPart.map (fun x => if x.state = .pending then { x with state := .notApplied } else x)
            commit := r.solution.map (commitPartOf g rules s.ax.lockSet r) }))
  ∧ ∀ (g : Geometry) (rules : Rules) (lockSet : SawSet) (p : Piece) (sol : Solution),
    let c := commitPartOf g rules lockSet p sol
    let size := p.sizeClass.getD 0
    c.target = c.primary ∧ c.lastStation = none
    ∧ (sol.kind = .fallback →
      c.dropSet = 0 ∧ c.primary = sol.target.getD 0 ∧ c.alternate = none ∧ c.cause = .solution)
    ∧ (sol.kind = .noSolution → c.dropSet = 0 ∧ c.primary = 0 ∧ c.alternate = none ∧ c.cause = .solution)
    ∧ (sol.kind = .normal → ∀ x, sol.products = [x] →
      c.primary = rules.primary size x.grade x.lengthClass
      ∧ c.alternate = some (rules.alternate size x.grade x.lengthClass) ∧ c.cause = .sortPrimary)
    ∧ (sol.kind = .normal → ∀ x y, sol.products = [x, y] →
      c.primary = rules.primary size x.grade x.lengthClass ∧ c.cause = .sortPrimary
      ∧ c.alternate = some
        (if rules.alternate size x.grade x.lengthClass = rules.alternate size y.grade y.lengthClass then
          rules.alternate size x.grade x.lengthClass else 0))
    ∧ (sol.kind = .normal → ∀ r left right, p.scan = some r → r.ends = some (left, right) →
      ∀ k, 1 ≤ k → k ≤ 20 → (has c.dropSet k = true ↔ k ∈ sol.saws
        ∨ (k ≤ g.sawCount ∧ has lockSet k = false ∧ left < g.sawPos k ∧ g.sawPos k < right
          ∧ (g.sawPos k < g.sawPos (sol.saws.getD 0 0) ∨ g.sawPos (sol.saws.getLastD 0) < g.sawPos k))))

/-- The issue for the lug that a forward beat brings to T − D (R129, R131): in a tracking state the command is the
drop set of a COMMITTED piece and empty else, it is set on the outputs and stands ISSUED in the window, which moves
with the map; in FAULTED the new entry is RELEASED and empty and the outputs stay. -/
def Obligations.IssueDrivesTheCommand : Prop :=
  ∀ (g : Geometry) (s : State) (lug : Lug), s.dt.lugAt (g.t - g.d) = some lug →
    let command := match s.dt.pieceOf lug with
      | some p => if p.state = .committed then (p.commit.map (fun c => c.dropSet)).getD 0 else 0
      | none => 0
    s.issue g = s.onAx (fun ax =>
      { ax with
        sawOut := if s.dt.state.tracking then command else ax.sawOut
        window :=
          { tag := lug.tag, command := if s.dt.state.tracking then command else 0, issued := s.dt.state.tracking }
            :: ax.window.take g.d })

/-! ## Scanning -/

/-- The scan-zone entry of a forward beat (R32, R48, R49, R50, R51, R79): the piece entering is bound to the ACTIVE
generation, becomes SCANNING with the READY heads as roster and a fresh assembly record, and its density is the
highest not above the policy's target whose cost every roster head's credit covers; DOWNGRADED marks a density below
a FIXED policy's target. The piece's density is the one that the beat's BEAT frames carry (R26), the piece entering is
the ADMITTED piece at SS, and a head is READY at the roster decision when its state is READY. Each READY head's credit
moves by +1, −1, −4 for a scan, by +2 for an idle lug, within 0..16; no other head's does. No other piece and no other
slot changes, and nothing else. -/
def Obligations.ZoneEntryFixesScanTermsAndCredits : Prop :=
  ∀ (g : Geometry) (ready : HeadSet) (s : State), s.sa.heads.length = 8 →
    let t := s.zoneEntry g ready
    let credit := fun (scan : Option Density) (c : Nat) =>
      match scan with
      | none => min 16 (c + 2)
      | some .x1 => min 16 (c + 1)
      | some .x2 => c - 1
      | some .x4 => c - 4
    let charged := fun scan : Option Density => ∀ (i : Nat) (hd : Head), s.sa.heads[i]? = some hd →
      t.sa.heads[i]? = some (if has ready (i + 1) then { hd with credit := credit scan hd.credit } else hd)
    let covers := fun d : Density => ∀ (i : Nat) (hd : Head), s.sa.heads[i]? = some hd → has ready (i + 1) = true →
      (match d with | .x1 => 0 | .x2 => 1 | .x4 => 4) ≤ hd.credit
    (∀ p, s.dt.entering g = some p ↔ s.dt.pieceAt g.ss = some p ∧ p.state = .admitted)
    ∧ (∀ h, has s.sa.readySet h = decide (s.sa.headState h = .ready))
    ∧ match s.dt.entering g with
    | none => charged none ∧ t = { s with sa := t.sa } ∧ t.sa = { s.sa with heads := t.sa.heads }
    | some p =>
      ∀ slot sl, s.rs.activeSlot = some slot → s.rs.slots[slot]? = some sl →
        ∃ d down, charged (some d) ∧ covers d ∧ s.fixedDensity ready = d
          ∧ (let policy := sl.rules.policy.density
            let target := if policy = 2 ∨ policy = 4 then 2 else if policy = 3 ∨ policy = 5 then 4 else 1
            d.code ≤ target ∧ (∀ e : Density, d.code < e.code → e.code ≤ target → ¬covers e)
            ∧ down = decide ((policy = 2 ∨ policy = 3) ∧ d.code < target))
          ∧ (∃ q, t.dt.piece? p.serial = some q ∧ q =
            { p with
              generation := sl.number.map (fun n => (n, slot))
              state := .scanning, density := some d, roster := some ready
              assembly := some { received := [], dropped := 0, downgraded := down, stale := false } })
          ∧ t.rs.slots[slot]? = some { sl with bound := sl.bound + 1 }
          ∧ t.da = { s.da with downgrades := if down then s.da.downgrades + 1 else s.da.downgrades }
          ∧ t.dt.pieces.map (fun x => x.serial) = s.dt.pieces.map (fun x => x.serial)
          ∧ (∀ n, n ≠ p.serial → t.dt.piece? n = s.dt.piece? n)
          ∧ (∀ k, k ≠ slot → t.rs.slots[k]? = s.rs.slots[k]?)
          ∧ t.sa.heads.length = 8
          ∧ t =
            { s with
              dt := { s.dt with pieces := t.dt.pieces }
              sa := { s.sa with heads := t.sa.heads }
              da := t.da
              rs := { s.rs with slots := t.rs.slots } }

/-- The assembly close (R36, R37, R38, R83, R84). A forward beat that moves a SCANNING piece's lug off SE closes its
assembly record into its scan record: left end and right end the least first and the greatest last mm of the heads
that saw wood, the measures their extremes, all absent without wood; the finds in rising order along, at equal
positions by head and then as reported, the first 64 of them, FINDS_TRUNCATED above; the missing set the roster heads
not received; INCOMPLETE for a missing head or an empty roster; GAP for a received head without wood between two with;
DOWNGRADED and STALE as marked. The piece is SCANNED and joins the solver queue at its serial's place; and with no
solve in hand TS takes the head of the queue, with the lock set and the trim override PENDING then. No other piece is
closed. -/
def Obligations.AssemblyClosesAndJoinsTheQueue : Prop :=
  (∀ (g : Geometry) (s : State),
    ((∀ p, s.dt.pieceAt (g.se + 1) = some p → p.state ≠ .scanning ∨ p.assembly = none) → s.closeAtZoneEnd g = s)
    ∧ ∀ p a, s.dt.pieceAt (g.se + 1) = some p → p.state = .scanning → p.assembly = some a →
      s.closeAtZoneEnd g =
        (s.onPiece p.serial (fun q =>
          { q with
            scan := some (closeAssembly (q.roster.getD 0) a)
            assembly := none })).joinQueue p.serial)
  ∧ (∀ (roster : HeadSet) (a : Assembly),
    let r := closeAssembly roster a
    let received := (List.range' 1 8).flatMap (fun h => a.received.filter (fun q => q.head == h))
    let wood := received.filter (fun q => q.extent.isSome)
    let merged := received.flatMap (fun q => q.finds)
    (r.ends = none ↔ wood = [])
    ∧ (∀ left right, r.ends = some (left, right) →
      (∃ q ∈ wood, q.extent.map Prod.fst = some left) ∧ (∃ q ∈ wood, q.extent.map Prod.snd = some right)
      ∧ ∀ q ∈ wood, ∀ x, q.extent = some x → left ≤ x.1 ∧ x.2 ≤ right)
    ∧ (r.measures = none ↔ wood = [])
    ∧ (∀ m, r.measures = some m →
      (∃ q ∈ wood, q.widthMin = m.widthMin) ∧ (∃ q ∈ wood, q.widthMax = m.widthMax)
      ∧ (∃ q ∈ wood, q.thickMin = m.thickMin) ∧ (∃ q ∈ wood, q.thickMax = m.thickMax)
      ∧ ∀ q ∈ wood, m.widthMin ≤ q.widthMin ∧ q.widthMax ≤ m.widthMax ∧ m.thickMin ≤ q.thickMin
        ∧ q.thickMax ≤ m.thickMax)
    ∧ (∃ finds : List Find,
      finds.Pairwise (fun x y => x.along ≤ y.along)
      ∧ (∀ k, finds.filter (fun f => f.along == k) = merged.filter (fun f => f.along == k))
      ∧ r.finds = finds.take 64 ∧ r.truncated = decide (64 < finds.length))
    ∧ (∀ h, has r.missing h = (has roster h && !(a.received.any (fun q => q.head == h))))
    ∧ r.incomplete = (r.missing != 0 || roster == 0)
    ∧ (r.gap = true ↔ ∃ q ∈ received, ∃ x ∈ received, ∃ y ∈ received,
      q.extent = none ∧ x.extent ≠ none ∧ y.extent ≠ none ∧ x.head < q.head ∧ q.head < y.head)
    ∧ r.downgraded = a.downgraded ∧ r.stale = a.stale)
  ∧ (∀ (n : Word) (s : State), ∃ before after,
    s.ts.queue = before ++ after ∧ (∀ x ∈ before, s.dt.age x ≤ s.dt.age n)
    ∧ (∀ x, after.head? = some x → s.dt.age n < s.dt.age x)
    ∧ s.joinQueue n = ((s.onPiece n (fun p => { p with state := .scanned })).onTs (fun ts =>
        { ts with queue := before ++ n :: after })).takeNext)
  ∧ ∀ s : State,
    (s.ts.inHand ≠ none ∨ s.ts.queue = [] → s.takeNext = s)
    ∧ ∀ n rest p number slot, s.ts.inHand = none → s.ts.queue = n :: rest → s.dt.piece? n = some p →
      p.generation = some (number, slot) →
      s.takeNext =
        (s.onPiece n (fun q => { q with state := .solving })).onTs (fun ts =>
          { ts with
            queue := rest
            inHand := some
              { serial := n, slot := slot, lockView := s.ax.lockSet, arrival := false
                trim := match p.trimPart with
                  | some t => if t.state = .pending then some (t.kind, t.reference) else none
                  | none => none }
            taken := ts.taken + 1 })

/-- The alignment search on a forward beat (R54, R55, R58): with the deck RUNNING and the clear zone holding a
PENDING search whose head is READY steps, its head ALIGNING, and a SUSPENDED one steps again; a STEPPING search
sends its step, repeats it once when its echo is missing, and ends with ECHO at the second miss. Then BEAT goes to
each head READY at the roster decision and READY still (R26, log 16): the tag at SS, with the piece's density in mode
SCAN when one entered on the beat, else 1x in mode IDLE. -/
def Obligations.ForwardBeatStepsTheSearchAndSendsBeats : Prop :=
  (∀ (g : Geometry) (ready : HeadSet) (s : State),
    let clear := s.dt.state = .running ∧ (∀ l ∈ s.dt.lugs.take (g.se + 1), l.piece = none)
      ∧ ∀ l ∈ s.dt.upstream, l.piece = none
    let step := fun u : State =>
      (u.send u.da.head (.alignStep u.da.d)).onDa (fun da => { da with search := .stepping, outstanding := true })
    (s.da.search = .idle → s.alignBeat g ready = s)
    ∧ (s.da.search = .pending → clear → has ready s.da.head = true →
      s.alignBeat g ready = step (s.onHead s.da.head (fun hd => { hd with state := .aligning })))
    ∧ (s.da.search = .pending → ¬(clear ∧ has ready s.da.head = true) → s.alignBeat g ready = s)
    ∧ (s.da.search = .suspended → clear → s.alignBeat g ready = step s)
    ∧ (s.da.search = .suspended → ¬clear → s.alignBeat g ready = s)
    ∧ (s.da.search = .stepping → s.da.outstanding = false → s.alignBeat g ready = step s)
    ∧ (s.da.search = .stepping → s.da.outstanding = true → s.da.miss = 0 →
      s.alignBeat g ready = step (s.onDa (fun da => { da with miss := 1 })))
    ∧ (s.da.search = .stepping → s.da.outstanding = true → s.da.miss ≠ 0 →
      s.alignBeat g ready = s.endSearch .echo))
  ∧ ∀ (tag : Byte) (scan : Option Density) (ready : HeadSet) (s : State),
    s.sendBeats tag scan ready =
      { s with
        out := s.out ++ ((List.range' 1 8).filter (fun h => has ready h && s.sa.headState h == .ready)).map (fun h =>
          .frame h (.beat tag (scan.getD .x1) scan.isSome)) }

/-- The end of a search (R60, R62): the ALIGN_HEAD cell gets result and detail; a locked delay becomes the head's
aligned delay; the last outcome holds cause, head and delay, and no search is left; an ALIGNING head returns to READY,
sent its aligned delay first unless the search locked one, and goes to STANDBY, sent STANDBY, under the long-stop mark.
That no step is outstanding then, while head, cell, d, unseen mark and miss count stay, is the model's choice (log 40).
The detail's cause is RANGE 1, ECHO 2, LINK 3, CANCEL 4, LINE_RESET 5 and 0 for OK (10.4). A request in hand ends by
R168: its cell is answered where it still reads TAKEN; else nothing is written and the result is counted as dropped; the
cell leaves the in-hand set either way. What the end writes beside is the model's choice (log 19). -/
def Obligations.SearchEndAnswersAndFreesTheHead : Prop :=
  [SearchCause.locked, .range, .echo, .link, .cancel, .lineReset].map SearchCause.code = [0, 1, 2, 3, 4, 5]
  ∧ (∀ (cell : Nat) (result : Result) (detail : Word) (area : List Byte) (s : State),
    let t := s.endInHand cell result detail area
    (s.xi.inHand.find? (fun h => h.cell == cell) = none → t = s)
    ∧ ∀ held, s.xi.inHand.find? (fun h => h.cell == cell) = some held →
      if s.mem.read32 (0x800 + 64 * cell) = 2 then State.Answers cell held.kind held.tag result detail area s t
      else t = s.onXi (fun xi =>
        { xi with dropped := xi.dropped + 1, inHand := xi.inHand.filter (fun h => h.cell != cell) }))
  ∧ ∀ (cause : SearchCause) (s : State) (hd : Head), s.da.search ≠ .idle → s.sa.head? s.da.head = some hd →
    let t := s.endSearch cause
    let h := s.da.head
    let result : Result := match cause with
      | .locked => .done
      | .range => .noTransition | .echo => .noTransition | .link => .noTransition
      | .cancel => .cancelled | .lineReset => .cancelled
    let answered := s.endInHand s.da.cell result (BitVec.ofNat 32 (cause.code + 256 * s.da.d)) []
    let aligning := hd.state == .aligning
    t.da =
      { s.da with
        search := .idle, outstanding := false
        last := some { cause, head := h, delay := s.da.d } }
    ∧ t.sa.head? h = some
      { hd with
        delay := if cause = .locked then s.da.d else hd.delay
        state := if aligning then (if s.sa.longStop then .standby else .ready) else hd.state }
    ∧ (∀ k, k ≠ h → t.sa.head? k = s.sa.head? k)
    ∧ t.out = answered.out
      ++ (if aligning && cause != .locked then [.frame h (.alignStep hd.delay)] else [])
      ++ (if aligning && s.sa.longStop then [.frame h .standby] else [])
    ∧ t = { answered with da := t.da, sa := { s.sa with heads := t.sa.heads }, out := t.out }

/-! ## The sweep -/

/-- SWEEP (R162, R164, R166, R174, R175): while ENABLE is 1 a sweep is counted, the release mark and then the notify
count are read (the model's order, log 23), and the visits begin at cell 0; while it is 0 no sweep starts. The visits
that a sweep before has left come first: a cell that can be taken is taken as the row of its kind takes it, each take
an event of its own, and any other is passed (the model's choice, log 5). A valid mark, which is the fill mark, the
last valid mark or the first unit of a record not released, clears RELEASE_BAD, and where it moves frees the records
before it, writes waiting ones and then tests the holds; an invalid one sets RELEASE_BAD, with FAULT and the count when
it was clear. The notify count is taken up to 256, and JOURNAL is raised when a count of 1 or more has been reached. -/
def Obligations.SweepReadsTheControlBlock : Prop :=
  (∀ (host : List HostWrite) (s : State), hostInWindow host = true →
    let v := State.visitCells 32 (s.met host)
    ∃ t, exec (.sweep host) s = .next t
      ∧ (if s.xi.enable = true then
        ((((v.onXi (fun xi => { xi with sweeps := xi.sweeps + 1 })).readReleaseMark).readNotifyCount).onXi (fun xi =>
          { xi with sweep := some 0 })).Settles true v.image t
      else v.Settles false v.image t))
  ∧ (∀ (n : Nat) (s : State),
    State.visitCells 0 s = s
    ∧ (s.xi.sweep = none → State.visitCells n s = s)
    ∧ ∀ cell, s.xi.sweep = some cell →
      if s.takeable cell = true then
        ∃ t, (s.takeCell (ReqKind.ofCode (cellKind s.mem cell)) cell).Settles false s.image t
          ∧ State.visitCells (n + 1) s = State.visitCells n t
      else State.visitCells (n + 1) s = State.visitCells n (s.onXi (fun xi => { xi with sweep := cellAfter cell })))
  ∧ (∀ (kind : Option ReqKind) (cell : Nat) (s : State), s.Comes kind cell →
    Does (takeCommand kind cell []) s (s.clearOut.takeCell kind cell))
  ∧ ∀ s : State,
    let mark := (s.mem.read32 releaseMarkAddr).toNat
    let valid := mark < 49152 ∧ (mark = s.xi.fill ∨ mark = s.xi.release ∨ mark ∈ s.xi.starts)
    let count := min (s.mem.read32 notifyCountAddr).toNat 256
    let counted := s.onXi (fun xi => { xi with notifyCount := count })
    (valid → mark = s.xi.release → s.readReleaseMark = s.onXi (fun xi => { xi with releaseBad := false }))
    ∧ (valid → mark ≠ s.xi.release → s.readReleaseMark =
      ((s.onXi (fun xi =>
        { xi with
          releaseBad := false, release := mark
          starts := xi.starts.dropWhile (fun u => u != mark) })).drainAll).syncHolds)
    ∧ (¬valid → s.xi.releaseBad = true → s.readReleaseMark = s)
    ∧ (¬valid → s.xi.releaseBad = false → s.readReleaseMark =
      (s.onXi (fun xi => { xi with releaseBad := true, releaseBads := xi.releaseBads + 1 })).notify .fault)
    ∧ s.readNotifyCount =
      (if 1 ≤ count ∧ count ≤ s.xi.recordsSince then
        (counted.notify .journal).onXi (fun xi => { xi with recordsSince := 0 })
      else counted)

/-- A record is written at the fill mark (R172, R175, R177): where its units do not fit before the ring's end a
filler, its header and zeros, fills the rest and the record stands at unit 0; both take a sequence number and a mark,
the filler first; the fill mark moves past them; kind, length and sequence stand in the header and the body after
them; the record counts towards JOURNAL, which is raised where the notify count is reached, with the message of R179; no
byte outside the units changes, and nothing else does. The kind codes are PIECE 1, LOG 2, RUN_CLOSE 3, FILLER 4
(10.5). -/
def Obligations.RecordIsWrittenAtTheFillMark : Prop :=
  [RecordKind.piece, .log, .runClose, .filler].map RecordKind.code = [1, 2, 3, 4]
  ∧ ∀ (kind : RecordKind) (len : Nat) (body : List Byte) (s : State),
    1 ≤ len → len ≤ 20 → s.xi.fill < 49152 → body.length ≤ 16 * len - 4 → kind ≠ .filler →
    let t := s.writeRecord kind len body
    let left := 49152 - s.xi.fill
    let wraps := left < len
    let start := if wraps then 0 else s.xi.fill
    let sequence : Half := if wraps then s.xi.sequence + 1 else s.xi.sequence
    t.xi.fill = (start + len) % 49152
    ∧ t.xi.sequence = sequence + 1
    ∧ t.xi.starts = s.xi.starts ++ (if wraps then [s.xi.fill, 0] else [s.xi.fill])
    ∧ t.xi.fillers = s.xi.fillers + (if wraps then 1 else 0)
    ∧ t.xi.fillerUnits = s.xi.fillerUnits + (if wraps then BitVec.ofNat 32 left else 0)
    ∧ t.mem.readBytes (0x40000 + 16 * start) (16 * len) = padTo (16 * len)
        ([BitVec.ofNat 8 kind.code, BitVec.ofNat 8 len] ++ le16 sequence.toNat ++ body)
    ∧ (wraps → t.mem.readBytes (0x40000 + 16 * s.xi.fill) (16 * left) =
        [4, BitVec.ofNat 8 left] ++ le16 s.xi.sequence.toNat ++ List.replicate (16 * left - 4) 0)
    ∧ (∀ a, (a < 0x40000 + 16 * start ∨ 0x40000 + 16 * (start + len) ≤ a) →
        (wraps → a < 0x40000 + 16 * s.xi.fill ∨ 0x100000 ≤ a) → t.mem.read a = s.mem.read a)
    ∧ (if 1 ≤ s.xi.notifyCount ∧ s.xi.notifyCount ≤ s.xi.recordsSince + 1 then
        t.xi.recordsSince = 0 ∧ t.xi.raises.journal = s.xi.raises.journal + 1
      else t.xi.recordsSince = s.xi.recordsSince + 1 ∧ t.xi.raises.journal = s.xi.raises.journal)
    ∧ t.xi.pieceRecords = s.xi.pieceRecords + (if kind = .piece then 1 else 0)
    ∧ t.xi.logRecords = s.xi.logRecords + (if kind = .log then 1 else 0)
    ∧ t.xi.closeRecords = s.xi.closeRecords + (if kind = .runClose then 1 else 0)
    ∧ (let raised := 1 ≤ s.xi.notifyCount ∧ s.xi.notifyCount ≤ s.xi.recordsSince + 1
      t =
        { s with
          mem := t.mem
          out := s.out ++ (if raised ∧ s.xi.port = true ∧ s.xi.notice &&& s.xi.noticeMask = 0
            ∧ s.xi.noticeMask.getLsbD 0 = true then [.msi] else [])
          xi :=
            { s.xi with
              fill := t.xi.fill, sequence := t.xi.sequence, starts := t.xi.starts, recordsSince := t.xi.recordsSince
              fillers := t.xi.fillers, fillerUnits := t.xi.fillerUnits, pieceRecords := t.xi.pieceRecords
              logRecords := t.xi.logRecords, closeRecords := t.xi.closeRecords
              notice := if raised then s.xi.notice ||| 1 else s.xi.notice
              raises := { s.xi.raises with journal := t.xi.raises.journal } } })

/-- The bytes of the PIECE, LOG and RUN_CLOSE records and of the image of QUERY_LUG, field by field at the offsets of
10.4.1 and 10.5, and the volume of a log (R22, R98, R114, R128, R156, R183). An absent field is 0 where its values
exclude 0 and all ones else, and a one-bit flag is then clear; how absent fields share a byte, and the image of no lug,
are the model's (log 20), and so is a width or thickness above 4095 written modulo 4096 (log 24). The volume is the
nearest whole dm³, halves up, with π as the fraction of log 32. That a lug without a drop mark has the bin 0 is the
model's too (log 20). The codes of the states and kinds are those of the table
of R183. -/
def Obligations.RecordsAndImagesHoldTheirFields : Prop :=
  let on := fun (c : Bool) (v : Nat) => if c then v else 0
  let flags := fun scan : Option ScanRecord =>
    match scan with
    | none => 0
    | some r => on r.incomplete 1 + on r.gap 2 + on r.truncated 4 + on r.downgraded 8 + on r.stale 16 + 128
  let kindAndReason := fun sol : Option Solution =>
    match sol with
    | none => 0xF0
    | some sol => sol.kind.code + 16 * sol.reason.code
  let saw := fun (sol : Option Solution) (i : Nat) => (sol.map (fun sol => sol.saws.getD i 0)).getD 0
  let product := fun (sol : Option Solution) (i : Nat) => sol.bind (fun sol => sol.products[i]?)
  (∀ p : Piece,
    let r : List Byte := List.replicate 4 0 ++ pieceBody p
    let part := fun i n => (r.drop i).take n
    let gradeAndClass := fun i => ((product p.solution i).map (fun x => x.grade + 16 * x.lengthClass)).getD 0xF0
    let value := fun i => ((product p.solution i).map (fun x => x.value)).getD 0xFFFF
    let measures := fun f : Measures → Nat × Nat =>
      ((p.scan.bind (fun c => c.measures)).map (fun m => (f m).1 % 4096 + (f m).2 % 4096 * 4096)).getD 0xFFFFFF
    let solved := fun i => (((p.gradePart.bind (fun x => x.solved)).bind (fun l => l[i]?)).map Prod.fst).getD 0
    r.length = 64 + 4 * p.findCount
    ∧ part 0x04 4 = le32 p.serial ∧ part 0x08 2 = le16 p.run
    ∧ part 0x0A 2 = le16 ((p.generation.map Prod.fst).getD 0) ∧ part 0x0C 2 = [p.tag] ++ le8 p.findCount
    ∧ part 0x0E 1 = le8 (on p.handLoaded 1 + on p.lost 2 + on p.recut 4
        + on ((p.solution.map (fun sol => sol.deadline)).getD false) 8 + on p.scan.isSome 16 + on p.commit.isSome 32)
    ∧ part 0x0F 1 = le8 ((p.density.map Density.code).getD 0)
    ∧ part 0x10 1 = le8 ((p.roster.map (fun x => x.toNat)).getD 0xFF)
    ∧ part 0x11 1 = le8 ((p.scan.map (fun c => c.missing.toNat)).getD 0xFF)
    ∧ part 0x12 1 = le8 (flags p.scan) ∧ part 0x13 1 = le8 (p.sizeClass.getD 0xFF)
    ∧ part 0x14 2 = le16 ((p.scan.bind (fun c => c.ends.map Prod.fst)).getD 0xFFFF)
    ∧ part 0x16 2 = le16 ((p.scan.bind (fun c => c.ends.map Prod.snd)).getD 0xFFFF)
    ∧ part 0x18 3 = le24 (measures (fun m => (m.widthMin, m.widthMax)))
    ∧ part 0x1B 3 = le24 (measures (fun m => (m.thickMin, m.thickMax)))
    ∧ part 0x1E 1 = le8 (kindAndReason p.solution)
    ∧ part 0x1F 1 = le8 ((p.solution.map (fun sol => sol.constraint.code)).getD 0xF
        + 16 * (p.cutCheck.map CutCheck.code).getD 0)
    ∧ part 0x20 3 = le8 (saw p.solution 0) ++ le8 (saw p.solution 1) ++ le8 (saw p.solution 2)
    ∧ part 0x23 1 = le8 ((p.solution.map (fun sol => min sol.number 255)).getD 0xFF)
    ∧ part 0x24 3 = le8 (gradeAndClass 0) ++ le16 (value 0) ∧ part 0x27 3 = le8 (gradeAndClass 1) ++ le16 (value 1)
    ∧ part 0x2A 1 = le8 (match p.gradePart with
      | none => 8 * 3 + 32
      | some x => x.state.code + (match x.kind with | .forceGrade _ => 4 | .accept => 0) + 8 * x.source.code
          + on x.authority 32)
    ∧ part 0x2B 1 = le8 (match p.trimPart with
      | none => 16 * 3
      | some x => x.state.code + 4 * (match x.kind with | .shorter => 1 | .cutInTwo => 2 | .reman => 3)
          + 16 * x.source.code)
    ∧ part 0x2C 3 = le24 ((p.commit.map (fun c => c.dropSet.toNat)).getD 0xFFFFF
        + 0x100000 * (p.commit.map (fun c => c.cause.code)).getD 0)
    ∧ part 0x2F 1 = le8 (p.bin.getD 0xFF)
    ∧ part 0x30 4 = le24 (if p.cutCheck = none then 0xFFFFF else p.mismatch.toNat) ++ le8 ((p.commit.map (fun c => c.primary)).getD 0xFF)
    ∧ part 0x34 4 = le24 p.recutSaws.toNat ++ le8 ((p.commit.bind (fun c => c.alternate)).getD 0xFF)
    ∧ part 0x38 1 = le8 ((p.commit.map (fun c => c.target)).getD 0xFF)
    ∧ part 0x39 1 = le8 (match p.gradePart.map GradePart.kind with | some (.forceGrade g) => g | _ => 0)
    ∧ part 0x3A 2 = le16 ((p.trimPart.bind (fun x => x.reference)).getD 0xFFFF)
    ∧ part 0x3C 4 = le8 (solved 0 + 16 * solved 1) ++ [0, 0, 0]
    ∧ r.drop 0x40 = ((p.scan.map (fun c => c.finds)).getD []).flatMap (fun f =>
        le32 (BitVec.ofNat 32 (f.along + f.across * 2 ^ 14 + f.kind.code * 2 ^ 22 + f.size * 2 ^ 26
          + f.face * 2 ^ 30))))
  ∧ (∀ l : LogRecord, (List.replicate 4 0 : List Byte) ++ logBody l =
      ([0, 0, 0, 0] : List Byte) ++ le16 l.report.tag.toNat ++ le8 (l.logClass.getD 0xFF) ++ [l.report.sweep]
      ++ le16 l.report.length.toNat ++ le16 l.report.smallEnd.toNat ++ le16 l.report.largeEnd.toNat ++ le16 l.run
      ++ le32 (BitVec.ofNat 32 l.volume) ++ le16 l.generation)
  ∧ (∀ (mem : Memory) (x : Area) (e : RunEntry),
    let at32 := fun offset => mem.read32 ((if x = .a then 0x20000 else 0x30000) + offset)
    (List.replicate 4 0 : List Byte) ++ closeBody mem x e =
      ([0, 0, 0, 0] : List Byte) ++ le16 (e.number.getD 0) ++ le8 (if x = .a then 0 else 1)
      ++ le8 (match e.reason with | none => 0 | some .switch => 1 | some .close => 2 | some .lineReset => 3)
      ++ le32 (e.label.getD 0) ++ le32 (at32 0x08) ++ le32 (at32 0x0C) ++ le32 (at32 0x10)
      ++ le32 (at32 (0xD188 + 4 * 10)))
  ∧ (∀ (lug : Option (Int × Lug)) (q : Option Piece),
    let r : List Byte := List.replicate 16 0 ++ queryImage lug q
    let part := fun i n => (r.drop i).take n
    r.length = 64
    ∧ (lug = none → part 0x10 8 = le8 (on q.isSome 4) ++ [0xFF, 0xFF, 0, 0, 0, 0, 0])
    ∧ (∀ station l, lug = some (station, l) → part 0x10 8 =
      le8 (1 + on l.untracked 2 + on q.isSome 4) ++ [l.tag, BitVec.ofInt 8 station]
      ++ le8 ((l.dropMark.map (fun m => m.bin)).getD 0) ++ le16 ((l.dropMark.map (fun m => m.run)).getD 0) ++ [0, 0])
    ∧ (q = none → r.drop 0x18 = List.replicate 11 0 ++ [0xFF, 0xF0] ++ List.replicate 7 0 ++ List.replicate 4 0xFF
        ++ List.replicate 15 0xFF ++ [0])
    ∧ ∀ p, q = some p → p.overrides.length = 15 →
      let grade := fun i => ((product p.solution i).map (fun x => x.grade)).getD 0
      part 0x18 4 = le32 p.serial ∧ part 0x1C 4 = le16 p.run ++ le16 ((p.generation.map Prod.fst).getD 0)
      ∧ part 0x20 1 = le8 (p.state.code + on p.handLoaded 16 + on p.lost 32 + on p.recut 64)
      ∧ part 0x21 3 = le8 ((p.density.map Density.code).getD 0) ++ le8 (flags p.scan) ++ le8 (p.sizeClass.getD 0xFF)
      ∧ part 0x24 4 = le8 (kindAndReason p.solution) ++ le8 (saw p.solution 0) ++ le8 (saw p.solution 1)
          ++ le8 (saw p.solution 2)
      ∧ part 0x28 2 = le8 (grade 0) ++ le8 (grade 1)
      ∧ part 0x2A 2 = le8 ((p.gradePart.map (fun x => x.state.code)).getD 0
          + 16 * (p.trimPart.map (fun x => x.state.code)).getD 0) ++ le8 ((p.cutCheck.map CutCheck.code).getD 0)
      ∧ part 0x2C 4 = le8 ((p.commit.map (fun c => c.primary)).getD 0xFF)
          ++ le8 ((p.commit.bind (fun c => c.alternate)).getD 0xFF)
          ++ le8 ((p.commit.map (fun c => c.target)).getD 0xFF) ++ le8 (p.bin.getD 0xFF)
      ∧ ∀ i, i < 15 → part (0x30 + i) 1 = le8 (p.overrides.getD i 0))
  ∧ ([.admitted, .scanning, .scanned, .solving, .solved, .committed, .cut, .sorted].map PieceState.code
      = [1, 2, 3, 4, 5, 6, 7, 8]
    ∧ [.x1, .x2, .x4].map Density.code = [1, 2, 4]
    ∧ [.normal, .fallback, .noSolution].map SolutionKind.code = [1, 2, 3]
    ∧ [.noReason, .scan, .override, .deadline, .noWood, .noCandidate].map Reason.code = [0, 1, 2, 3, 4, 5]
    ∧ [.free, .shorter, .twoOnly, .reman].map Constraint.code = [0, 1, 2, 3]
    ∧ [.clean, .mismatch, .uncut, .notCutEmpty].map CutCheck.code = [1, 2, 3, 4]
    ∧ [.solution, .sortPrimary, .sortAlternate, .recut, .cutCheck, .unavailable].map TargetCause.code
      = [1, 2, 3, 4, 5, 6]
    ∧ [.station1, .station2, .remote].map Source.code = [0, 1, 2]
    ∧ (∀ grade, [.accept, .forceGrade grade, .trimShorter, .cutInTwo, .reman].map OverrideKind.code = [0, 1, 2, 3, 4])
    ∧ [.pending, .applied, .notApplied].map PartState.code = [1, 2, 3]
    ∧ [.knotSound, .knotLoose, .hole, .split, .shake, .wane, .stain, .pitchPocket, .skip, .check, .other].map
      FindKind.code = [0, 1, 2, 3, 4, 5, 6, 7, 8, 9, 15])
  ∧ ∀ r : LogReport,
    let d1 := r.smallEnd.toNat
    let d2 := r.largeEnd.toNat
    let scaled := 314159265358979323846264338327950288 * (r.length.toNat * (d1 * d1 + d1 * d2 + d2 * d2))
    let whole := 12 * 1000000 * 10 ^ 35
    2 * whole * logVolume r ≤ 2 * scaled + whole ∧ 2 * scaled + whole < 2 * whole * (logVolume r + 1)

/-! ## Requests -/

/-- A row that takes a request acts when the sweep in progress comes to its cell, the cell can be taken and its kind
is the row's; else only the host writes it carries happen (the model's choice, log 3). A kind code that 9.3.1 does
not list, 0 or 19 and above, ends UNKNOWN_KIND and is counted (R167, R177); the codes 1 to 18 name the kinds in the
order of 9.3.1. A cell can be taken when its state word, the first of its 64 bytes from 0x800 + 64 × index, reads POSTED
1 and it is not in the in-hand set (R165, R166, R169); its kind code stands at its offset 0x04. The sweep goes through
the cells in rising index and ends after cell 31 (R166): it comes next to a cell that it has not passed when it takes
none before it. The parameters are read from the cell's bytes at offsets 0x10 to 0x3F, a field of several bytes least
significant first (10.4, R183). -/
def Obligations.TakeRowsActOnTheirRequestAlone : Prop :=
  (∀ kind cell host s, hostInWindow host = true → ¬(s.met host).Comes kind cell →
    Does (takeCommand kind cell host) s (s.met host))
  ∧ OnTake none (fun c s m cell =>
    AnswersAtOnce c s m cell ((m.handed cell).onXi (fun xi => { xi with unknownKinds := xi.unknownKinds + 1 }))
      .unknownKind 0 [])
  ∧ (∀ code, ReqKind.ofCode code = none ↔ code = 0 ∨ 19 ≤ code)
  ∧ (List.range' 1 18).map ReqKind.ofCode = [some .setGeometry, some .startLine, some .resume, some .holdLoader,
      some .releaseLoader, some .queryLug, some .enableHead, some .disableHead, some .alignHead, some .cancelAlign,
      some .activateRules, some .remoteOverride, some .lockSaw, some .unlockSaw, some .setBin, some .openRun,
      some .closeRun, some .releaseArea]
  ∧ (∀ (cell : Nat) (m : State),
    (m.takeable cell = true ↔ m.mem.read32 (0x800 + 64 * cell) = 1 ∧ ∀ h ∈ m.xi.inHand, h.cell ≠ cell)
    ∧ (m.sweepReaches cell = true ↔ cell < 32 ∧ ∃ next, m.xi.sweep = some next ∧ next ≤ cell
      ∧ ∀ passed, next ≤ passed → passed < cell → m.takeable passed = false)
    ∧ cellKind m.mem cell = m.mem.read16 (0x804 + 64 * cell)
    ∧ ∀ offset, 0x10 ≤ offset →
      (offset < 0x40 → (params m cell).byte offset = (m.mem.read (0x800 + 64 * cell + offset)).toNat)
      ∧ (offset + 1 < 0x40 → (params m cell).half offset = m.mem.read16 (0x800 + 64 * cell + offset))
      ∧ (offset + 3 < 0x40 → (params m cell).word offset = m.mem.read32 (0x800 + 64 * cell + offset)))
  ∧ (∀ cell, cell < 31 → cellAfter cell = some (cell + 1)) ∧ cellAfter 31 = none
  ∧ ∀ (mem : Memory) (a : Nat),
    mem.read16 a = (mem.read a).toNat + 256 * (mem.read (a + 1)).toNat
    ∧ (mem.read32 a).toNat = (mem.read a).toNat + 256 * (mem.read (a + 1)).toNat + 65536 * (mem.read (a + 2)).toNat
      + 16777216 * (mem.read (a + 3)).toNat

/-- HOLD_LOADER and RELEASE_LOADER (R12): HOST joins or leaves the hold set and the cell ends OK, in every deck state;
the gate is then closed, or open exactly where the deck is RUNNING and no reason remains; and a board that the loader
was placing when HOST closed the gate is admitted HAND_LOADED when HOST is the one reason and the resources exist. The
detail 0, the zeroed result area and the kind written back are the model's choices (log 19), and so is what the end of
the event does to the Status Block and the raisings of HOLD (logs 9 and 31). START_LINE and RESUME (R17, R19).
START_LINE in HALTED with the e-stop released sets position and high-water mark to 0 and the deck runs, or stands
STOPPED_CLEAR with the run line down; else REFUSED_STATE. RESUME in FAULTED with ESTOP and STALL absent or cleared
takes the causes away, after REVERSE with the high-water mark at the position, and the deck runs, or stands stopped,
loaded or clear; else REFUSED_STATE, with the causes not cleared as detail in FAULTED. -/
def Obligations.LoaderAndLineRequestsAct : Prop :=
  OnTake (some .holdLoader) (fun c s m cell =>
    AnswersAtOnce c s m cell ((m.handed cell).onDt (fun d => { d with hold := { d.hold with host := true } }))
      .done 0 []
    ∧ ∀ t, exec c s = .next t → t.dt.hold.host = true ∧ t.dt.gate = false)
  ∧ OnTake (some .releaseLoader) (fun c s m cell =>
    AnswersAtOnce c s m cell ((m.handed cell).onDt (fun d => { d with hold := { d.hold with host := false } }))
      .done 0 []
    ∧ ∀ t, exec c s = .next t → t.dt.hold.host = false
      ∧ (t.dt.gate = true ↔ t.dt.state = .running ∧ t.dt.hold.isEmpty = true))
  ∧ OnTake (some .startLine) (fun c s m cell =>
    let u := m.handed cell
    if m.dt.state = .halted ∧ m.dt.estop = false then
      AnswersAtOnce c s m cell ((u.onDt (fun d => { d with position := 0, highWater := 0 })).setDeck
        (if m.dt.runLine then .running else .stoppedClear)) .done 0 []
    else AnswersAtOnce c s m cell u .refusedState 0 [])
  ∧ OnTake (some .resume) (fun c s m cell =>
    let u := m.handed cell
    let estop := m.dt.causes.estop = .standing
    let stall := m.dt.causes.stall = .standing
    if m.dt.state = .faulted ∧ ¬estop ∧ ¬stall then
      AnswersAtOnce c s m cell
        ((u.onDt (fun d =>
          { d with
            highWater := if d.causes.reverse = .absent then d.highWater else d.position
            causes := { estop := .absent, stall := .absent, reverse := .absent } })).setDeck
          (if m.dt.runLine then .running else if m.dt.loaded then .stoppedLoaded else .stoppedClear)) .done 0 []
    else if m.dt.state = .faulted then
      AnswersAtOnce c s m cell u .refusedState
        ((if m.dt.causes.estop = .standing then 1 else 0) + (if m.dt.causes.stall = .standing then 2 else 0)) []
    else AnswersAtOnce c s m cell u .refusedState 0 [])
  ∧ ∀ (s : State) (a : Area), s.dt.hold.host = true → s.dt.hold.onlyHost = true → s.dt.gate = false →
    s.dt.state.tracking = true → s.dt.pieces.length < 96 → 39 ≤ unreservedUnits s.dt s.tu s.xi →
    s.tu.openArea = some a → s.rs.activeSlot ≠ none → s.offerLug true = s.admitBoard a true

/-- SET_GEOMETRY (R21, R184): in UNCONFIGURED a record that passes is kept and the deck becomes HALTED; one that
fails ends BAD_PARAM with the number of the first field, in record order, that breaks its range or an ordering
relation; in any other state ALREADY_SET. A record passes exactly when every range and every ordering relation
holds, and then E ≥ T + 25 and T ≥ C + 1 ≥ SE + 3. The record's fields stand at 0x440 to 0x46F as 10.3 gives. Each
field has the range of 1.9, and an ordering relation is tested at the field of higher number: SS ≤ SE at SE (1), SE < A1
at A1 (2), SE < A2 at A2 (3), A1 < C and A2 < C at C (4), C + D ≤ T at T (6), T < B1 at B1 (8), each bin above the one
before it (9 to 31), and B24 < E at B24 (31), as E is field 7. -/
def Obligations.SetGeometryKeepsARecordThatPasses : Prop :=
  OnTake (some .setGeometry) (fun c s m cell =>
    let u := m.handed cell
    if m.dt.state = .unconfigured then
      match geometryFailure (geometryFields u.mem) with
      | some n => AnswersAtOnce c s m cell u .badParam (BitVec.ofNat 32 n) []
      | none =>
        AnswersAtOnce c s m cell
          ((u.onDt (fun d => { d with geometry := some (geometryOf (geometryFields u.mem)) })).setDeck .halted)
          .done 0 []
    else AnswersAtOnce c s m cell u .alreadySet 0 [])
  ∧ ∀ mem : Memory,
    let f := geometryFields mem
    let g := geometryOf f
    let bin := fun b => (g.binStation b).getD 0
    let at8 := fun address => (mem.read address).toNat
    g = { ss := at8 0x440, se := at8 0x441, aim1 := at8 0x442, aim2 := at8 0x443, c := at8 0x444, d := at8 0x445
          t := at8 0x446, e := at8 0x447, bins := (List.range 24).map (fun i => at8 (0x448 + i))
          countsPerPitch := mem.read16 0x460, sawCount := at8 0x462, sawSpacing := mem.read16 0x464
          maxOffFall := mem.read16 0x466, segmentLength := mem.read16 0x468, standbyDelay := mem.read16 0x46A
          stallTime := at8 0x46C, settleTime := mem.read16 0x46E }
    ∧ (geometryFailure f = none ↔
      0 < g.ss ∧ g.ss ≤ g.se ∧ g.se < g.aim1 ∧ g.aim1 < g.c ∧ g.se < g.aim2 ∧ g.aim2 < g.c
      ∧ 1 ≤ g.d ∧ g.d ≤ 4 ∧ g.c + g.d ≤ g.t ∧ g.t < bin 1 ∧ (∀ b, 1 ≤ b → b < 24 → bin b < bin (b + 1))
      ∧ bin 24 < g.e ∧ g.e ≤ 63 ∧ 64 ≤ g.countsPerPitch ∧ g.countsPerPitch ≤ 4096
      ∧ 2 ≤ g.sawCount ∧ g.sawCount ≤ 20 ∧ 300 ≤ g.sawSpacing ∧ g.sawSpacing ≤ 700
      ∧ 100 ≤ g.maxOffFall ∧ g.maxOffFall ≤ 1400 ∧ 250 ≤ g.segmentLength ∧ g.segmentLength ≤ 4096
      ∧ 1 ≤ g.standbyDelay ∧ g.standbyDelay ≤ 600 ∧ 1 ≤ g.stallTime ∧ g.stallTime ≤ 30 ∧ g.settleTime ≤ 2000)
    ∧ (∀ n, geometryFailure f = some n → n < 40 ∧ geometryFieldOk f n = false
      ∧ ∀ k, k < n → geometryFieldOk f k = true)
    ∧ (geometryFailure f = none → g.t + 25 ≤ g.e ∧ g.c + 1 ≤ g.t ∧ g.se + 3 ≤ g.c + 1)
    ∧ ∀ n, n < 40 →
      let v := fun i => f.getD i 0
      let range : Nat × Nat :=
        if n = 0 then (1, 63) else if n = 5 then (1, 4) else if n ≤ 31 then (0, 63) else if n = 32 then (64, 4096)
        else if n = 33 then (2, 20) else if n = 34 then (300, 700) else if n = 35 then (100, 1400)
        else if n = 36 then (250, 4096) else if n = 37 then (1, 600) else if n = 38 then (1, 30) else (0, 2000)
      (geometryFieldOk f n = true ↔ range.1 ≤ v n ∧ v n ≤ range.2
        ∧ (n = 1 → v 0 ≤ v 1) ∧ (n = 2 → v 1 < v 2) ∧ (n = 3 → v 1 < v 3) ∧ (n = 4 → v 2 < v 4 ∧ v 3 < v 4)
        ∧ (n = 6 → v 4 + v 5 ≤ v 6) ∧ (n = 8 → v 6 < v 8) ∧ (9 ≤ n → n ≤ 31 → v (n - 1) < v n)
        ∧ (n = 31 → v 31 < v 7))

/-- QUERY_LUG (R22): it answers at once and changes nothing. STATION chooses the lug at a station 0..63, TAG the lug
of map or upstream list with a tag 0..255, SERIAL the entry with a serial, on a lug or not; a value out of range or
another selector ends BAD_PARAM, and a tag or serial that is not there NOT_FOUND. That the selector, to which 10.4 gives
no width, is one byte, and that the image is written zero in a cell that does not end OK, are the model's choices (log
19). -/
def Obligations.QueryLugPicturesALug : Prop :=
  OnTake (some .queryLug) (fun c s m cell =>
    let r := params m cell
    let answer := queryAnswer m.dt (r.byte 0x10) (r.word 0x14)
    AnswersAtOnce c s m cell (m.handed cell) answer.1 0 answer.2)
  ∧ ∀ (d : Deck) (selector : Nat) (value : Word), d.lugs.length = 64 →
    let answer := queryAnswer d selector value
    (selector = 1 → value.toNat ≤ 63 → ∃ l, d.lugAt value.toNat = some l
      ∧ answer = (.done, queryImage (some ((value.toNat : Int), l)) (d.pieceOf l)))
    ∧ (selector = 1 → 63 < value.toNat → answer = (.badParam, []))
    ∧ (selector = 2 → 255 < value.toNat → answer = (.badParam, []))
    ∧ (selector = 2 → value.toNat ≤ 255 → ∀ station l, d.lugByTag (value.setWidth 8) = some (station, l) →
      answer = (.done, queryImage (some (station, l)) (d.pieceOf l)))
    ∧ (selector = 2 → value.toNat ≤ 255 → (∀ l ∈ d.lugs ++ d.upstream, l.tag ≠ value.setWidth 8) →
      answer = (.notFound, []))
    ∧ (selector = 3 → ∀ p, d.piece? value = some p → answer = (.done, queryImage (d.lugOfPiece value) (some p)))
    ∧ (selector = 3 → (∀ p ∈ d.pieces, p.serial ≠ value) → answer = (.notFound, []))
    ∧ (selector ≠ 1 → selector ≠ 2 → selector ≠ 3 → answer = (.badParam, []))

/-- ENABLE_HEAD and DISABLE_HEAD (R43, R44): a number outside 1..8 ends BAD_PARAM; enabling an OFFLINE head makes it
LINK_FAULT with a bad-frame count of 0, and no notice; disabling is REFUSED_STATE for a head that is ALIGNING or
searched, and makes any other head OFFLINE with a count of 0; a head that already is as asked ends OK unchanged. That
the bytes held of an unfinished frame are dropped with either change (log 34), and that the head number is the
parameter's first byte (log 19), are the model's choices. -/
def Obligations.EnableAndDisableHead : Prop :=
  OnTake (some .enableHead) (fun c s m cell =>
    let u := m.handed cell
    let h := (params m cell).byte 0x10
    if h < 1 ∨ 8 < h then AnswersAtOnce c s m cell u .badParam 0 []
    else if m.sa.headState h = .offline then
      AnswersAtOnce c s m cell (u.onHead h (fun hd => { hd with state := .linkFault, badRun := 0, rx := [] })) .done
        0 []
    else AnswersAtOnce c s m cell u .done 0 [])
  ∧ OnTake (some .disableHead) (fun c s m cell =>
    let u := m.handed cell
    let h := (params m cell).byte 0x10
    if h < 1 ∨ 8 < h then AnswersAtOnce c s m cell u .badParam 0 []
    else if m.sa.headState h = .aligning ∨ (m.da.search ≠ .idle ∧ m.da.head = h) then
      AnswersAtOnce c s m cell u .refusedState 0 []
    else if m.sa.headState h = .offline then AnswersAtOnce c s m cell u .done 0 []
    else
      AnswersAtOnce c s m cell (u.onHead h (fun hd => { hd with state := .offline, badRun := 0, rx := [] })) .done
        0 [])

/-- ALIGN_HEAD and CANCEL_ALIGN (R53, R61): ALIGN_HEAD by its first case; the search then begins PENDING at delay 0
and the cell stays TAKEN. CANCEL_ALIGN ends a search with CANCEL and its own cell OK, or ends REFUSED_STATE with no
search. That the head number, to which 10.4 gives no width, is the parameter's first byte is the model's choice (log
19). -/
def Obligations.AlignHeadAndCancelAlign : Prop :=
  OnTake (some .alignHead) (fun c s m cell =>
    let u := m.handed cell
    let h := (params m cell).byte 0x10
    if h < 1 ∨ 8 < h then AnswersAtOnce c s m cell u .badParam 0 []
    else if m.da.search ≠ .idle then AnswersAtOnce c s m cell u .busy 0 []
    else if m.dt.state ≠ .running ∧ m.dt.state ≠ .stoppedLoaded ∧ m.dt.state ≠ .stoppedClear then
      AnswersAtOnce c s m cell u .refusedState 0 []
    else if m.sa.headState h ≠ .ready then AnswersAtOnce c s m cell u .refusedState 0 []
    else
      KeepsInHand c s m cell (u.onDa (fun da =>
        { da with
          search := .pending, head := h, cell := cell, d := 0, unseen := false, outstanding := false, miss := 0 })))
  ∧ OnTake (some .cancelAlign) (fun c s m cell =>
    let u := m.handed cell
    if m.da.search = .idle then AnswersAtOnce c s m cell u .refusedState 0 []
    else AnswersAtOnce c s m cell (u.endSearch .cancel) .done 0 [])

/-- ACTIVATE_RULES (R73): by its first case; staging then begins in the FREE slot with the lowest number, with the
bank named and the saw count of the geometry kept, and the cell stays TAKEN. That the bank, to which 10.4 gives no
width, is one byte, and that slot, generation and label are written 0 in a cell that does not end OK, are the model's
choices (log 19). -/
def Obligations.ActivateRulesBeginsStaging : Prop :=
  OnTake (some .activateRules) (fun c s m cell =>
    let u := m.handed cell
    let bank := (params m cell).byte 0x10
    if 1 < bank then AnswersAtOnce c s m cell u .badParam 0 []
    else if m.rs.staging ≠ none then AnswersAtOnce c s m cell u .busy 0 []
    else
      match m.rs.slots.findIdx? (fun sl => sl.state == .free), m.dt.geometry with
      | none, _ => AnswersAtOnce c s m cell u .noSlot 0 []
      | some _, none => AnswersAtOnce c s m cell u .refusedState 0 []
      | some slot, some g =>
        KeepsInHand c s m cell (u.onRs (fun rs =>
          { rs with
            slots := rs.slots.modify slot (fun sl => { sl with state := .staging, bank := some bank })
            staging := some { slot, bank, cell, saws := g.sawCount, kept := [] } })))

/-- REMOTE_OVERRIDE (R110): a tag above 255, an unknown kind or a FORCE_GRADE grade outside 1..13 ends BAD_PARAM;
else the override is resolved at the take with source REMOTE and authority up, and the cell ends with the answer,
the serial of the piece found, and for an accepted override its class and the state its part then holds. That kind and
grade, class and part state, to which 10.4 gives no widths, are one byte each, that class and part state are written 0
in a cell that does not end OK, and that the serial of no piece is 0, are the model's choices (log 19). -/
def Obligations.RemoteOverrideIsResolvedAtTheTake : Prop :=
  OnTake (some .remoteOverride) (fun c s m cell =>
    let r := params m cell
    let u := m.handed cell
    let code := r.byte 0x12
    let grade := r.byte 0x13
    if 255 < r.half 0x10 ∨ 4 < code ∨ (code = 1 ∧ (grade < 1 ∨ 13 < grade)) then
      AnswersAtOnce c s m cell u .badParam 0 []
    else
      let kind : OverrideKind :=
        if code = 0 then .accept else if code = 1 then .forceGrade grade else if code = 2 then .trimShorter
        else if code = 3 then .cutInTwo else .reman
      let tag := BitVec.ofNat 8 (r.half 0x10)
      let answer := m.answerTag tag kind true
      let v := u.resolve tag kind .remote true
      let area := match answer with
        | (.done, some p) =>
          match v.dt.piece? p.serial with
          | some q =>
            if 2 ≤ code then le8 1 ++ le8 ((q.trimPart.map (fun x => x.state.code)).getD 0)
            else le8 0 ++ le8 ((q.gradePart.map (fun x => x.state.code)).getD 0)
          | none => []
        | _ => []
      AnswersAtOnce c s m cell v answer.1 ((answer.2.map (fun p => p.serial)).getD 0) area)

/-- The resolution of an override (R111, R112, R115, R116, R117, R118, R120, R122, R103): the answer by its first
case for the piece that the tag's lug carries now; every answer counted for its source, as taken, and as accepted or
under its refusal (R123); an accepted one written into
its class's part and counted on the piece, a grade override applied at once to a solution the piece holds, a trim
override sending a SOLVED piece back to the queue and marking the solve in hand of a SOLVING one. -/
def Obligations.OverrideIsAnsweredByItsFirstCase : Prop :=
  (∀ (tag : Byte) (kind : OverrideKind) (source : Source) (authority : Bool) (s : State),
    let answer := s.answerTag tag kind authority
    (s.dt.pieceByTag tag = none → answer = (.notFound, none))
    ∧ (∀ p, s.dt.pieceByTag tag = some p →
      let rules := s.rs.boundRules p
      let best := match p.solverSolution with
        | some sol => (leastOf (sol.products.map (fun x => x.grade))).getD 13
        | none => 13
      answer.2 = some p
      ∧ answer.1 = (if p.state = .committed ∨ p.state = .cut then .tooLate
        else if p.state = .admitted ∨ p.state = .scanning then .refusedState
        else
          match kind with
          | .forceGrade g =>
            if g ≠ 13 ∧ ∀ row ∈ rules.grades, row.code ≠ g then .badParam
            else if authority = false ∧ g < best then .noAuthority
            else .done
          | _ => .done))
    ∧ (answer.1 ≠ .done → s.resolve tag kind source authority = s.countTake source answer.1)
    ∧ ∀ p, answer = (.done, some p) →
      s.resolve tag kind source authority = (s.countTake source .done).acceptOverride kind source authority p)
  ∧ (∀ (source : Source) (answer : Result) (s : State),
    let one := fun r : Result => if answer = r then (1 : Word) else 0
    let counted := fun c : TakeCounts =>
      { c with
        taken := c.taken + 1
        accepted := c.accepted + one .done
        notFound := c.notFound + one .notFound
        tooLate := c.tooLate + one .tooLate
        refusedState := c.refusedState + one .refusedState
        badParam := c.badParam + one .badParam
        noAuthority := c.noAuthority + one .noAuthority }
    let ofStation := fun i => s.onOu (fun ou =>
      { ou with stations := ou.stations.modify i (fun st => { st with counts := counted st.counts }) })
    s.countTake source answer =
      match source with
      | .station1 => ofStation 0
      | .station2 => ofStation 1
      | .remote => s.onOu (fun ou => { ou with remote := counted ou.remote }))
  ∧ (∀ (source : Source) (authority : Bool) (p : Piece) (s : State),
    let rules := s.rs.boundRules p
    let counted := fun (kind : OverrideKind) (q : Piece) =>
      { q with overrides := q.overrides.modify (5 * source.code + kind.code) (fun n => min 255 (n + 1)) }
    let grade := fun (part : GradeKind) (q : Piece) =>
      ({ q with
          solution := q.solverSolution
          gradePart := some { kind := part, source, authority, state := .pending, solved := none } }
        : Piece).applyGradePart rules
    let sent := fun (kind : OverrideKind) (trim : TrimKind) =>
      let u := s.onPiece p.serial (fun q => counted kind
        { q with
          trimPart := some
            { kind := trim, source, state := .pending,
              reference := if trim = .shorter then q.solution.map (fun x => x.totalLength) else none } })
      if p.state = .solved then u.joinQueue p.serial
      else if p.state = .solving then
        u.onTs (fun ts =>
          { ts with
            inHand := ts.inHand.map (fun c => if c.serial = p.serial then { c with arrival := true } else c) })
      else u
    s.acceptOverride .accept source authority p
      = s.onPiece p.serial (fun q => counted .accept (grade .accept q))
    ∧ (∀ g, s.acceptOverride (.forceGrade g) source authority p
      = s.onPiece p.serial (fun q => counted (.forceGrade g) (grade (.forceGrade g) q)))
    ∧ s.acceptOverride .trimShorter source authority p = sent .trimShorter .shorter
    ∧ s.acceptOverride .cutInTwo source authority p = sent .cutInTwo .cutInTwo
    ∧ s.acceptOverride .reman source authority p = sent .reman .reman)
  ∧ ∀ (rules : Rules) (size : Nat) (part : GradePart) (sol : Solution),
    let result := applyGrade rules size part sol
    (part.kind = .accept → result = ({ part with state := .applied, solved := none }, sol))
    ∧ ∀ g, part.kind = .forceGrade g →
      let splits := match sol.products with
        | [x, y] => rules.primary size g x.lengthClass != rules.primary size g y.lengthClass
        | _ => false
      if sol.products = [] ∨ (part.authority = false ∧ g < solvedGrade (some sol)) ∨ splits = true then
        result = ({ part with state := .notApplied, solved := none }, sol)
      else
        let forced := sol.products.map (fun x =>
          { x with grade := g, value := if g = 13 then 0 else rules.price g x.lengthClass size })
        result =
          ({ part with state := .applied, solved := some (sol.products.map (fun x => (x.grade, x.value))) },
           { sol with products := forced, totalValue := (forced.map (fun x => x.value)).sum })

/-- LOCK_SAW and UNLOCK_SAW (R137, R138): a number outside 1..20 ends BAD_PARAM. LOCK_SAW adds HOST, and a saw that was
not locked joins the lock set; UNLOCK_SAW removes HOST, and FAULT too under its flag, and counts a saw that leaves the
set. The detail is the reason set after the change. SET_BIN, GATE_PULSE_END and BIN_FULL_CHANGE (R139, R142, R143): a
bin outside 1..24 or an action but CLOSE 1 and OPEN 2 ends BAD_PARAM; else the closed flag is as asked and the cell
ends OK with closed, full and availability as detail; no piece is retargeted. A pulse end sets the gate to rest, a full
input's change is recorded. That saw, bin and action, to which 10.4 gives no widths, are one byte each, and that
UNLOCK_SAW's clear-fault flag is set when its byte is not 0, are the model's choices (log 19). -/
def Obligations.SawAndBinRequestsAct : Prop :=
  OnTake (some .lockSaw) (fun c s m cell =>
    let u := m.handed cell
    let k := (params m cell).byte 0x10
    if k < 1 ∨ 20 < k then AnswersAtOnce c s m cell u .badParam 0 []
    else
      ∀ w, m.ax.saws[k - 1]? = some w →
        let v := u.onSaw k (fun w => { w with host := true })
        AnswersAtOnce c s m cell
          (if w.host = true ∨ w.fault = true then v else v.joinLock (BitVec.ofNat 20 (2 ^ (k - 1))))
          .done (1 + if w.fault then 2 else 0) [])
  ∧ OnTake (some .unlockSaw) (fun c s m cell =>
    let u := m.handed cell
    let k := (params m cell).byte 0x10
    let flag := (params m cell).byte 0x11
    if k < 1 ∨ 20 < k then AnswersAtOnce c s m cell u .badParam 0 []
    else
      ∀ w, m.ax.saws[k - 1]? = some w →
        let fault := w.fault && flag == 0
        AnswersAtOnce c s m cell
          (u.onSaw k (fun w =>
            { w with
              host := false, fault := fault
              unlocks := if (w.host = true ∨ w.fault = true) ∧ fault = false then w.unlocks + 1 else w.unlocks }))
          .done (if fault then 2 else 0) [])
  ∧ OnTake (some .setBin) (fun c s m cell =>
    let u := m.handed cell
    let b := (params m cell).byte 0x10
    let action := (params m cell).byte 0x11
    if b < 1 ∨ 24 < b ∨ (action ≠ 1 ∧ action ≠ 2) then AnswersAtOnce c s m cell u .badParam 0 []
    else
      ∀ x, m.ax.bins[b - 1]? = some x →
        let available := action = 2 ∧ x.isFull = false ∧ m.dt.state ≠ .faulted
        AnswersAtOnce c s m cell (u.onBin b (fun x => { x with closed := action == 1 })) .done
          ((if action = 1 then 1 else 0) + (if x.isFull then 2 else 0) + if available then 4 else 0) [])
  ∧ ∀ (bin : Nat) (level : Bool) (s : State),
    Does (.gatePulseEnd bin) s (s.clearOut.onBin bin (fun x => { x with pulsing := false }))
    ∧ Does (.binFullChange bin level) s (s.clearOut.onBin bin (fun x => { x with isFull := level }))

/-- OPEN_RUN (R147, R148): by its first case. In the OK case the OPEN run, if there is one, drains with SWITCH, in
entry and header; the target area holds the new run, OPEN, with 2 units reserved, and its header; the run number
passes one that the other entry holds; the number and the area are the result; and the drained run closes at once
when nothing of it is left. That the area, to which 10.4 gives no width, is one byte, and that run and area are written
0 in a cell that does not end OK, are the model's choices (log 19). -/
def Obligations.OpenRunSwitchesAreas : Prop :=
  OnTake (some .openRun) (fun c s m cell =>
    let u := m.handed cell
    let target : Area := if m.tu.lastOpened = some .a then .b else .a
    let other : Area := if target = .a then .b else .a
    let label := (params m cell).word 0x10
    let after := fun n => if n = 65535 then 1 else n + 1
    let number := if (m.tu.entry other).number = some m.tu.nextRun then after m.tu.nextRun else m.tu.nextRun
    m.tu.Apart →
      if (m.tu.entry target).area ≠ .free then AnswersAtOnce c s m cell u .areaBusy 0 []
      else if m.tu.drainingArea ≠ none then AnswersAtOnce c s m cell u .busy 0 []
      else if unreservedUnits m.dt m.tu m.xi < 21 then AnswersAtOnce c s m cell u .noRoom 0 []
      else
        let drained := match m.tu.openArea with
          | some o =>
            (u.onArea o (fun e => { e with run := some .draining, reason := some .switch })).store (areaAddr o)
              (le16 ((m.tu.entry o).number.getD 0) ++ le8 2 ++ le8 1)
          | none => u
        let opened := (((drained.onArea target (fun e =>
          { e with
            area := .inUse, number := some number, label := some label, run := some .opened, live := 0
            logPending := 0, reason := none, reservation := 2 })).store (areaAddr target)
            (le16 number ++ le8 1 ++ le8 0)).store (areaAddr target + 4)
            (le32 label ++ le32 m.dt.nextSerial ++ le32 0 ++ le32 0)).onTu (fun tu =>
              { tu with nextRun := after number, lastOpened := some target })
        let closed := match m.tu.openArea with
          | some o =>
            if (m.tu.entry o).live = 0 ∧ (m.tu.entry o).logPending = 0 then opened.closeRun o else opened
          | none => opened
        AnswersAtOnce c s m cell closed .done 0 (le16 number ++ le8 (if target = .a then 0 else 1)))

/-- CLOSE_RUN and the close of a run (R149, R150). With no run OPEN it ends REFUSED_STATE, with one DRAINING BUSY;
else the OPEN run drains with CLOSE, in entry and header, the cell ends OK with the run number, and the run closes at
once when nothing of it is left. A close writes the RUN_CLOSE record from the reservation and CLOSED into the header,
leaves the area HELD and raises RUN_CLOSED. That the run, to which 10.4 gives no width here, takes the 16 bits that it
has in OPEN_RUN's result is the model's choice (log 19). -/
def Obligations.CloseRunDrainsAndCloses : Prop :=
  OnTake (some .closeRun) (fun c s m cell =>
    let u := m.handed cell
    match m.tu.openArea with
    | none => AnswersAtOnce c s m cell u .refusedState 0 []
    | some a =>
      if m.tu.drainingArea ≠ none then AnswersAtOnce c s m cell u .busy 0 []
      else
        let number := (m.tu.entry a).number.getD 0
        let drained := (u.onArea a (fun e => { e with run := some .draining, reason := some .close })).store
          (areaAddr a) (le16 number ++ le8 2 ++ le8 2)
        ∃ v t, exec c s = .next t
          ∧ State.Answers cell (cellKind m.mem cell) (m.mem.read32 (cellAddr cell + 8)) .done 0 (le16 number) drained v
          ∧ (if (m.tu.entry a).live = 0 ∧ (m.tu.entry a).logPending = 0 then v.closeRun a else v).Settles
            false s.image t)
  ∧ ∀ (a : Area) (s : State),
    let t := s.closeRun a
    let written := (s.onArea a (fun e => { e with reservation := 0 })).writeRecord .runClose 2
      (closeBody s.mem a (s.tu.entry a))
    t.tu.entry a = { s.tu.entry a with area := .held, run := none, reservation := 0 }
    ∧ (∀ o, o ≠ a → t.tu.entry o = s.tu.entry o)
    ∧ t.mem = written.mem.splice (areaAddr a) (le16 ((s.tu.entry a).number.getD 0) ++ le8 3
        ++ le8 (((s.tu.entry a).reason.map CloseReason.code).getD 0))
    ∧ t.xi = (written.notify .runClosed).xi
    ∧ t = { s with mem := t.mem, xi := t.xi, out := (written.notify .runClosed).out, tu := t.tu }

/-- RELEASE_AREA and CLEARING_COMPLETION (R151): an area but A 0 and B 1 ends BAD_PARAM, an area not HELD
REFUSED_STATE; a HELD one is CLEARING, its cell stays TAKEN, and number, label and close reason are none. The clearing
goes from the first word to the last: a host write that comes after it at a word finds that word and every lower one
zeroed, and stands, and so does any later write to them; which writes do is the write's to say (log 21). At the
completion the words not passed before read zero, the area is FREE, and the cell ends OK with the area. With no
clearing in the area there is no such event (log 3). That the area, to which 10.4 gives no width, is one byte, as
parameter and as result, and that it is written 0 in a cell that does not end OK, are the model's choices (log 19). -/
def Obligations.AreaIsReleasedAndCleared : Prop :=
  OnTake (some .releaseArea) (fun c s m cell =>
    let u := m.handed cell
    let code := (params m cell).byte 0x10
    let a : Area := if code = 0 then .a else .b
    if 1 < code then AnswersAtOnce c s m cell u .badParam 0 []
    else if (m.tu.entry a).area = .held then
      KeepsInHand c s m cell (u.onArea a (fun e =>
        { e with
          area := .clearing, number := none, label := none, reason := none, clearingCell := some cell
          swept := 0 }))
    else AnswersAtOnce c s m cell u .refusedState 0 [])
  ∧ (∀ (a : Area) (host : List HostWrite) (s : State), hostInWindow host = true →
    let m := s.met host
    if (m.tu.entry a).area = .clearing then
      ∀ held cell, (m.tu.entry a).clearingCell = some cell →
        m.xi.inHand.find? (fun h => h.cell == cell) = some held →
        EndsHeld (.clearingCompletion a host) s held
          ((m.onMem (fun mem =>
            mem.zero (areaAddr a + 4 * (m.tu.entry a).swept) (4 * (0x4000 - (m.tu.entry a).swept)))).onArea a (fun e =>
              { e with area := .free, clearingCell := none, swept := 0 }))
          .done 0 (le8 (if a = .a then 0 else 1))
    else Does (.clearingCompletion a host) s m)
  ∧ (∀ (a : Area) (w : HostWrite) (s : State), (s.tu.entry a).area = .clearing →
    let t := s.hostWrite w
    let first := areaAddr a
    let last := first + 0x10000
    let past := w.addr + w.bytes.length
    let passed := (s.tu.entry a).swept
    let passedNow := if w.late = true ∧ w.bytes ≠ [] ∧ w.addr < last ∧ first < past then
        max passed ((min past last - 1 - first) / 4 + 1)
      else passed
    t.tu.entry a = { s.tu.entry a with swept := passedNow }
    ∧ ∀ x, first ≤ x → x < last → t.mem.read x =
      if w.addr ≤ x ∧ x < past then w.bytes.getD (x - w.addr) 0
      else if first + 4 * passed ≤ x ∧ x < first + 4 * passedNow then 0
      else s.mem.read x)
  ∧ ∀ (mem : Memory) (first n x : Nat),
    (mem.zero first n).read x = if first ≤ x ∧ x < first + n then 0 else mem.read x

/-! ## The links -/

/-- The bytes of the links (R25, R45, R185, 10.9). A stream's first frame: a length word above 145 is bad at once, else
the frame waits for its bytes; with the delimiter where the length places it, it gives its payload, kind byte and body;
a bad one takes with it every byte up to and including the next delimiter pair, looked for from its first byte (the
model's reading, log 24). The frames of a stream follow one another until one is unfinished. On a head's link the
payload is a HEAD_REPORT, ALIGN_ECHO or HEAD_STATUS of the size and fields that 10.9 gives, on the log link a
LOG_REPORT, and anything else a bad frame. Bytes that arrive join the unfinished ones; each frame that they finish
becomes its command at the tail of the queue, and the rest is kept (the model's way, log 34); an OFFLINE head's are
discarded unread (R43). -/
def Obligations.LinkBytesBecomeFrameCommands : Prop :=
  (∀ bytes : List Byte,
    (bytes.length < 2 → takeFrame bytes = none)
    ∧ (∀ b c rest, bytes = b :: c :: rest →
      let len := b.toNat + 256 * c.toNat
      let closed := (rest.drop len).take 2 = [0x5A, 0xC3]
      (145 < len ∨ (len + 2 ≤ rest.length ∧ ¬closed) →
        takeFrame bytes = (afterDelimiter bytes).map (fun after => (Received.bad, after)))
      ∧ (len ≤ 145 → rest.length < len + 2 → takeFrame bytes = none)
      ∧ (len ≤ 145 → closed → takeFrame bytes = some (.payload (rest.take len), rest.drop (len + 2))))
    ∧ (∀ after, afterDelimiter bytes = some after ↔ ∃ before, bytes = before ++ [0x5A, 0xC3] ++ after
      ∧ ∀ k, k < before.length → (bytes.drop k).take 2 ≠ [0x5A, 0xC3])
    ∧ (takeFrame bytes = none → takeFrames bytes.length bytes = ([], bytes))
    ∧ ∀ f rest, takeFrame bytes = some (f, rest) → rest.length < bytes.length
      ∧ takeFrames bytes.length bytes
        = (f :: (takeFrames rest.length rest).1, (takeFrames rest.length rest).2))
  ∧ (∀ (h : Nat) (clock : Word) (p : List Byte),
    let at8 := fun i => p.getD i 0
    let at16 := fun i : Nat => (at8 (i + 1) ++ at8 i : Half)
    let at32 := fun i : Nat => (at8 (i + 3) ++ at8 (i + 2) ++ at8 (i + 1) ++ at8 i : Word)
    let count := (at8 4).toNat
    let report : HeadReport :=
      { tag := at8 1, density := at8 2, extent := if at8 3 = 1 then some (at16 5, at16 7) else none
        widthMin := at16 9, widthMax := at16 11, thickMin := at16 13, thickMax := at16 15
        finds := (List.range count).map (fun i => at32 (17 + 4 * i)) }
    let log : LogReport :=
      { tag := at16 1, length := at16 3, smallEnd := at16 5, largeEnd := at16 7, sweep := at8 9 }
    headLinkCommand h clock .bad = .badFrame h ∧ logLinkCommand .bad = .logBadFrame
    ∧ headLinkCommand h clock (.payload p) =
      (if at8 0 = 0x11 ∧ p.length = 17 + 4 * count ∧ count ≤ 32
          ∧ (at8 3 = 1 ∨ (at8 3 = 0 ∧ at16 5 = 0 ∧ at16 7 = 0)) ∧ reportGood report = true then .headReport h report
      else if p = [0x12, 0] then .alignEcho h false
      else if p = [0x12, 1] then .alignEcho h true
      else if at8 0 = 0x13 ∧ p.length = 9 then .headStatus h (at32 1) (at32 5) clock
      else .badFrame h)
    ∧ logLinkCommand (.payload p) =
      (if at8 0 = 0x21 ∧ p.length = 11 ∧ 1 ≤ log.length.toNat ∧ log.length.toNat ≤ 16383 ∧ 1 ≤ log.smallEnd.toNat
          ∧ log.smallEnd.toNat ≤ log.largeEnd.toNat ∧ log.largeEnd.toNat ≤ 1023 then .logReport log
      else .logBadFrame))
  ∧ (∀ (h : Nat) (clock : Word) (bytes : List Byte) (s : State) (hd : Head), s.sa.head? h = some hd →
    let stream := hd.rx ++ bytes
    let read := takeFrames stream.length stream
    s.receiveHead h clock bytes =
      if hd.state = .offline then s
      else
        { s.onHead h (fun hd => { hd with rx := read.2 }) with
          pending := s.pending ++ read.1.map (headLinkCommand h clock) })
  ∧ ∀ (bytes : List Byte) (s : State),
    let stream := s.sa.logLink.rx ++ bytes
    let read := takeFrames stream.length stream
    s.receiveLog bytes =
      { s with
        pending := s.pending ++ read.1.map logLinkCommand
        sa := { s.sa with logLink := { s.sa.logLink with rx := read.2 } } }

/-- HEAD_STATUS (R25, R27, R29, R41, R62): a good frame from a head not OFFLINE sets the consecutive count to 0 and
is counted, and the status time, identity and condition are kept; an ABSENT, LINK_FAULT or WAKING head becomes READY,
or STANDBY, sent STANDBY, under the long-stop mark; one from ABSENT or LINK_FAULT is first sent its aligned delay.
From an OFFLINE head it is discarded uncounted. That the clock reading has 32 bits is the model's choice (log 45). -/
def Obligations.HeadStatusBringsAHeadUp : Prop :=
  ∀ (h : Nat) (identity condition clock : Word) (s : State) (hd : Head), s.sa.head? h = some hd →
    let m := s.clearOut
    let u := m.onHead h (fun hd =>
      { hd with
        badRun := 0, goodFrames := hd.goodFrames + 1, lastStatus := some clock
        identity := some (identity, condition) })
    let stepped := if hd.state = .waking then u else u.send h (.alignStep hd.delay)
    Does (.headStatus h identity condition clock) s
      (if hd.state = .offline then m
      else if hd.state = .absent ∨ hd.state = .linkFault ∨ hd.state = .waking then
        if s.sa.longStop then (stepped.onHead h (fun hd => { hd with state := .standby })).send h .standby
        else stepped.onHead h (fun hd => { hd with state := .ready })
      else u)

/-- HEAD_REPORT (R25, R27, R33, R34, R35): a body outside the limits, a density of 1x, 2x or 4x, at most 32 finds, no
face code outside TOP, BOTTOM and EDGE, first ≤ last, each minimum at most its maximum, is a bad frame; a good one is
counted, faults an ABSENT head, is discarded from a LINK_FAULT head, unread from an OFFLINE one, and else is offered.
Offered, it joins the received set, cut to the head's segment, its measures and its density as reported, when its tag's
lug stands in SS..SE with a SCANNING piece whose roster and not dropped set hold the head, the head is not received yet
and the density is the piece's; else it is counted under the first reason. A find word holds along in bits 13:0, across
in 21:14, the kind in 25:22, the size in 29:26 and the face in 31:30 (10.1), and the kind codes 10 to 15 are taken as
OTHER (R25). -/
def Obligations.HeadReportIsAcceptedOrCounted : Prop :=
  (∀ w : Word,
    Find.ofWord w =
      { along := w.toNat % 2 ^ 14, across := w.toNat / 2 ^ 14 % 2 ^ 8, size := w.toNat / 2 ^ 26 % 2 ^ 4
        face := w.toNat / 2 ^ 30
        kind := [FindKind.knotSound, .knotLoose, .hole, .split, .shake, .wane, .stain, .pitchPocket, .skip,
          .check].getD (w.toNat / 2 ^ 22 % 2 ^ 4) .other })
  ∧ ∀ (h : Nat) (r : HeadReport) (s : State), 1 ≤ h → h ≤ 8 →
    (reportGood r = true ↔
      (r.density = 1 ∨ r.density = 2 ∨ r.density = 4) ∧ r.finds.length ≤ 32
      ∧ (∀ w ∈ r.finds, w.extractLsb' 30 2 ≠ 3) ∧ (∀ first last, r.extent = some (first, last) → first ≤ last)
      ∧ r.widthMin ≤ r.widthMax ∧ r.thickMin ≤ r.thickMax)
    ∧ (reportGood r = false → exec (.headReport h r) s = exec (.badFrame h) s)
    ∧ (reportGood r = true →
      let m := s.clearOut
      let u := m.onHead h (fun hd => { hd with badRun := 0, goodFrames := hd.goodFrames + 1 })
      Does (.headReport h r) s
        (match s.sa.headState h with
          | .offline => m
          | .absent => u.headFault h
          | .linkFault => u
          | _ => u.offerReport h r))
    ∧ (∀ g station lug p a, s.dt.geometry = some g → s.dt.lugByTag r.tag = some (station, lug) →
      (g.ss : Int) ≤ station → station ≤ (g.se : Int) → s.dt.pieceOf lug = some p → p.state = .scanning →
      p.assembly = some a →
      s.offerReport h r =
        if has (p.roster.getD 0) h = false then s.onHead h (fun hd => { hd with notRoster := hd.notRoster + 1 })
        else if has a.dropped h = true then s.onHead h (fun hd => { hd with stale := hd.stale + 1 })
        else if (a.received.any fun q => q.head == h) = true then
          s.onHead h (fun hd => { hd with duplicate := hd.duplicate + 1 })
        else if r.density.toNat ≠ (p.density.map Density.code).getD 0 then
          s.onHead h (fun hd => { hd with mismatch := hd.mismatch + 1 })
        else
          let lo := min ((h - 1) * g.segmentLength) 16383
          let hi := min (h * g.segmentLength - 1) 16383
          let result : Partial :=
            { head := h, density := r.density.toNat
              extent := match r.extent with
                | some (x, y) =>
                  if max x.toNat lo ≤ min y.toNat hi then some (max x.toNat lo, min y.toNat hi) else none
                | none => none
              widthMin := r.widthMin.toNat, widthMax := r.widthMax.toNat
              thickMin := r.thickMin.toNat, thickMax := r.thickMax.toNat
              finds := (r.finds.map Find.ofWord).filter (fun f => decide (lo ≤ f.along ∧ f.along ≤ hi)) }
          (s.onPiece p.serial (fun p =>
            { p with assembly := p.assembly.map (fun a => { a with received := a.received ++ [result] }) })).onHead h
            (fun hd => { hd with accepted := hd.accepted + 1 }))
    ∧ ((∀ g station lug p, s.dt.geometry = some g → s.dt.lugByTag r.tag = some (station, lug) →
        s.dt.pieceOf lug = some p → station < (g.ss : Int) ∨ (g.se : Int) < station ∨ p.state ≠ .scanning) →
      s.offerReport h r = s.onHead h (fun hd => { hd with stray := hd.stray + 1 }))

/-- ALIGN_ECHO (R27, R56, R57): a good frame is counted; it faults an ABSENT head, and reaches the search from an
ALIGNING one. It answers the outstanding step of a STEPPING search: unseen sets the unseen mark and raises the delay,
seen with the mark set locks the delay, seen without it raises the delay, and a delay past 63 ends the search with
RANGE. With no step outstanding it is stray. -/
def Obligations.AlignEchoAnswersTheStep : Prop :=
  ∀ (h : Nat) (seen : Bool) (s : State),
    let m := s.clearOut
    let u := m.onHead h (fun hd => { hd with badRun := 0, goodFrames := hd.goodFrames + 1 })
    let a := u.onDa (fun da => { da with outstanding := false, miss := 0 })
    let b := a.onDa (fun da => { da with unseen := da.unseen || !seen })
    Does (.alignEcho h seen) s
      (match s.sa.headState h with
        | .offline => m
        | .absent => u.headFault h
        | .aligning =>
          if s.da.search = .stepping ∧ s.da.outstanding = true then
            if seen = true ∧ s.da.unseen = true then a.endSearch .locked
            else if 63 ≤ s.da.d then b.endSearch .range
            else b.onDa (fun da => { da with d := da.d + 1 })
          else u.onDa (fun da => { da with strayEchoes := da.strayEchoes + 1 })
        | _ => u)

/-- What faults and parks a head (R25, R29, R30, R40, R41): a bad frame is counted, up to 3, and makes an ABSENT
head, or a READY, STANDBY, WAKING or ALIGNING one whose count reaches 3, LINK_FAULT; so do silence for READY, STANDBY
and ALIGNING, with the unfinished bytes gone, and the wake timer for WAKING. LINK_FAULT raises FAULT and ends the
head's search with LINK. The standby timer sends STANDBY to the READY heads and sets the long-stop mark. Where a
timer does not run there is no such event (log 3). -/
def Obligations.HeadsFaultAndStandBy : Prop :=
  ∀ (h : Nat) (s : State),
    let m := s.clearOut
    let st : HeadState := s.sa.headState h
    let bad := m.onHead h (fun hd => { hd with badRun := min 3 (hd.badRun + 1), badFrames := hd.badFrames + 1 })
    let run : Nat := ((s.sa.head? h).map (fun hd => hd.badRun)).getD 0
    Does (.badFrame h) s
      (match st with
        | .offline => m
        | .absent => bad.headFault h
        | .linkFault => bad
        | _ => if 2 ≤ run then bad.headFault h else bad)
    ∧ Does (.linkSilence h) s
      (if st = .ready ∨ st = .standby ∨ st = .aligning then
        (m.onHead h (fun hd => { hd with rx := [] })).headFault h
      else m)
    ∧ Does (.wakeTimeout h) s (if st = .waking then m.headFault h else m)
    ∧ s.headFault h =
      (let v := (s.onHead h (fun hd => { hd with state := .linkFault })).notify .fault
      if s.da.search ≠ .idle ∧ s.da.head = h then v.endSearch .link else v)
    ∧ (s.sa.heads.length = 8 →
      Does .standbyTimerExpiry s
        (if s.sa.standbyTimer = true then
          { m with
            sa :=
              { s.sa with
                heads := s.sa.heads.map (fun hd => if hd.state = .ready then { hd with state := .standby } else hd)
                standbyTimer := false
                longStop := true }
            out := ((List.range' 1 8).filter (fun h => s.sa.headState h == .ready)).map (fun h =>
              .frame h .standby) }
        else m))

/-- LOG_REPORT and LOG_BAD_FRAME (R45, R46, R156, R157): a report outside its ranges is a bad frame; a good one sets
the link UP and is counted, and with no run OPEN the log is refused; else it is classed under the ACTIVE generation
and tallied in the class's row or as unclassed, and its record is written, queued, or counted as unjournaled, by the
first case. A bad frame is counted, up to 3, and at 3 the link is LINK_FAULT, which raises FAULT. -/
def Obligations.LogIsTalliedAndRecorded : Prop :=
  (∀ (r : LogReport) (s : State),
    let inRanges := 1 ≤ r.length.toNat ∧ r.length.toNat ≤ 16383 ∧ 1 ≤ r.smallEnd.toNat
      ∧ r.smallEnd.toNat ≤ r.largeEnd.toNat ∧ r.largeEnd.toNat ≤ 1023
    (¬inRanges → exec (.logReport r) s = exec .logBadFrame s)
    ∧ (inRanges →
      let u := s.clearOut.onSa (fun sa =>
        { sa with
          logLink := { sa.logLink with
            state := .up, badRun := 0, goodFrames := sa.logLink.goodFrames + 1, taken := sa.logLink.taken + 1 } })
      Does (.logReport r) s
        (match s.tu.openArea with
          | none => u.onTu (fun tu => { tu with refusedLogs := tu.refusedLogs + 1 })
          | some a =>
            let logClass := (s.rs.activeSlot).bind (fun i => (s.rs.rulesOf i).logs.findIdx? (fun b =>
              decide (b.1 ≤ r.smallEnd.toNat ∧ r.smallEnd.toNat ≤ b.2)))
            let record : LogRecord :=
              { report := r, logClass := logClass, volume := logVolume r, run := (s.tu.entry a).number.getD 0
                generation := s.rs.activeNumber }
            let v := match logClass with
              | some c =>
                (u.addTo (areaAddr a + 0xD108 + 8 * c) 1).addTo (areaAddr a + 0xD108 + 8 * c + 4) (logVolume r)
              | none => u.onTu (fun tu => { tu with unclassedLogs := tu.unclassedLogs + 1 })
            if s.tu.pendingLogs = [] ∧ s.xi.waiting = [] ∧ mayWriteLog v = true then
              (v.writeRecord .log 2 (logBody record)).syncHolds
            else if s.tu.pendingLogs.length < 8 then
              ((v.onTu (fun tu => { tu with pendingLogs := tu.pendingLogs ++ [record] })).onXi (fun xi =>
                { xi with waiting := xi.waiting ++ [.log] })).onArea a (fun e =>
                  { e with logPending := e.logPending + 1 })
            else
              (v.addTo (areaAddr a + 0xD188 + 4 * 10) 1).onTu (fun tu =>
                { tu with unjournaledLogs := tu.unjournaledLogs + 1 }))))
  ∧ ∀ s : State,
    let u := s.clearOut.onSa (fun sa =>
      { sa with
        logLink := { sa.logLink with
          state := if 2 ≤ sa.logLink.badRun then .linkFault else sa.logLink.state
          badRun := min 3 (sa.logLink.badRun + 1)
          badFrames := sa.logLink.badFrames + 1 } })
    Does .logBadFrame s
      (if s.sa.logLink.state ≠ .linkFault ∧ 2 ≤ s.sa.logLink.badRun then u.notify .fault else u)

/-! ## Completions and stations -/

/-- STAGING_COMPLETION (R64, R74, R75, R76, R77, R78): a copy that fails a check frees its slot, and the cell ends
BAD_RULES with table, check and index of the first failing test; a valid copy becomes ACTIVE under the next number that
no slot holds, every number passed over being held, 1 following 65535; the former ACTIVE slot is RETIRING with pieces
bound and FREE without, and the cell ends OK with slot, number and label. With no staging in hand there is no such
event (log 3). The copy is the bank's bytes, but for the bytes that it had read before a later host write (which ones
is the write's to say, log 21), laid out as 10.6 gives; its tests are those of R75 in their order, under the saw count
recorded, and the first that fails gives the detail. That the slot of a failed copy keeps the tables it held before is
the model's choice (log 46), and so are one byte for the slot, to which 10.4 gives no width, and the zeros of a cell
that does not end OK (log 19). The host writes that a command carries come one after another (log 2). Each stores its
bytes; no other byte outside an area that is being cleared changes, and nothing else does but how far a clearing has
come and, for a write that comes after the staging's read of its words, what the copy keeps: the bytes that each aligned
word of the bank that the write reaches held before it, where none were kept for the word yet (R74, log 21). -/
def Obligations.StagingCompletes : Prop :=
  (∀ (host : List HostWrite) (s : State), hostInWindow host = true →
    let m := s.met host
    (m.rs.staging = none → Does (.stagingCompletion host) s m)
    ∧ ∀ st held, m.rs.staging = some st → m.xi.inHand.find? (fun h => h.cell == st.cell) = some held →
      let rules := stagedRules m.mem st
      match bankFailure st.saws rules with
      | some f =>
        EndsHeld (.stagingCompletion host) s held
          (m.onRs (fun rs =>
            { rs with
              slots := rs.slots.modify st.slot (fun sl => { sl with state := .free, bank := none })
              staging := none
              last := some (.badRules f.table f.index f.check.code) }))
          .badRules (BitVec.ofNat 32 (f.table + 256 * f.check.code + 65536 * f.index)) []
      | none =>
        let number := m.rs.numberToGive 3 m.rs.nextNumber
        EndsHeld (.stagingCompletion host) s held
          (m.onRs (fun rs =>
            { rs with
              slots := (rs.slots.map (fun sl =>
                if sl.state = .active then
                  if 0 < sl.bound then { sl with state := .retiring }
                  else { sl with state := .free, bank := none, number := none, label := none }
                else sl)).modify st.slot (fun sl =>
                  { sl with
                    state := .active, number := some number, label := some rules.label, bound := 0
                    rules := rules })
              staging := none
              nextNumber := if number = 65535 then 1 else number + 1
              last := some (.activated st.slot number rules.label) }))
          .done 0 (le8 st.slot ++ le8 0 ++ le16 number ++ le32 rules.label))
  ∧ (∀ (rs : RuleStore) (n : Nat), rs.slots.length = 3 → 1 ≤ n → n ≤ 65535 →
    let given := rs.numberToGive 3 n
    let taken := fun k => ∃ sl ∈ rs.slots, sl.state ≠ .free ∧ sl.number = some k
    let after := fun k => (n - 1 + k) % 65535 + 1
    1 ≤ given ∧ given ≤ 65535 ∧ ¬taken given ∧ (¬taken n → given = n)
    ∧ ∃ k, given = after k ∧ ∀ j, j < k → taken (after j))
  ∧ (∀ (mem : Memory) (st : Staging) (address : Nat),
    ((∀ c ∈ st.kept, c.1 ≠ address) → (stagedMemory mem st).read address = mem.read address)
    ∧ ∀ c ∈ st.kept, (∀ d ∈ st.kept, d.1 = c.1 → d = c) → (stagedMemory mem st).read c.1 = c.2)
  ∧ (∀ s : State, s.hostWrites [] = s
    ∧ ∀ w rest, s.hostWrites (w :: rest) = (s.hostWrite w).hostWrites rest)
  ∧ (∀ (w : HostWrite) (s : State),
    let t := s.hostWrite w
    let past := w.addr + w.bytes.length
    t =
      { s with
        mem := t.mem, rs := { s.rs with staging := t.rs.staging }
        tu := { s.tu with areaA := t.tu.areaA, areaB := t.tu.areaB } }
    ∧ (∀ a, (s.tu.entry a).area ≠ .clearing → t.tu.entry a = s.tu.entry a)
    ∧ (∀ x, (∀ a, (s.tu.entry a).area = .clearing → x < areaAddr a ∨ areaAddr a + 0x10000 ≤ x) →
      t.mem.read x = if w.addr ≤ x ∧ x < past then w.bytes.getD (x - w.addr) 0 else s.mem.read x)
    ∧ (s.rs.staging = none → t.rs.staging = none)
    ∧ ∀ st, s.rs.staging = some st → ∃ kept, t.rs.staging = some { st with kept }
      ∧ (w.late = false → kept = st.kept)
      ∧ (w.late = true → ∀ c, c ∈ kept ↔ c ∈ st.kept ∨ ∃ word, word % 4 = 0 ∧ w.bytes ≠ []
        ∧ w.addr / 4 ≤ word / 4 ∧ word / 4 ≤ (past - 1) / 4 ∧ 0x10000 + 0x8000 * st.bank ≤ word
        ∧ word < 0x10000 + 0x8000 * st.bank + 0x8000 ∧ (∀ d ∈ st.kept, d.1 ≠ word)
        ∧ word ≤ c.1 ∧ c.1 < word + 4 ∧ c.2 = s.mem.read c.1))
  ∧ (∀ (mem : Memory) (st : Staging),
    let r := stagedRules mem st
    let m := stagedMemory mem st
    let base := 0x10000 + 0x8000 * st.bank
    let at8 := fun offset => (m.read (base + offset)).toNat
    let at16 := fun offset => m.read16 (base + offset)
    r.label = m.read32 base ∧ r.gradeCount = at8 4 ∧ r.sizeCount = at8 5 ∧ r.lengthCount = at8 6 ∧ r.logCount = at8 7
    ∧ r.grades = (List.range (min (at8 4) 12)).map (fun i =>
      { code := at8 (0x10 + 24 * i), minDensity := at8 (0x10 + 24 * i + 1)
        limits := (List.range 11).map (fun k =>
          (at8 (0x10 + 24 * i + (2 + 2 * k)), at8 (0x10 + 24 * i + (3 + 2 * k)))) })
    ∧ r.sizes = (List.range (min (at8 5) 31)).map (fun i =>
      { widthMin := at16 (0x130 + 16 * i), widthMax := at16 (0x130 + 16 * i + 2)
        thickMin := at16 (0x130 + 16 * i + 4), thickMax := at16 (0x130 + 16 * i + 6)
        nominalWidth := at16 (0x130 + 16 * i + 8), nominalThick := at16 (0x130 + 16 * i + 10) })
    ∧ r.lengths = (List.range (min (at8 6) 16)).map (fun i => at8 (0x320 + 4 * i))
    ∧ r.logs = (List.range (min (at8 7) 16)).map (fun i => (at16 (0x360 + 4 * i), at16 (0x362 + 4 * i)))
    ∧ r.policy =
      { density := at8 0x3A0, cutInTwo := at8 0x3A1, fallback := at8 0x3A2, remanBin := at8 0x3A3
        recutBin := at8 0x3A4, offSizeGrade := at8 0x3A5, overflowGrade := at8 0x3A6, offSizeWidth := at16 0x3A8
        offSizeThick := at16 0x3AA }
    ∧ (∀ i, i < 0x3000 → r.prices.read i = m.read (base + 0x400 + i))
    ∧ ∀ i, i < 0x3400 → r.sort.read i = m.read (base + 0x3400 + i))
  ∧ ∀ (mem : Memory) (st : Staging), mem.wf = true →
    let r := stagedRules mem st
    let inside := fun lo hi n : Nat => decide (lo ≤ n ∧ n ≤ hi)
    let grade := fun i => (r.grades[i]?).getD ({ code := 0, minDensity := 0, limits := [] } : GradeRow)
    let size := fun i => (r.sizes[i]?).getD
      ({ widthMin := 0, widthMax := 0, thickMin := 0, thickMax := 0, nominalWidth := 0, nominalThick := 0 } : SizeRow)
    let span := fun i => (r.lengths[i]?).getD 0
    let log := fun i => (r.logs[i]?).getD (0, 0)
    let known := fun code => code == 13 || r.grades.any (fun g => g.code == code)
    let tests : List (Bool × Nat × Nat × Nat) :=
      [(inside 1 12 r.gradeCount, 0, 1, 1), (inside 1 31 r.sizeCount, 0, 2, 1), (inside 1 16 r.lengthCount, 0, 3, 1),
       (inside 1 16 r.logCount, 0, 4, 1)]
      ++ (List.range r.grades.length).flatMap (fun i =>
        [(inside 1 12 (grade i).code, 1, i, 2),
         (decide ((if i = 0 then 0 else (grade (i - 1)).code) < (grade i).code), 1, i, 3),
         ((grade i).minDensity == 1 || (grade i).minDensity == 2 || (grade i).minDensity == 4, 1, i, 4),
         ((grade i).limits.all (fun l => decide (l.2 ≤ 15)), 1, i, 2)])
      ++ (List.range r.sizes.length).flatMap (fun i =>
        [(decide ((size i).widthMin ≤ 4095 ∧ (size i).widthMax ≤ 4095 ∧ (size i).thickMin ≤ 4095
            ∧ (size i).thickMax ≤ 4095 ∧ (size i).widthMin ≤ (size i).widthMax
            ∧ (size i).thickMin ≤ (size i).thickMax), 2, i, 2),
         (inside 1 1023 (size i).nominalWidth && inside 1 1023 (size i).nominalThick, 2, i, 2)])
      ++ (List.range r.lengths.length).flatMap (fun i =>
        [(inside 1 19 (span i) && decide (span i + 1 ≤ st.saws), 3, i, 5),
         (decide ((if i = 0 then 0 else span (i - 1)) < span i), 3, i, 3)])
      ++ (List.range r.logs.length).map (fun i =>
        (inside 1 1023 (log i).1 && inside 1 1023 (log i).2 && decide ((log i).1 ≤ (log i).2), 4, i, 2))
      ++ (List.range 6656).map (fun i =>
        (decide ((r.sort.read (2 * i)).toNat ≤ 24 ∧ (r.sort.read (2 * i + 1)).toNat ≤ 24), 6, i, 6))
      ++ [(inside 1 5 r.policy.density, 7, 0, 7), (inside 1 2 r.policy.fallback, 7, 2, 7),
          (inside 0 1 r.policy.cutInTwo, 7, 1, 7), (inside 0 24 r.policy.remanBin, 7, 3, 6),
          (inside 0 24 r.policy.recutBin, 7, 4, 6), (known r.policy.offSizeGrade, 7, 5, 8),
          (known r.policy.overflowGrade, 7, 6, 8), (inside 1 1023 r.policy.offSizeWidth, 7, 7, 2),
          (inside 1 1023 r.policy.offSizeThick, 7, 8, 2)]
    (bankFailure st.saws r).map (fun f => (f.table, f.index, f.check.code))
      = (tests.find? (fun x => !x.1)).map (fun x => x.2)

/-- SOLVE_COMPLETION (R84, R85, R87, R98, R100, R119): the result is the solve of the context: on the geometry kept,
the rules of its slot, the piece's scan record and density, its lock view and trim override, and the piece's last
solution with the solver's grades and values in place of an APPLIED FORCE_GRADE's. A result whose saw set holds a saw
locked by now is discarded, the piece SCANNED at the head of the queue; else it is kept, with the size class, the next
solve number, the outcome of the trim override taken unless another came, and the grade override part applied; the
piece is SOLVED, or back in the queue when a trim override came during the solve. TS then takes the next piece. With no
solve in hand there is no such event (log 3). -/
def Obligations.SolveCompletionKeepsOrDiscards : Prop :=
  ∀ s : State,
    let m := s.clearOut
    (s.ts.inHand = none → Does .solveCompletion s m)
    ∧ (∀ c p r, s.ts.inHand = some c → s.dt.piece? c.serial = some p → s.solveResult c p = some r →
      if r.solution.sawSet &&& s.ax.lockSet ≠ 0 then
        Does .solveCompletion s
          (((m.onPiece c.serial (fun p => { p with state := .scanned })).onTs (fun ts =>
            { ts with inHand := none, queue := c.serial :: ts.queue, discarded := ts.discarded + 1 })).takeNext)
      else
        let settled := fun t : TrimPart =>
          { t with
            state := if r.applied then .applied else .notApplied
            reference := if t.kind = .shorter then t.reference.or r.reference else t.reference }
        let kept := fun p : Piece =>
          ({ p with
              state := .solved
              sizeClass := some r.size
              solution := some { r.solution with number := (p.solution.map (fun x => x.number)).getD 0 + 1 }
              trimPart := if c.trim.isSome && !c.arrival then p.trimPart.map settled else p.trimPart }
            : Piece).applyGradePart (s.rs.rulesOf c.slot)
        let u := (m.onPiece c.serial kept).onTs (fun ts =>
          { ts with
            inHand := none
            kept := ts.kept + 1
            fallbacks := if r.solution.kind = .fallback ∧ r.solution.reason = .scan then ts.fallbacks + 1
              else ts.fallbacks
            nones := if r.solution.kind = .noSolution then ts.nones + 1 else ts.nones })
        Does .solveCompletion s
          (if c.arrival then u.joinQueue c.serial else u.takeNext))
    ∧ ∀ c p g scan slot, s.dt.geometry = some g → p.scan = some scan → s.rs.slots[c.slot]? = some slot →
      let last := p.solution.map (fun sol =>
        match p.gradePart with
        | none => sol
        | some part =>
          match part.state, part.solved with
          | .applied, some l =>
            let products := (sol.products.zip l).map (fun x => { x.1 with grade := x.2.1, value := x.2.2 })
            { sol with products := products, totalValue := (products.map (fun x => x.value)).sum }
          | _, _ => sol)
      s.solveResult c p =
        some (solve g slot.rules scan ((p.density.map Density.code).getD 0) c.lockView c.trim last)

/-- The solve's result (R87, R89, R90, R97, R99, R100, R101): REMAN taken forms the reman FALLBACK; a record
INCOMPLETE or with a GAP the SCAN FALLBACK to the bound fallback bin; one without a left end NONE with NO_WOOD, both
with constraint NONE under any other trim override (the model's choice, log 39). TRIM_SHORTER chooses among the
candidates shorter than its reference length, which the unconstrained choice gives where the part holds none (log 22),
with constraint SHORTER; CUT_IN_TWO among the two-product candidates, with TWO_ONLY; either is then APPLIED. Where
nothing is left to choose it is NOT_APPLIED, and the result is the last solution when its saw set holds no saw of the
lock view, else the unconstrained choice. Among candidates the choice goes by total value, then total length, then one
product over two, then the smallest first saw, then the smallest second; with none it is NONE with NO_CANDIDATE. -/
def Obligations.SolveFallsBackOrChooses : Prop :=
  (∀ (g : Geometry) (rules : Rules) (scan : ScanRecord) (density : Nat) (view : SawSet)
    (trim : Option (TrimKind × Option Nat)) (last : Option Solution),
    let r := solve g rules scan density view trim last
    let bare := fun (kind : SolutionKind) (reason : Reason) (target : Nat) (constraint : Constraint) =>
      ({ kind, reason, saws := [], products := [], totalValue := 0, totalLength := 0, target := some target,
         constraint, deadline := false, number := 0, sawSet := 0 } : Solution)
    let reman := trim.map Prod.fst = some .reman
    let fallback := scan.incomplete = true ∨ scan.gap = true
    r.size = sizeClassOf rules scan
    ∧ (reman → r.solution = bare .fallback .override rules.policy.remanBin .reman ∧ r.applied = true)
    ∧ (¬reman → fallback →
      r.solution = bare .fallback .scan (if rules.policy.fallback = 2 then rules.policy.remanBin else 0) .free
      ∧ r.applied = false)
    ∧ (¬reman → ¬fallback → scan.ends = none →
      r.solution = bare .noSolution .noWood 0 .free ∧ r.applied = false)
    ∧ (¬reman → ¬fallback → ∀ left right, scan.ends = some (left, right) →
      let x : SolveInput := { g, rules, scan, density, size := r.size, view, left, right }
      let free := chooseFrom x.candidates
      let unconstrained := match free with
        | some c => x.normal c .free
        | none => bare .noSolution .noCandidate 0 .free
      let back := match last with
        | some sol => if sol.sawSet &&& view = 0 then sol else unconstrained
        | none => unconstrained
      (trim = none → r.applied = false ∧ r.solution = unconstrained)
      ∧ (∀ reference, trim = some (.shorter, reference) →
        let held := match reference with
          | some n => some n
          | none => free.map Candidate.length
        r.reference = held
        ∧ match chooseFrom (x.candidates.filter (fun c => decide (c.length < held.getD 0))) with
          | some c => r.applied = true ∧ r.solution = x.normal c .shorter
          | none => r.applied = false ∧ r.solution = back)
      ∧ ∀ reference, trim = some (.cutInTwo, reference) →
        match chooseFrom x.doubles with
        | some c => r.applied = true ∧ r.solution = x.normal c .twoOnly
        | none => r.applied = false ∧ r.solution = back))
  ∧ ∀ l : List Candidate, (chooseFrom l = none ↔ l = [])
    ∧ ∀ c, chooseFrom l = some c → c ∈ l ∧ ∀ d ∈ l, d ≠ c →
      d.value < c.value
      ∨ (d.value = c.value ∧ (d.length < c.length
        ∨ (d.length = c.length ∧ (c.products.length < d.products.length
          ∨ (c.products.length = d.products.length ∧ (c.saws.getD 0 0 < d.saws.getD 0 0
            ∨ (c.saws.getD 0 0 = d.saws.getD 0 0 ∧ c.saws.getD 1 0 ≤ d.saws.getD 1 0)))))))

/-- What a solve chooses among (R69, R70, R88, R91, R92, R93, R94, R95, R96, R98). The size class is the first that
holds the measures, else 0. A span's grade is the first of the table that is open to the density, no better than the
cap and whose limits hold for every find kind over the started metres, else 13; the cap is the worse of the off-size
grade for class 0 and the overflow grade under FINDS_TRUNCATED. A product is a pair of saws whose span a length class
holds, graded over its span and priced. A candidate has usable saws in rising order within the wood, and no block of
off-fall, between the ends, the usable saws within the piece and the outer product saws, above the maximum; one of two
products needs one primary bin for both, and is formed under cut-in-two. A NORMAL result's saw set is its product saws
and its chop saws. A grade's limit pairs stand in kind-code order with OTHER last (10.6). -/
def Obligations.CandidatesFollowSizeGradeAndOffFall : Prop :=
  [.knotSound, .knotLoose, .hole, .split, .shake, .wane, .stain, .pitchPocket, .skip, .check, .other].map
    FindKind.place = List.range 11
  ∧ (∀ (rules : Rules) (scan : ScanRecord),
    (scan.measures = none → sizeClassOf rules scan = 0)
    ∧ ∀ m, scan.measures = some m →
      let holds := fun z : SizeRow => z.widthMin ≤ m.widthMin ∧ m.widthMax ≤ z.widthMax ∧ z.thickMin ≤ m.thickMin
        ∧ m.thickMax ≤ z.thickMax
      ((∀ z ∈ rules.sizes, ¬holds z) → sizeClassOf rules scan = 0)
      ∧ ∀ (k : Nat) (z : SizeRow), rules.sizes[k]? = some z → holds z →
        (∀ (j : Nat) (w : SizeRow), j < k → rules.sizes[j]? = some w → ¬holds w) → sizeClassOf rules scan = k + 1)
  ∧ (∀ (rules : Rules) (finds : List Find) (density cap p q : Nat),
    let qualifies := fun row : GradeRow => row.minDensity ≤ density ∧ cap ≤ row.code ∧ ∀ k : Nat, k < 11 →
      let limit := row.limits.getD k (0, 0)
      let found := finds.filter (fun f => decide (p ≤ f.along ∧ f.along ≤ q ∧ f.kind.place = k))
      (limit.1 = 255 ∨ found.length ≤ limit.1 * ((q - p + 999) / 1000)) ∧ ∀ f ∈ found, f.size ≤ limit.2
    ((∀ row ∈ rules.grades, ¬qualifies row) → gradeSpan rules finds density cap p q = 13)
    ∧ ∀ (k : Nat) (row : GradeRow), rules.grades[k]? = some row → qualifies row →
      (∀ (j : Nat) (w : GradeRow), j < k → rules.grades[j]? = some w → ¬qualifies w) →
      gradeSpan rules finds density cap p q = row.code)
  ∧ (∀ (rules : Rules) (size grade lengthClass : Nat) (truncated : Bool),
    capOf rules size truncated = max (if size = 0 then rules.policy.offSizeGrade else 0)
      (if truncated then rules.policy.overflowGrade else 0)
    ∧ rules.price grade lengthClass size = (if grade = 13 then 0
      else rules.prices.read16 (2 * (((grade - 1) * 16 + lengthClass) * 32 + size)))
    ∧ rules.primary size grade lengthClass
      = (rules.sort.read (2 * ((size * 13 + grade - 1) * 16 + lengthClass))).toNat
    ∧ rules.alternate size grade lengthClass
      = (rules.sort.read (2 * ((size * 13 + grade - 1) * 16 + lengthClass) + 1)).toNat)
  ∧ ∀ x : SolveInput,
    let pos := fun k => (k - 1) * x.g.sawSpacing
    let usable := fun k => 1 ≤ k ∧ k ≤ x.g.sawCount ∧ has x.view k = false
    let chops := fun p : Nat → Bool => (List.range' 1 x.g.sawCount).filter (fun k =>
      !has x.view k && decide (x.left < pos k ∧ pos k < x.right) && p k)
    let below := fun a => chops (fun k => decide (pos k < pos a))
    let above := fun b => chops (fun k => decide (pos b < pos k))
    let short := fun points : List Nat => ∀ i u v, points[i]? = some u → points[i + 1]? = some v →
      v - u ≤ x.g.maxOffFall
    let fits := fun a b => x.left ≤ pos a ∧ pos b ≤ x.right ∧ short (x.left :: ((below a).map pos ++ [pos a]))
      ∧ short (pos b :: ((above b).map pos ++ [x.right]))
    (∀ a b, ((∀ n ∈ x.rules.lengths, n ≠ b - a) → x.product a b = none)
      ∧ ∀ lc, x.rules.lengths[lc]? = some (b - a) → (∀ j, j < lc → x.rules.lengths[j]? ≠ some (b - a)) →
        let grade := gradeSpan x.rules x.scan.finds x.density (capOf x.rules x.size x.scan.truncated) (pos a) (pos b)
        x.product a b = some
          { grade, lengthClass := lc, length := (b - a) * x.g.sawSpacing, value := x.rules.price grade lc x.size })
    ∧ (∀ c, c ∈ x.singles ↔ ∃ a b p, usable a ∧ usable b ∧ a < b ∧ fits a b ∧ x.product a b = some p
      ∧ c = { saws := [a, b], products := [p] })
    ∧ (∀ c, c ∈ x.doubles ↔ ∃ a b d p q, usable a ∧ usable b ∧ usable d ∧ a < b ∧ b < d ∧ fits a d
      ∧ x.product a b = some p ∧ x.product b d = some q
      ∧ x.rules.primary x.size p.grade p.lengthClass = x.rules.primary x.size q.grade q.lengthClass
      ∧ c = { saws := [a, b, d], products := [p, q] })
    ∧ x.candidates = x.singles ++ (if x.rules.policy.cutInTwo = 1 then x.doubles else [])
    ∧ ∀ (c : Candidate) (constraint : Constraint),
      let r := x.normal c constraint
      r = { kind := .normal, reason := .noReason, saws := c.saws, products := c.products
            totalValue := (c.products.map (fun p => p.value)).sum
            totalLength := (c.products.map (fun p => p.length)).sum
            target := none, constraint, deadline := false, number := 0, sawSet := r.sawSet }
      ∧ ∀ k, 1 ≤ k → k ≤ 20 → (has r.sawSet k = true ↔ k ∈ c.saws ∨ k ∈ below (c.saws.getD 0 0)
        ∨ k ∈ above (c.saws.getLastD 0))

/-- KEY_PRESS and LAMP_PULSE_END (R107, R108, R109): a press is counted; without a geometry record it is refused
REFUSED_STATE, its last answer without a tag (the model's choice, log 27), with 4 entries queued QUEUE_FULL, lighting
REFUSE; else the key, the tag at the station's aim station
and the authority join its queue, and an IDLE station takes its head entry: it is resolved, the lamps show the
answer, and the last answer is rewritten. A pulse end makes the station IDLE and takes the next entry; at an IDLE
station there is no such event (log 3). -/
def Obligations.KeyIsQueuedTakenAndShown : Prop :=
  ∀ (n : Nat) (s : State) (st : Station), s.ou.station? n = some st →
    let m := s.clearOut
    let refuse := fun (key : BitVec 4) (tag : Option Byte) (answer : Result) (u : State) =>
      u.onStation n (fun st =>
        { st with
          refusedAtPress := st.refusedAtPress + 1
          showing := some { ok := false, refuse := true }
          last := some { key, tag, answer, serial := none } })
    (∀ (key : BitVec 4) (authority : Bool),
      let u := m.onStation n (fun st => { st with presses := st.presses + 1 })
      (s.dt.geometry = none → Does (.keyPress n key authority) s (refuse key none .refusedState u))
      ∧ ∀ g lug, s.dt.geometry = some g → s.dt.lugAt (if n = 1 then g.aim1 else g.aim2) = some lug →
        Does (.keyPress n key authority) s
          (if 4 ≤ st.queue.length then refuse key (some lug.tag) .queueFull u
          else
            (u.onStation n (fun st =>
              { st with queue := st.queue ++ [{ key, tag := lug.tag, authority }] })).takeKey n))
    ∧ Does (.lampPulseEnd n) s
      (if st.showing = none then m else (m.onStation n (fun st => { st with showing := none })).takeKey n)
    ∧ (st.showing ≠ none ∨ st.queue = [] → s.takeKey n = s)
    ∧ ∀ e rest, st.showing = none → st.queue = e :: rest →
      let kind : OverrideKind :=
        if e.key = 0 then .accept else if e.key = 13 then .trimShorter else if e.key = 14 then .cutInTwo
        else if e.key = 15 then .reman else .forceGrade e.key.toNat
      let answer := s.answerTag e.tag kind e.authority
      s.takeKey n =
        ((s.onStation n (fun st => { st with queue := rest })).resolve e.tag kind
          (if n = 1 then .station1 else .station2) e.authority).onStation n (fun st =>
            { st with
              showing := some
                { ok := answer.1 == .done || answer.1 == .noAuthority, refuse := answer.1 != .done }
              last := some
                { key := e.key, tag := some e.tag, answer := answer.1
                  serial := answer.2.map (fun p => p.serial) } })
end

