-- ==== Sys2Proof/Laws/State.lean ====
section
/-! SUPPORT. One lemma for each field of the state under each named update: no later proof unfolds a record
update. -/

namespace Sys2Proof.Machine

/-! ## `State.onMem` -/

@[simp] theorem State.onMem_pending (f : Memory → Memory) (s : State) : (s.onMem f).pending = s.pending := rfl
@[simp] theorem State.onMem_out (f : Memory → Memory) (s : State) : (s.onMem f).out = s.out := rfl
@[simp] theorem State.onMem_mem (f : Memory → Memory) (s : State) : (s.onMem f).mem = f s.mem := rfl
@[simp] theorem State.onMem_dt (f : Memory → Memory) (s : State) : (s.onMem f).dt = s.dt := rfl
@[simp] theorem State.onMem_sa (f : Memory → Memory) (s : State) : (s.onMem f).sa = s.sa := rfl
@[simp] theorem State.onMem_da (f : Memory → Memory) (s : State) : (s.onMem f).da = s.da := rfl
@[simp] theorem State.onMem_rs (f : Memory → Memory) (s : State) : (s.onMem f).rs = s.rs := rfl
@[simp] theorem State.onMem_ts (f : Memory → Memory) (s : State) : (s.onMem f).ts = s.ts := rfl
@[simp] theorem State.onMem_ou (f : Memory → Memory) (s : State) : (s.onMem f).ou = s.ou := rfl
@[simp] theorem State.onMem_ax (f : Memory → Memory) (s : State) : (s.onMem f).ax = s.ax := rfl
@[simp] theorem State.onMem_tu (f : Memory → Memory) (s : State) : (s.onMem f).tu = s.tu := rfl
@[simp] theorem State.onMem_xi (f : Memory → Memory) (s : State) : (s.onMem f).xi = s.xi := rfl

/-! ## `State.onDt` -/

@[simp] theorem State.onDt_pending (f : Deck → Deck) (s : State) : (s.onDt f).pending = s.pending := rfl
@[simp] theorem State.onDt_out (f : Deck → Deck) (s : State) : (s.onDt f).out = s.out := rfl
@[simp] theorem State.onDt_mem (f : Deck → Deck) (s : State) : (s.onDt f).mem = s.mem := rfl
@[simp] theorem State.onDt_dt (f : Deck → Deck) (s : State) : (s.onDt f).dt = f s.dt := rfl
@[simp] theorem State.onDt_sa (f : Deck → Deck) (s : State) : (s.onDt f).sa = s.sa := rfl
@[simp] theorem State.onDt_da (f : Deck → Deck) (s : State) : (s.onDt f).da = s.da := rfl
@[simp] theorem State.onDt_rs (f : Deck → Deck) (s : State) : (s.onDt f).rs = s.rs := rfl
@[simp] theorem State.onDt_ts (f : Deck → Deck) (s : State) : (s.onDt f).ts = s.ts := rfl
@[simp] theorem State.onDt_ou (f : Deck → Deck) (s : State) : (s.onDt f).ou = s.ou := rfl
@[simp] theorem State.onDt_ax (f : Deck → Deck) (s : State) : (s.onDt f).ax = s.ax := rfl
@[simp] theorem State.onDt_tu (f : Deck → Deck) (s : State) : (s.onDt f).tu = s.tu := rfl
@[simp] theorem State.onDt_xi (f : Deck → Deck) (s : State) : (s.onDt f).xi = s.xi := rfl

/-! ## `State.onSa` -/

@[simp] theorem State.onSa_pending (f : Scan → Scan) (s : State) : (s.onSa f).pending = s.pending := rfl
@[simp] theorem State.onSa_out (f : Scan → Scan) (s : State) : (s.onSa f).out = s.out := rfl
@[simp] theorem State.onSa_mem (f : Scan → Scan) (s : State) : (s.onSa f).mem = s.mem := rfl
@[simp] theorem State.onSa_dt (f : Scan → Scan) (s : State) : (s.onSa f).dt = s.dt := rfl
@[simp] theorem State.onSa_sa (f : Scan → Scan) (s : State) : (s.onSa f).sa = f s.sa := rfl
@[simp] theorem State.onSa_da (f : Scan → Scan) (s : State) : (s.onSa f).da = s.da := rfl
@[simp] theorem State.onSa_rs (f : Scan → Scan) (s : State) : (s.onSa f).rs = s.rs := rfl
@[simp] theorem State.onSa_ts (f : Scan → Scan) (s : State) : (s.onSa f).ts = s.ts := rfl
@[simp] theorem State.onSa_ou (f : Scan → Scan) (s : State) : (s.onSa f).ou = s.ou := rfl
@[simp] theorem State.onSa_ax (f : Scan → Scan) (s : State) : (s.onSa f).ax = s.ax := rfl
@[simp] theorem State.onSa_tu (f : Scan → Scan) (s : State) : (s.onSa f).tu = s.tu := rfl
@[simp] theorem State.onSa_xi (f : Scan → Scan) (s : State) : (s.onSa f).xi = s.xi := rfl

/-! ## `State.onDa` -/

@[simp] theorem State.onDa_pending (f : Align → Align) (s : State) : (s.onDa f).pending = s.pending := rfl
@[simp] theorem State.onDa_out (f : Align → Align) (s : State) : (s.onDa f).out = s.out := rfl
@[simp] theorem State.onDa_mem (f : Align → Align) (s : State) : (s.onDa f).mem = s.mem := rfl
@[simp] theorem State.onDa_dt (f : Align → Align) (s : State) : (s.onDa f).dt = s.dt := rfl
@[simp] theorem State.onDa_sa (f : Align → Align) (s : State) : (s.onDa f).sa = s.sa := rfl
@[simp] theorem State.onDa_da (f : Align → Align) (s : State) : (s.onDa f).da = f s.da := rfl
@[simp] theorem State.onDa_rs (f : Align → Align) (s : State) : (s.onDa f).rs = s.rs := rfl
@[simp] theorem State.onDa_ts (f : Align → Align) (s : State) : (s.onDa f).ts = s.ts := rfl
@[simp] theorem State.onDa_ou (f : Align → Align) (s : State) : (s.onDa f).ou = s.ou := rfl
@[simp] theorem State.onDa_ax (f : Align → Align) (s : State) : (s.onDa f).ax = s.ax := rfl
@[simp] theorem State.onDa_tu (f : Align → Align) (s : State) : (s.onDa f).tu = s.tu := rfl
@[simp] theorem State.onDa_xi (f : Align → Align) (s : State) : (s.onDa f).xi = s.xi := rfl

/-! ## `State.onRs` -/

@[simp] theorem State.onRs_pending (f : RuleStore → RuleStore) (s : State) : (s.onRs f).pending = s.pending := rfl
@[simp] theorem State.onRs_out (f : RuleStore → RuleStore) (s : State) : (s.onRs f).out = s.out := rfl
@[simp] theorem State.onRs_mem (f : RuleStore → RuleStore) (s : State) : (s.onRs f).mem = s.mem := rfl
@[simp] theorem State.onRs_dt (f : RuleStore → RuleStore) (s : State) : (s.onRs f).dt = s.dt := rfl
@[simp] theorem State.onRs_sa (f : RuleStore → RuleStore) (s : State) : (s.onRs f).sa = s.sa := rfl
@[simp] theorem State.onRs_da (f : RuleStore → RuleStore) (s : State) : (s.onRs f).da = s.da := rfl
@[simp] theorem State.onRs_rs (f : RuleStore → RuleStore) (s : State) : (s.onRs f).rs = f s.rs := rfl
@[simp] theorem State.onRs_ts (f : RuleStore → RuleStore) (s : State) : (s.onRs f).ts = s.ts := rfl
@[simp] theorem State.onRs_ou (f : RuleStore → RuleStore) (s : State) : (s.onRs f).ou = s.ou := rfl
@[simp] theorem State.onRs_ax (f : RuleStore → RuleStore) (s : State) : (s.onRs f).ax = s.ax := rfl
@[simp] theorem State.onRs_tu (f : RuleStore → RuleStore) (s : State) : (s.onRs f).tu = s.tu := rfl
@[simp] theorem State.onRs_xi (f : RuleStore → RuleStore) (s : State) : (s.onRs f).xi = s.xi := rfl

/-! ## `State.onTs` -/

@[simp] theorem State.onTs_pending (f : Solver → Solver) (s : State) : (s.onTs f).pending = s.pending := rfl
@[simp] theorem State.onTs_out (f : Solver → Solver) (s : State) : (s.onTs f).out = s.out := rfl
@[simp] theorem State.onTs_mem (f : Solver → Solver) (s : State) : (s.onTs f).mem = s.mem := rfl
@[simp] theorem State.onTs_dt (f : Solver → Solver) (s : State) : (s.onTs f).dt = s.dt := rfl
@[simp] theorem State.onTs_sa (f : Solver → Solver) (s : State) : (s.onTs f).sa = s.sa := rfl
@[simp] theorem State.onTs_da (f : Solver → Solver) (s : State) : (s.onTs f).da = s.da := rfl
@[simp] theorem State.onTs_rs (f : Solver → Solver) (s : State) : (s.onTs f).rs = s.rs := rfl
@[simp] theorem State.onTs_ts (f : Solver → Solver) (s : State) : (s.onTs f).ts = f s.ts := rfl
@[simp] theorem State.onTs_ou (f : Solver → Solver) (s : State) : (s.onTs f).ou = s.ou := rfl
@[simp] theorem State.onTs_ax (f : Solver → Solver) (s : State) : (s.onTs f).ax = s.ax := rfl
@[simp] theorem State.onTs_tu (f : Solver → Solver) (s : State) : (s.onTs f).tu = s.tu := rfl
@[simp] theorem State.onTs_xi (f : Solver → Solver) (s : State) : (s.onTs f).xi = s.xi := rfl

/-! ## `State.onOu` -/

@[simp] theorem State.onOu_pending (f : Overrides → Overrides) (s : State) : (s.onOu f).pending = s.pending := rfl
@[simp] theorem State.onOu_out (f : Overrides → Overrides) (s : State) : (s.onOu f).out = s.out := rfl
@[simp] theorem State.onOu_mem (f : Overrides → Overrides) (s : State) : (s.onOu f).mem = s.mem := rfl
@[simp] theorem State.onOu_dt (f : Overrides → Overrides) (s : State) : (s.onOu f).dt = s.dt := rfl
@[simp] theorem State.onOu_sa (f : Overrides → Overrides) (s : State) : (s.onOu f).sa = s.sa := rfl
@[simp] theorem State.onOu_da (f : Overrides → Overrides) (s : State) : (s.onOu f).da = s.da := rfl
@[simp] theorem State.onOu_rs (f : Overrides → Overrides) (s : State) : (s.onOu f).rs = s.rs := rfl
@[simp] theorem State.onOu_ts (f : Overrides → Overrides) (s : State) : (s.onOu f).ts = s.ts := rfl
@[simp] theorem State.onOu_ou (f : Overrides → Overrides) (s : State) : (s.onOu f).ou = f s.ou := rfl
@[simp] theorem State.onOu_ax (f : Overrides → Overrides) (s : State) : (s.onOu f).ax = s.ax := rfl
@[simp] theorem State.onOu_tu (f : Overrides → Overrides) (s : State) : (s.onOu f).tu = s.tu := rfl
@[simp] theorem State.onOu_xi (f : Overrides → Overrides) (s : State) : (s.onOu f).xi = s.xi := rfl

/-! ## `State.onAx` -/

@[simp] theorem State.onAx_pending (f : Actuation → Actuation) (s : State) : (s.onAx f).pending = s.pending := rfl
@[simp] theorem State.onAx_out (f : Actuation → Actuation) (s : State) : (s.onAx f).out = s.out := rfl
@[simp] theorem State.onAx_mem (f : Actuation → Actuation) (s : State) : (s.onAx f).mem = s.mem := rfl
@[simp] theorem State.onAx_dt (f : Actuation → Actuation) (s : State) : (s.onAx f).dt = s.dt := rfl
@[simp] theorem State.onAx_sa (f : Actuation → Actuation) (s : State) : (s.onAx f).sa = s.sa := rfl
@[simp] theorem State.onAx_da (f : Actuation → Actuation) (s : State) : (s.onAx f).da = s.da := rfl
@[simp] theorem State.onAx_rs (f : Actuation → Actuation) (s : State) : (s.onAx f).rs = s.rs := rfl
@[simp] theorem State.onAx_ts (f : Actuation → Actuation) (s : State) : (s.onAx f).ts = s.ts := rfl
@[simp] theorem State.onAx_ou (f : Actuation → Actuation) (s : State) : (s.onAx f).ou = s.ou := rfl
@[simp] theorem State.onAx_ax (f : Actuation → Actuation) (s : State) : (s.onAx f).ax = f s.ax := rfl
@[simp] theorem State.onAx_tu (f : Actuation → Actuation) (s : State) : (s.onAx f).tu = s.tu := rfl
@[simp] theorem State.onAx_xi (f : Actuation → Actuation) (s : State) : (s.onAx f).xi = s.xi := rfl

/-! ## `State.onTu` -/

@[simp] theorem State.onTu_pending (f : Tally → Tally) (s : State) : (s.onTu f).pending = s.pending := rfl
@[simp] theorem State.onTu_out (f : Tally → Tally) (s : State) : (s.onTu f).out = s.out := rfl
@[simp] theorem State.onTu_mem (f : Tally → Tally) (s : State) : (s.onTu f).mem = s.mem := rfl
@[simp] theorem State.onTu_dt (f : Tally → Tally) (s : State) : (s.onTu f).dt = s.dt := rfl
@[simp] theorem State.onTu_sa (f : Tally → Tally) (s : State) : (s.onTu f).sa = s.sa := rfl
@[simp] theorem State.onTu_da (f : Tally → Tally) (s : State) : (s.onTu f).da = s.da := rfl
@[simp] theorem State.onTu_rs (f : Tally → Tally) (s : State) : (s.onTu f).rs = s.rs := rfl
@[simp] theorem State.onTu_ts (f : Tally → Tally) (s : State) : (s.onTu f).ts = s.ts := rfl
@[simp] theorem State.onTu_ou (f : Tally → Tally) (s : State) : (s.onTu f).ou = s.ou := rfl
@[simp] theorem State.onTu_ax (f : Tally → Tally) (s : State) : (s.onTu f).ax = s.ax := rfl
@[simp] theorem State.onTu_tu (f : Tally → Tally) (s : State) : (s.onTu f).tu = f s.tu := rfl
@[simp] theorem State.onTu_xi (f : Tally → Tally) (s : State) : (s.onTu f).xi = s.xi := rfl

/-! ## `State.onXi` -/

@[simp] theorem State.onXi_pending (f : Exchange → Exchange) (s : State) : (s.onXi f).pending = s.pending := rfl
@[simp] theorem State.onXi_out (f : Exchange → Exchange) (s : State) : (s.onXi f).out = s.out := rfl
@[simp] theorem State.onXi_mem (f : Exchange → Exchange) (s : State) : (s.onXi f).mem = s.mem := rfl
@[simp] theorem State.onXi_dt (f : Exchange → Exchange) (s : State) : (s.onXi f).dt = s.dt := rfl
@[simp] theorem State.onXi_sa (f : Exchange → Exchange) (s : State) : (s.onXi f).sa = s.sa := rfl
@[simp] theorem State.onXi_da (f : Exchange → Exchange) (s : State) : (s.onXi f).da = s.da := rfl
@[simp] theorem State.onXi_rs (f : Exchange → Exchange) (s : State) : (s.onXi f).rs = s.rs := rfl
@[simp] theorem State.onXi_ts (f : Exchange → Exchange) (s : State) : (s.onXi f).ts = s.ts := rfl
@[simp] theorem State.onXi_ou (f : Exchange → Exchange) (s : State) : (s.onXi f).ou = s.ou := rfl
@[simp] theorem State.onXi_ax (f : Exchange → Exchange) (s : State) : (s.onXi f).ax = s.ax := rfl
@[simp] theorem State.onXi_tu (f : Exchange → Exchange) (s : State) : (s.onXi f).tu = s.tu := rfl
@[simp] theorem State.onXi_xi (f : Exchange → Exchange) (s : State) : (s.onXi f).xi = f s.xi := rfl

/-! ## `State.emit`, `State.send`, `State.clearOut` -/

@[simp] theorem State.emit_pending (o : Output) (s : State) : (s.emit o).pending = s.pending := rfl
@[simp] theorem State.emit_out (o : Output) (s : State) : (s.emit o).out = s.out ++ [o] := rfl
@[simp] theorem State.emit_mem (o : Output) (s : State) : (s.emit o).mem = s.mem := rfl
@[simp] theorem State.emit_dt (o : Output) (s : State) : (s.emit o).dt = s.dt := rfl
@[simp] theorem State.emit_sa (o : Output) (s : State) : (s.emit o).sa = s.sa := rfl
@[simp] theorem State.emit_da (o : Output) (s : State) : (s.emit o).da = s.da := rfl
@[simp] theorem State.emit_rs (o : Output) (s : State) : (s.emit o).rs = s.rs := rfl
@[simp] theorem State.emit_ts (o : Output) (s : State) : (s.emit o).ts = s.ts := rfl
@[simp] theorem State.emit_ou (o : Output) (s : State) : (s.emit o).ou = s.ou := rfl
@[simp] theorem State.emit_ax (o : Output) (s : State) : (s.emit o).ax = s.ax := rfl
@[simp] theorem State.emit_tu (o : Output) (s : State) : (s.emit o).tu = s.tu := rfl
@[simp] theorem State.emit_xi (o : Output) (s : State) : (s.emit o).xi = s.xi := rfl
@[simp] theorem State.send_pending (h : Nat) (fr : Frame) (s : State) : (s.send h fr).pending = s.pending := rfl
@[simp] theorem State.send_out (h : Nat) (fr : Frame) (s : State) : (s.send h fr).out = s.out ++ [.frame h fr] := rfl
@[simp] theorem State.send_mem (h : Nat) (fr : Frame) (s : State) : (s.send h fr).mem = s.mem := rfl
@[simp] theorem State.send_dt (h : Nat) (fr : Frame) (s : State) : (s.send h fr).dt = s.dt := rfl
@[simp] theorem State.send_sa (h : Nat) (fr : Frame) (s : State) : (s.send h fr).sa = s.sa := rfl
@[simp] theorem State.send_da (h : Nat) (fr : Frame) (s : State) : (s.send h fr).da = s.da := rfl
@[simp] theorem State.send_rs (h : Nat) (fr : Frame) (s : State) : (s.send h fr).rs = s.rs := rfl
@[simp] theorem State.send_ts (h : Nat) (fr : Frame) (s : State) : (s.send h fr).ts = s.ts := rfl
@[simp] theorem State.send_ou (h : Nat) (fr : Frame) (s : State) : (s.send h fr).ou = s.ou := rfl
@[simp] theorem State.send_ax (h : Nat) (fr : Frame) (s : State) : (s.send h fr).ax = s.ax := rfl
@[simp] theorem State.send_tu (h : Nat) (fr : Frame) (s : State) : (s.send h fr).tu = s.tu := rfl
@[simp] theorem State.send_xi (h : Nat) (fr : Frame) (s : State) : (s.send h fr).xi = s.xi := rfl
@[simp] theorem State.clearOut_pending (s : State) : (s.clearOut).pending = s.pending := rfl
@[simp] theorem State.clearOut_out (s : State) : (s.clearOut).out = [] := rfl
@[simp] theorem State.clearOut_mem (s : State) : (s.clearOut).mem = s.mem := rfl
@[simp] theorem State.clearOut_dt (s : State) : (s.clearOut).dt = s.dt := rfl
@[simp] theorem State.clearOut_sa (s : State) : (s.clearOut).sa = s.sa := rfl
@[simp] theorem State.clearOut_da (s : State) : (s.clearOut).da = s.da := rfl
@[simp] theorem State.clearOut_rs (s : State) : (s.clearOut).rs = s.rs := rfl
@[simp] theorem State.clearOut_ts (s : State) : (s.clearOut).ts = s.ts := rfl
@[simp] theorem State.clearOut_ou (s : State) : (s.clearOut).ou = s.ou := rfl
@[simp] theorem State.clearOut_ax (s : State) : (s.clearOut).ax = s.ax := rfl
@[simp] theorem State.clearOut_tu (s : State) : (s.clearOut).tu = s.tu := rfl
@[simp] theorem State.clearOut_xi (s : State) : (s.clearOut).xi = s.xi := rfl

/-! ## `State.onPiece` -/

@[simp] theorem State.onPiece_pending (n : Word) (f : Piece → Piece) (s : State) : (s.onPiece n f).pending = s.pending := rfl
@[simp] theorem State.onPiece_out (n : Word) (f : Piece → Piece) (s : State) : (s.onPiece n f).out = s.out := rfl
@[simp] theorem State.onPiece_mem (n : Word) (f : Piece → Piece) (s : State) : (s.onPiece n f).mem = s.mem := rfl
@[simp] theorem State.onPiece_dt (n : Word) (f : Piece → Piece) (s : State) : (s.onPiece n f).dt = { s.dt with pieces := s.dt.pieces.map (fun p => if p.serial = n then f p else p) } := rfl
@[simp] theorem State.onPiece_sa (n : Word) (f : Piece → Piece) (s : State) : (s.onPiece n f).sa = s.sa := rfl
@[simp] theorem State.onPiece_da (n : Word) (f : Piece → Piece) (s : State) : (s.onPiece n f).da = s.da := rfl
@[simp] theorem State.onPiece_rs (n : Word) (f : Piece → Piece) (s : State) : (s.onPiece n f).rs = s.rs := rfl
@[simp] theorem State.onPiece_ts (n : Word) (f : Piece → Piece) (s : State) : (s.onPiece n f).ts = s.ts := rfl
@[simp] theorem State.onPiece_ou (n : Word) (f : Piece → Piece) (s : State) : (s.onPiece n f).ou = s.ou := rfl
@[simp] theorem State.onPiece_ax (n : Word) (f : Piece → Piece) (s : State) : (s.onPiece n f).ax = s.ax := rfl
@[simp] theorem State.onPiece_tu (n : Word) (f : Piece → Piece) (s : State) : (s.onPiece n f).tu = s.tu := rfl
@[simp] theorem State.onPiece_xi (n : Word) (f : Piece → Piece) (s : State) : (s.onPiece n f).xi = s.xi := rfl

/-! ## `State.onPieces` -/

@[simp] theorem State.onPieces_pending (f : Piece → Piece) (s : State) : (s.onPieces f).pending = s.pending := rfl
@[simp] theorem State.onPieces_out (f : Piece → Piece) (s : State) : (s.onPieces f).out = s.out := rfl
@[simp] theorem State.onPieces_mem (f : Piece → Piece) (s : State) : (s.onPieces f).mem = s.mem := rfl
@[simp] theorem State.onPieces_dt (f : Piece → Piece) (s : State) : (s.onPieces f).dt = { s.dt with pieces := s.dt.pieces.map f } := rfl
@[simp] theorem State.onPieces_sa (f : Piece → Piece) (s : State) : (s.onPieces f).sa = s.sa := rfl
@[simp] theorem State.onPieces_da (f : Piece → Piece) (s : State) : (s.onPieces f).da = s.da := rfl
@[simp] theorem State.onPieces_rs (f : Piece → Piece) (s : State) : (s.onPieces f).rs = s.rs := rfl
@[simp] theorem State.onPieces_ts (f : Piece → Piece) (s : State) : (s.onPieces f).ts = s.ts := rfl
@[simp] theorem State.onPieces_ou (f : Piece → Piece) (s : State) : (s.onPieces f).ou = s.ou := rfl
@[simp] theorem State.onPieces_ax (f : Piece → Piece) (s : State) : (s.onPieces f).ax = s.ax := rfl
@[simp] theorem State.onPieces_tu (f : Piece → Piece) (s : State) : (s.onPieces f).tu = s.tu := rfl
@[simp] theorem State.onPieces_xi (f : Piece → Piece) (s : State) : (s.onPieces f).xi = s.xi := rfl

/-! ## `State.onLugs` -/

@[simp] theorem State.onLugs_pending (f : Lug → Lug) (s : State) : (s.onLugs f).pending = s.pending := rfl
@[simp] theorem State.onLugs_out (f : Lug → Lug) (s : State) : (s.onLugs f).out = s.out := rfl
@[simp] theorem State.onLugs_mem (f : Lug → Lug) (s : State) : (s.onLugs f).mem = s.mem := rfl
@[simp] theorem State.onLugs_dt (f : Lug → Lug) (s : State) : (s.onLugs f).dt = { s.dt with lugs := s.dt.lugs.map f, upstream := s.dt.upstream.map f } := rfl
@[simp] theorem State.onLugs_sa (f : Lug → Lug) (s : State) : (s.onLugs f).sa = s.sa := rfl
@[simp] theorem State.onLugs_da (f : Lug → Lug) (s : State) : (s.onLugs f).da = s.da := rfl
@[simp] theorem State.onLugs_rs (f : Lug → Lug) (s : State) : (s.onLugs f).rs = s.rs := rfl
@[simp] theorem State.onLugs_ts (f : Lug → Lug) (s : State) : (s.onLugs f).ts = s.ts := rfl
@[simp] theorem State.onLugs_ou (f : Lug → Lug) (s : State) : (s.onLugs f).ou = s.ou := rfl
@[simp] theorem State.onLugs_ax (f : Lug → Lug) (s : State) : (s.onLugs f).ax = s.ax := rfl
@[simp] theorem State.onLugs_tu (f : Lug → Lug) (s : State) : (s.onLugs f).tu = s.tu := rfl
@[simp] theorem State.onLugs_xi (f : Lug → Lug) (s : State) : (s.onLugs f).xi = s.xi := rfl

/-! ## `State.onLugAt` -/

@[simp] theorem State.onLugAt_pending (n : Nat) (f : Lug → Lug) (s : State) : (s.onLugAt n f).pending = s.pending := rfl
@[simp] theorem State.onLugAt_out (n : Nat) (f : Lug → Lug) (s : State) : (s.onLugAt n f).out = s.out := rfl
@[simp] theorem State.onLugAt_mem (n : Nat) (f : Lug → Lug) (s : State) : (s.onLugAt n f).mem = s.mem := rfl
@[simp] theorem State.onLugAt_dt (n : Nat) (f : Lug → Lug) (s : State) : (s.onLugAt n f).dt = { s.dt with lugs := s.dt.lugs.modify n f } := rfl
@[simp] theorem State.onLugAt_sa (n : Nat) (f : Lug → Lug) (s : State) : (s.onLugAt n f).sa = s.sa := rfl
@[simp] theorem State.onLugAt_da (n : Nat) (f : Lug → Lug) (s : State) : (s.onLugAt n f).da = s.da := rfl
@[simp] theorem State.onLugAt_rs (n : Nat) (f : Lug → Lug) (s : State) : (s.onLugAt n f).rs = s.rs := rfl
@[simp] theorem State.onLugAt_ts (n : Nat) (f : Lug → Lug) (s : State) : (s.onLugAt n f).ts = s.ts := rfl
@[simp] theorem State.onLugAt_ou (n : Nat) (f : Lug → Lug) (s : State) : (s.onLugAt n f).ou = s.ou := rfl
@[simp] theorem State.onLugAt_ax (n : Nat) (f : Lug → Lug) (s : State) : (s.onLugAt n f).ax = s.ax := rfl
@[simp] theorem State.onLugAt_tu (n : Nat) (f : Lug → Lug) (s : State) : (s.onLugAt n f).tu = s.tu := rfl
@[simp] theorem State.onLugAt_xi (n : Nat) (f : Lug → Lug) (s : State) : (s.onLugAt n f).xi = s.xi := rfl

/-! ## `State.onHead` -/

@[simp] theorem State.onHead_pending (n : Nat) (f : Head → Head) (s : State) : (s.onHead n f).pending = s.pending := rfl
@[simp] theorem State.onHead_out (n : Nat) (f : Head → Head) (s : State) : (s.onHead n f).out = s.out := rfl
@[simp] theorem State.onHead_mem (n : Nat) (f : Head → Head) (s : State) : (s.onHead n f).mem = s.mem := rfl
@[simp] theorem State.onHead_dt (n : Nat) (f : Head → Head) (s : State) : (s.onHead n f).dt = s.dt := rfl
@[simp] theorem State.onHead_sa (n : Nat) (f : Head → Head) (s : State) : (s.onHead n f).sa = { s.sa with heads := if n = 0 then s.sa.heads else s.sa.heads.modify (n - 1) f } := rfl
@[simp] theorem State.onHead_da (n : Nat) (f : Head → Head) (s : State) : (s.onHead n f).da = s.da := rfl
@[simp] theorem State.onHead_rs (n : Nat) (f : Head → Head) (s : State) : (s.onHead n f).rs = s.rs := rfl
@[simp] theorem State.onHead_ts (n : Nat) (f : Head → Head) (s : State) : (s.onHead n f).ts = s.ts := rfl
@[simp] theorem State.onHead_ou (n : Nat) (f : Head → Head) (s : State) : (s.onHead n f).ou = s.ou := rfl
@[simp] theorem State.onHead_ax (n : Nat) (f : Head → Head) (s : State) : (s.onHead n f).ax = s.ax := rfl
@[simp] theorem State.onHead_tu (n : Nat) (f : Head → Head) (s : State) : (s.onHead n f).tu = s.tu := rfl
@[simp] theorem State.onHead_xi (n : Nat) (f : Head → Head) (s : State) : (s.onHead n f).xi = s.xi := rfl

/-! ## `State.onSlot` -/

@[simp] theorem State.onSlot_pending (n : Nat) (f : Slot → Slot) (s : State) : (s.onSlot n f).pending = s.pending := rfl
@[simp] theorem State.onSlot_out (n : Nat) (f : Slot → Slot) (s : State) : (s.onSlot n f).out = s.out := rfl
@[simp] theorem State.onSlot_mem (n : Nat) (f : Slot → Slot) (s : State) : (s.onSlot n f).mem = s.mem := rfl
@[simp] theorem State.onSlot_dt (n : Nat) (f : Slot → Slot) (s : State) : (s.onSlot n f).dt = s.dt := rfl
@[simp] theorem State.onSlot_sa (n : Nat) (f : Slot → Slot) (s : State) : (s.onSlot n f).sa = s.sa := rfl
@[simp] theorem State.onSlot_da (n : Nat) (f : Slot → Slot) (s : State) : (s.onSlot n f).da = s.da := rfl
@[simp] theorem State.onSlot_rs (n : Nat) (f : Slot → Slot) (s : State) : (s.onSlot n f).rs = { s.rs with slots := s.rs.slots.modify n f } := rfl
@[simp] theorem State.onSlot_ts (n : Nat) (f : Slot → Slot) (s : State) : (s.onSlot n f).ts = s.ts := rfl
@[simp] theorem State.onSlot_ou (n : Nat) (f : Slot → Slot) (s : State) : (s.onSlot n f).ou = s.ou := rfl
@[simp] theorem State.onSlot_ax (n : Nat) (f : Slot → Slot) (s : State) : (s.onSlot n f).ax = s.ax := rfl
@[simp] theorem State.onSlot_tu (n : Nat) (f : Slot → Slot) (s : State) : (s.onSlot n f).tu = s.tu := rfl
@[simp] theorem State.onSlot_xi (n : Nat) (f : Slot → Slot) (s : State) : (s.onSlot n f).xi = s.xi := rfl

/-! ## `State.onStation` -/

@[simp] theorem State.onStation_pending (n : Nat) (f : Station → Station) (s : State) : (s.onStation n f).pending = s.pending := rfl
@[simp] theorem State.onStation_out (n : Nat) (f : Station → Station) (s : State) : (s.onStation n f).out = s.out := rfl
@[simp] theorem State.onStation_mem (n : Nat) (f : Station → Station) (s : State) : (s.onStation n f).mem = s.mem := rfl
@[simp] theorem State.onStation_dt (n : Nat) (f : Station → Station) (s : State) : (s.onStation n f).dt = s.dt := rfl
@[simp] theorem State.onStation_sa (n : Nat) (f : Station → Station) (s : State) : (s.onStation n f).sa = s.sa := rfl
@[simp] theorem State.onStation_da (n : Nat) (f : Station → Station) (s : State) : (s.onStation n f).da = s.da := rfl
@[simp] theorem State.onStation_rs (n : Nat) (f : Station → Station) (s : State) : (s.onStation n f).rs = s.rs := rfl
@[simp] theorem State.onStation_ts (n : Nat) (f : Station → Station) (s : State) : (s.onStation n f).ts = s.ts := rfl
@[simp] theorem State.onStation_ou (n : Nat) (f : Station → Station) (s : State) : (s.onStation n f).ou = { s.ou with stations := if n = 0 then s.ou.stations else s.ou.stations.modify (n - 1) f } := rfl
@[simp] theorem State.onStation_ax (n : Nat) (f : Station → Station) (s : State) : (s.onStation n f).ax = s.ax := rfl
@[simp] theorem State.onStation_tu (n : Nat) (f : Station → Station) (s : State) : (s.onStation n f).tu = s.tu := rfl
@[simp] theorem State.onStation_xi (n : Nat) (f : Station → Station) (s : State) : (s.onStation n f).xi = s.xi := rfl

/-! ## `State.onSaw` -/

@[simp] theorem State.onSaw_pending (n : Nat) (f : Saw → Saw) (s : State) : (s.onSaw n f).pending = s.pending := rfl
@[simp] theorem State.onSaw_out (n : Nat) (f : Saw → Saw) (s : State) : (s.onSaw n f).out = s.out := rfl
@[simp] theorem State.onSaw_mem (n : Nat) (f : Saw → Saw) (s : State) : (s.onSaw n f).mem = s.mem := rfl
@[simp] theorem State.onSaw_dt (n : Nat) (f : Saw → Saw) (s : State) : (s.onSaw n f).dt = s.dt := rfl
@[simp] theorem State.onSaw_sa (n : Nat) (f : Saw → Saw) (s : State) : (s.onSaw n f).sa = s.sa := rfl
@[simp] theorem State.onSaw_da (n : Nat) (f : Saw → Saw) (s : State) : (s.onSaw n f).da = s.da := rfl
@[simp] theorem State.onSaw_rs (n : Nat) (f : Saw → Saw) (s : State) : (s.onSaw n f).rs = s.rs := rfl
@[simp] theorem State.onSaw_ts (n : Nat) (f : Saw → Saw) (s : State) : (s.onSaw n f).ts = s.ts := rfl
@[simp] theorem State.onSaw_ou (n : Nat) (f : Saw → Saw) (s : State) : (s.onSaw n f).ou = s.ou := rfl
@[simp] theorem State.onSaw_ax (n : Nat) (f : Saw → Saw) (s : State) : (s.onSaw n f).ax = { s.ax with saws := if n = 0 then s.ax.saws else s.ax.saws.modify (n - 1) f } := rfl
@[simp] theorem State.onSaw_tu (n : Nat) (f : Saw → Saw) (s : State) : (s.onSaw n f).tu = s.tu := rfl
@[simp] theorem State.onSaw_xi (n : Nat) (f : Saw → Saw) (s : State) : (s.onSaw n f).xi = s.xi := rfl

/-! ## `State.onBin` -/

@[simp] theorem State.onBin_pending (n : Nat) (f : Bin → Bin) (s : State) : (s.onBin n f).pending = s.pending := rfl
@[simp] theorem State.onBin_out (n : Nat) (f : Bin → Bin) (s : State) : (s.onBin n f).out = s.out := rfl
@[simp] theorem State.onBin_mem (n : Nat) (f : Bin → Bin) (s : State) : (s.onBin n f).mem = s.mem := rfl
@[simp] theorem State.onBin_dt (n : Nat) (f : Bin → Bin) (s : State) : (s.onBin n f).dt = s.dt := rfl
@[simp] theorem State.onBin_sa (n : Nat) (f : Bin → Bin) (s : State) : (s.onBin n f).sa = s.sa := rfl
@[simp] theorem State.onBin_da (n : Nat) (f : Bin → Bin) (s : State) : (s.onBin n f).da = s.da := rfl
@[simp] theorem State.onBin_rs (n : Nat) (f : Bin → Bin) (s : State) : (s.onBin n f).rs = s.rs := rfl
@[simp] theorem State.onBin_ts (n : Nat) (f : Bin → Bin) (s : State) : (s.onBin n f).ts = s.ts := rfl
@[simp] theorem State.onBin_ou (n : Nat) (f : Bin → Bin) (s : State) : (s.onBin n f).ou = s.ou := rfl
@[simp] theorem State.onBin_ax (n : Nat) (f : Bin → Bin) (s : State) : (s.onBin n f).ax = { s.ax with bins := if n = 0 then s.ax.bins else s.ax.bins.modify (n - 1) f } := rfl
@[simp] theorem State.onBin_tu (n : Nat) (f : Bin → Bin) (s : State) : (s.onBin n f).tu = s.tu := rfl
@[simp] theorem State.onBin_xi (n : Nat) (f : Bin → Bin) (s : State) : (s.onBin n f).xi = s.xi := rfl

/-! ## `State.store` -/

@[simp] theorem State.store_pending (a : Nat) (l : List Byte) (s : State) : (s.store a l).pending = s.pending := rfl
@[simp] theorem State.store_out (a : Nat) (l : List Byte) (s : State) : (s.store a l).out = s.out := rfl
@[simp] theorem State.store_mem (a : Nat) (l : List Byte) (s : State) : (s.store a l).mem = s.mem.splice a l := rfl
@[simp] theorem State.store_dt (a : Nat) (l : List Byte) (s : State) : (s.store a l).dt = s.dt := rfl
@[simp] theorem State.store_sa (a : Nat) (l : List Byte) (s : State) : (s.store a l).sa = s.sa := rfl
@[simp] theorem State.store_da (a : Nat) (l : List Byte) (s : State) : (s.store a l).da = s.da := rfl
@[simp] theorem State.store_rs (a : Nat) (l : List Byte) (s : State) : (s.store a l).rs = s.rs := rfl
@[simp] theorem State.store_ts (a : Nat) (l : List Byte) (s : State) : (s.store a l).ts = s.ts := rfl
@[simp] theorem State.store_ou (a : Nat) (l : List Byte) (s : State) : (s.store a l).ou = s.ou := rfl
@[simp] theorem State.store_ax (a : Nat) (l : List Byte) (s : State) : (s.store a l).ax = s.ax := rfl
@[simp] theorem State.store_tu (a : Nat) (l : List Byte) (s : State) : (s.store a l).tu = s.tu := rfl
@[simp] theorem State.store_xi (a : Nat) (l : List Byte) (s : State) : (s.store a l).xi = s.xi := rfl

/-! ## `State.addTo` -/

@[simp] theorem State.addTo_pending (a n : Nat) (s : State) : (s.addTo a n).pending = s.pending := rfl
@[simp] theorem State.addTo_out (a n : Nat) (s : State) : (s.addTo a n).out = s.out := rfl
@[simp] theorem State.addTo_mem (a n : Nat) (s : State) : (s.addTo a n).mem = s.mem.splice a (le32 (s.mem.read32 a + BitVec.ofNat 32 n)) := rfl
@[simp] theorem State.addTo_dt (a n : Nat) (s : State) : (s.addTo a n).dt = s.dt := rfl
@[simp] theorem State.addTo_sa (a n : Nat) (s : State) : (s.addTo a n).sa = s.sa := rfl
@[simp] theorem State.addTo_da (a n : Nat) (s : State) : (s.addTo a n).da = s.da := rfl
@[simp] theorem State.addTo_rs (a n : Nat) (s : State) : (s.addTo a n).rs = s.rs := rfl
@[simp] theorem State.addTo_ts (a n : Nat) (s : State) : (s.addTo a n).ts = s.ts := rfl
@[simp] theorem State.addTo_ou (a n : Nat) (s : State) : (s.addTo a n).ou = s.ou := rfl
@[simp] theorem State.addTo_ax (a n : Nat) (s : State) : (s.addTo a n).ax = s.ax := rfl
@[simp] theorem State.addTo_tu (a n : Nat) (s : State) : (s.addTo a n).tu = s.tu := rfl
@[simp] theorem State.addTo_xi (a n : Nat) (s : State) : (s.addTo a n).xi = s.xi := rfl

/-! ## `State.onArea` -/

@[simp] theorem State.onArea_pending (a : Area) (f : RunEntry → RunEntry) (s : State) : (s.onArea a f).pending = s.pending := rfl
@[simp] theorem State.onArea_out (a : Area) (f : RunEntry → RunEntry) (s : State) : (s.onArea a f).out = s.out := rfl
@[simp] theorem State.onArea_mem (a : Area) (f : RunEntry → RunEntry) (s : State) : (s.onArea a f).mem = s.mem := rfl
@[simp] theorem State.onArea_dt (a : Area) (f : RunEntry → RunEntry) (s : State) : (s.onArea a f).dt = s.dt := rfl
@[simp] theorem State.onArea_sa (a : Area) (f : RunEntry → RunEntry) (s : State) : (s.onArea a f).sa = s.sa := rfl
@[simp] theorem State.onArea_da (a : Area) (f : RunEntry → RunEntry) (s : State) : (s.onArea a f).da = s.da := rfl
@[simp] theorem State.onArea_rs (a : Area) (f : RunEntry → RunEntry) (s : State) : (s.onArea a f).rs = s.rs := rfl
@[simp] theorem State.onArea_ts (a : Area) (f : RunEntry → RunEntry) (s : State) : (s.onArea a f).ts = s.ts := rfl
@[simp] theorem State.onArea_ou (a : Area) (f : RunEntry → RunEntry) (s : State) : (s.onArea a f).ou = s.ou := rfl
@[simp] theorem State.onArea_ax (a : Area) (f : RunEntry → RunEntry) (s : State) : (s.onArea a f).ax = s.ax := rfl
@[simp] theorem State.onArea_xi (a : Area) (f : RunEntry → RunEntry) (s : State) : (s.onArea a f).xi = s.xi := rfl
@[simp] theorem State.onArea_tu_nextRun (a : Area) (f : RunEntry → RunEntry) (s : State) :
    (s.onArea a f).tu.nextRun = s.tu.nextRun := by cases a <;> rfl
@[simp] theorem State.onArea_tu_lastOpened (a : Area) (f : RunEntry → RunEntry) (s : State) :
    (s.onArea a f).tu.lastOpened = s.tu.lastOpened := by cases a <;> rfl
@[simp] theorem State.onArea_tu_pendingLogs (a : Area) (f : RunEntry → RunEntry) (s : State) :
    (s.onArea a f).tu.pendingLogs = s.tu.pendingLogs := by cases a <;> rfl
@[simp] theorem State.onArea_tu_logHold (a : Area) (f : RunEntry → RunEntry) (s : State) :
    (s.onArea a f).tu.logHold = s.tu.logHold := by cases a <;> rfl
@[simp] theorem State.onArea_tu_refusedLogs (a : Area) (f : RunEntry → RunEntry) (s : State) :
    (s.onArea a f).tu.refusedLogs = s.tu.refusedLogs := by cases a <;> rfl
@[simp] theorem State.onArea_tu_unclassedLogs (a : Area) (f : RunEntry → RunEntry) (s : State) :
    (s.onArea a f).tu.unclassedLogs = s.tu.unclassedLogs := by cases a <;> rfl
@[simp] theorem State.onArea_tu_unjournaledLogs (a : Area) (f : RunEntry → RunEntry) (s : State) :
    (s.onArea a f).tu.unjournaledLogs = s.tu.unjournaledLogs := by cases a <;> rfl
@[simp] theorem State.onArea_entry (a : Area) (f : RunEntry → RunEntry) (s : State) :
    (s.onArea a f).tu.entry a = f (s.tu.entry a) := by cases a <;> rfl

/-! ## `State.setNotice`, `State.notify` -/

@[simp] theorem State.setNotice_pending (n m : BitVec 6) (s : State) : (s.setNotice n m).pending = s.pending := rfl
@[simp] theorem State.setNotice_mem (n m : BitVec 6) (s : State) : (s.setNotice n m).mem = s.mem := rfl
@[simp] theorem State.setNotice_dt (n m : BitVec 6) (s : State) : (s.setNotice n m).dt = s.dt := rfl
@[simp] theorem State.setNotice_sa (n m : BitVec 6) (s : State) : (s.setNotice n m).sa = s.sa := rfl
@[simp] theorem State.setNotice_da (n m : BitVec 6) (s : State) : (s.setNotice n m).da = s.da := rfl
@[simp] theorem State.setNotice_rs (n m : BitVec 6) (s : State) : (s.setNotice n m).rs = s.rs := rfl
@[simp] theorem State.setNotice_ts (n m : BitVec 6) (s : State) : (s.setNotice n m).ts = s.ts := rfl
@[simp] theorem State.setNotice_ou (n m : BitVec 6) (s : State) : (s.setNotice n m).ou = s.ou := rfl
@[simp] theorem State.setNotice_ax (n m : BitVec 6) (s : State) : (s.setNotice n m).ax = s.ax := rfl
@[simp] theorem State.setNotice_tu (n m : BitVec 6) (s : State) : (s.setNotice n m).tu = s.tu := rfl
@[simp] theorem State.setNotice_xi (n m : BitVec 6) (s : State) :
    (s.setNotice n m).xi = { s.xi with notice := n, noticeMask := m } := rfl
@[simp] theorem State.notify_pending (c : NoticeCause) (s : State) : (s.notify c).pending = s.pending := rfl
@[simp] theorem State.notify_mem (c : NoticeCause) (s : State) : (s.notify c).mem = s.mem := rfl
@[simp] theorem State.notify_dt (c : NoticeCause) (s : State) : (s.notify c).dt = s.dt := rfl
@[simp] theorem State.notify_sa (c : NoticeCause) (s : State) : (s.notify c).sa = s.sa := rfl
@[simp] theorem State.notify_da (c : NoticeCause) (s : State) : (s.notify c).da = s.da := rfl
@[simp] theorem State.notify_rs (c : NoticeCause) (s : State) : (s.notify c).rs = s.rs := rfl
@[simp] theorem State.notify_ts (c : NoticeCause) (s : State) : (s.notify c).ts = s.ts := rfl
@[simp] theorem State.notify_ou (c : NoticeCause) (s : State) : (s.notify c).ou = s.ou := rfl
@[simp] theorem State.notify_ax (c : NoticeCause) (s : State) : (s.notify c).ax = s.ax := rfl
@[simp] theorem State.notify_tu (c : NoticeCause) (s : State) : (s.notify c).tu = s.tu := rfl
@[simp] theorem State.notify_xi (c : NoticeCause) (s : State) :
    (s.notify c).xi = { s.xi with notice := s.xi.notice ||| c.mask, raises := s.xi.raises.add c } := rfl

end Sys2Proof.Machine
end

