-- ==== Sys2Proof/Laws/Flags.lean ====
section
/-! SUPPORT. Notices, holds and the end of an event: what each leaves and what it sends. -/

namespace Sys2Proof.Machine

/-! ## Notices -/

/-- What a run of raisings of one cause leaves. -/
theorem State.notifyTimes_eq (c : NoticeCause) (n : Nat) (s : State) :
    ∃ xi out, State.notifyTimes c n s = { s with xi := xi, out := out } := by
  induction n generalizing s with
  | zero => exact ⟨s.xi, s.out, rfl⟩
  | succ n ih =>
    obtain ⟨xi, out, h⟩ := ih (s.notify c)
    exact ⟨xi, out, by rw [State.notifyTimes, h]; rfl⟩

theorem NoticeCause.mask_ne_zero (c : NoticeCause) : c.mask ≠ 0 := by cases c <;> decide

theorem BitVec6.or_self_mask (a b : BitVec 6) : a ||| b ||| b = a ||| b := by
  rw [BitVec.or_assoc, BitVec.or_self]

/-- A second raising of the causes of a mask sends no second message: one that has gone follows from the whole
change. -/
theorem msiFollows_append (port : Bool) (a b c m : BitVec 6) (h : b &&& m ≠ 0 → c &&& m ≠ 0)
    (h0 : a &&& m ≠ 0 → b &&& m ≠ 0) :
    (if msiFollows port a m b m then [Output.msi] else []) ++ (if msiFollows port b m c m then [.msi] else [])
      = if msiFollows port a m c m then [.msi] else [] := by
  have h' : ((b &&& m) == 0) = false → ((c &&& m) == 0) = false := by simpa using h
  have h0' : ((a &&& m) == 0) = false → ((b &&& m) == 0) = false := by simpa using h0
  unfold msiFollows bne
  generalize ((a &&& m) == 0) = x at *
  generalize ((b &&& m) == 0) = y at *
  generalize ((c &&& m) == 0) = z at *
  cases port <;> cases x <;> cases y <;> cases z <;> simp_all

theorem and_or_ne_zero {w : Nat} (a b m : BitVec w) (h : a &&& m ≠ 0) : (a ||| b) &&& m ≠ 0 := by
  intro hz
  apply h
  apply BitVec.eq_of_getLsbD_eq
  intro i hi
  have := congrArg (fun x => x.getLsbD i) hz
  simp only [BitVec.getLsbD_and, BitVec.getLsbD_or] at this ⊢
  cases h1 : a.getLsbD i <;> cases h2 : m.getLsbD i <;> simp_all

/-- The raise counts after n raisings. -/
def Raises.addTimes (c : NoticeCause) : Nat → Raises → Raises
  | 0, r => r
  | n + 1, r => Raises.addTimes c n (r.add c)

theorem word_add_succ (a : Word) (n : Nat) : a + 1 + BitVec.ofNat 32 n = a + BitVec.ofNat 32 (n + 1) := by
  apply BitVec.eq_of_toNat_eq
  simp [BitVec.toNat_add, BitVec.toNat_ofNat]
  omega

theorem Raises.addTimes_hold (n : Nat) (r : Raises) :
    Raises.addTimes .hold n r = { r with hold := r.hold + BitVec.ofNat 32 n } := by
  induction n generalizing r with
  | zero => simp [Raises.addTimes]
  | succ n ih => rw [Raises.addTimes, ih]; simp only [Raises.add, word_add_succ]

theorem Raises.addTimes_fault (n : Nat) (r : Raises) :
    Raises.addTimes .fault n r = { r with fault := r.fault + BitVec.ofNat 32 n } := by
  induction n generalizing r with
  | zero => simp [Raises.addTimes]
  | succ n ih => rw [Raises.addTimes, ih]; simp only [Raises.add, word_add_succ]

/-- What a run of raisings leaves, whole. -/
theorem State.notifyTimes_spec (c : NoticeCause) (n : Nat) (s : State) :
    State.notifyTimes c n s =
      { s with
        xi := { s.xi with
                notice := s.xi.notice ||| (if n = 0 then 0 else c.mask)
                raises := Raises.addTimes c n s.xi.raises }
        out := s.out ++ (if msiFollows s.xi.port s.xi.notice s.xi.noticeMask
          (s.xi.notice ||| (if n = 0 then 0 else c.mask)) s.xi.noticeMask then [.msi] else []) } := by
  induction n generalizing s with
  | zero =>
    have : msiFollows s.xi.port s.xi.notice s.xi.noticeMask s.xi.notice s.xi.noticeMask = false := by
      unfold msiFollows
      by_cases h : s.xi.notice &&& s.xi.noticeMask = 0 <;> simp [h]
    simp [State.notifyTimes, Raises.addTimes, this]
  | succ n ih =>
    rw [State.notifyTimes, ih]
    have key := msiFollows_append s.xi.port s.xi.notice (s.xi.notice ||| c.mask)
      ((s.xi.notice ||| c.mask) ||| (if n = 0 then 0 else c.mask)) s.xi.noticeMask
      (fun h => and_or_ne_zero _ _ _ h) (fun h => and_or_ne_zero _ _ _ h)
    have hm : (s.xi.notice ||| c.mask) ||| (if n = 0 then 0 else c.mask) = s.xi.notice ||| c.mask := by
      split
      · simp
      · rw [BitVec6.or_self_mask]
    rw [hm] at key
    simp only [Raises.addTimes, Nat.add_eq_zero_iff, Nat.one_ne_zero, and_false, if_false]
    simp only [State.notify, State.setNotice, State.onXi, hm, List.append_assoc, key]

@[simp] theorem State.notifyTimes_pending (c : NoticeCause) (n : Nat) (s : State) :
    (State.notifyTimes c n s).pending = s.pending := by rw [State.notifyTimes_spec]
@[simp] theorem State.notifyTimes_mem (c : NoticeCause) (n : Nat) (s : State) :
    (State.notifyTimes c n s).mem = s.mem := by rw [State.notifyTimes_spec]
@[simp] theorem State.notifyTimes_dt (c : NoticeCause) (n : Nat) (s : State) :
    (State.notifyTimes c n s).dt = s.dt := by rw [State.notifyTimes_spec]
@[simp] theorem State.notifyTimes_sa (c : NoticeCause) (n : Nat) (s : State) :
    (State.notifyTimes c n s).sa = s.sa := by rw [State.notifyTimes_spec]
@[simp] theorem State.notifyTimes_da (c : NoticeCause) (n : Nat) (s : State) :
    (State.notifyTimes c n s).da = s.da := by rw [State.notifyTimes_spec]
@[simp] theorem State.notifyTimes_rs (c : NoticeCause) (n : Nat) (s : State) :
    (State.notifyTimes c n s).rs = s.rs := by rw [State.notifyTimes_spec]
@[simp] theorem State.notifyTimes_ts (c : NoticeCause) (n : Nat) (s : State) :
    (State.notifyTimes c n s).ts = s.ts := by rw [State.notifyTimes_spec]
@[simp] theorem State.notifyTimes_ou (c : NoticeCause) (n : Nat) (s : State) :
    (State.notifyTimes c n s).ou = s.ou := by rw [State.notifyTimes_spec]
@[simp] theorem State.notifyTimes_ax (c : NoticeCause) (n : Nat) (s : State) :
    (State.notifyTimes c n s).ax = s.ax := by rw [State.notifyTimes_spec]
@[simp] theorem State.notifyTimes_tu (c : NoticeCause) (n : Nat) (s : State) :
    (State.notifyTimes c n s).tu = s.tu := by rw [State.notifyTimes_spec]
@[simp] theorem State.notifyTimes_xi (c : NoticeCause) (n : Nat) (s : State) :
    (State.notifyTimes c n s).xi =
      { s.xi with
        notice := s.xi.notice ||| (if n = 0 then 0 else c.mask)
        raises := Raises.addTimes c n s.xi.raises } := by rw [State.notifyTimes_spec]

/-! ## The holds -/

/-- What bringing the holds into step leaves, whole (R9, R10, R158). -/
theorem State.syncHolds_spec (s : State) :
    s.syncHolds =
      State.notifyTimes .hold (holdJoins s.dt.hold s.holdNow + (if logHoldNow s.tu && !s.tu.logHold then 1 else 0))
        { s with
          dt := { s.dt with hold := s.holdNow, gate := gateNow s.dt.state s.holdNow }
          tu := { s.tu with logHold := logHoldNow s.tu } } := rfl

@[simp] theorem State.syncHolds_pending (s : State) : s.syncHolds.pending = s.pending := by simp [State.syncHolds]
@[simp] theorem State.syncHolds_mem (s : State) : s.syncHolds.mem = s.mem := by simp [State.syncHolds]
@[simp] theorem State.syncHolds_sa (s : State) : s.syncHolds.sa = s.sa := by simp [State.syncHolds]
@[simp] theorem State.syncHolds_da (s : State) : s.syncHolds.da = s.da := by simp [State.syncHolds]
@[simp] theorem State.syncHolds_rs (s : State) : s.syncHolds.rs = s.rs := by simp [State.syncHolds]
@[simp] theorem State.syncHolds_ts (s : State) : s.syncHolds.ts = s.ts := by simp [State.syncHolds]
@[simp] theorem State.syncHolds_ou (s : State) : s.syncHolds.ou = s.ou := by simp [State.syncHolds]
@[simp] theorem State.syncHolds_ax (s : State) : s.syncHolds.ax = s.ax := by simp [State.syncHolds]
@[simp] theorem State.syncHolds_dt (s : State) :
    s.syncHolds.dt = { s.dt with hold := s.holdNow, gate := gateNow s.dt.state s.holdNow } := by
  simp [State.syncHolds]
@[simp] theorem State.syncHolds_tu (s : State) : s.syncHolds.tu = { s.tu with logHold := logHoldNow s.tu } := by
  simp [State.syncHolds]

/-! ## The end of an event -/

@[simp] theorem State.refreshStatus_pending (always : Bool) (b : List Byte) (s : State) :
    (s.refreshStatus always b).pending = s.pending := rfl
@[simp] theorem State.refreshStatus_dt (always : Bool) (b : List Byte) (s : State) :
    (s.refreshStatus always b).dt = s.dt := rfl
@[simp] theorem State.refreshStatus_sa (always : Bool) (b : List Byte) (s : State) :
    (s.refreshStatus always b).sa = s.sa := rfl
@[simp] theorem State.refreshStatus_da (always : Bool) (b : List Byte) (s : State) :
    (s.refreshStatus always b).da = s.da := rfl
@[simp] theorem State.refreshStatus_rs (always : Bool) (b : List Byte) (s : State) :
    (s.refreshStatus always b).rs = s.rs := rfl
@[simp] theorem State.refreshStatus_ts (always : Bool) (b : List Byte) (s : State) :
    (s.refreshStatus always b).ts = s.ts := rfl
@[simp] theorem State.refreshStatus_ou (always : Bool) (b : List Byte) (s : State) :
    (s.refreshStatus always b).ou = s.ou := rfl
@[simp] theorem State.refreshStatus_ax (always : Bool) (b : List Byte) (s : State) :
    (s.refreshStatus always b).ax = s.ax := rfl
@[simp] theorem State.refreshStatus_tu (always : Bool) (b : List Byte) (s : State) :
    (s.refreshStatus always b).tu = s.tu := rfl
@[simp] theorem State.refreshStatus_out (always : Bool) (b : List Byte) (s : State) :
    (s.refreshStatus always b).out = s.out := rfl

/-- A rewrite of the Status Block changes no item that it shows. -/
@[simp] theorem State.refreshStatus_image (always : Bool) (b : List Byte) (s : State) :
    (s.refreshStatus always b).image = s.image := rfl

/-- The Status Block is rewritten once where an item it shows has changed or a rewrite is asked for, and else left as
it stands. -/
theorem State.refreshStatus_status (always : Bool) (b : List Byte) (s : State) :
    if always = true ∨ (s.refreshStatus always b).image ≠ b then
      (s.refreshStatus always b).xi.updateCount = s.xi.updateCount + 2
        ∧ (s.refreshStatus always b).mem = statusRewrite s.mem s.xi.updateCount (s.refreshStatus always b).image
    else (s.refreshStatus always b).xi.updateCount = s.xi.updateCount ∧ (s.refreshStatus always b).mem = s.mem := by
  by_cases h : always = true ∨ (s.refreshStatus always b).image ≠ b
  · rw [if_pos h]
    rw [State.refreshStatus_image] at h
    have hd : (always || decide (s.image ≠ b)) = true := by simpa using h
    simp only [State.refreshStatus, hd, if_true, true_and]
    rfl
  · rw [if_neg h]
    rw [State.refreshStatus_image, not_or] at h
    have hd : (always || decide (s.image ≠ b)) = false := by simp [h.1, not_not.mp h.2]
    simp only [State.refreshStatus, hd]
    exact ⟨rfl, rfl⟩

/-- The holds that a state gives read nothing of its notices, its memory and its hold set but HOST. -/
theorem State.holdNow_congr {s t : State} (h1 : t.dt.pieces = s.dt.pieces) (h2 : t.tu.areaA = s.tu.areaA)
    (h3 : t.tu.areaB = s.tu.areaB) (h4 : t.xi.fill = s.xi.fill) (h5 : t.xi.release = s.xi.release)
    (h6 : t.rs = s.rs) (h7 : t.da = s.da) (h8 : t.sa = s.sa) (h9 : t.dt.state = s.dt.state)
    (h10 : t.dt.hold.host = s.dt.hold.host) : t.holdNow = s.holdNow := by
  have e1 : unreservedUnits t.dt t.tu t.xi = unreservedUnits s.dt s.tu s.xi := by
    unfold unreservedUnits reservedTotal Exchange.freeUnits
    rw [h1, h2, h3, h4, h5]
  have e2 : t.tu.openArea = s.tu.openArea := by
    unfold Tally.openArea Tally.findArea
    rw [h2, h3]
  unfold State.holdNow
  rw [e1, e2, h1, h6, h7, h8, h9, h10]

theorem holdNow_host (s : State) : s.holdNow.host = s.dt.hold.host := rfl

theorem State.syncStopped_eq (s : State) :
    s.syncStopped = s ∧ (s.dt.state.stopped = true → s.dt.state = stoppedNow s.dt)
      ∨ s.dt.state.stopped = true ∧ s.dt.state ≠ stoppedNow s.dt
        ∧ s.syncStopped = (s.onDt (fun d => { d with state := stoppedNow d })).notify .deck := by
  unfold State.syncStopped
  by_cases h1 : s.dt.state.stopped = true
  · by_cases h2 : s.dt.state = stoppedNow s.dt
    · left
      refine ⟨?_, fun _ => h2⟩
      rw [if_neg]
      simp only [h1, Bool.true_and, bne_iff_ne, ne_eq, not_not]
      exact h2
    · right
      refine ⟨h1, h2, ?_⟩
      rw [if_pos]
      simp only [h1, Bool.true_and, bne_iff_ne, ne_eq]
      exact h2
  · left
    refine ⟨?_, fun h => absurd h h1⟩
    rw [if_neg]
    simp [h1]

theorem stoppedNow_stopped (d : Deck) : (stoppedNow d).stopped = true := by
  unfold stoppedNow; split <;> rfl

theorem bv6_or_zero (a : BitVec 6) : a ||| 0 = a := by simp

theorem refresh_xi (always : Bool) (b : List Byte) (x : State) :
    (x.refreshStatus always b).xi = { x.xi with updateCount := (x.refreshStatus always b).xi.updateCount } := rfl

theorem msi_false_self (p : Bool) (a m : BitVec 6) : msiFollows p a m a m = false := by
  unfold msiFollows
  by_cases h : a &&& m = 0 <;> simp [h]

/-- How often bringing the holds into step raises HOLD. -/
def State.joins (w : State) : Nat :=
  holdJoins w.dt.hold w.holdNow + (if logHoldNow w.tu && !w.tu.logHold then 1 else 0)

/-- What the holds and the Status Block leave of XI. -/
theorem State.finish_xi (always : Bool) (b : List Byte) (w : State) :
    (w.syncHolds.refreshStatus always b).xi =
      { w.xi with
        notice := w.xi.notice ||| (if w.joins = 0 then 0 else NoticeCause.hold.mask)
        raises := { w.xi.raises with hold := w.xi.raises.hold + BitVec.ofNat 32 w.joins }
        updateCount := (w.syncHolds.refreshStatus always b).xi.updateCount } := by
  rw [refresh_xi, State.syncHolds_spec, State.notifyTimes_xi, Raises.addTimes_hold]
  rfl

/-- What the holds and the Status Block send. -/
theorem State.finish_out (always : Bool) (b : List Byte) (w : State) :
    (w.syncHolds.refreshStatus always b).out =
      w.out ++ (if msiFollows w.xi.port w.xi.notice w.xi.noticeMask
        (w.xi.notice ||| (if w.joins = 0 then 0 else NoticeCause.hold.mask)) w.xi.noticeMask then [.msi] else []) := by
  rw [State.refreshStatus_out, State.syncHolds_spec, State.notifyTimes_spec]
  rfl

theorem State.finish_holdNow (always : Bool) (b : List Byte) (w : State) :
    (w.syncHolds.refreshStatus always b).holdNow = w.holdNow :=
  State.holdNow_congr (by simp) (by simp) (by simp) (by rw [State.finish_xi]) (by rw [State.finish_xi]) (by simp)
    (by simp) (by simp) (by simp) (by simp; rfl)

theorem State.finish_status (always : Bool) (b : List Byte) (w : State) :
    if always = true ∨ (w.syncHolds.refreshStatus always b).image ≠ b then
      (w.syncHolds.refreshStatus always b).xi.updateCount = w.xi.updateCount + 2
        ∧ (w.syncHolds.refreshStatus always b).mem
            = statusRewrite w.mem w.xi.updateCount (w.syncHolds.refreshStatus always b).image
    else (w.syncHolds.refreshStatus always b).xi.updateCount = w.xi.updateCount
      ∧ (w.syncHolds.refreshStatus always b).mem = w.mem := by
  have h := State.refreshStatus_status always b w.syncHolds
  have h1 : w.syncHolds.xi.updateCount = w.xi.updateCount := by
    rw [State.syncHolds_spec, State.notifyTimes_xi]
  rwa [h1, State.syncHolds_mem] at h

/-- Every event settles. -/
theorem State.endEvent_settles (always : Bool) (before : List Byte) (u : State) :
    u.Settles always before (u.endEvent always before) := by
  unfold State.endEvent
  rcases State.syncStopped_eq u with ⟨h, hs⟩ | ⟨hst, hne, h⟩
  · rw [h]
    have hstate : (if u.dt.state.stopped = true then stoppedNow u.dt else u.dt.state) = u.dt.state := by
      by_cases hh : u.dt.state.stopped = true
      · rw [if_pos hh]; exact (hs hh).symm
      · rw [if_neg hh]
    have hjoin : settledHolds u (u.syncHolds.refreshStatus always before) = u.joins := by
      simp [settledHolds, State.joins]
    have hd : (u.syncHolds.refreshStatus always before).dt.state = u.dt.state := by simp
    refine ⟨by simp, by simp, by simp, by simp, by simp, by simp, by simp, ?_, by simp, ?_, ?_, ?_⟩
    · rw [State.finish_holdNow, hstate]
      simp only [State.refreshStatus_dt, State.syncHolds_dt]
      rfl
    · rw [hjoin, if_pos hd, if_pos hd, bv6_or_zero]
      simpa using State.finish_xi always before u
    · have hn : (u.syncHolds.refreshStatus always before).xi.notice
          = u.xi.notice ||| (if u.joins = 0 then 0 else NoticeCause.hold.mask) := by rw [State.finish_xi]
      rw [hn]
      exact State.finish_out always before u
    · exact State.finish_status always before u
  · rw [h]
    generalize hw : (u.onDt (fun d => { d with state := stoppedNow d })).notify .deck = w
    have wdt : w.dt = { u.dt with state := stoppedNow u.dt } := by rw [← hw]; rfl
    have wxi : w.xi =
        { u.xi with
          notice := u.xi.notice ||| NoticeCause.deck.mask
          raises := { u.xi.raises with deck := u.xi.raises.deck + 1 } } := by rw [← hw]; rfl
    have wout : w.out = u.out ++ (if msiFollows u.xi.port u.xi.notice u.xi.noticeMask
          (u.xi.notice ||| NoticeCause.deck.mask) u.xi.noticeMask then [.msi] else []) := by rw [← hw]; rfl
    have wpe : w.pending = u.pending := by rw [← hw]; rfl
    have wme : w.mem = u.mem := by rw [← hw]; rfl
    have wsa : w.sa = u.sa := by rw [← hw]; rfl
    have wda : w.da = u.da := by rw [← hw]; rfl
    have wrs : w.rs = u.rs := by rw [← hw]; rfl
    have wts : w.ts = u.ts := by rw [← hw]; rfl
    have wou : w.ou = u.ou := by rw [← hw]; rfl
    have wax : w.ax = u.ax := by rw [← hw]; rfl
    have wtu : w.tu = u.tu := by rw [← hw]; rfl
    clear hw h
    have hjoin : settledHolds u (w.syncHolds.refreshStatus always before) = w.joins := by
      simp [settledHolds, State.joins, wdt, wtu]
    have hd : ¬ (w.syncHolds.refreshStatus always before).dt.state = u.dt.state := by
      simp only [State.refreshStatus_dt, State.syncHolds_dt, wdt]
      exact fun e => hne e.symm
    refine ⟨by simp [wpe], by simp [wsa], by simp [wda], by simp [wrs], by simp [wts], by simp [wou], by simp [wax],
      ?_, by simp [wtu], ?_, ?_, ?_⟩
    · rw [State.finish_holdNow]
      simp only [State.refreshStatus_dt, State.syncHolds_dt, hst, if_true, wdt]
      have : { w.holdNow with host := u.dt.hold.host } = w.holdNow := by
        have : w.holdNow.host = u.dt.hold.host := by rw [holdNow_host, wdt]
        rw [← this]
      rw [this]
    · rw [hjoin, if_neg hd, if_neg hd]
      have := State.finish_xi always before w
      rw [wxi] at this
      exact this
    · have hn : (w.syncHolds.refreshStatus always before).xi.notice
          = (u.xi.notice ||| NoticeCause.deck.mask) ||| (if w.joins = 0 then 0 else NoticeCause.hold.mask) := by
        rw [State.finish_xi, wxi]
      have hx := State.finish_out always before w
      rw [wxi, wout, List.append_assoc] at hx
      rw [hx, hn]
      exact congrArg (u.out ++ ·) (msiFollows_append _ _ _ _ _ (fun h => and_or_ne_zero _ _ _ h)
        (fun h => and_or_ne_zero _ _ _ h))
    · have := State.finish_status always before w
      rw [wme, wxi] at this
      exact this

/-- After every event the hold set, the gate, the log hold and the stopped states agree with what they describe. -/
theorem State.Settles.synced {always : Bool} {before : List Byte} {u t : State} (h : u.Settles always before t) :
    t.Synced := by
  have hh : t.dt.hold.host = u.dt.hold.host := by rw [h.dt]
  refine ⟨?_, ?_, ?_, ?_⟩
  · have h1 : t.dt.hold = { t.holdNow with host := u.dt.hold.host } := by
      conv_lhs => rw [h.dt]
    rw [h1, ← hh]
    rfl
  · conv_lhs => rw [h.dt]
  · rw [h.tu]; rfl
  · intro hs
    have h1 : t.dt.state = if u.dt.state.stopped then stoppedNow u.dt else u.dt.state := by
      conv_lhs => rw [h.dt]
    have h2 : stoppedNow t.dt = stoppedNow u.dt := by rw [h.dt]; rfl
    rw [h2]
    by_cases hu : u.dt.state.stopped = true
    · rw [h1, if_pos hu]
    · rw [h1, if_neg hu] at hs
      exact absurd hs hu

/-- A command that completes has its effect and settles. -/
theorem completes_settles {c : Instr} {s : State} {always : Bool} {f : State → State}
    (h : exec c s = completes always f s) :
    ∃ t, exec c s = .next t ∧ (f s.clearOut).Settles always s.image t :=
  ⟨_, h, State.endEvent_settles always s.image _⟩

theorem completes_does {c : Instr} {s : State} {f : State → State} (h : exec c s = completes false f s) :
    Does c s (f s.clearOut) := completes_settles h

theorem completes_doesAndShows {c : Instr} {s : State} {f : State → State} (h : exec c s = completes true f s) :
    DoesAndShows c s (f s.clearOut) := completes_settles h

end Sys2Proof.Machine
end

