-- ==== Sys2Proof/Laws/Memory.lean ====
section
/-! SUPPORT. Exchange memory: what a write leaves at every address, and that every write keeps the canonical
form. -/

namespace Sys2Proof.Machine

/-! ## Reading -/

theorem Memory.read_of_notin (m : Memory) (x : Nat) (h : ∀ c ∈ m, c.1 ≠ x) : m.read x = 0 := by
  induction m with
  | nil => rfl
  | cons c rest ih =>
    have h1 : c.1 ≠ x := h c (by simp)
    simp only [Memory.read, if_neg h1]
    exact ih (fun d hd => h d (by simp [hd]))

theorem Memory.read_append (m n : Memory) (x : Nat) :
    Memory.read (m ++ n) x = if m.any (fun c => c.1 == x) then m.read x else Memory.read n x := by
  induction m with
  | nil => simp
  | cons c rest ih =>
    by_cases h : c.1 = x
    · simp [Memory.read, h]
    · simp only [List.cons_append, Memory.read, if_neg h, List.any_cons, ih]
      simp [h]

theorem Memory.read_filter (m : Memory) (p : Nat → Bool) (x : Nat) :
    Memory.read (m.filter (fun c => p c.1)) x = if p x then m.read x else 0 := by
  induction m with
  | nil => simp [Memory.read, Memory.unlisted]
  | cons c rest ih =>
    by_cases h : c.1 = x
    · subst h
      by_cases hp : p c.1 = true
      · simp [Memory.read, hp]
      · simp only [hp, Bool.false_eq_true, if_false] at ih ⊢
        simpa [List.filter_cons, hp] using ih
    · by_cases hp : p c.1 = true
      · simp only [List.filter_cons, hp, if_true, Memory.read, if_neg h]; exact ih
      · simp only [List.filter_cons, hp, Memory.read, if_neg h]; exact ih

theorem Memory.cells_lower (a : Nat) (l : List Byte) : ∀ c ∈ Memory.cells a l, a ≤ c.1 ∧ c.1 < a + l.length := by
  induction l generalizing a with
  | nil => simp [Memory.cells]
  | cons v rest ih =>
    intro c hc
    simp only [Memory.cells] at hc
    split at hc
    · have := ih (a + 1) c hc
      simp only [List.length_cons]; omega
    · rcases List.mem_cons.mp hc with h | h
      · subst h; simp
      · have := ih (a + 1) c h
        simp only [List.length_cons]; omega

theorem Memory.read_cells (a : Nat) (l : List Byte) (x : Nat) :
    Memory.read (Memory.cells a l) x = if a ≤ x ∧ x < a + l.length then l.getD (x - a) 0 else 0 := by
  induction l generalizing a with
  | nil =>
    have h : ¬ (a ≤ x ∧ x < a + ([] : List Byte).length) := by simp
    rw [if_neg h]; rfl
  | cons v rest ih =>
    by_cases hx : x = a
    · subst hx
      simp only [Memory.cells]
      split
      · rename_i hv
        rw [Memory.read_of_notin _ _ (fun c hc => by have := Memory.cells_lower _ _ c hc; omega)]
        simp [hv, Memory.unlisted]
      · simp [Memory.read]
    · have hr : Memory.read (Memory.cells a (v :: rest)) x = Memory.read (Memory.cells (a + 1) rest) x := by
        simp only [Memory.cells]
        split
        · rfl
        · simp only [Memory.read, if_neg (Ne.symm hx)]
      rw [hr, ih]
      by_cases hlt : a < x
      · obtain ⟨k, rfl⟩ : ∃ k, x = a + 1 + k := ⟨x - (a + 1), by omega⟩
        have e1 : a + 1 + k - (a + 1) = k := by omega
        have e2 : a + 1 + k - a = k + 1 := by omega
        rw [e1, e2]
        simp only [List.length_cons, List.getD_cons_succ]
        split <;> split <;> first | rfl | omega
      · have h1 : ¬ (a + 1 ≤ x ∧ x < a + 1 + rest.length) := by omega
        have h2 : ¬ (a ≤ x ∧ x < a + (v :: rest).length) := by omega
        rw [if_neg h1, if_neg h2]

theorem Memory.read_append_left (m n : Memory) (x : Nat) (h : ∀ c ∈ n, c.1 ≠ x) :
    Memory.read (m ++ n) x = m.read x := by
  rw [Memory.read_append, Memory.read_of_notin n x h]
  split
  · rfl
  · rename_i hm
    rw [Memory.read_of_notin m x]
    intro c hc hx
    exact hm (List.any_eq_true.mpr ⟨c, hc, by simp [hx]⟩)

theorem Memory.read_append_right (m n : Memory) (x : Nat) (h : ∀ c ∈ m, c.1 ≠ x) :
    Memory.read (m ++ n) x = Memory.read n x := by
  rw [Memory.read_append, if_neg]
  intro hm
  obtain ⟨c, hc, hx⟩ := List.any_eq_true.mp hm
  exact h c hc (by simpa using hx)

/-- What a write leaves at every address. -/
theorem Memory.read_splice (m : Memory) (a : Nat) (l : List Byte) (x : Nat) :
    (m.splice a l).read x = if a ≤ x ∧ x < a + l.length then l.getD (x - a) 0 else m.read x := by
  unfold Memory.splice
  have hf1 := Memory.read_filter m (fun n => decide (n < a)) x
  have hf2 := Memory.read_filter m (fun n => decide (a + l.length ≤ n)) x
  have hlow : ∀ c ∈ m.filter (fun c => decide (c.1 < a)), c.1 < a := fun c hc => by simp at hc; exact hc.2
  have hhigh : ∀ c ∈ m.filter (fun c => decide (a + l.length ≤ c.1)), a + l.length ≤ c.1 :=
    fun c hc => by simp at hc; exact hc.2
  have hmid := Memory.cells_lower a l
  by_cases h1 : x < a
  · rw [Memory.read_append_left _ _ _ (fun c hc => by have := hhigh c hc; omega),
      Memory.read_append_left _ _ _ (fun c hc => by have := hmid c hc; omega), hf1,
      if_neg (by omega : ¬ (a ≤ x ∧ x < a + l.length))]
    simp [h1]
  · by_cases h2 : x < a + l.length
    · rw [Memory.read_append_left _ _ _ (fun c hc => by have := hhigh c hc; omega),
        Memory.read_append_right _ _ _ (fun c hc => by have := hlow c hc; omega), Memory.read_cells]
      split
      · rfl
      · omega
    · rw [Memory.read_append_right _ _ _ (fun c hc => by
          rcases List.mem_append.mp hc with h | h
          · have := hlow c h; omega
          · have := hmid c h; omega), hf2, if_neg (by omega : ¬ (a ≤ x ∧ x < a + l.length))]
      simp only [decide_eq_true_eq]
      rw [if_pos (by omega)]

/-- A write leaves every address outside its bytes as it was. -/
theorem Memory.read_splice_out (m : Memory) (a : Nat) (l : List Byte) (x : Nat)
    (h : x < a ∨ a + l.length ≤ x) : (m.splice a l).read x = m.read x := by
  rw [Memory.read_splice, if_neg (by omega)]

/-- A zeroed range reads zero, and every other address as before. -/
theorem Memory.read_zero (m : Memory) (a n : Nat) (x : Nat) :
    (m.zero a n).read x = if x < a ∨ a + n ≤ x then m.read x else 0 := by
  unfold Memory.zero
  rw [Memory.read_filter m (fun y => decide (y < a) || decide (a + n ≤ y)) x]
  simp only [Bool.or_eq_true, decide_eq_true_eq]

/-! ## The canonical form -/

theorem Memory.wfFrom_mono {lo lo' : Nat} {m : Memory} (h : lo ≤ lo') (hm : Memory.wfFrom lo' m = true) :
    Memory.wfFrom lo m = true := by
  cases m with
  | nil => rfl
  | cons c rest =>
    simp only [Memory.wfFrom, Bool.and_eq_true, decide_eq_true_eq] at hm ⊢
    exact ⟨⟨by omega, hm.1.2⟩, hm.2⟩

theorem Memory.wfFrom_filter {lo : Nat} {m : Memory} (p : Host.Cell → Bool) (hm : Memory.wfFrom lo m = true) :
    Memory.wfFrom lo (m.filter p) = true := by
  induction m generalizing lo with
  | nil => rfl
  | cons c rest ih =>
    simp only [Memory.wfFrom, Bool.and_eq_true, decide_eq_true_eq] at hm
    simp only [List.filter_cons]
    split
    · simp only [Memory.wfFrom, Bool.and_eq_true, decide_eq_true_eq]
      exact ⟨hm.1, ih hm.2⟩
    · exact Memory.wfFrom_mono (by omega) (ih hm.2)

theorem Memory.wfFrom_append {lo mid : Nat} {m n : Memory} (h : ∀ c ∈ m, c.1 < mid) (hlo : lo ≤ mid)
    (hm : Memory.wfFrom lo m = true) (hn : Memory.wfFrom mid n = true) :
    Memory.wfFrom lo (m ++ n) = true := by
  induction m generalizing lo with
  | nil => exact Memory.wfFrom_mono hlo hn
  | cons c rest ih =>
    simp only [Memory.wfFrom, Bool.and_eq_true, decide_eq_true_eq] at hm
    simp only [List.cons_append, Memory.wfFrom, Bool.and_eq_true, decide_eq_true_eq]
    have hc : c.1 < mid := h c (by simp)
    exact ⟨hm.1, ih (fun d hd => h d (by simp [hd])) (by omega) hm.2⟩

theorem Memory.wfFrom_cells (a : Nat) (l : List Byte) : Memory.wfFrom a (Memory.cells a l) = true := by
  induction l generalizing a with
  | nil => rfl
  | cons v rest ih =>
    simp only [Memory.cells]
    split
    · exact Memory.wfFrom_mono (by omega) (ih (a + 1))
    · rename_i hv
      simp only [Memory.wfFrom, Bool.and_eq_true, decide_eq_true_eq, bne_iff_ne, ne_eq]
      exact ⟨⟨Nat.le_refl a, hv⟩, ih (a + 1)⟩

theorem Memory.wfFrom_high {lo b : Nat} {m : Memory} (h : ∀ c ∈ m, b ≤ c.1) (hm : Memory.wfFrom lo m = true) :
    Memory.wfFrom b m = true := by
  cases m with
  | nil => rfl
  | cons c rest =>
    simp only [Memory.wfFrom, Bool.and_eq_true, decide_eq_true_eq] at hm ⊢
    exact ⟨⟨h c (by simp), hm.1.2⟩, hm.2⟩

/-- Every write of bytes keeps the canonical form. -/
theorem Memory.wf_splice {m : Memory} (a : Nat) (l : List Byte) (hm : m.wf = true) : (m.splice a l).wf = true := by
  unfold Memory.wf Memory.splice at *
  have hlow := Memory.wfFrom_filter (fun c => decide (c.1 < a)) hm
  have hhigh := Memory.wfFrom_filter (fun c => decide (a + l.length ≤ c.1)) hm
  refine Memory.wfFrom_append (mid := a + l.length) ?_ (by omega) ?_ ?_
  · intro c hc
    rcases List.mem_append.mp hc with h | h
    · simp at h; omega
    · exact (Memory.cells_lower _ _ c h).2
  · refine Memory.wfFrom_append (mid := a) ?_ (by omega) hlow (Memory.wfFrom_cells a l)
    intro c hc; simp at hc; omega
  · refine Memory.wfFrom_high ?_ hhigh
    intro c hc; simp at hc; omega

/-- The zeroing of a range keeps the canonical form. -/
theorem Memory.wf_zero {m : Memory} (a n : Nat) (hm : m.wf = true) : (m.zero a n).wf = true :=
  Memory.wfFrom_filter _ hm

/-- A rewrite of the Status Block keeps the canonical form. -/
theorem Memory.wfFrom_read {lo : Nat} {m : Memory} (hm : Memory.wfFrom lo m = true) {x : Nat} (hx : x < lo) :
    m.read x = 0 := by
  induction m generalizing lo with
  | nil => rfl
  | cons c rest ih =>
    simp only [Memory.wfFrom, Bool.and_eq_true, decide_eq_true_eq] at hm
    simp only [Memory.read]
    rw [if_neg (by omega)]
    exact ih hm.2 (by omega)

/-- Memories in canonical form that read alike are equal. -/
theorem Memory.ext_of_wfFrom {lo : Nat} {m n : Memory} (hm : Memory.wfFrom lo m = true)
    (hn : Memory.wfFrom lo n = true) (h : ∀ x, m.read x = n.read x) : m = n := by
  induction m generalizing lo n with
  | nil =>
    cases n with
    | nil => rfl
    | cons c rest =>
      simp only [Memory.wfFrom, Bool.and_eq_true, bne_iff_ne, ne_eq] at hn
      have := h c.1
      simp only [Memory.read, if_true] at this
      exact absurd this.symm hn.1.2
  | cons c rest ih =>
    cases n with
    | nil =>
      simp only [Memory.wfFrom, Bool.and_eq_true, bne_iff_ne, ne_eq] at hm
      have := h c.1
      simp only [Memory.read, if_true] at this
      exact absurd this hm.1.2
    | cons d rest' =>
      simp only [Memory.wfFrom, Bool.and_eq_true, decide_eq_true_eq, bne_iff_ne, ne_eq] at hm hn
      have hcd : c.1 = d.1 := by
        rcases Nat.lt_trichotomy c.1 d.1 with hlt | heq | hgt
        · have := h c.1
          simp only [Memory.read, if_true] at this
          rw [if_neg (by omega), Memory.wfFrom_read hn.2 (by omega)] at this
          exact absurd this hm.1.2
        · exact heq
        · have := h d.1
          simp only [Memory.read, if_true] at this
          rw [if_neg (by omega), Memory.wfFrom_read hm.2 (by omega)] at this
          exact absurd this.symm hn.1.2
      have hv : c.2 = d.2 := by
        have := h c.1
        simpa [Memory.read, hcd] using this
      have hrest : rest = rest' := by
        refine ih hm.2 (hcd ▸ hn.2) (fun x => ?_)
        have := h x
        simp only [Memory.read, hcd] at this
        by_cases hx : d.1 = x
        · rw [Memory.wfFrom_read hm.2 (by omega), Memory.wfFrom_read hn.2 (by omega)]
        · simpa [hx] using this
      rw [hrest, show c = d from Prod.ext hcd hv]

/-! ## Words -/

@[simp] theorem le32_length (w : Word) : (le32 w).length = 4 := rfl
@[simp] theorem le16_length (n : Nat) : (le16 n).length = 2 := rfl
@[simp] theorem le8_length (n : Nat) : (le8 n).length = 1 := rfl

theorem padTo_length (n : Nat) (l : List Byte) : (padTo n l).length = n := by
  simp only [padTo, List.length_append, List.length_take, List.length_replicate]; omega

theorem le32_join (w : Word) :
    w.extractLsb' 24 8 ++ w.extractLsb' 16 8 ++ w.extractLsb' 8 8 ++ w.extractLsb' 0 8 = w := by
  apply BitVec.eq_of_getLsbD_eq
  intro i hi
  simp only [BitVec.getLsbD_append, BitVec.getLsbD_extractLsb']
  rcases (by omega : i < 8 ∨ (8 ≤ i ∧ i < 16) ∨ (16 ≤ i ∧ i < 24) ∨ 24 ≤ i) with h | h | h | h
  · simp [h]
  · simp [show ¬ i < 8 by omega, show i - 8 < 8 by omega, show 8 + (i - 8) = i by omega]
  · simp [show ¬ i < 8 by omega, show ¬ i - 8 < 8 by omega, show i - 8 - 8 < 8 by omega,
      show 16 + (i - 8 - 8) = i by omega]
  · simp [show ¬ i < 8 by omega, show ¬ i - 8 < 8 by omega, show ¬ i - 8 - 8 < 8 by omega,
      show 24 + (i - 8 - 8 - 8) = i by omega, show i - 8 - 8 - 8 < 8 by omega]

/-- A word written reads back. -/
theorem Memory.read32_splice_same (m : Memory) (a : Nat) (w : Word) :
    (m.splice a (le32 w)).read32 a = w := by
  have e : ∀ k, k < 4 → (m.splice a (le32 w)).read (a + k) = (le32 w).getD k 0 := by
    intro k hk
    rw [Memory.read_splice, if_pos (by simp; omega)]
    congr 1; omega
  unfold Memory.read32
  have e0 := e 0 (by omega)
  rw [Nat.add_zero] at e0
  rw [e 3 (by omega), e 2 (by omega), e 1 (by omega), e0]
  simp only [le32, List.getD_cons_zero, List.getD_cons_succ]
  exact le32_join w

/-- A write elsewhere leaves a word. -/
theorem Memory.read32_splice_out (m : Memory) (a b : Nat) (l : List Byte) (h : b + 4 ≤ a ∨ a + l.length ≤ b) :
    (m.splice a l).read32 b = m.read32 b := by
  unfold Memory.read32
  rw [Memory.read_splice_out, Memory.read_splice_out, Memory.read_splice_out, Memory.read_splice_out] <;> omega

/-- A write elsewhere leaves a 16-bit field. -/
theorem Memory.read16_splice_out (m : Memory) (a b : Nat) (l : List Byte) (h : b + 2 ≤ a ∨ a + l.length ≤ b) :
    (m.splice a l).read16 b = m.read16 b := by
  unfold Memory.read16
  rw [Memory.read_splice_out, Memory.read_splice_out] <;> omega

end Sys2Proof.Machine
end

