-- ==== Sys2Proof/Laws/Cells.lean ====
section
/-! SUPPORT. The end of a request: what the cell holds after it, and what it leaves alone. -/

namespace Sys2Proof.Machine

theorem Memory.readBytes_splice_same (m : Memory) (a : Nat) (l : List Byte) (i n : Nat) (h : i + n ≤ l.length) :
    (m.splice a l).readBytes (a + i) n = (l.drop i).take n := by
  induction n generalizing i with
  | zero => simp [Memory.readBytes]
  | succ n ih =>
    have hi : i < l.length := by omega
    rw [Memory.readBytes, Nat.add_assoc, ih (i + 1) (by omega), Memory.read_splice, if_pos (by omega),
      List.drop_eq_getElem_cons hi, List.take_succ_cons]
    congr 1
    rw [show a + i - a = i by omega, List.getD_eq_getElem?_getD, List.getElem?_eq_getElem hi]
    rfl

theorem Memory.readBytes_splice_out (m : Memory) (a : Nat) (l : List Byte) (b n : Nat)
    (h : b + n ≤ a ∨ a + l.length ≤ b) : (m.splice a l).readBytes b n = m.readBytes b n := by
  induction n generalizing b with
  | zero => rfl
  | succ n ih => rw [Memory.readBytes, Memory.readBytes, ih (b + 1) (by omega), Memory.read_splice_out _ _ _ _ (by omega)]

theorem cellResult_length (kind : Nat) (tag : Word) (result : Result) (detail : Word) (area : List Byte) :
    (cellResult kind tag result detail area).length = 60 := by
  simp [cellResult, padTo_length]

theorem le16_join (n : Nat) : (BitVec.ofNat 8 n).toNat + 256 * (BitVec.ofNat 8 (n / 256)).toNat = n % 65536 := by
  simp only [BitVec.toNat_ofNat]
  omega

theorem Result.code_lt (r : Result) : r.code < 65536 := by cases r <;> decide

/-- What a request's end leaves of a cell that reads TAKEN, and of all else (R168). -/
theorem State.endCell_answers {u : State} {cell : Nat} (kind : Nat) (tag : Word) (result : Result) (detail : Word)
    (area : List Byte) (h : cellState u.mem cell = cellTaken) :
    State.Answers cell kind tag result detail area u (u.endCell cell kind tag result detail area) := by
  have hm : (u.endCell cell kind tag result detail area).mem
      = (u.mem.splice (cellAddr cell + 4) (cellResult kind tag result detail area)).splice (cellAddr cell)
          (le32 cellDone) := by
    simp only [State.endCell, if_pos h]
    rfl
  have rd : ∀ i, i < 60 → (u.endCell cell kind tag result detail area).mem.read (cellAddr cell + 4 + i)
      = (cellResult kind tag result detail area).getD i 0 := by
    intro i hi
    rw [hm, Memory.read_splice_out _ _ _ _ (by simp), Memory.read_splice,
      if_pos (by rw [cellResult_length]; omega)]
    congr 1; omega
  have r0 : ∀ j, 4 ≤ j → j < 64 → (u.endCell cell kind tag result detail area).mem.read (cellAddr cell + j)
      = (cellResult kind tag result detail area).getD (j - 4) 0 := by
    intro j h1 h2
    rw [← rd (j - 4) (by omega)]
    congr 1; omega
  refine ⟨?_, ?_, ?_, ?_, ?_, ?_, ?_, ?_⟩
  · unfold cellState
    rw [hm, Memory.read32_splice_same]
  · unfold cellKind Memory.read16
    rw [Nat.add_assoc, r0 4 (by omega) (by omega), r0 (4 + 1) (by omega) (by omega)]
    exact le16_join kind
  · unfold Memory.read16
    rw [Nat.add_assoc, r0 6 (by omega) (by omega), r0 (6 + 1) (by omega) (by omega)]
    have := le16_join result.code
    rw [Nat.mod_eq_of_lt result.code_lt] at this
    exact this
  · have a3 := r0 11 (by omega) (by omega)
    have a2 := r0 10 (by omega) (by omega)
    have a1 := r0 9 (by omega) (by omega)
    have a0 := r0 8 (by omega) (by omega)
    show (u.endCell cell kind tag result detail area).mem.read (cellAddr cell + 11)
      ++ (u.endCell cell kind tag result detail area).mem.read (cellAddr cell + 10)
      ++ (u.endCell cell kind tag result detail area).mem.read (cellAddr cell + 9)
      ++ (u.endCell cell kind tag result detail area).mem.read (cellAddr cell + 8) = tag
    rw [a3, a2, a1, a0]
    exact le32_join tag
  · have a3 := r0 15 (by omega) (by omega)
    have a2 := r0 14 (by omega) (by omega)
    have a1 := r0 13 (by omega) (by omega)
    have a0 := r0 12 (by omega) (by omega)
    show (u.endCell cell kind tag result detail area).mem.read (cellAddr cell + 15)
      ++ (u.endCell cell kind tag result detail area).mem.read (cellAddr cell + 14)
      ++ (u.endCell cell kind tag result detail area).mem.read (cellAddr cell + 13)
      ++ (u.endCell cell kind tag result detail area).mem.read (cellAddr cell + 12) = detail
    rw [a3, a2, a1, a0]
    exact le32_join detail
  · rw [hm, Memory.readBytes_splice_out _ _ _ _ _ (by simp), show cellAddr cell + 16 = cellAddr cell + 4 + 12 by omega,
      Memory.readBytes_splice_same _ _ _ _ _ (by rw [cellResult_length])]
    have : (cellResult kind tag result detail area).drop 12 = padTo 48 area := by
      simp [cellResult, le16, le32]
    rw [this, List.take_of_length_le (by rw [padTo_length])]
  · intro a ha
    rw [hm, Memory.read_splice_out _ _ _ _ (by simp; omega),
      Memory.read_splice_out _ _ _ _ (by rw [cellResult_length]; omega)]
  · rw [hm]
    simp only [State.endCell, if_pos h]
    rfl

/-- A result is not written into a cell that reads anything else than TAKEN, and is counted as dropped (R168,
R177). -/
theorem State.endCell_dropped {u : State} {cell : Nat} (kind : Nat) (tag : Word) (result : Result) (detail : Word)
    (area : List Byte) (h : cellState u.mem cell ≠ cellTaken) :
    u.endCell cell kind tag result detail area =
      u.onXi (fun xi =>
        { xi with dropped := xi.dropped + 1, inHand := xi.inHand.filter (fun h => h.cell != cell) }) := by
  simp only [State.endCell, if_neg h]
  rfl

/-- A handed cell reads TAKEN. -/
theorem State.handed_taken (cell : Nat) (m : State) : cellState (m.handed cell).mem cell = cellTaken := by
  unfold cellState State.handed
  rw [State.onXi_mem, State.store_mem, Memory.read32_splice_same]

/-- The take of a cell that the sweep comes to. -/
theorem State.takeRow_of_comes {kind : Option ReqKind} {cell : Nat} {m : State} (h : m.Comes kind cell) :
    State.takeRow kind cell m = (m.handed cell).serve kind (params m cell) := by
  unfold State.takeRow
  rw [if_pos (by simp [h.reaches, h.takeable, h.kind])]
  rfl

/-- A command that carries host writes inside the window completes with its effect over them. -/
theorem withHost_does {c : Instr} {s : State} {host : List HostWrite} {f : State → State}
    (h : exec c s = withHost host (fun _ => false) f s) (hw : hostInWindow host = true) : Does c s (f (s.met host)) := by
  unfold withHost at h
  rw [if_pos hw] at h
  exact ⟨_, h, State.endEvent_settles _ _ _⟩

/-- A take whose request ends at once over an effect `u` that leaves its cell TAKEN. -/
theorem answersAtOnce_of_take {c : Instr} {s : State} {cell : Nat} {host : List HostWrite} {kind : Option ReqKind}
    {u : State} {result : Result} {detail : Word} {area : List Byte}
    (hc : exec c s = withHost host (fun _ => false) (State.takeRow kind cell) s) (hw : hostInWindow host = true)
    (h : (s.met host).Comes kind cell)
    (hs : (((s.met host).handed cell).serve kind (params (s.met host) cell))
      = u.reply (params (s.met host) cell) result detail area)
    (ht : cellState u.mem cell = cellTaken) :
    AnswersAtOnce c s (s.met host) cell u result detail area := by
  obtain ⟨t, h1, h2⟩ := withHost_does hc hw
  rw [State.takeRow_of_comes h, hs] at h2
  exact ⟨_, t, h1, State.endCell_answers _ _ _ _ _ ht, h2⟩

end Sys2Proof.Machine
end

