-- ==== Sys2Proof/Laws/Kept.lean ====
section
/-! SUPPORT. What every operation keeps: the queue, the canonical memory, the rigid map, the journal's marks, the
ranges and sizes of the tables, the locked saws up, and, but for the resets and its read, RESET_CAUSE. One lemma for
each operation; a proof about a step goes through them and `Kept.event`. -/

namespace Sys2Proof.Machine

/-- The values that an operation leaves as they are: the queue and RESET_CAUSE. -/
structure Fixed where
  queue : List Instr
  cause : Word

/-- The marks of the journal are offsets of the ring, the notify count is in range and RESET_CAUSE reads `cause`. -/
structure Exchange.Reads (cause : Word) (xi : Exchange) : Prop where
  fill : xi.fill < journalUnits
  release : xi.release < journalUnits
  starts : ∀ u ∈ xi.starts, u < journalUnits
  notify : xi.notifyCount ≤ 256
  cause : xi.resetCause = cause

/-- All conditions that every step keeps, with the values `q` and room for `room` lugs upstream. -/
structure Kept (q : Fixed) (room : Nat) (s : State) : Prop where
  pending : s.pending = q.queue
  mem : s.mem.wf = true
  rigid : s.dt.Rigid room
  ring : s.xi.Reads q.cause
  heads : HeadsInRange s.sa s.da
  sized : s.Sized
  locks : s.LockedUp
  runs : s.tu.Apart
  serials : s.dt.Distinct

variable {q : Fixed} {room : Nat} {s : State}

theorem State.Inv.kept (h : s.Inv) : Kept { queue := s.pending, cause := s.xi.resetCause } 8 s :=
  ⟨rfl, h.mem, h.rigid, ⟨h.ring.fill, h.ring.release, h.ring.starts, h.ring.notify, rfl⟩, h.heads, h.sized, h.locks,
    h.runs, h.serials⟩

theorem Kept.inv (h : Kept q 8 s) : s.Inv :=
  ⟨h.mem, h.rigid, ⟨h.ring.fill, h.ring.release, h.ring.starts, h.ring.notify⟩, h.heads, h.sized, h.locks,
   h.runs, h.serials⟩

/-- What a host read of RESET_CAUSE returns (R163). -/
theorem Kept.cause (h : Kept q room s) : registerRead 0x10 s = q.cause := h.ring.cause

/-- The queue itself is free to change. -/
theorem Kept.withPending (h : Kept q room s) (queue : List Instr) :
    Kept { q with queue := queue } room { s with pending := queue } :=
  ⟨rfl, h.mem, h.rigid, h.ring, h.heads, { h.sized with }, ⟨h.locks.out, h.locks.window, h.locks.pieces⟩,
   h.runs, h.serials⟩

/-! ## Lists -/

theorem mem_modify {α : Type} {l : List α} {i : Nat} {f : α → α} {x : α} (h : x ∈ l.modify i f) :
    x ∈ l ∨ ∃ y, l[i]? = some y ∧ x = f y := by
  induction l generalizing i with
  | nil => simp at h
  | cons a rest ih =>
    cases i with
    | zero =>
      simp only [List.modify_zero_cons, List.mem_cons] at h
      rcases h with rfl | h
      · exact Or.inr ⟨a, by simp, rfl⟩
      · exact Or.inl (by simp [h])
    | succ i =>
      simp only [List.modify_succ_cons, List.mem_cons] at h
      rcases h with rfl | h
      · exact Or.inl (by simp)
      · rcases ih h with h | ⟨y, hy, e⟩
        · exact Or.inl (by simp [h])
        · exact Or.inr ⟨y, by simpa using hy, e⟩

theorem map_tag_modify (l : List Lug) (i : Nat) (f : Lug → Lug) (hf : ∀ x, (f x).tag = x.tag) :
    (l.modify i f).map (fun x => x.tag) = l.map (fun x => x.tag) := by
  induction l generalizing i with
  | nil => simp
  | cons a rest ih =>
    cases i with
    | zero => simp [hf]
    | succ i => simp [ih]

theorem map_tag_map (l : List Lug) (f : Lug → Lug) (hf : ∀ x, (f x).tag = x.tag) :
    (l.map f).map (fun x => x.tag) = l.map (fun x => x.tag) := by
  rw [List.map_map]; congr 1; funext x; exact hf x

theorem serials_map (l : List Piece) (f : Piece → Piece) (hf : ∀ p, (f p).serial = p.serial) :
    (l.map f).map (fun p => p.serial) = l.map (fun p => p.serial) := by
  rw [List.map_map]; congr 1; funext p; exact hf p

theorem pieces_serial (l : List Piece) (f : Piece → Piece) (n : Word) (hf : ∀ p, (f p).serial = p.serial) :
    (l.map (fun p => if p.serial = n then f p else p)).map (fun p => p.serial) = l.map (fun p => p.serial) :=
  serials_map l _ (fun p => by split <;> simp [hf])

theorem find_onPiece (l : List Piece) (n m : Word) (f : Piece → Piece) (hf : ∀ p, (f p).serial = p.serial) :
    (l.map (fun p => if p.serial = n then f p else p)).find? (fun p => p.serial == m)
      = (l.find? (fun p => p.serial == m)).map (fun p => if p.serial = n then f p else p) := by
  induction l with
  | nil => rfl
  | cons a rest ih =>
    simp only [List.map_cons, List.find?_cons]
    have h : ((if a.serial = n then f a else a).serial == m) = (a.serial == m) := by
      split <;> simp [hf]
    rw [h]
    cases a.serial == m
    · exact ih
    · rfl

theorem find_onPieces (l : List Piece) (m : Word) (f : Piece → Piece) (hf : ∀ p, (f p).serial = p.serial) :
    (l.map f).find? (fun p => p.serial == m) = (l.find? (fun p => p.serial == m)).map f := by
  induction l with
  | nil => rfl
  | cons a rest ih =>
    simp only [List.map_cons, List.find?_cons, hf]
    cases a.serial == m
    · exact ih
    · rfl

theorem find_filter_serial (l : List Piece) (n m : Word) :
    (l.filter (fun p => p.serial != n)).find? (fun p => p.serial == m)
      = if m = n then none else l.find? (fun p => p.serial == m) := by
  induction l with
  | nil => simp
  | cons a rest ih =>
    simp only [List.filter_cons, List.find?_cons]
    by_cases h : a.serial = n
    · by_cases hm : m = n
      · subst hm; simp [h, ih]
      · simp [h, ih, hm, show (n == m) = false by simp [Ne.symm hm]]
    · have hb : (a.serial != n) = true := by simpa using h
      rw [hb]
      simp only [if_true, List.find?_cons]
      by_cases hm : a.serial = m
      · have : ¬ m = n := fun e => h (hm.trans e)
        simp [hm, this]
      · have hf : (a.serial == m) = false := by simpa using hm
        rw [hf]
        exact ih

/-! ## A piece keeps off the locked saws -/

variable {locked : SawSet} {p p' : Piece}

theorem Piece.KeepsOff.of_eq (h : p.KeepsOff locked) (h1 : p'.state = p.state) (h2 : p'.commit = p.commit)
    (h3 : p'.solution = p.solution) : p'.KeepsOff locked := by
  refine ⟨?_, ?_, ?_⟩
  · intro hs; unfold Piece.dropSet; rw [h2]; exact h.committed (h1 ▸ hs)
  · intro hs; rw [h3]; exact h.solved (h1 ▸ hs)
  · rw [h3]; exact h.saws

/-- A piece that is neither COMMITTED nor SOLVED keeps off as long as its solution is well made. -/
theorem Piece.KeepsOff.other (h : ∀ sol, p'.solution = some sol → maskOf 20 sol.saws &&& ~~~sol.sawSet = 0)
    (h1 : p'.state ≠ .committed) (h2 : p'.state ≠ .solved) : p'.KeepsOff locked :=
  ⟨fun hs => absurd hs h1, fun hs => absurd hs h2, h⟩

theorem and_zero_mono {w : Nat} {x l l' : BitVec w} (hx : x &&& l = 0) (hl : l' &&& ~~~l = 0) : x &&& l' = 0 := by
  apply BitVec.eq_of_getLsbD_eq
  intro i hi
  have h1 := congrArg (fun y => y.getLsbD i) hx
  have h2 := congrArg (fun y => y.getLsbD i) hl
  simp only [BitVec.getLsbD_and, BitVec.getLsbD_not, hi, decide_true, Bool.true_and] at h1 h2 ⊢
  rw [show (0 : BitVec w).getLsbD i = false from BitVec.getLsbD_zero] at *
  revert h1 h2
  generalize x.getLsbD i = a
  generalize l.getLsbD i = b
  generalize l'.getLsbD i = c
  revert a b c
  decide

theorem Piece.KeepsOff.mono {locked' : SawSet} (h : p.KeepsOff locked) (hl : locked' &&& ~~~locked = 0) :
    p.KeepsOff locked' := by
  have key : ∀ x : SawSet, x &&& locked = 0 → x &&& locked' = 0 := fun x hx => and_zero_mono hx hl
  exact ⟨fun hs => key _ (h.committed hs), fun hs sol e => key _ (h.solved hs sol e), h.saws⟩

/-! ## The serials stay distinct -/

theorem Deck.Distinct.sublist {d d' : Deck} (h : d.Distinct) (h1 : d'.nextSerial = d.nextSerial)
    (h2 : (d'.pieces.map (fun p => p.serial)).Sublist (d.pieces.map (fun p => p.serial))) : d'.Distinct := by
  unfold Deck.Distinct at h ⊢
  rw [h1]
  exact List.Nodup.sublist ((h2.cons_cons _).cons_cons _) h

theorem Deck.Distinct.of_eq {d d' : Deck} (h : d.Distinct) (h1 : d'.nextSerial = d.nextSerial)
    (h2 : d'.pieces = d.pieces) : d'.Distinct :=
  h.sublist h1 (by rw [h2])

theorem serialAfter_inj {n : Word} {j k : Nat} (hj : j < 4294967295) (hk : k < 4294967295)
    (h : serialAfter n j = serialAfter n k) : j = k := by
  have e := congrArg BitVec.toNat h
  simp only [serialAfter, BitVec.toNat_ofNat] at e
  omega

theorem serialAfter_ne_zero (n : Word) (k : Nat) : serialAfter n k ≠ 0 := by
  intro h
  have e := congrArg BitVec.toNat h
  simp only [serialAfter, BitVec.toNat_ofNat] at e
  have : (0 : Word).toNat = 0 := rfl
  omega

theorem holdsSerial_iff (pieces : List Piece) (n : Word) :
    holdsSerial pieces n = true ↔ n ∈ pieces.map (fun p => p.serial) := by
  simp [holdsSerial, List.mem_map]

/-- Distinct values that all stand in a list are no more than the list is long. -/
theorem length_le_of_nodup {α : Type} [DecidableEq α] (l m : List α) (hl : l.Nodup) (h : ∀ x ∈ l, x ∈ m) :
    l.length ≤ m.length := by
  induction l generalizing m with
  | nil => exact Nat.zero_le _
  | cons x rest ih =>
    rw [List.nodup_cons] at hl
    have hx : x ∈ m := h x (by simp)
    have h1 := ih (m.erase x) hl.2 (fun y hy =>
      (List.mem_erase_of_ne (fun e => hl.1 (by rw [← e]; exact hy))).mpr (h y (by simp [hy])))
    rw [List.length_erase_of_mem hx] at h1
    have := List.length_pos_of_mem hx
    simp only [List.length_cons]
    omega

/-- The next serial is the first of the serials in order that no entry holds; a table has room for far fewer than there
are. -/
theorem nextSerialAfter_spec (pieces : List Piece) (n : Word) (h : pieces.length < 4294967294) :
    ∃ k, nextSerialAfter pieces n = serialAfter n k ∧ k ≤ pieces.length
      ∧ nextSerialAfter pieces n ∉ pieces.map (fun p => p.serial)
      ∧ ∀ j, j < k → serialAfter n j ∈ pieces.map (fun p => p.serial) := by
  unfold nextSerialAfter
  cases hf : (List.range (pieces.length + 1)).find? (fun k => !holdsSerial pieces (serialAfter n k)) with
  | none =>
    exfalso
    have hall : ∀ k, k < pieces.length + 1 → serialAfter n k ∈ pieces.map (fun p => p.serial) := by
      intro k hk
      have := List.find?_eq_none.mp hf k (List.mem_range.mpr hk)
      rw [← holdsSerial_iff]
      simpa using this
    have hd : ((List.range (pieces.length + 1)).map (serialAfter n)).Nodup := by
      rw [List.nodup_iff_pairwise_ne, List.pairwise_map]
      refine List.Pairwise.imp_of_mem ?_ (List.nodup_iff_pairwise_ne.mp List.nodup_range)
      intro a b ha hb hab e
      rw [List.mem_range] at ha hb
      exact hab (serialAfter_inj (by omega) (by omega) e)
    have := length_le_of_nodup _ (pieces.map (fun p => p.serial)) hd (by
      intro x hx
      obtain ⟨k, hk, rfl⟩ := List.mem_map.mp hx
      exact hall k (List.mem_range.mp hk))
    simp at this
  | some k =>
    rw [List.find?_range_eq_some] at hf
    refine ⟨k, rfl, ?_, ?_, ?_⟩
    · have := List.mem_range.mp hf.2.1
      omega
    · intro hm
      rw [← holdsSerial_iff] at hm
      rw [Option.getD_some] at hm
      simp [hm] at hf
    · intro j hj
      rw [← holdsSerial_iff]
      simpa using hf.2.2 j hj

/-- An admission keeps the serials distinct. -/
theorem Deck.Distinct.admission {d d' : Deck} (h : d.Distinct) (p : Piece) (pieces : List Piece)
    (hp : pieces = d.pieces ++ [p]) (hs : p.serial = d.nextSerial) (hl : d.pieces.length < 96)
    (h1 : d'.pieces = pieces) (h2 : d'.nextSerial = nextSerialAfter pieces d.nextSerial) : d'.Distinct := by
  obtain ⟨k, hk, _, hn, _⟩ := nextSerialAfter_spec pieces d.nextSerial (by rw [hp, List.length_append]; simp; omega)
  unfold Deck.Distinct at h ⊢
  rw [h1, h2]
  rw [List.nodup_cons, List.nodup_cons, List.mem_cons, not_or] at h ⊢
  have hm : ∀ x, x ∈ pieces.map (fun p => p.serial) ↔ x ∈ d.pieces.map (fun p => p.serial) ∨ x = d.nextSerial := by
    intro x; rw [hp]; simp [hs, eq_comm]
  refine ⟨⟨fun e => serialAfter_ne_zero _ _ (e.trans hk).symm, ?_⟩, hn, ?_⟩
  · rw [hm, not_or]; exact ⟨h.1.2, h.1.1⟩
  · rw [hp, List.map_append, List.nodup_append]
    refine ⟨h.2.2, by simp, ?_⟩
    intro x hx y hy e
    simp only [List.map_cons, List.map_nil, List.mem_singleton] at hy
    exact h.2.1 (by rw [← hs, ← hy, ← e]; exact hx)

/-! ## The runs stay apart -/

theorem Tally.Apart.of_eq {tu tu' : Tally} (h : tu.Apart) (h1 : tu'.areaA.run = tu.areaA.run)
    (h2 : tu'.areaB.run = tu.areaB.run) (h3 : tu'.areaA.area = tu.areaA.area) (h4 : tu'.areaB.area = tu.areaB.area) :
    tu'.Apart := by
  refine ⟨?_, ?_⟩
  · rw [h1, h2]; exact h.one
  · intro a
    cases a
    · show tu'.areaA.run ≠ none → tu'.areaA.area = _
      rw [h1, h3]; exact h.inUse .a
    · show tu'.areaB.run ≠ none → tu'.areaB.area = _
      rw [h2, h4]; exact h.inUse .b

/-- An entry without a run stays apart from any other. -/
theorem Tally.Apart.without {tu tu' : Tally} (h : tu.Apart) (a : Area) (h1 : (tu'.entry a).run = none)
    (h2 : tu'.entry (otherArea a) = tu.entry (otherArea a)) : tu'.Apart := by
  have ho := h.inUse (otherArea a)
  rw [← h2] at ho
  cases a
  · refine ⟨fun _ => h1, ?_⟩
    intro b
    cases b
    · exact fun hn => absurd h1 hn
    · exact ho
  · refine ⟨fun e => e.trans h1, ?_⟩
    intro b
    cases b
    · exact ho
    · exact fun hn => absurd h1 hn

/-- An IN_USE entry with a run that the other entry does not have stays apart from it. -/
theorem Tally.Apart.within {tu tu' : Tally} (h : tu.Apart) (a : Area) (h0 : (tu'.entry a).area = .inUse)
    (h1 : (tu'.entry a).run ≠ (tu.entry (otherArea a)).run)
    (h2 : tu'.entry (otherArea a) = tu.entry (otherArea a)) : tu'.Apart := by
  have ho := h.inUse (otherArea a)
  rw [← h2] at ho h1
  cases a
  · refine ⟨fun e => absurd e h1, ?_⟩
    intro b
    cases b
    · exact fun _ => h0
    · exact ho
  · refine ⟨fun e => absurd e.symm h1, ?_⟩
    intro b
    cases b
    · exact ho
    · exact fun _ => h0

theorem Tally.Apart.notInUse {tu : Tally} (h : tu.Apart) {a : Area} (ha : (tu.entry a).area ≠ .inUse) :
    (tu.entry a).run = none := by
  cases e : (tu.entry a).run with
  | none => rfl
  | some r => exact absurd (h.inUse a (by rw [e]; simp)) ha

theorem Tally.openArea_run {tu : Tally} {o : Area} (h : tu.openArea = some o) : (tu.entry o).run = some .opened := by
  unfold Tally.openArea Tally.findArea at h
  split at h
  · rename_i h1
    injection h with h
    subst h
    simpa [Tally.entry] using h1
  · split at h
    · rename_i h1
      injection h with h
      subst h
      simpa [Tally.entry] using h1
    · exact absurd h (by simp)

theorem Tally.no_opened {tu : Tally} (h : tu.openArea = none) (a : Area) : (tu.entry a).run ≠ some .opened := by
  unfold Tally.openArea Tally.findArea at h
  split at h
  · exact absurd h (by simp)
  · split at h
    · exact absurd h (by simp)
    · rename_i h1 h2
      cases a
      · simpa [Tally.entry] using h1
      · simpa [Tally.entry] using h2

theorem Tally.no_draining {tu : Tally} (h : tu.drainingArea = none) (a : Area) :
    (tu.entry a).run ≠ some .draining := by
  unfold Tally.drainingArea Tally.findArea at h
  split at h
  · exact absurd h (by simp)
  · split at h
    · exact absurd h (by simp)
    · rename_i h1 h2
      cases a
      · simpa [Tally.entry] using h1
      · simpa [Tally.entry] using h2

/-! ## The blocks -/

namespace Kept

theorem onDtSame (h : Kept q room s) (f : Deck → Deck) (h1 : (f s.dt).lugs = s.dt.lugs)
    (h2 : (f s.dt).upstream = s.dt.upstream) (h3 : (f s.dt).tagCounter = s.dt.tagCounter)
    (h4 : (f s.dt).pieces = s.dt.pieces) (h5 : (f s.dt).nextSerial = s.dt.nextSerial := by rfl) :
    Kept q room (s.onDt f) := by
  refine ⟨h.pending, h.mem, ?_, h.ring, h.heads, ?_, ?_, h.runs, h.serials.of_eq h5 (by rw [State.onDt_dt, h4])⟩
  · refine ⟨?_, ?_, ?_⟩
    · simp only [State.onDt_dt, h1, h3]; exact h.rigid.lugs
    · simp only [State.onDt_dt, h2, h3]; exact h.rigid.upstream
    · simp only [State.onDt_dt, h2]; exact h.rigid.room
  · exact { h.sized with pieces := by simp only [State.onDt_dt, h4]; exact h.sized.pieces }
  · refine ⟨h.locks.out, h.locks.window, ?_⟩
    intro n p hp
    simp only [State.onDt_dt, Deck.piece?, h4] at hp
    exact h.locks.pieces n p hp

theorem onLugs (h : Kept q room s) (f : Lug → Lug) (hf : ∀ x, (f x).tag = x.tag) : Kept q room (s.onLugs f) := by
  refine ⟨h.pending, h.mem, ?_, h.ring, h.heads, { h.sized with }, ⟨h.locks.out, h.locks.window, h.locks.pieces⟩,
    h.runs, h.serials⟩
  refine ⟨?_, ?_, ?_⟩
  · simp only [State.onLugs_dt, map_tag_map _ _ hf]; exact h.rigid.lugs
  · simp only [State.onLugs_dt, map_tag_map _ _ hf, List.length_map]; exact h.rigid.upstream
  · simp only [State.onLugs_dt, List.length_map]; exact h.rigid.room

theorem onLugAt (h : Kept q room s) (i : Nat) (f : Lug → Lug) (hf : ∀ x, (f x).tag = x.tag) :
    Kept q room (s.onLugAt i f) := by
  refine ⟨h.pending, h.mem, ?_, h.ring, h.heads, { h.sized with }, ⟨h.locks.out, h.locks.window, h.locks.pieces⟩,
    h.runs, h.serials⟩
  refine ⟨?_, h.rigid.upstream, h.rigid.room⟩
  simp only [State.onLugAt_dt, map_tag_modify _ _ _ hf]; exact h.rigid.lugs

/-- Pieces changed where the lookup of each serial still finds a piece that keeps off. -/
theorem onPiecesTable (h : Kept q room s) (f : List Piece → List Piece) (h1 : (f s.dt.pieces).length ≤ 96)
    (h2 : ∀ n p, (f s.dt.pieces).find? (fun p => p.serial == n) = some p → p.KeepsOff s.ax.lockSet)
    (h3 : ((f s.dt.pieces).map (fun p => p.serial)).Sublist (s.dt.pieces.map (fun p => p.serial))) :
    Kept q room (s.onDt (fun d => { d with pieces := f d.pieces })) :=
  ⟨h.pending, h.mem, ⟨h.rigid.lugs, h.rigid.upstream, h.rigid.room⟩, h.ring, h.heads, { h.sized with pieces := h1 },
    ⟨h.locks.out, h.locks.window, h2⟩, h.runs, h.serials.sublist rfl h3⟩

theorem onPiece (h : Kept q room s) (n : Word) (f : Piece → Piece) (hf : ∀ p, (f p).serial = p.serial)
    (hk : ∀ p, s.dt.piece? n = some p → p.KeepsOff s.ax.lockSet → (f p).KeepsOff s.ax.lockSet) :
    Kept q room (s.onPiece n f) := by
  refine Kept.onPiecesTable h (fun l => l.map (fun p => if p.serial = n then f p else p)) ?_ ?_
    (by rw [pieces_serial _ _ _ hf])
  · rw [List.length_map]; exact h.sized.pieces
  · intro m p hp
    rw [find_onPiece _ _ _ _ hf] at hp
    obtain ⟨p0, h0, e⟩ := Option.map_eq_some_iff.mp hp
    have hs : p0.serial = m := by simpa using List.find?_some h0
    have hk0 := h.locks.pieces m p0 h0
    by_cases hn : p0.serial = n
    · rw [if_pos hn] at e
      subst e
      exact hk p0 (by rw [← hn, hs]; exact h0) hk0
    · rw [if_neg hn] at e
      subst e
      exact hk0

/-- A piece changed in fields that no lock reads. -/
theorem onPieceSame (h : Kept q room s) (n : Word) (f : Piece → Piece) (hf : ∀ p, (f p).serial = p.serial)
    (h1 : ∀ p, (f p).state = p.state) (h2 : ∀ p, (f p).commit = p.commit) (h3 : ∀ p, (f p).solution = p.solution) :
    Kept q room (s.onPiece n f) :=
  h.onPiece n f hf (fun p _ hk => hk.of_eq (h1 p) (h2 p) (h3 p))

/-- A piece that leaves for a state neither COMMITTED nor SOLVED with the solution it has. -/
theorem onPieceOther (h : Kept q room s) (n : Word) (f : Piece → Piece) (hf : ∀ p, (f p).serial = p.serial)
    (h1 : ∀ p, (f p).state ≠ .committed) (h2 : ∀ p, (f p).state ≠ .solved)
    (h3 : ∀ p, (f p).solution = p.solution) : Kept q room (s.onPiece n f) :=
  h.onPiece n f hf (fun p _ hk => Piece.KeepsOff.other (by rw [h3]; exact hk.saws) (h1 p) (h2 p))

theorem onPieces (h : Kept q room s) (f : Piece → Piece) (hf : ∀ p, (f p).serial = p.serial)
    (hk : ∀ p, p.KeepsOff s.ax.lockSet → (f p).KeepsOff s.ax.lockSet) : Kept q room (s.onPieces f) := by
  refine Kept.onPiecesTable h (fun l => l.map f) ?_ ?_ (by rw [serials_map _ _ hf])
  · rw [List.length_map]; exact h.sized.pieces
  · intro m p hp
    rw [find_onPieces _ _ _ hf] at hp
    obtain ⟨p0, h0, rfl⟩ := Option.map_eq_some_iff.mp hp
    exact hk p0 (h.locks.pieces m p0 h0)

theorem dropPiece (h : Kept q room s) (n : Word) :
    Kept q room (s.onDt (fun d => { d with pieces := d.pieces.filter (fun p => p.serial != n) })) := by
  refine Kept.onPiecesTable h (fun l => l.filter (fun p => p.serial != n)) ?_ ?_ (List.filter_sublist.map _)
  · exact Nat.le_trans (List.length_filter_le _ _) h.sized.pieces
  · intro m p hp
    rw [find_filter_serial] at hp
    by_cases hm : m = n
    · rw [if_pos hm] at hp; exact absurd hp (by simp)
    · rw [if_neg hm] at hp; exact h.locks.pieces m p hp

theorem onSa (h : Kept q room s) (f : Scan → Scan) (h1 : (f s.sa).heads.length = 8)
    (h2 : ∀ hd ∈ (f s.sa).heads, hd.credit ≤ 16 ∧ hd.delay ≤ 63 ∧ hd.badRun ≤ 3) : Kept q room (s.onSa f) :=
  ⟨h.pending, h.mem, h.rigid, h.ring, ⟨h2, h.heads.search⟩, { h.sized with heads := h1 },
    ⟨h.locks.out, h.locks.window, h.locks.pieces⟩, h.runs, h.serials⟩

theorem onSaSame (h : Kept q room s) (f : Scan → Scan) (h1 : (f s.sa).heads = s.sa.heads) :
    Kept q room (s.onSa f) :=
  h.onSa f (by rw [h1]; exact h.sized.heads) (by rw [h1]; exact h.heads.heads)

theorem onHead (h : Kept q room s) (n : Nat) (f : Head → Head)
    (hf : ∀ hd, (hd.credit ≤ 16 ∧ hd.delay ≤ 63 ∧ hd.badRun ≤ 3) →
      ((f hd).credit ≤ 16 ∧ (f hd).delay ≤ 63 ∧ (f hd).badRun ≤ 3)) : Kept q room (s.onHead n f) := by
  refine h.onSa _ ?_ ?_
  · split
    · exact h.sized.heads
    · rw [List.length_modify]; exact h.sized.heads
  · intro hd hm
    split at hm
    · exact h.heads.heads hd hm
    · rcases mem_modify hm with hm | ⟨y, hy, rfl⟩
      · exact h.heads.heads hd hm
      · exact hf y (h.heads.heads y (List.mem_of_getElem? hy))

theorem onDa (h : Kept q room s) (f : Align → Align) (hf : (f s.da).d ≤ 63) : Kept q room (s.onDa f) :=
  ⟨h.pending, h.mem, h.rigid, h.ring, ⟨h.heads.heads, hf⟩, { h.sized with },
    ⟨h.locks.out, h.locks.window, h.locks.pieces⟩, h.runs, h.serials⟩

theorem onDaSame (h : Kept q room s) (f : Align → Align) (hf : ∀ d, (f d).d = d.d) : Kept q room (s.onDa f) :=
  h.onDa f (by rw [hf]; exact h.heads.search)

theorem onRs (h : Kept q room s) (f : RuleStore → RuleStore) (hf : (f s.rs).slots.length = s.rs.slots.length) :
    Kept q room (s.onRs f) :=
  ⟨h.pending, h.mem, h.rigid, h.ring, h.heads, { h.sized with slots := by rw [State.onRs_rs, hf]; exact h.sized.slots },
    ⟨h.locks.out, h.locks.window, h.locks.pieces⟩, h.runs, h.serials⟩

theorem onSlot (h : Kept q room s) (i : Nat) (f : Slot → Slot) : Kept q room (s.onSlot i f) :=
  h.onRs _ (by simp)

theorem onTs (h : Kept q room s) (f : Solver → Solver) : Kept q room (s.onTs f) :=
  ⟨h.pending, h.mem, h.rigid, h.ring, h.heads, { h.sized with }, ⟨h.locks.out, h.locks.window, h.locks.pieces⟩,
   h.runs, h.serials⟩

theorem onOu (h : Kept q room s) (f : Overrides → Overrides) (h1 : (f s.ou).stations.length = 2)
    (h2 : ∀ st ∈ (f s.ou).stations, st.queue.length ≤ 4) : Kept q room (s.onOu f) :=
  ⟨h.pending, h.mem, h.rigid, h.ring, h.heads, { h.sized with stations := h1, keys := h2 },
    ⟨h.locks.out, h.locks.window, h.locks.pieces⟩, h.runs, h.serials⟩

theorem onStation (h : Kept q room s) (n : Nat) (f : Station → Station)
    (hf : ∀ st, s.ou.station? n = some st → st.queue.length ≤ 4 → (f st).queue.length ≤ 4) :
    Kept q room (s.onStation n f) := by
  refine h.onOu _ ?_ ?_
  · split
    · exact h.sized.stations
    · rw [List.length_modify]; exact h.sized.stations
  · intro st hm
    split at hm
    · exact h.sized.keys st hm
    · rename_i hn
      rcases mem_modify hm with hm | ⟨y, hy, rfl⟩
      · exact h.sized.keys st hm
      · exact hf y (by unfold Overrides.station?; rw [if_neg hn]; exact hy)
          (h.sized.keys y (List.mem_of_getElem? hy))

/-- AX changed with its lock set as it stands. -/
theorem onAx (h : Kept q room s) (f : Actuation → Actuation) (h1 : (f s.ax).saws = s.ax.saws)
    (h2 : (f s.ax).bins.length = s.ax.bins.length) (h3 : (f s.ax).sawOut &&& s.ax.lockSet = 0)
    (h4 : ∀ w ∈ (f s.ax).window, w.command &&& s.ax.lockSet = 0) : Kept q room (s.onAx f) := by
  have hl : (f s.ax).lockSet = s.ax.lockSet := by unfold Actuation.lockSet; rw [h1]
  exact ⟨h.pending, h.mem, h.rigid, h.ring, h.heads,
    { h.sized with
      saws := by rw [State.onAx_ax, h1]; exact h.sized.saws
      bins := by rw [State.onAx_ax, h2]; exact h.sized.bins },
    ⟨by rw [State.onAx_ax, hl]; exact h3, by rw [State.onAx_ax, hl]; exact h4,
     by rw [State.onAx_ax, hl]; exact h.locks.pieces⟩, h.runs, h.serials⟩

/-- AX changed in its counts. -/
theorem onAxCounts (h : Kept q room s) (f : Actuation → Actuation) (h1 : (f s.ax).saws = s.ax.saws)
    (h2 : (f s.ax).bins.length = s.ax.bins.length) (h3 : (f s.ax).sawOut = s.ax.sawOut)
    (h4 : (f s.ax).window = s.ax.window) : Kept q room (s.onAx f) :=
  h.onAx f h1 h2 (by rw [h3]; exact h.locks.out) (by rw [h4]; exact h.locks.window)

theorem onBin (h : Kept q room s) (b : Nat) (f : Bin → Bin) : Kept q room (s.onBin b f) := by
  refine h.onAxCounts _ rfl ?_ rfl rfl
  simp only []
  split
  · rfl
  · rw [List.length_modify]

theorem onTu (h : Kept q room s) (f : Tally → Tally) (hf : (f s.tu).pendingLogs.length ≤ 8) (hr : (f s.tu).Apart) :
    Kept q room (s.onTu f) :=
  ⟨h.pending, h.mem, h.rigid, h.ring, h.heads, { h.sized with logs := hf },
    ⟨h.locks.out, h.locks.window, h.locks.pieces⟩, hr, h.serials⟩

/-- TU changed with its run table as it stands. -/
theorem onTuLogs (h : Kept q room s) (f : Tally → Tally) (hf : (f s.tu).pendingLogs.length ≤ 8)
    (h1 : (f s.tu).areaA = s.tu.areaA) (h2 : (f s.tu).areaB = s.tu.areaB) : Kept q room (s.onTu f) :=
  h.onTu f hf (h.runs.of_eq (by rw [h1]) (by rw [h2]) (by rw [h1]) (by rw [h2]))

theorem onTuSame (h : Kept q room s) (f : Tally → Tally) (hf : (f s.tu).pendingLogs = s.tu.pendingLogs)
    (h1 : (f s.tu).areaA = s.tu.areaA) (h2 : (f s.tu).areaB = s.tu.areaB) : Kept q room (s.onTu f) :=
  h.onTuLogs f (by rw [hf]; exact h.sized.logs) h1 h2

/-- An area that holds no run any longer. -/
theorem onAreaEnd (h : Kept q room s) (a : Area) (f : RunEntry → RunEntry) (h1 : (f (s.tu.entry a)).run = none) :
    Kept q room (s.onArea a f) := by
  cases a
  · exact h.onTu _ h.sized.logs (h.runs.without .a h1 rfl)
  · exact h.onTu _ h.sized.logs (h.runs.without .b h1 rfl)

/-- An IN_USE area that takes a run state which the other area does not have. -/
theorem onAreaRun (h : Kept q room s) (a : Area) (f : RunEntry → RunEntry) (h0 : (f (s.tu.entry a)).area = .inUse)
    (h1 : (f (s.tu.entry a)).run ≠ (s.tu.entry (otherArea a)).run) : Kept q room (s.onArea a f) := by
  cases a
  · exact h.onTu _ h.sized.logs (h.runs.within .a h0 h1 rfl)
  · exact h.onTu _ h.sized.logs (h.runs.within .b h0 h1 rfl)

/-- A run table entry changed in neither its area state nor its run state. -/
theorem onArea (h : Kept q room s) (a : Area) (f : RunEntry → RunEntry) (h1 : ∀ e, (f e).run = e.run)
    (h2 : ∀ e, (f e).area = e.area) : Kept q room (s.onArea a f) := by
  cases a
  · exact h.onTu _ h.sized.logs (h.runs.of_eq (h1 _) rfl (h2 _) rfl)
  · exact h.onTu _ h.sized.logs (h.runs.of_eq rfl (h1 _) rfl (h2 _))

theorem onXi (h : Kept q room s) (f : Exchange → Exchange) (hf : (f s.xi).Reads q.cause) : Kept q room (s.onXi f) :=
  ⟨h.pending, h.mem, h.rigid, hf, h.heads, { h.sized with }, ⟨h.locks.out, h.locks.window, h.locks.pieces⟩,
   h.runs, h.serials⟩

theorem onXiSame (h : Kept q room s) (f : Exchange → Exchange) (h1 : (f s.xi).fill = s.xi.fill)
    (h2 : (f s.xi).release = s.xi.release) (h3 : (f s.xi).starts = s.xi.starts)
    (h4 : (f s.xi).notifyCount = s.xi.notifyCount) (h5 : (f s.xi).resetCause = s.xi.resetCause) :
    Kept q room (s.onXi f) :=
  h.onXi f ⟨by rw [h1]; exact h.ring.fill, by rw [h2]; exact h.ring.release, by rw [h3]; exact h.ring.starts,
    by rw [h4]; exact h.ring.notify, by rw [h5]; exact h.ring.cause⟩

/-- A reset or a read of RESET_CAUSE sets what it reads. -/
theorem onXiCause (h : Kept q room s) (f : Exchange → Exchange) (cause : Word) (h1 : (f s.xi).fill = s.xi.fill)
    (h2 : (f s.xi).release = s.xi.release) (h3 : (f s.xi).starts = s.xi.starts)
    (h4 : (f s.xi).notifyCount = s.xi.notifyCount) (h5 : (f s.xi).resetCause = cause) :
    Kept { q with cause := cause } room (s.onXi f) :=
  ⟨h.pending, h.mem, h.rigid, ⟨by rw [State.onXi_xi, h1]; exact h.ring.fill,
      by rw [State.onXi_xi, h2]; exact h.ring.release,
      by rw [State.onXi_xi, h3]; exact h.ring.starts, by rw [State.onXi_xi, h4]; exact h.ring.notify, h5⟩,
    h.heads, { h.sized with }, ⟨h.locks.out, h.locks.window, h.locks.pieces⟩, h.runs, h.serials⟩

theorem onMem (h : Kept q room s) (f : Memory → Memory) (hf : (f s.mem).wf = true) : Kept q room (s.onMem f) :=
  ⟨h.pending, hf, h.rigid, h.ring, h.heads, { h.sized with }, ⟨h.locks.out, h.locks.window, h.locks.pieces⟩,
   h.runs, h.serials⟩

theorem store (h : Kept q room s) (a : Nat) (l : List Byte) : Kept q room (s.store a l) :=
  h.onMem _ (Memory.wf_splice a l h.mem)

theorem addTo (h : Kept q room s) (a n : Nat) : Kept q room (s.addTo a n) := h.store _ _

theorem withOut (h : Kept q room s) (out : List Output) : Kept q room { s with out := out } :=
  ⟨h.pending, h.mem, h.rigid, h.ring, h.heads, { h.sized with }, ⟨h.locks.out, h.locks.window, h.locks.pieces⟩,
   h.runs, h.serials⟩

theorem send (h : Kept q room s) (n : Nat) (fr : Frame) : Kept q room (s.send n fr) := h.withOut _

theorem emit (h : Kept q room s) (o : Output) : Kept q room (s.emit o) := h.withOut _

theorem clearOut (h : Kept q room s) : Kept q room s.clearOut := h.withOut _

theorem each {α : Type} (l : List α) (f : α → State → State)
    (hf : ∀ x ∈ l, ∀ s, Kept q room s → Kept q room (f x s)) (h : Kept q room s) : Kept q room (s.each l f) := by
  unfold State.each
  induction l generalizing s with
  | nil => exact h
  | cons x rest ih =>
    exact ih (fun y hy => hf y (by simp [hy])) (hf x (by simp) s h)

/-! ## Flags -/

theorem setNotice (h : Kept q room s) (n m : BitVec 6) : Kept q room (s.setNotice n m) :=
  (h.onXiSame (fun xi => { xi with notice := n, noticeMask := m }) rfl rfl rfl rfl rfl).withOut _

theorem notify (h : Kept q room s) (c : NoticeCause) : Kept q room (s.notify c) :=
  (h.setNotice _ _).onXiSame _ rfl rfl rfl rfl rfl

theorem notifyTimes (h : Kept q room s) (c : NoticeCause) (n : Nat) : Kept q room (State.notifyTimes c n s) := by
  induction n generalizing s with
  | zero => exact h
  | succ n ih => exact ih (h.notify c)

theorem syncHolds (h : Kept q room s) : Kept q room s.syncHolds := by
  rw [State.syncHolds_spec]
  refine Kept.notifyTimes ?_ _ _
  exact (h.onDtSame (fun d => { d with hold := s.holdNow, gate := gateNow s.dt.state s.holdNow }) rfl rfl rfl rfl).onTuSame
    (fun tu => { tu with logHold := logHoldNow s.tu }) rfl rfl rfl

theorem syncStopped (h : Kept q room s) : Kept q room s.syncStopped := by
  unfold State.syncStopped
  split
  · exact (h.onDtSame _ rfl rfl rfl rfl).notify _
  · exact h

theorem refreshStatus (h : Kept q room s) (always : Bool) (b : List Byte) : Kept q room (s.refreshStatus always b) := by
  have hs := State.refreshStatus_status always b s
  split at hs
  all_goals
    have hm : (s.refreshStatus always b).mem.wf = true := by
      rw [hs.2]; first | exact h.mem | exact Memory.wf_splice _ _ h.mem
    exact ⟨h.pending, hm, h.rigid, ⟨h.ring.fill, h.ring.release, h.ring.starts, h.ring.notify, h.ring.cause⟩, h.heads,
      { h.sized with }, ⟨h.locks.out, h.locks.window, h.locks.pieces⟩, h.runs, h.serials⟩

theorem endEvent (h : Kept q room s) (always : Bool) (b : List Byte) : Kept q room (s.endEvent always b) :=
  h.syncStopped.syncHolds.refreshStatus always b

/-- An event keeps what its effect keeps. -/
theorem event {q' : Fixed} {f : State → State} (always : Bool) (h : Kept q room s)
    (hf : ∀ s, Kept q room s → Kept q' room (f s)) : Kept q' room (s.event always f) :=
  (hf _ h.clearOut).endEvent _ _

end Kept

end Sys2Proof.Machine
end

