-- ==== Sys2Proof/Laws/KeptExchange.lean ====
section
/-! SUPPORT. What the operations of the journal, the runs, the queue, retirement and the request cells keep. -/

namespace Sys2Proof.Machine

variable {q : Fixed} {room : Nat} {s : State}

namespace Kept

/-! ## The journal -/

theorem layRecord (h : Kept q room s) (kind : RecordKind) (len : Nat) (body : List Byte) :
    Kept q room (s.layRecord kind len body) := by
  refine (h.store _ _).onXi _ ⟨?_, h.ring.release, ?_, h.ring.notify, h.ring.cause⟩
  · exact Nat.mod_lt _ (by decide)
  · intro u hu
    simp only [State.store_xi] at hu
    rcases List.mem_append.mp hu with hu | hu
    · exact h.ring.starts u hu
    · rw [List.mem_singleton.mp hu]; exact h.ring.fill

theorem countRecord_fill (kind : RecordKind) (len : Nat) (xi : Exchange) : (countRecord kind len xi).fill = xi.fill := by
  cases kind <;> rfl
theorem countRecord_release (kind : RecordKind) (len : Nat) (xi : Exchange) :
    (countRecord kind len xi).release = xi.release := by cases kind <;> rfl
theorem countRecord_starts (kind : RecordKind) (len : Nat) (xi : Exchange) :
    (countRecord kind len xi).starts = xi.starts := by cases kind <;> rfl
theorem countRecord_notifyCount (kind : RecordKind) (len : Nat) (xi : Exchange) :
    (countRecord kind len xi).notifyCount = xi.notifyCount := by cases kind <;> rfl
theorem countRecord_resetCause (kind : RecordKind) (len : Nat) (xi : Exchange) :
    (countRecord kind len xi).resetCause = xi.resetCause := by cases kind <;> rfl

theorem testNotify (h : Kept q room s) : Kept q room s.testNotify := by
  unfold State.testNotify
  split
  · exact (h.notify _).onXiSame _ rfl rfl rfl rfl rfl
  · exact h

theorem layFiller (h : Kept q room s) (len : Nat) : Kept q room (s.layFiller len) := by
  unfold State.layFiller
  split
  · exact h
  · exact (h.layRecord _ _ _).onXiSame _ (countRecord_fill _ _ _) (countRecord_release _ _ _)
      (countRecord_starts _ _ _) (countRecord_notifyCount _ _ _) (countRecord_resetCause _ _ _)

theorem writeRecord (h : Kept q room s) (kind : RecordKind) (len : Nat) (body : List Byte) :
    Kept q room (s.writeRecord kind len body) := by
  refine Kept.testNotify ?_
  exact ((h.layFiller len).layRecord kind len body).onXiSame _ (countRecord_fill _ _ _) (countRecord_release _ _ _)
    (countRecord_starts _ _ _) (countRecord_notifyCount _ _ _) (countRecord_resetCause _ _ _)

/-! ## Runs -/

theorem writeHeader (h : Kept q room s) (a : Area) (n : Nat) : Kept q room (s.writeHeader a n) := h.store _ _

theorem addException (h : Kept q room s) (a : Area) (e : Exception) : Kept q room (s.addException a e) := h.addTo _ _

theorem addExceptionIf (h : Kept q room s) (c : Bool) (a : Area) (e : Exception) :
    Kept q room (s.addExceptionIf c a e) := by
  unfold State.addExceptionIf
  split
  · exact h.addException a e
  · exact h

theorem closeRun (h : Kept q room s) (a : Area) : Kept q room (s.closeRun a) :=
  (((((h.onArea a (fun e => { e with reservation := 0 }) (fun _ => rfl) (fun _ => rfl)).writeRecord _ _ _).writeHeader a
    _).onAreaEnd a (fun e => { e with area := .held, run := none }) rfl).notify _)

theorem closeIfDrained (h : Kept q room s) (a : Area) : Kept q room (s.closeIfDrained a) := by
  unfold State.closeIfDrained
  split
  · exact h.closeRun a
  · exact h

theorem tallyProduct (h : Kept q room s) (a : Area) (nominal : Nat × Nat) (size : Nat) (p : Product) :
    Kept q room (s.tallyProduct a nominal size p) := (h.addTo _ _).addTo _ _

theorem tallyBin (h : Kept q room s) (a : Area) (p : Piece) : Kept q room (s.tallyBin a p) := by
  unfold State.tallyBin
  split
  · exact h
  · exact h.addTo _ _

theorem tallyPiece (h : Kept q room s) (p : Piece) : Kept q room (s.tallyPiece p) := by
  unfold State.tallyPiece
  split
  · exact h
  · refine Kept.each _ _ (fun e _ s h => h.addExceptionIf _ _ _) (Kept.tallyBin (Kept.each _ _ (fun x _ s h => ?_) h) _ _)
    exact h.tallyProduct _ _ _ _

theorem countStranger (h : Kept q room s) : Kept q room s.countStranger := by
  unfold State.countStranger
  split
  · exact (h.addException _ _).onDtSame _ rfl rfl rfl rfl
  · exact h.onDtSame _ rfl rfl rfl rfl

theorem countDropMiss (h : Kept q room s) (mark : DropMark) : Kept q room (s.countDropMiss mark) := by
  unfold State.countDropMiss
  split
  · exact (h.addTo _ _).onDtSame _ rfl rfl rfl rfl
  · exact h.onDtSame _ rfl rfl rfl rfl

/-! ## The solver queue -/

theorem takeNext (h : Kept q room s) : Kept q room s.takeNext := by
  unfold State.takeNext
  split
  · split
    · refine Kept.onTs (Kept.onPieceOther h _ _ ?_ ?_ ?_ ?_) _ <;> intro p <;> simp
    · exact h.onTs _
  · exact h

theorem joinQueue (h : Kept q room s) (n : Word) : Kept q room (s.joinQueue n) := by
  refine Kept.takeNext (Kept.onTs (Kept.onPieceOther h _ _ ?_ ?_ ?_ ?_) _) <;> intro p <;> simp

theorem leaveQueue (h : Kept q room s) (n : Word) : Kept q room (s.leaveQueue n) := h.onTs _

theorem abandonSolve (h : Kept q room s) (n : Word) : Kept q room (s.abandonSolve n) := by
  unfold State.abandonSolve
  split
  · exact (h.onTs _).takeNext
  · exact h

/-! ## Retirement -/

theorem retire (h : Kept q room s) (p : Piece) : Kept q room (s.retire p) := by
  have h1 := h.dropPiece p.serial
  unfold State.retire
  extract_lets s1 s2
  have h2 : Kept q room s2 := by
    show Kept q room (match p.generation with
      | some (_, slot) => s1.onSlot slot Slot.unbind
      | none => s1)
    split
    · exact h1.onSlot _ _
    · exact h1
  split
  · exact (h2.onArea _ (fun e => { e with live := e.live - 1 }) (fun _ => rfl) (fun _ => rfl)).closeIfDrained _
  · exact h2

theorem writePiece (h : Kept q room s) (p : Piece) : Kept q room (s.writePiece p) := by
  refine Kept.retire (Kept.writeRecord (Kept.onPieceSame h _ _ ?_ ?_ ?_ ?_) _ _ _) p <;> intro p <;> rfl

theorem writeLog (h : Kept q room s) (r : LogRecord) : Kept q room (s.writeLog r) := h.writeRecord _ _ _

theorem writePending (h : Kept q room s) : Kept q room s.writePending := by
  unfold State.writePending
  split
  · exact h
  · rename_i r rest he
    have hl : rest.length ≤ 8 := by
      have := h.sized.logs
      rw [he] at this
      simp at this
      omega
    have h1 := (h.onTuLogs (fun tu => { tu with pendingLogs := rest }) hl rfl rfl).writeLog r
    simp only []
    split
    · exact (h1.onArea _ (fun e => { e with logPending := e.logPending - 1 }) (fun _ => rfl) (fun _ => rfl)).closeIfDrained _
    · exact h1

theorem writeWaiting (h : Kept q room s) (w : Waiting) : Kept q room (s.writeWaiting w) := by
  unfold State.writeWaiting
  split
  · split
    · exact h.writePiece _
    · exact h
  · exact h.writePending

theorem drain (h : Kept q room s) (n : Nat) : Kept q room (State.drain n s) := by
  induction n generalizing s with
  | zero => exact h
  | succ n ih =>
    unfold State.drain
    split
    · exact h
    · split
      · exact ih ((h.onXiSame _ rfl rfl rfl rfl rfl).writeWaiting _)
      · exact h

theorem drainAll (h : Kept q room s) : Kept q room s.drainAll := h.drain _

theorem askPiece (h : Kept q room s) (n : Word) : Kept q room (s.askPiece n) := by
  unfold State.askPiece
  split
  · exact (h.writeWaiting _).syncHolds
  · exact h.onXiSame _ rfl rfl rfl rfl rfl

theorem detach (h : Kept q room s) (n : Word) (run bin : Nat) : Kept q room (s.detach n run bin) :=
  h.onLugs _ (fun x => by split <;> rfl)

theorem sortPiece (h : Kept q room s) (n : Word) (bin : Nat) : Kept q room (s.sortPiece n bin) := by
  unfold State.sortPiece
  split
  · exact h
  · split
    · exact h
    · rename_i p _ _
      have h0 : Kept q room (s.onPiece n (fun p => { p with state := .sorted, bin := some bin, assembly := none })) := by
        refine Kept.onPieceOther h _ _ ?_ ?_ ?_ ?_ <;> intro p <;> simp
      have h1 := ((h0.detach n p.run bin).leaveQueue n).abandonSolve n
      simp only []
      split
      · exact (h1.tallyPiece _).askPiece _
      · exact h1

theorem losePiece (h : Kept q room s) (n : Word) : Kept q room (s.losePiece n) := by
  refine Kept.sortPiece (Kept.onPieceSame h _ _ ?_ ?_ ?_ ?_) n 0 <;> intro p <;> rfl

/-! ## Request cells -/

theorem endCell (h : Kept q room s) (cell kind : Nat) (tag : Word) (r : Result) (d : Word) (area : List Byte) :
    Kept q room (s.endCell cell kind tag r d area) := by
  unfold State.endCell
  split
  · exact (((h.store _ _).store _ _).notify _).onXiSame _ rfl rfl rfl rfl rfl
  · exact (h.onXiSame _ rfl rfl rfl rfl rfl).onXiSame _ rfl rfl rfl rfl rfl

theorem reply (h : Kept q room s) (r : Request) (result : Result) (d : Word) (area : List Byte) :
    Kept q room (s.reply r result d area) := h.endCell _ _ _ _ _ _

theorem endInHand (h : Kept q room s) (cell : Nat) (result : Result) (d : Word) (area : List Byte) :
    Kept q room (s.endInHand cell result d area) := by
  unfold State.endInHand
  split
  · exact h.endCell _ _ _ _ _ _
  · exact h

theorem keepInHand (h : Kept q room s) (r : Request) : Kept q room (s.keepInHand r) :=
  h.onXiSame _ rfl rfl rfl rfl rfl

theorem readReleaseMark (h : Kept q room s) : Kept q room s.readReleaseMark := by
  unfold State.readReleaseMark
  extract_lets mark s1
  split
  · rename_i hv
    have h1 : Kept q room s1 := h.onXiSame _ rfl rfl rfl rfl rfl
    split
    · exact h1
    · refine ((h1.onXi _ ⟨h.ring.fill, ?_, ?_, h.ring.notify, h.ring.cause⟩).drainAll).syncHolds
      · simp only [Exchange.validMark, Bool.and_eq_true, decide_eq_true_eq] at hv
        exact hv.1
      · intro u hu
        exact h.ring.starts u ((List.dropWhile_sublist _).subset hu)
  · split
    · exact h
    · exact (h.onXiSame _ rfl rfl rfl rfl rfl).notify _

theorem readNotifyCount (h : Kept q room s) : Kept q room s.readNotifyCount := by
  refine Kept.testNotify (h.onXi _ ⟨h.ring.fill, h.ring.release, h.ring.starts, ?_, h.ring.cause⟩)
  exact Nat.min_le_right _ _

/-! ## Host writes -/

theorem zeroThrough (h : Kept q room s) (a : Area) (n : Nat) : Kept q room (s.zeroThrough a n) :=
  h.onMem _ (Memory.wf_zero _ _ h.mem)

theorem sweepThrough (h : Kept q room s) (a : Area) (n : Nat) : Kept q room (s.sweepThrough a n) := by
  unfold State.sweepThrough
  split
  · exact (h.zeroThrough a n).onArea a (fun e => { e with swept := n }) (fun _ => rfl) (fun _ => rfl)
  · exact h

theorem passWords (h : Kept q room s) (w : HostWrite) : Kept q room (s.passWords w) := by
  unfold State.passWords
  exact Kept.sweepThrough (Kept.sweepThrough (h.onRs _ rfl) .a _) .b _

theorem hostWrite (h : Kept q room s) (w : HostWrite) : Kept q room (s.hostWrite w) := by
  unfold State.hostWrite
  split
  · exact (h.passWords w).store _ _
  · exact h.store _ _

theorem hostWrites (h : Kept q room s) (host : List HostWrite) : Kept q room (s.hostWrites host) :=
  Kept.each _ _ (fun w _ _ h => h.hostWrite w) h

/-- A command that carries host writes keeps what its effect keeps. -/
theorem withHost {host : List HostWrite} {always : State → Bool} {f : State → State} {t : State}
    (h : Kept q room s) (ht : withHost host always f s = .next t)
    (hf : ∀ s, Kept q room s → Kept q room (f s)) : Kept q room t := by
  unfold Sys2Proof.Machine.withHost at ht
  split at ht
  · injection ht with ht
    rw [← ht]
    exact h.event _ (fun s hs => hf _ (hs.hostWrites host))
  · exact absurd ht (by simp)

end Kept

end Sys2Proof.Machine
end

