-- ==== Sys2Proof/Laws/KeptHeads.lean ====
section
/-! SUPPORT. What the operations of the heads, the links, the Rule Store and the overrides keep. -/

namespace Sys2Proof.Machine

variable {q : Fixed} {room : Nat} {s : State}

/-- A piece whose solution changes in nothing a lock reads. -/
theorem Piece.KeepsOff.of_sets {locked : SawSet} {p p' : Piece} (h : p.KeepsOff locked) (h1 : p'.state = p.state)
    (h2 : p'.commit = p.commit)
    (h3 : ∀ sol', p'.solution = some sol' →
      ∃ sol, p.solution = some sol ∧ sol'.sawSet = sol.sawSet ∧ sol'.saws = sol.saws) : p'.KeepsOff locked := by
  refine ⟨?_, ?_, ?_⟩
  · intro hs; unfold Piece.dropSet; rw [h2]; exact h.committed (h1 ▸ hs)
  · intro hs sol' e
    obtain ⟨sol, e0, e1, _⟩ := h3 sol' e
    rw [e1]; exact h.solved (h1 ▸ hs) sol e0
  · intro sol' e
    obtain ⟨sol, e0, e1, e2⟩ := h3 sol' e
    rw [e1, e2]; exact h.saws sol e0

namespace Kept

/-! ## Head states -/

theorem onHeadSame (h : Kept q room s) (n : Nat) (f : Head → Head) (h1 : ∀ hd, (f hd).credit = hd.credit)
    (h2 : ∀ hd, (f hd).delay = hd.delay) (h3 : ∀ hd, hd.badRun ≤ 3 → (f hd).badRun ≤ 3) :
    Kept q room (s.onHead n f) :=
  h.onHead n f (fun hd hh => ⟨by rw [h1]; exact hh.1, by rw [h2]; exact hh.2.1, h3 hd hh.2.2⟩)

theorem headState (h : Kept q room s) (n : Nat) (st : HeadState) :
    Kept q room (s.onHead n (fun hd => { hd with state := st })) :=
  h.onHeadSame n _ (fun _ => rfl) (fun _ => rfl) (fun _ hh => hh)

theorem enterReady (h : Kept q room s) (n : Nat) (step : Bool) : Kept q room (s.enterReady n step) := by
  unfold State.enterReady
  extract_lets delay s1
  have h1 : Kept q room s1 := by
    show Kept q room (if step then s.send n (.alignStep delay) else s)
    split
    · exact h.send _ _
    · exact h
  split
  · exact (h1.headState n _).send _ _
  · exact h1.headState n _

theorem endSearch (h : Kept q room s) (cause : SearchCause) : Kept q room (s.endSearch cause) := by
  unfold State.endSearch
  split
  · exact h
  · extract_lets n d s1 s2 s3
    have h1 : Kept q room s1 := by
      show Kept q room (if cause = .locked then s.onHead n (fun hd => { hd with delay := d }) else s)
      split
      · exact h.onHead n _ (fun hd hh => ⟨hh.1, h.heads.search, hh.2.2⟩)
      · exact h
    have h3 : Kept q room s3 := (h1.endInHand _ _ _ _).onDaSame _ (fun _ => rfl)
    split
    · exact h3.enterReady _ _
    · exact h3

theorem headFault (h : Kept q room s) (n : Nat) : Kept q room (s.headFault n) := by
  unfold State.headFault
  have h1 := (h.headState n .linkFault).notify .fault
  simp only []
  split
  · exact h1.endSearch _
  · exact h1

theorem suspendSearch (h : Kept q room s) : Kept q room s.suspendSearch := by
  unfold State.suspendSearch
  split
  · exact h.onDaSame _ (fun _ => rfl)
  · exact h

theorem wakeHeads (h : Kept q room s) : Kept q room s.wakeHeads := by
  refine Kept.each _ _ (fun n _ s h => ?_) h
  split
  · exact (h.headState n _).send _ _
  · exact h

theorem standbyHeads (h : Kept q room s) : Kept q room s.standbyHeads := by
  refine Kept.each _ _ (fun n _ s h => ?_) h
  split
  · exact (h.headState n _).send _ _
  · exact h

/-! ## Reports and assembly -/

theorem countDiscard (h : Kept q room s) (n : Nat) (why : Discard) :
    Kept q room (s.onHead n (fun hd => hd.countDiscard why)) :=
  h.onHeadSame n _ (fun _ => by cases why <;> rfl) (fun _ => by cases why <;> rfl)
    (fun _ hh => by cases why <;> exact hh)

theorem offerReport (h : Kept q room s) (n : Nat) (r : HeadReport) : Kept q room (s.offerReport n r) := by
  unfold State.offerReport
  split
  · exact h.countDiscard n _
  · split
    · exact h.countDiscard n _
    · split
      · exact h.countDiscard n _
      · refine Kept.onHeadSame (Kept.onPieceSame h _ _ ?_ ?_ ?_ ?_) n _ (fun _ => rfl) (fun _ => rfl) (fun _ hh => hh)
          <;> intro p <;> rfl

theorem closeAtZoneEnd (h : Kept q room s) (g : Geometry) : Kept q room (s.closeAtZoneEnd g) := by
  unfold State.closeAtZoneEnd
  split
  · exact h
  · split
    · refine Kept.joinQueue (Kept.onPieceSame h _ _ ?_ ?_ ?_ ?_) _ <;> intro p <;> rfl
    · exact h

theorem creditAfter_le {c : Nat} (d : Option Density) (h : c ≤ 16) : creditAfter c d ≤ 16 := by
  unfold creditAfter
  split <;> omega

theorem chargeHeads (h : Kept q room s) (ready : HeadSet) (scan : Option Density) :
    Kept q room (s.chargeHeads ready scan) := by
  refine Kept.each _ _ (fun n _ s h => ?_) h
  split
  · exact h.onHead n _ (fun hd hh => ⟨creditAfter_le _ hh.1, hh.2⟩)
  · exact h

theorem bindGeneration (h : Kept q room s) (n : Word) : Kept q room (s.bindGeneration n) := by
  unfold State.bindGeneration
  split
  · exact h
  · refine Kept.onSlot (Kept.onPieceSame h _ _ ?_ ?_ ?_ ?_) _ _ <;> intro p <;> rfl

theorem startScan (h : Kept q room s) (n : Word) (ready : HeadSet) : Kept q room (s.startScan n ready) := by
  unfold State.startScan
  refine Kept.onDaSame (Kept.onPieceOther (h.bindGeneration n) _ _ ?_ ?_ ?_ ?_) _ ?_ <;> intro p <;> simp

theorem zoneEntry (h : Kept q room s) (g : Geometry) (ready : HeadSet) : Kept q room (s.zoneEntry g ready) := by
  unfold State.zoneEntry
  split
  · exact (h.startScan _ _).chargeHeads _ _
  · exact h.chargeHeads _ _

theorem sendBeats (h : Kept q room s) (tag : Byte) (scan : Option Density) (ready : HeadSet) :
    Kept q room (s.sendBeats tag scan ready) := by
  refine Kept.each _ _ (fun n _ s h => ?_) h
  split
  · exact h.send _ _
  · exact h

/-! ## The search -/

theorem sendStep (h : Kept q room s) : Kept q room s.sendStep := (h.send _ _).onDaSame _ (fun _ => rfl)

theorem alignBeat (h : Kept q room s) (g : Geometry) (ready : HeadSet) : Kept q room (s.alignBeat g ready) := by
  unfold State.alignBeat
  simp only []
  split
  · exact h
  · split
    · refine Kept.sendStep (Kept.headState (Kept.onDaSame h _ ?_) _ _)
      intro d; rfl
    · exact h
  · split
    · refine Kept.sendStep (Kept.onDaSame h _ ?_)
      intro d; rfl
    · exact h
  · split
    · split
      · refine Kept.sendStep (Kept.onDaSame h _ ?_)
        intro d; rfl
      · exact h.endSearch _
    · exact h.sendStep

theorem answerStep (h : Kept q room s) (seen : Bool) : Kept q room (s.answerStep seen) := by
  unfold State.answerStep
  extract_lets s1 s2
  have h1 : Kept q room s1 := h.onDaSame _ (fun _ => rfl)
  have h2 : Kept q room s2 := h1.onDaSame _ (fun _ => rfl)
  split
  · exact h1.endSearch _
  · split
    · exact h2.endSearch _
    · rename_i hd
      refine h2.onDa _ ?_
      show s2.da.d + 1 ≤ 63
      omega

theorem takeEcho (h : Kept q room s) (seen : Bool) : Kept q room (s.takeEcho seen) := by
  unfold State.takeEcho
  split
  · exact h.answerStep seen
  · exact h.onDaSame _ (fun _ => rfl)

/-! ## Frames on the links -/

theorem countGood (h : Kept q room s) (n : Nat) : Kept q room (s.onHead n Head.countGood) :=
  h.onHeadSame n _ (fun _ => rfl) (fun _ => rfl) (fun _ _ => Nat.zero_le _)

theorem countBad (h : Kept q room s) (n : Nat) : Kept q room (s.onHead n Head.countBad) :=
  h.onHeadSame n _ (fun _ => rfl) (fun _ => rfl) (fun _ _ => Nat.min_le_left _ _)

theorem answerStatus (h : Kept q room s) (n : Nat) : Kept q room (s.answerStatus n) := by
  unfold State.answerStatus
  split <;> first | exact h | exact h.enterReady _ _

theorem takeStatus (h : Kept q room s) (n : Nat) (identity condition clock : Word) :
    Kept q room (s.takeStatus n identity condition clock) := by
  unfold State.takeStatus
  split
  · refine Kept.answerStatus (Kept.onHeadSame h n _ ?_ ?_ ?_) n
    · intro hd; rfl
    · intro hd; rfl
    · intro hd _; exact Nat.zero_le _
  · exact h

theorem takeBad (h : Kept q room s) (n : Nat) : Kept q room (s.takeBad n) := by
  unfold State.takeBad
  split
  · have h1 := h.countBad n
    simp only []
    split
    · exact h1.headFault n
    · exact h1
    · exact h1
    all_goals split <;> first | exact h1.headFault n | exact h1
  · exact h

theorem takeGoodReport (h : Kept q room s) (n : Nat) (r : HeadReport) : Kept q room (s.takeGoodReport n r) := by
  unfold State.takeGoodReport
  have h1 := h.countGood n
  simp only []
  split <;> first | exact h1 | exact h1.headFault n | exact h1.offerReport n r

theorem takeReport (h : Kept q room s) (n : Nat) (r : HeadReport) : Kept q room (s.takeReport n r) := by
  unfold State.takeReport
  split
  · split
    · exact h.takeGoodReport n r
    · exact h.takeBad n
  · exact h

theorem takeEchoFrame (h : Kept q room s) (n : Nat) (seen : Bool) : Kept q room (s.takeEchoFrame n seen) := by
  unfold State.takeEchoFrame
  split
  · have h1 := h.countGood n
    simp only []
    split <;> first | exact h1 | exact h1.headFault n | exact h1.takeEcho seen
  · exact h

theorem silence (h : Kept q room s) (n : Nat) : Kept q room (s.silence n) := by
  unfold State.silence
  split
  · refine Kept.headFault (Kept.onHeadSame h n _ ?_ ?_ ?_) n
    · intro hd; rfl
    · intro hd; rfl
    · intro hd hh; exact hh
  · exact h

theorem wakeExpires (h : Kept q room s) (n : Nat) : Kept q room (s.wakeExpires n) := by
  unfold State.wakeExpires
  split
  · exact h.headFault n
  · exact h

theorem expireStandby (h : Kept q room s) : Kept q room s.expireStandby := by
  unfold State.expireStandby
  split
  · have h1 := h.standbyHeads
    revert h1
    generalize s.standbyHeads = x
    intro h1
    exact h1.onSaSame (fun sa => { sa with standbyTimer := false, longStop := true }) rfl
  · exact h

/-! ## Logs -/

theorem tallyLog (h : Kept q room s) (a : Area) (r : LogRecord) : Kept q room (s.tallyLog a r) := by
  unfold State.tallyLog
  split
  · exact (h.addTo _ _).addTo _ _
  · exact Kept.onTuSame h _ rfl rfl rfl

theorem queueLog (h : Kept q room s) (a : Area) (r : LogRecord) : Kept q room (s.queueLog a r) := by
  unfold State.queueLog
  split
  · exact (h.writeLog r).syncHolds
  · split
    · rename_i hl
      refine Kept.onArea (Kept.onXiSame (Kept.onTuLogs h _ ?_ rfl rfl) _ rfl rfl rfl rfl rfl) a
        (fun e => { e with logPending := e.logPending + 1 }) (fun _ => rfl) (fun _ => rfl)
      simp only [List.length_append, List.length_singleton]
      omega
    · exact Kept.onTuSame (Kept.addException h _ _) _ rfl rfl rfl

theorem takeLog (h : Kept q room s) (r : LogReport) : Kept q room (s.takeLog r) := by
  unfold State.takeLog
  split
  · exact Kept.onTuSame h _ rfl rfl rfl
  · exact Kept.queueLog (Kept.tallyLog h _ _) _ _

theorem onLogLink (h : Kept q room s) (f : LogLink → LogLink) : Kept q room (s.onLogLink f) := h.onSaSame _ rfl

theorem takeLogBad (h : Kept q room s) : Kept q room s.takeLogBad := by
  unfold State.takeLogBad
  have h1 := h.onLogLink LogLink.bad
  simp only []
  split
  · exact h1.notify _
  · exact h1

theorem takeLogReport (h : Kept q room s) (r : LogReport) : Kept q room (s.takeLogReport r) := by
  unfold State.takeLogReport
  split
  · exact (h.onLogLink _).takeLog r
  · exact h.takeLogBad

/-! ## Rule Store -/

theorem completeStaging (h : Kept q room s) : Kept q room s.completeStaging := by
  unfold State.completeStaging
  split
  · exact h
  · simp only []
    split
    · exact (h.onRs _ (by simp [RuleStore.reject])).endInHand _ _ _ _
    · exact (h.onRs _ (by simp [RuleStore.activate])).endInHand _ _ _ _

end Kept

/-! ## Overrides -/

theorem restoreSolved_sets (part : Option GradePart) (sol : Solution) :
    (restoreSolved part sol).sawSet = sol.sawSet ∧ (restoreSolved part sol).saws = sol.saws
      ∧ (restoreSolved part sol).kind = sol.kind := by
  unfold restoreSolved
  split <;> exact ⟨rfl, rfl, rfl⟩

theorem applyGrade_sets (r : Rules) (size : Nat) (part : GradePart) (sol : Solution) :
    (applyGrade r size part sol).2.sawSet = sol.sawSet ∧ (applyGrade r size part sol).2.saws = sol.saws
      ∧ (applyGrade r size part sol).2.kind = sol.kind := by
  unfold applyGrade
  split
  · exact ⟨rfl, rfl, rfl⟩
  · split <;> exact ⟨rfl, rfl, rfl⟩

theorem Piece.applyGradePart_sets (r : Rules) (p : Piece) :
    (p.applyGradePart r).serial = p.serial ∧ (p.applyGradePart r).state = p.state
      ∧ (p.applyGradePart r).commit = p.commit
      ∧ ∀ sol', (p.applyGradePart r).solution = some sol' →
          ∃ sol, p.solution = some sol ∧ sol'.sawSet = sol.sawSet ∧ sol'.saws = sol.saws ∧ sol'.kind = sol.kind := by
  unfold Piece.applyGradePart
  split
  · rename_i part sol h1 h2
    have hs := applyGrade_sets r (p.sizeClass.getD 0) part sol
    rcases hg : applyGrade r (p.sizeClass.getD 0) part sol with ⟨part', sol''⟩
    rw [hg] at hs
    refine ⟨rfl, rfl, rfl, ?_⟩
    intro sol' e
    injection e with e
    rw [← e]
    exact ⟨sol, h2, hs⟩
  · exact ⟨rfl, rfl, rfl, fun sol' e => ⟨sol', e, rfl, rfl, rfl⟩⟩

theorem Piece.solverSolution_sets {p : Piece} {sol' : Solution} (h : p.solverSolution = some sol') :
    ∃ sol, p.solution = some sol ∧ sol'.sawSet = sol.sawSet ∧ sol'.saws = sol.saws ∧ sol'.kind = sol.kind := by
  obtain ⟨sol, e, rfl⟩ := Option.map_eq_some_iff.mp h
  exact ⟨sol, e, restoreSolved_sets _ _⟩

namespace Kept

theorem acceptGrade (h : Kept q room s) (n : Word) (r : Rules) (k : GradeKind) (source : Source) (authority : Bool)
    (kind : OverrideKind) :
    Kept q room (s.onPiece n (fun p => (p.acceptGrade r k source authority).countOverride source kind)) := by
  refine h.onPiece n _ (fun p => (Piece.applyGradePart_sets r _).1) (fun p _ hk => ?_)
  have hs := Piece.applyGradePart_sets r
    { p with solution := p.solverSolution
             gradePart := some { kind := k, source, authority, state := .pending, solved := none } }
  refine hk.of_sets hs.2.1 hs.2.2.1 ?_
  intro sol' e
  obtain ⟨sol1, e1, a1, a2, _⟩ := hs.2.2.2 sol' e
  obtain ⟨sol2, e2, b1, b2, _⟩ := Piece.solverSolution_sets e1
  exact ⟨sol2, e2, a1.trans b1, a2.trans b2⟩

theorem trimAccepted (h : Kept q room s) (p : Piece) : Kept q room (s.trimAccepted p) := by
  unfold State.trimAccepted
  split
  · exact h.joinQueue _
  · exact h.onTs _
  · exact h

theorem acceptOverride (h : Kept q room s) (kind : OverrideKind) (source : Source) (authority : Bool) (p : Piece) :
    Kept q room (s.acceptOverride kind source authority p) := by
  unfold State.acceptOverride
  simp only []
  split
  · exact h.acceptGrade _ _ _ _ _ _
  · refine Kept.trimAccepted (Kept.onPieceSame h _ _ ?_ ?_ ?_ ?_) p <;> intro p <;> rfl
  · exact h

theorem countTake (h : Kept q room s) (source : Source) (answer : Result) : Kept q room (s.countTake source answer) := by
  unfold State.countTake
  split
  · exact h.onStation _ _ (fun _ _ hh => hh)
  · exact h.onStation _ _ (fun _ _ hh => hh)
  · exact h.onOu _ h.sized.stations h.sized.keys

theorem resolve (h : Kept q room s) (tag : Byte) (kind : OverrideKind) (source : Source) (authority : Bool) :
    Kept q room (s.resolve tag kind source authority) := by
  unfold State.resolve
  split
  · exact (h.countTake _ _).acceptOverride _ _ _ _
  · exact h.countTake _ _

theorem light (h : Kept q room s) (n : Nat) (key : BitVec 4) (tag : Option Byte) (answer : Result)
    (serial : Option Word) : Kept q room (s.light n key tag answer serial) := h.onStation _ _ (fun _ _ hh => hh)

theorem takeKey (h : Kept q room s) (n : Nat) : Kept q room (s.takeKey n) := by
  unfold State.takeKey
  split
  · exact h
  · rename_i st hst
    split
    · rename_i e rest h1 h2
      refine Kept.light (Kept.resolve (h.onStation n _ ?_) _ _ _ _) _ _ _ _ _
      intro st' hst' hl
      rw [hst] at hst'
      injection hst' with e'
      rw [← e', h2] at hl
      simp at hl
      show rest.length ≤ 4
      omega
    · exact h

theorem refusePress (h : Kept q room s) (n : Nat) (key : BitVec 4) (tag : Option Byte) (answer : Result) :
    Kept q room (s.refusePress n key tag answer) := by
  refine Kept.light (Kept.onStation h n _ ?_) _ _ _ _ _
  intro st _ hh; exact hh

theorem pressKey (h : Kept q room s) (n : Nat) (key : BitVec 4) (authority : Bool) :
    Kept q room (s.pressKey n key authority) := by
  unfold State.pressKey
  split
  · exact h
  · rename_i st hst
    have h1 : Kept q room (s.onStation n (fun st => { st with presses := st.presses + 1 })) :=
      h.onStation n _ (fun _ _ hh => hh)
    simp only []
    split
    · exact h1.refusePress _ _ _ _
    · split
      · exact h1.refusePress _ _ _ _
      · rename_i hl
        refine Kept.takeKey (h1.onStation n _ ?_) n
        intro st' hst' _
        have hn : n ≠ 0 := by
          intro e
          subst e
          exact absurd hst (by simp [Overrides.station?])
        have hq : st'.queue = st.queue := by
          unfold Overrides.station? at hst hst'
          rw [if_neg hn] at hst hst'
          simp only [State.onStation_ou, if_neg hn, List.getElem?_modify, if_true, hst, Option.map_eq_map,
            Option.map_some, Option.some.injEq] at hst'
          rw [← hst']
        simp only [List.length_append, List.length_singleton, hq]
        omega

theorem endPulse (h : Kept q room s) (n : Nat) : Kept q room (s.endPulse n) := by
  unfold State.endPulse
  split
  · exact h
  · split
    · refine Kept.takeKey (Kept.onStation h n _ ?_) n
      intro st _ hh; exact hh
    · exact h

end Kept

end Sys2Proof.Machine
end

