-- ==== Sys2Proof/Laws/KeptLocks.lean ====
section
/-! SUPPORT. Sets as masks, the lock set, and what the saws, the solver and the bins keep: no locked saw is driven. -/

namespace Sys2Proof.Machine

variable {q : Fixed} {room : Nat} {s : State}

/-! ## Sets as masks -/

theorem single_getLsbD (w k i : Nat) : (single w k).getLsbD i = (decide (k = i + 1) && decide (i < w)) := by
  unfold single
  split
  · rw [BitVec.getLsbD_ofNat, Nat.testBit_two_pow]
    by_cases h : k = i + 1
    · simp [h]
    · have : ¬ k - 1 = i := by omega
      simp [h, this]
  · have : ¬ k = i + 1 := by omega
    simp [this]

theorem maskOf_getLsbD (w : Nat) (l : List Nat) (i : Nat) :
    (maskOf w l).getLsbD i = (decide (i + 1 ∈ l) && decide (i < w)) := by
  have key : ∀ (l : List Nat) (m : BitVec w),
      (l.foldl (fun m k => m ||| single w k) m).getLsbD i
        = (m.getLsbD i || (decide (i + 1 ∈ l) && decide (i < w))) := by
    intro l
    induction l with
    | nil => intro m; simp
    | cons k rest ih =>
      intro m
      simp only [List.foldl_cons]
      rw [ih, BitVec.getLsbD_or, single_getLsbD]
      by_cases h1 : k = i + 1
      · subst h1
        cases m.getLsbD i <;> cases decide (i < w) <;> simp
      · have : ¬ i + 1 = k := fun e => h1 e.symm
        simp [h1, List.mem_cons, this]
  unfold maskOf
  rw [key]
  simp

theorem mem_members (n : Nat) (m : SawSet) (k : Nat) : k ∈ members n m ↔ 1 ≤ k ∧ k ≤ n ∧ has m k = true := by
  unfold members
  simp only [List.mem_filter, List.mem_range'_1]
  constructor
  · rintro ⟨⟨h1, h2⟩, h3⟩; exact ⟨h1, by omega, h3⟩
  · rintro ⟨h1, h2, h3⟩; exact ⟨⟨h1, by omega⟩, h3⟩

/-- Two masks have no common member. -/
theorem and_eq_zero {w : Nat} {a b : BitVec w} : a &&& b = 0 ↔ ∀ i, a.getLsbD i = true → b.getLsbD i = false := by
  constructor
  · intro h i ha
    have := congrArg (fun x => x.getLsbD i) h
    simp only [BitVec.getLsbD_and, ha, Bool.true_and] at this
    rw [this]
    exact BitVec.getLsbD_zero
  · intro h
    apply BitVec.eq_of_getLsbD_eq
    intro i hi
    rw [BitVec.getLsbD_and, show (0 : BitVec w).getLsbD i = false from BitVec.getLsbD_zero]
    cases ha : a.getLsbD i
    · rfl
    · rw [h i ha]; rfl

/-- A mask is part of another. -/
theorem sub_eq_zero {w : Nat} {a b : BitVec w} :
    a &&& ~~~b = 0 ↔ ∀ i, a.getLsbD i = true → b.getLsbD i = true := by
  rw [and_eq_zero]
  constructor
  · intro h i ha
    have h1 := h i ha
    have hi : i < w := BitVec.lt_of_getLsbD ha
    simp only [BitVec.getLsbD_not, hi, decide_true, Bool.true_and, Bool.not_eq_false'] at h1
    exact h1
  · intro h i ha
    have hi : i < w := BitVec.lt_of_getLsbD ha
    simp only [BitVec.getLsbD_not, hi, decide_true, Bool.true_and, h i ha, Bool.not_true]

/-- Which saws are in the lock set (R134). -/
theorem lockSet_getLsbD (ax : Actuation) (i : Nat) :
    ax.lockSet.getLsbD i = (decide (i < 20) && ((ax.saws[i]?).map Saw.locked).getD false) := by
  unfold Actuation.lockSet
  rw [maskOf_getLsbD]
  by_cases h : i < 20
  · have h1 : 1 ≤ i + 1 ∧ i + 1 < 1 + 20 := by omega
    simp only [List.mem_filter, List.mem_range'_1, Nat.add_sub_cancel, h, h1, decide_true, Bool.and_true,
      Bool.true_and, true_and, and_self]
    cases ((ax.saws[i]?).map Saw.locked).getD false <;> rfl
  · simp [h]

/-- The lock set after a change of one saw. -/
theorem onSaw_lockSet (s : State) (k : Nat) (f : Saw → Saw) (i : Nat) :
    (s.onSaw k f).ax.lockSet.getLsbD i =
      if k = i + 1 then (decide (i < 20) && ((s.ax.saws[i]?).map (fun w => (f w).locked)).getD false)
      else s.ax.lockSet.getLsbD i := by
  rw [lockSet_getLsbD, State.onSaw_ax]
  by_cases hk : k = i + 1
  · subst hk
    simp only [Nat.add_eq_zero_iff, Nat.one_ne_zero, and_false, if_false, Nat.add_sub_cancel, if_true,
      List.getElem?_modify]
    cases s.ax.saws[i]? <;> rfl
  · rw [if_neg hk, lockSet_getLsbD]
    by_cases h0 : k = 0
    · simp [h0]
    · have : ¬ k - 1 = i := by omega
      simp [h0, this]

/-! ## The queue's shape -/

/-- How a piece stands after some pieces joined the queue: as before, or SCANNED, or SOLVING. -/
def Piece.Requeued (p p' : Piece) : Prop :=
  p' = p ∨ p' = { p with state := .scanned } ∨ p' = { p with state := .solving }

theorem Piece.Requeued.trans {p p' p'' : Piece} (h : p.Requeued p') (h' : p'.Requeued p'') : p.Requeued p'' := by
  rcases h with rfl | rfl | rfl
  · exact h'
  · rcases h' with rfl | rfl | rfl
    · exact Or.inr (Or.inl rfl)
    · exact Or.inr (Or.inl rfl)
    · exact Or.inr (Or.inr rfl)
  · rcases h' with rfl | rfl | rfl
    · exact Or.inr (Or.inr rfl)
    · exact Or.inr (Or.inl rfl)
    · exact Or.inr (Or.inr rfl)

theorem Piece.Requeued.state {p p' : Piece} (h : p.Requeued p') (hs : p'.state = .solved) : p.state = .solved := by
  rcases h with rfl | rfl | rfl
  · exact hs
  · exact absurd hs (by simp)
  · exact absurd hs (by simp)

theorem Piece.Requeued.solution {p p' : Piece} (h : p.Requeued p') : p'.solution = p.solution := by
  rcases h with rfl | rfl | rfl <;> rfl

/-- What joining the queue leaves: pieces requeued, TS's queue, and nothing else. -/
structure Requeue (s t : State) : Prop where
  shape : ∃ pieces ts, t = { s with dt := { s.dt with pieces := pieces }, ts := ts }
    ∧ pieces.map (fun p => p.serial) = s.dt.pieces.map (fun p => p.serial)
  pieces : ∀ m p', t.dt.piece? m = some p' → ∃ p, s.dt.piece? m = some p ∧ p.Requeued p'

theorem Requeue.refl (s : State) : Requeue s s :=
  ⟨⟨s.dt.pieces, s.ts, rfl, rfl⟩, fun _ p' h => ⟨p', h, Or.inl rfl⟩⟩

theorem Requeue.trans {s t u : State} (h : Requeue s t) (h' : Requeue t u) : Requeue s u := by
  obtain ⟨⟨l1, ts1, e1, n1⟩, p1⟩ := h
  obtain ⟨⟨l2, ts2, e2, n2⟩, p2⟩ := h'
  refine ⟨⟨l2, ts2, ?_, ?_⟩, ?_⟩
  · rw [e2, e1]
  · rw [n2, e1]; exact n1
  · intro m p'' hp
    obtain ⟨p', hp', r'⟩ := p2 m p'' hp
    obtain ⟨p, hp0, r⟩ := p1 m p' hp'
    exact ⟨p, hp0, r.trans r'⟩

theorem Requeue.onTs (s : State) (f : Solver → Solver) : Requeue s (s.onTs f) :=
  ⟨⟨s.dt.pieces, f s.ts, rfl, rfl⟩, fun _ p' h => ⟨p', h, Or.inl rfl⟩⟩

theorem Requeue.state (s : State) (n : Word) (st : PieceState) (hst : st = .scanned ∨ st = .solving) :
    Requeue s (s.onPiece n (fun p => { p with state := st })) := by
  refine ⟨⟨_, s.ts, rfl, pieces_serial _ _ _ (fun _ => rfl)⟩, ?_⟩
  intro m p' hp
  simp only [Deck.piece?, State.onPiece_dt] at hp
  rw [find_onPiece _ _ _ (fun p => { p with state := st }) (fun _ => rfl)] at hp
  obtain ⟨p, h0, rfl⟩ := Option.map_eq_some_iff.mp hp
  refine ⟨p, h0, ?_⟩
  split
  · rcases hst with rfl | rfl
    · exact Or.inr (Or.inl rfl)
    · exact Or.inr (Or.inr rfl)
  · exact Or.inl rfl

theorem Requeue.takeNext (s : State) : Requeue s s.takeNext := by
  unfold State.takeNext
  split
  · split
    · exact (Requeue.state s _ .solving (Or.inr rfl)).trans (Requeue.onTs _ _)
    · exact Requeue.onTs _ _
  · exact Requeue.refl s

theorem Requeue.joinQueue (s : State) (n : Word) : Requeue s (s.joinQueue n) :=
  ((Requeue.state s n .scanned (Or.inl rfl)).trans (Requeue.onTs _ _)).trans (Requeue.takeNext _)

theorem Requeue.abandonSolve (s : State) (n : Word) : Requeue s (s.abandonSolve n) := by
  unfold State.abandonSolve
  split
  · exact (Requeue.onTs _ _).trans (Requeue.takeNext _)
  · exact Requeue.refl s

/-- A piece that joined the queue is not SOLVED. -/
theorem joinQueue_not_solved (s : State) (n : Word) (p' : Piece) (h : (s.joinQueue n).dt.piece? n = some p') :
    p'.state ≠ .solved := by
  have h1 : Requeue ((s.onPiece n (fun p => { p with state := .scanned })).onTs (fun ts =>
      { ts with queue := insertByAge s.dt.age n ts.queue })) (s.joinQueue n) := Requeue.takeNext _
  obtain ⟨p, hp, r⟩ := h1.pieces n p' h
  intro hs
  have hp' := r.state hs
  simp only [State.onTs_dt, Deck.piece?, State.onPiece_dt] at hp
  rw [find_onPiece _ _ _ (fun p => { p with state := .scanned }) (fun _ => rfl)] at hp
  obtain ⟨p0, h0, e⟩ := Option.map_eq_some_iff.mp hp
  have hn : p0.serial = n := by simpa using List.find?_some h0
  rw [if_pos hn] at e
  rw [← e] at hp'
  exact absurd hp' (by simp)

/-- Pieces that join the queue one after the other are not SOLVED. -/
theorem Requeue.each (l : List Word) (s : State) :
    Requeue s (s.each l State.joinQueue)
      ∧ ∀ m ∈ l, ∀ p', (s.each l State.joinQueue).dt.piece? m = some p' → p'.state ≠ .solved := by
  induction l generalizing s with
  | nil => exact ⟨Requeue.refl s, by simp⟩
  | cons n rest ih =>
    obtain ⟨h1, h2⟩ := ih (s.joinQueue n)
    refine ⟨(Requeue.joinQueue s n).trans h1, ?_⟩
    intro m hm p' hp hs
    rcases List.mem_cons.mp hm with rfl | hm
    · obtain ⟨p, hp0, r⟩ := h1.pieces m p' hp
      exact joinQueue_not_solved s m p hp0 (r.state hs)
    · exact h2 m hm p' hp hs

namespace Kept

/-! ## Saws join the lock set -/

theorem recutBy_serial (saws : SawSet) (bin : Nat) (p : Piece) : (p.recutBy saws bin).serial = p.serial := by
  unfold Piece.recutBy; split <;> rfl
theorem recutBy_state (saws : SawSet) (bin : Nat) (p : Piece) : (p.recutBy saws bin).state = p.state := by
  unfold Piece.recutBy; split <;> rfl
theorem recutBy_solution (saws : SawSet) (bin : Nat) (p : Piece) : (p.recutBy saws bin).solution = p.solution := by
  unfold Piece.recutBy; split <;> rfl

/-- A COMMITTED piece's drop set is rid of the saws. -/
theorem recutBy_dropSet (saws : SawSet) (bin : Nat) (p : Piece) (h : p.state = .committed) (i : Nat)
    (hi : (p.recutBy saws bin).dropSet.getLsbD i = true) :
    p.dropSet.getLsbD i = true ∧ saws.getLsbD i = false := by
  unfold Piece.recutBy at hi
  cases hc : p.commit with
  | none =>
    have : p.losesSaws saws = 0 := by simp [Piece.losesSaws, h, hc]
    rw [if_pos this] at hi
    simp [Piece.dropSet, hc] at hi
  | some c =>
    have hl : p.losesSaws saws = c.dropSet &&& saws := by simp [Piece.losesSaws, h, hc]
    have hd : p.dropSet = c.dropSet := by simp [Piece.dropSet, hc]
    by_cases hz : p.losesSaws saws = 0
    · rw [if_pos hz] at hi
      rw [hl] at hz
      refine ⟨hi, ?_⟩
      rw [hd] at hi
      exact (and_eq_zero.mp hz) i hi
    · rw [if_neg hz] at hi
      simp only [Piece.dropSet, hc, Option.map_some, Option.getD_some, CommitPart.recut, BitVec.getLsbD_and,
        Bool.and_eq_true] at hi
      rw [hd]
      refine ⟨hi.1, ?_⟩
      have hlt : i < 20 := BitVec.lt_of_getLsbD hi.1
      simpa [BitVec.getLsbD_not, hlt] using hi.2

/-- Saws join the lock set over a state in which their reasons are new: everything is kept under the new lock
set (R135). -/
theorem joinLock_of (h : Kept q room s) {t : State} {saws : SawSet} (list : List Saw) (xi : Exchange)
    (out : List Output) (he : t = { s with ax := { s.ax with saws := list }, xi := xi, out := out })
    (hx : xi.Reads q.cause) (hn : list.length = 20)
    (hl : t.ax.lockSet &&& ~~~(s.ax.lockSet ||| saws) = 0) : Kept q room (t.joinLock saws) := by
  have hsub := sub_eq_zero.mp hl
  have in_or : ∀ i, t.ax.lockSet.getLsbD i = true → s.ax.lockSet.getLsbD i = true ∨ saws.getLsbD i = true := by
    intro i hi
    have := hsub i hi
    rw [BitVec.getLsbD_or, Bool.or_eq_true] at this
    exact this
  unfold State.joinLock
  split
  · rename_i h0
    have hl0 : t.ax.lockSet &&& ~~~s.ax.lockSet = 0 := by
      rw [sub_eq_zero]
      intro i hi
      rcases in_or i hi with h1 | h1
      · exact h1
      · rw [h0] at h1
        exact absurd h1 (by rw [show (0 : SawSet).getLsbD i = false from BitVec.getLsbD_zero]; simp)
    subst he
    exact ⟨h.pending, h.mem, h.rigid, hx, h.heads, { h.sized with saws := hn },
      ⟨and_zero_mono h.locks.out hl0, fun w hw => and_zero_mono (h.locks.window w hw) hl0,
       fun n p hp => (h.locks.pieces n p hp).mono hl0⟩, h.runs, h.serials⟩
  · extract_lets recuts s1 s2
    obtain ⟨⟨pieces, ts, e3, hser⟩, hreq⟩ := (Requeue.each (t.dt.solvedWith saws) s2).1
    have hlen : pieces.length = s2.dt.pieces.length := by simpa using congrArg List.length hser
    have hns := (Requeue.each (t.dt.solvedWith saws) s2).2
    have hlock2 : s2.ax.lockSet = t.ax.lockSet := rfl
    have e0 : s2.dt.solvedWith saws = t.dt.solvedWith saws := by
      show Deck.solvedWith { t.dt with pieces := t.dt.pieces.map _ } saws = _
      unfold Deck.solvedWith
      simp only [List.filter_map, List.map_map]
      have : ∀ l : List Piece,
          (List.filter ((fun p => p.state == PieceState.solved && (match p.solution with
              | some sol => meets sol.sawSet saws
              | none => false)) ∘ (fun p => p.recutBy saws (s1.rs.boundRules p).policy.recutBin)) l).map
            ((fun p => p.serial) ∘ (fun p => p.recutBy saws (s1.rs.boundRules p).policy.recutBin))
          = (l.filter (fun p => p.state == PieceState.solved && (match p.solution with
              | some sol => meets sol.sawSet saws
              | none => false))).map (fun p => p.serial) := by
        intro l
        congr 1
        · funext p; exact recutBy_serial _ _ _
        · congr 1
          funext p
          simp only [Function.comp, recutBy_state, recutBy_solution]
      exact this _
    rw [e0, e3]
    have hs2 : s2 = { t with ax := s2.ax, dt := s2.dt } := rfl
    have hp2 : ∀ m p, s2.dt.piece? m = some p → ∃ p0, s.dt.piece? m = some p0
        ∧ p = p0.recutBy saws (s1.rs.boundRules p0).policy.recutBin := by
      intro m p hp
      have : s2.dt.pieces = t.dt.pieces.map (fun p => p.recutBy saws (s1.rs.boundRules p).policy.recutBin) := rfl
      simp only [Deck.piece?, this] at hp
      rw [find_onPieces _ _ _ (fun p => recutBy_serial _ _ p)] at hp
      obtain ⟨p0, h0, e⟩ := Option.map_eq_some_iff.mp hp
      refine ⟨p0, ?_, e.symm⟩
      rw [he] at h0
      exact h0
    have hs : s2.dt.pieces.map (fun p => p.serial) = s.dt.pieces.map (fun p => p.serial) := by
      have e : s2.dt.pieces = t.dt.pieces.map (fun p => p.recutBy saws (s1.rs.boundRules p).policy.recutBin) := rfl
      rw [e, serials_map _ _ (fun p => recutBy_serial _ _ p), he]
    refine ⟨?_, ?_, ?_, ?_, ?_, ?_, ?_, by show s2.tu.Apart; rw [hs2, he]; exact h.runs,
      h.serials.sublist (by show t.dt.nextSerial = _; rw [he]) (by show (pieces.map _).Sublist _; rw [hser, hs])⟩
    · show s2.pending = q.queue
      rw [hs2, he]; exact h.pending
    · show s2.mem.wf = true
      rw [hs2, he]; exact h.mem
    · have hr := h.rigid
      have hd : t.dt = s.dt := by rw [he]
      have e1 : s2.dt.lugs = s.dt.lugs := by rw [← hd]; rfl
      have e2 : s2.dt.upstream = s.dt.upstream := by rw [← hd]; rfl
      have e3 : s2.dt.tagCounter = s.dt.tagCounter := by rw [← hd]; rfl
      refine ⟨?_, ?_, ?_⟩
      · show s2.dt.lugs.map _ = (List.range 64).map (fun x => s2.dt.tagCounter - BitVec.ofNat 8 x)
        rw [e1, e3]; exact hr.lugs
      · show s2.dt.upstream.map _
          = (List.range s2.dt.upstream.length).map (fun k => s2.dt.tagCounter + BitVec.ofNat 8 (k + 1))
        rw [e2, e3]; exact hr.upstream
      · show s2.dt.upstream.length ≤ room
        rw [e2]; exact hr.room
    · show s2.xi.Reads q.cause
      rw [hs2, he]; exact hx
    · show HeadsInRange s2.sa s2.da
      rw [hs2, he]; exact h.heads
    · have hz := h.sized
      refine ⟨?_, ?_, ?_, ?_, ?_, ?_, ?_, ?_⟩
      · show s2.sa.heads.length = 8
        rw [hs2, he]; exact hz.heads
      · show s2.rs.slots.length = 3
        rw [hs2, he]; exact hz.slots
      · show s2.ou.stations.length = 2
        rw [hs2, he]; exact hz.stations
      · show s2.ax.saws.length = 20
        have : s2.ax.saws = t.ax.saws := rfl
        rw [this, he]; exact hn
      · show s2.ax.bins.length = 24
        have : s2.ax.bins = t.ax.bins := rfl
        rw [this, he]; exact hz.bins
      · show pieces.length ≤ 96
        have : s2.dt.pieces.length = t.dt.pieces.length := List.length_map _
        rw [hlen, this, he]; exact hz.pieces
      · show s2.tu.pendingLogs.length ≤ 8
        rw [hs2, he]; exact hz.logs
      · show ∀ st ∈ s2.ou.stations, st.queue.length ≤ 4
        rw [hs2, he]; exact hz.keys
    · have hout : s2.ax.sawOut = t.ax.sawOut &&& ~~~saws := rfl
      have hwin : s2.ax.window = t.ax.window.map (WindowEntry.without saws) := rfl
      have clear : ∀ c : SawSet, c &&& s.ax.lockSet = 0 → (c &&& ~~~saws) &&& t.ax.lockSet = 0 := by
        intro c hc
        rw [and_eq_zero]
        intro i hi
        rw [BitVec.getLsbD_and, Bool.and_eq_true] at hi
        have hlt : i < 20 := BitVec.lt_of_getLsbD hi.1
        have hns : saws.getLsbD i = false := by simpa [BitVec.getLsbD_not, hlt] using hi.2
        cases hl : t.ax.lockSet.getLsbD i
        · rfl
        · rcases in_or i hl with h1 | h1
          · rw [(and_eq_zero.mp hc) i hi.1] at h1; exact h1.symm
          · rw [hns] at h1; exact h1.symm
      refine ⟨?_, ?_, ?_⟩
      · show s2.ax.sawOut &&& s2.ax.lockSet = 0
        rw [hout, hlock2]
        exact clear _ (by rw [he]; exact h.locks.out)
      · show ∀ w ∈ s2.ax.window, w.command &&& s2.ax.lockSet = 0
        rw [hwin, hlock2]
        intro w hw
        obtain ⟨w0, hw0, rfl⟩ := List.mem_map.mp hw
        rw [he] at hw0
        exact clear _ (h.locks.window w0 hw0)
      · intro m p' hp
        show p'.KeepsOff s2.ax.lockSet
        rw [hlock2]
        have hp3 : (s2.each (t.dt.solvedWith saws) State.joinQueue).dt.piece? m = some p' := by rw [e3]; exact hp
        obtain ⟨p2, hp2', r⟩ := hreq m p' hp3
        obtain ⟨p0, hp0, e2⟩ := hp2 m p2 hp2'
        have hk := h.locks.pieces m p0 hp0
        have hsol : p'.solution = p0.solution := by rw [r.solution, e2, recutBy_solution]
        refine ⟨?_, ?_, ?_⟩
        · intro hc
          have e' : p' = p2 := by
            rcases r with rfl | rfl | rfl
            · rfl
            · exact absurd hc (by simp)
            · exact absurd hc (by simp)
          rw [e', e2] at hc ⊢
          rw [recutBy_state] at hc
          rw [and_eq_zero]
          intro i hi
          obtain ⟨h1, h2⟩ := recutBy_dropSet saws _ p0 hc i hi
          cases hl : t.ax.lockSet.getLsbD i
          · rfl
          · rcases in_or i hl with h3 | h3
            · rw [(and_eq_zero.mp (hk.committed hc)) i h1] at h3; exact h3.symm
            · rw [h2] at h3; exact h3.symm
        · intro hs sol hsol'
          have hs0 : p0.state = .solved := by
            have := r.state hs
            rw [e2, recutBy_state] at this
            exact this
          rw [hsol] at hsol'
          have hm : m ∉ t.dt.solvedWith saws := fun hm => hns m hm p' hp3 hs
          have hmeet : meets sol.sawSet saws = false := by
            cases hb : meets sol.sawSet saws
            · rfl
            · exfalso
              apply hm
              have hmem : p0 ∈ t.dt.pieces := by rw [he]; exact List.mem_of_find?_eq_some hp0
              have hser : p0.serial = m := by simpa using List.find?_some hp0
              unfold Deck.solvedWith
              rw [List.mem_map]
              exact ⟨p0, List.mem_filter.mpr ⟨hmem, by simp [hs0, hsol', hb]⟩, hser⟩
          have hdis : sol.sawSet &&& saws = 0 := by simpa [meets] using hmeet
          rw [and_eq_zero]
          intro i hi
          cases hl : t.ax.lockSet.getLsbD i
          · rfl
          · rcases in_or i hl with h3 | h3
            · rw [(and_eq_zero.mp (hk.solved hs0 sol hsol')) i hi] at h3; exact h3.symm
            · rw [(and_eq_zero.mp hdis) i hi] at h3; exact h3.symm
        · rw [hsol]; exact hk.saws

end Kept

end Sys2Proof.Machine
end

