-- ==== Sys2Proof/Laws/KeptSolve.lean ====
section
/-! SUPPORT. What the solver, the commit, the saws and the bins keep. -/

namespace Sys2Proof.Machine

variable {q : Fixed} {room : Nat} {s : State}

/-! ## Solutions are well made -/

/-- A solution's product saws are in its saw set. -/
def Solution.Whole (sol : Solution) : Prop := maskOf 20 sol.saws &&& ~~~sol.sawSet = 0

theorem maskOf_append_sub (w : Nat) (a b : List Nat) : maskOf w a &&& ~~~(maskOf w (a ++ b)) = 0 := by
  rw [sub_eq_zero]
  intro i hi
  rw [maskOf_getLsbD, Bool.and_eq_true, decide_eq_true_eq] at hi ⊢
  exact ⟨List.mem_append.mpr (Or.inl hi.1), hi.2⟩

theorem maskOf_nil (w : Nat) : maskOf w [] = 0 := rfl

theorem normal_whole (x : SolveInput) (c : Candidate) (k : Constraint) : (x.normal c k).Whole := by
  unfold Solution.Whole SolveInput.normal
  simp only [List.append_assoc]
  exact maskOf_append_sub _ _ _

theorem fallback_whole (reason : Reason) (target : Nat) (k : Constraint) (d : Bool) (n : Nat) :
    (fallbackSolution reason target k d n).Whole := by
  unfold Solution.Whole fallbackSolution
  simp [maskOf_nil]

theorem none_whole (reason : Reason) : (noneSolution reason).Whole := by
  unfold Solution.Whole noneSolution
  simp [maskOf_nil]

theorem result_whole (x : SolveInput) (c : Option Candidate) (k : Constraint) : (x.result c k).Whole := by
  unfold SolveInput.result
  split
  · exact normal_whole _ _ _
  · exact none_whole _

theorem orLast_whole (x : SolveInput) (last : Option Solution) (h : ∀ sol, last = some sol → sol.Whole) :
    (x.orLast last).Whole := by
  unfold SolveInput.orLast
  split
  · split
    · exact result_whole _ _ _
    · exact h _ rfl
  · exact result_whole _ _ _

theorem solveTrim_whole (x : SolveInput) (trim : Option (TrimKind × Option Nat)) (last : Option Solution)
    (h : ∀ sol, last = some sol → sol.Whole) : (x.solveTrim trim last).solution.Whole := by
  unfold SolveInput.solveTrim
  split
  · simp only []
    split
    · exact normal_whole _ _ _
    · exact orLast_whole _ _ h
  · split
    · exact normal_whole _ _ _
    · exact orLast_whole _ _ h
  · exact result_whole _ _ _

/-- Every solve builds a well-made solution. -/
theorem solve_whole (g : Geometry) (rules : Rules) (scan : ScanRecord) (density : Nat) (view : SawSet)
    (trim : Option (TrimKind × Option Nat)) (last : Option Solution) (h : ∀ sol, last = some sol → sol.Whole) :
    (solve g rules scan density view trim last).solution.Whole := by
  unfold solve
  simp only []
  split
  · exact fallback_whole _ _ _ _ _
  · split
    · exact fallback_whole _ _ _ _ _
    · split
      · exact none_whole _
      · exact solveTrim_whole _ _ _ h

theorem solveResult_whole {c : Solve} {p : Piece} {s : State} {r : SolveResult} (h : s.solveResult c p = some r)
    (hp : ∀ sol, p.solution = some sol → sol.Whole) : r.solution.Whole := by
  unfold State.solveResult at h
  split at h
  · injection h with h
    rw [← h]
    refine solve_whole _ _ _ _ _ _ _ ?_
    intro sol e
    obtain ⟨sol0, e0, a1, a2, _⟩ := Piece.solverSolution_sets e
    unfold Solution.Whole
    rw [a1, a2]
    exact hp sol0 e0
  · exact absurd h (by simp)

namespace Kept

/-! ## The solve completion -/

theorem discardSolve (h : Kept q room s) (n : Word) : Kept q room (s.discardSolve n) := by
  unfold State.discardSolve
  refine Kept.takeNext (Kept.onTs (Kept.onPieceOther h _ _ ?_ ?_ ?_ ?_) _) <;> intro p <;> simp

theorem keepResult (h : Kept q room s) (c : Solve) (r : SolveResult) (hr : r.solution.Whole)
    (hm : r.solution.sawSet &&& s.ax.lockSet = 0) : Kept q room (s.keepResult c r) := by
  unfold State.keepResult
  extract_lets report s1 s2
  have h1 : Kept q room s1 := by
    refine Kept.onTs (Kept.onPiece h _ _ ?_ ?_) _
    · intro p; exact (Piece.applyGradePart_sets _ _).1
    · intro p _ hk
      obtain ⟨_, hst, hcm, hsol⟩ := Piece.applyGradePart_sets (s.rs.rulesOf c.slot)
        ({ p with
            state := .solved
            sizeClass := some r.size
            solution := some { r.solution with number := solveNumberAfter p.solution }
            trimPart := if report then p.trimPart.map (fun t => t.settle r.applied r.reference) else p.trimPart
          } : Piece)
      refine ⟨?_, ?_, ?_⟩
      · intro hc; exact absurd (hst.symm.trans hc) (by simp)
      · intro _ sol e
        obtain ⟨sol0, e0, a1, a2, _⟩ := hsol sol e
        injection e0 with e0
        rw [a1, ← e0]; exact hm
      · intro sol e
        obtain ⟨sol0, e0, a1, a2, _⟩ := hsol sol e
        injection e0 with e0
        rw [a1, a2, ← e0]; exact hr
  have h2 : Kept q room s2 := by
    show Kept q room (if c.arrival = true then _ else s1)
    split
    · refine Kept.onTs (Kept.onPieceOther h1 _ _ ?_ ?_ ?_ ?_) _ <;> intro p <;> simp
    · exact h1
  exact (h2.onTs _).takeNext

theorem completeSolve (h : Kept q room s) : Kept q room s.completeSolve := by
  unfold State.completeSolve
  split
  · exact h
  · split
    · exact (h.onTs _).takeNext
    · rename_i p hp
      split
      · exact (h.onTs _).takeNext
      · rename_i r hr
        split
        · exact h.discardSolve _
        · rename_i hmeet
          refine h.keepResult _ r (solveResult_whole hr ?_) ?_
          · intro sol e; exact (h.locks.pieces _ p hp).saws sol e
          · simpa [meets] using hmeet

/-! ## The saws -/

theorem releaseAll (h : Kept q room s) : Kept q room (s.onAx Actuation.releaseAll) := by
  refine h.onAx _ rfl (by simp [Actuation.releaseAll]) (by simp [Actuation.releaseAll]) ?_
  intro w hw
  obtain ⟨w0, _, rfl⟩ := List.mem_map.mp hw
  simp [WindowEntry.release]

theorem backRelease (h : Kept q room s) (g : Geometry) : Kept q room (s.backRelease g) := by
  unfold State.backRelease
  refine h.onAx _ rfl rfl (by simp) ?_
  intro w hw
  simp only [releasedWindow] at hw
  obtain ⟨w0, _, rfl⟩ := List.mem_map.mp hw
  simp

theorem releaseTag (h : Kept q room s) (tag : Byte) : Kept q room (s.releaseTag tag) := by
  unfold State.releaseTag
  refine h.onAx _ rfl rfl h.locks.out ?_
  intro w hw
  obtain ⟨w0, h0, rfl⟩ := List.mem_map.mp hw
  split
  · simp [WindowEntry.release]
  · exact h.locks.window w0 h0

/-- A saw changed so that it is locked only if it was. -/
theorem onSawShrink (h : Kept q room s) (k : Nat) (f : Saw → Saw) (hf : ∀ w, (f w).locked = true → w.locked = true) :
    Kept q room (s.onSaw k f) := by
  have hl : (s.onSaw k f).ax.lockSet &&& ~~~s.ax.lockSet = 0 := by
    rw [sub_eq_zero]
    intro i hi
    rw [onSaw_lockSet] at hi
    split at hi
    · rw [lockSet_getLsbD]
      rw [Bool.and_eq_true] at hi ⊢
      refine ⟨hi.1, ?_⟩
      cases hw : s.ax.saws[i]? with
      | none => rw [hw] at hi; exact hi.2
      | some w => rw [hw] at hi; exact hf w hi.2
    · exact hi
  refine ⟨h.pending, h.mem, h.rigid, h.ring, h.heads, ?_, ⟨?_, ?_, ?_⟩, h.runs, h.serials⟩
  · refine { h.sized with saws := ?_ }
    rw [State.onSaw_ax]
    simp only []
    split
    · exact h.sized.saws
    · rw [List.length_modify]; exact h.sized.saws
  · exact and_zero_mono h.locks.out hl
  · exact fun w hw => and_zero_mono (h.locks.window w hw) hl
  · exact fun n p hp => (h.locks.pieces n p hp).mono hl

theorem onSaw_saws_length (s : State) (k : Nat) (f : Saw → Saw) :
    (s.onSaw k f).ax.saws.length = s.ax.saws.length := by
  rw [State.onSaw_ax]
  simp only []
  split
  · rfl
  · rw [List.length_modify]

theorem has_single (k i : Nat) (hk : i < 20) (h : k = i + 1) : (single 20 k).getLsbD i = true := by
  rw [single_getLsbD]; simp [h, hk]

theorem lockSaw (h : Kept q room s) (k : Nat) : Kept q room (s.lockSaw k) := by
  unfold State.lockSaw
  simp only []
  split
  · refine Kept.joinLock_of h (saws := single 20 k) _ s.xi s.out rfl h.ring ?_ ?_
    · split
      · exact h.sized.saws
      · rw [List.length_modify]; exact h.sized.saws
    · rw [sub_eq_zero]
      intro i hi
      rw [BitVec.getLsbD_or]
      rw [onSaw_lockSet] at hi
      split at hi
      · rename_i hk
        rw [Bool.and_eq_true, decide_eq_true_eq] at hi
        rw [has_single k i hi.1 hk, Bool.or_true]
      · rw [hi]; rfl
  · rename_i hj
    have hh : has s.ax.lockSet k = true := by simpa using hj
    have hz := Kept.joinLock_of h (saws := 0) (t := s.onSaw k (fun w => { w with host := true })) _ s.xi s.out rfl
      h.ring (by
        split
        · exact h.sized.saws
        · rw [List.length_modify]; exact h.sized.saws) (by
        rw [sub_eq_zero]
        intro i hi
        rw [BitVec.getLsbD_or]
        rw [onSaw_lockSet] at hi
        split at hi
        · rename_i hk
          subst hk
          unfold has at hh
          rw [Bool.and_eq_true, Nat.add_sub_cancel] at hh
          rw [hh.2]; rfl
        · rw [hi]; rfl)
    exact hz

/-- What the cut check's FAULT reasons leave: the saws' list alone is changed. -/
theorem eachSaw_shape (l : List Nat) (f : Saw → Saw) (s : State) :
    ∃ list, s.each l (fun k s => s.onSaw k f) = { s with ax := { s.ax with saws := list } }
      ∧ list.length = s.ax.saws.length := by
  induction l generalizing s with
  | nil => exact ⟨s.ax.saws, rfl, rfl⟩
  | cons k rest ih =>
    obtain ⟨list, e, hn⟩ := ih (s.onSaw k f)
    refine ⟨list, ?_, by rw [hn]; exact onSaw_saws_length s k f⟩
    show (s.onSaw k f).each rest (fun k s => s.onSaw k f) = _
    rw [e]; rfl

theorem eachSaw_lockSet (l : List Nat) (f : Saw → Saw) (s : State) (i : Nat)
    (h : (s.each l (fun k s => s.onSaw k f)).ax.lockSet.getLsbD i = true) :
    s.ax.lockSet.getLsbD i = true ∨ i + 1 ∈ l := by
  induction l generalizing s with
  | nil => exact Or.inl h
  | cons k rest ih =>
    rcases ih (s.onSaw k f) h with h1 | h1
    · rw [onSaw_lockSet] at h1
      split at h1
      · rename_i hk
        exact Or.inr (by simp [hk])
      · exact Or.inl h1
    · exact Or.inr (by simp [h1])

theorem faultSaws (h : Kept q room s) (saws : SawSet) : Kept q room (s.faultSaws saws) := by
  unfold State.faultSaws
  extract_lets fresh joining s1
  obtain ⟨list, e, hn⟩ := eachSaw_shape (members 20 saws)
    (fun w => { w with fault := true, mismatches := w.mismatches + 1 }) s
  have e1 : s1 = { s with ax := { s.ax with saws := list } } := e
  have hlock : ∀ i, s1.ax.lockSet.getLsbD i = true → s.ax.lockSet.getLsbD i = true ∨ saws.getLsbD i = true := by
    intro i hi
    rcases eachSaw_lockSet _ _ s i hi with h1 | h1
    · exact Or.inl h1
    · rw [mem_members] at h1
      refine Or.inr ?_
      have := h1.2.2
      unfold has at this
      rw [Bool.and_eq_true, Nat.add_sub_cancel] at this
      exact this.2
  have e2 := State.notifyTimes_spec .fault fresh.length s1
  refine Kept.joinLock_of h (saws := joining) list (State.notifyTimes .fault fresh.length s1).xi
    (State.notifyTimes .fault fresh.length s1).out ?_ ?_ ?_ ?_
  · rw [e2, e1]
  · have hx : s1.xi = s.xi := by rw [e1]
    rw [State.notifyTimes_xi, hx]
    exact ⟨h.ring.fill, h.ring.release, h.ring.starts, h.ring.notify, h.ring.cause⟩
  · rw [hn]; exact h.sized.saws
  · rw [sub_eq_zero, State.notifyTimes_ax]
    intro i hi
    rw [BitVec.getLsbD_or]
    have hlt : i < 20 := BitVec.lt_of_getLsbD hi
    cases hs : s.ax.lockSet.getLsbD i
    · rcases hlock i hi with h1 | h1
      · rw [hs] at h1; exact absurd h1 (by simp)
      · show (false || (saws &&& ~~~s.ax.lockSet).getLsbD i) = true
        rw [BitVec.getLsbD_and, h1, BitVec.getLsbD_not, hs]
        simp [hlt]
    · rfl

theorem countCheck_saws (ax : Actuation) (r : CutCheck) : (ax.countCheck r).saws = ax.saws := by cases r <;> rfl
theorem countCheck_bins (ax : Actuation) (r : CutCheck) : (ax.countCheck r).bins = ax.bins := by cases r <;> rfl
theorem countCheck_sawOut (ax : Actuation) (r : CutCheck) : (ax.countCheck r).sawOut = ax.sawOut := by
  cases r <;> rfl
theorem countCheck_window (ax : Actuation) (r : CutCheck) : (ax.countCheck r).window = ax.window := by
  cases r <;> rfl

theorem cutPiece (h : Kept q room s) (n : Word) (r : CutCheck) (saws : SawSet) (target : Option Nat) :
    Kept q room (s.cutPiece n r saws target) := by
  unfold State.cutPiece
  refine Kept.onAxCounts (Kept.onPieceOther h _ _ ?_ ?_ ?_ ?_) _ (countCheck_saws _ _)
    (by rw [countCheck_bins]) (countCheck_sawOut _ _) (countCheck_window _ _)
  · intro p; rfl
  · intro p; simp [Piece.cutWith]
  · intro p; simp [Piece.cutWith]
  · intro p; rfl

theorem applyCut (h : Kept q room s) (p : Option Piece) (a : CutAction) : Kept q room (s.applyCut p a) := by
  unfold State.applyCut
  split
  · exact h.cutPiece _ _ _ _
  · exact h

theorem checkCut (h : Kept q room s) (g : Geometry) (feedback : SawSet) : Kept q room (s.checkCut g feedback) :=
  (h.applyCut _ _).faultSaws _

/-! ## The deadline and the commit -/

theorem settle_state (rules : Rules) (write : Bool) (p : Piece) :
    (p.settle rules write).state = p.state ∧ (p.settle rules write).commit = p.commit
      ∧ (p.settle rules write).serial = p.serial
      ∧ (write = false → ∀ sol', (p.settle rules write).solution = some sol' →
          ∃ sol, p.solution = some sol ∧ sol'.sawSet = sol.sawSet ∧ sol'.saws = sol.saws ∧ sol'.kind = sol.kind)
      ∧ (write = true → ∀ sol', (p.settle rules write).solution = some sol' →
          sol'.sawSet = 0 ∧ sol'.saws = [] ∧ sol'.kind = .fallback) := by
  have hg : ∀ p : Piece, (p.gradeAtCommit rules write).serial = p.serial
      ∧ (p.gradeAtCommit rules write).state = p.state ∧ (p.gradeAtCommit rules write).commit = p.commit
      ∧ ∀ sol', (p.gradeAtCommit rules write).solution = some sol' →
          ∃ sol, p.solution = some sol ∧ sol'.sawSet = sol.sawSet ∧ sol'.saws = sol.saws ∧ sol'.kind = sol.kind := by
    intro p
    unfold Piece.gradeAtCommit
    split
    · split
      · exact Piece.applyGradePart_sets rules p
      · exact ⟨rfl, rfl, rfl, fun sol' e => ⟨sol', e, rfl, rfl, rfl⟩⟩
    · exact ⟨rfl, rfl, rfl, fun sol' e => ⟨sol', e, rfl, rfl, rfl⟩⟩
  unfold Piece.settle
  cases write
  · obtain ⟨h1, h2, h3, h4⟩ := hg p
    exact ⟨h2, h3, h1, fun _ => h4, fun h => absurd h (by simp)⟩
  · obtain ⟨h1, h2, h3, h4⟩ := hg (p.writeDeadline rules.policy.fallbackBin)
    refine ⟨h2, h3, h1, fun h => absurd h (by simp), fun _ sol' e => ?_⟩
    obtain ⟨sol, e0, a1, a2, a3⟩ := h4 sol' e
    unfold Piece.writeDeadline at e0
    injection e0 with e0
    rw [a1, a2, a3, ← e0]
    exact ⟨rfl, rfl, rfl⟩

/-- A NORMAL solution holds no locked saw. -/
def Safe (locked : SawSet) (p : Piece) : Prop :=
  ∀ sol, p.solution = some sol → sol.kind = .normal → sol.sawSet &&& locked = 0

theorem settleDeadline (h : Kept q room s) {p : Piece} (hp : s.dt.piece? p.serial = some p) :
    Kept q room (s.settleDeadline p) ∧ (s.settleDeadline p).ax.lockSet = s.ax.lockSet
      ∧ ∀ p', (s.settleDeadline p).dt.piece? p.serial = some p' → Safe s.ax.lockSet p' := by
  unfold State.settleDeadline
  extract_lets write rules
  have h1 := (h.leaveQueue p.serial).abandonSolve p.serial
  have hr : Requeue s ((s.leaveQueue p.serial).abandonSolve p.serial) :=
    (Requeue.onTs _ _).trans (Requeue.abandonSolve _ _)
  generalize (s.leaveQueue p.serial).abandonSolve p.serial = s1 at h1 hr
  have hax : s1.ax = s.ax := by
    obtain ⟨⟨l, ts, e, _⟩, _⟩ := hr
    rw [e]
  have hk := h.locks.pieces _ p hp
  have key : ∀ p1, s1.dt.piece? p.serial = some p1 → p1.solution = p.solution := by
    intro p1 hp1
    obtain ⟨p0, e0, r⟩ := hr.pieces _ _ hp1
    rw [hp] at e0
    injection e0 with e0
    rw [r.solution, ← e0]
  have hsafe : ∀ p1, s1.dt.piece? p.serial = some p1 → Safe s.ax.lockSet (p1.settle rules write) := by
    intro p1 hp1 sol' e' hkind
    obtain ⟨_, _, _, hf, ht⟩ := settle_state rules write p1
    cases hw : write
    · obtain ⟨sol, e, a1, _, _⟩ := hf hw sol' e'
      rw [key p1 hp1] at e
      rw [a1]
      have hwr : (p.state != .solved && !p.holdsSafe s.ax.lockSet) = false := hw
      rw [Bool.and_eq_false_iff] at hwr
      rcases hwr with hst | hst
      · have : p.state = .solved := by simpa using hst
        exact hk.solved this sol e
      · have : p.holdsSafe s.ax.lockSet = true := by simpa using hst
        unfold Piece.holdsSafe at this
        rw [e] at this
        simpa [meets] using this
    · rw [(ht hw sol' e').1]
      simp
  have h2 : Kept q room (s1.onPiece p.serial (Piece.settle rules write)) := by
    refine h1.onPiece _ _ (fun p1 => (settle_state rules write p1).2.2.1) ?_
    intro p1 _ hk1
    obtain ⟨e1, e2, _, hf, ht⟩ := settle_state rules write p1
    cases hw : write
    · rw [hw] at e1 e2 hf
      refine hk1.of_sets e1 e2 ?_
      intro sol' e'
      obtain ⟨sol, e, a1, a2, _⟩ := hf rfl sol' e'
      exact ⟨sol, e, a1, a2⟩
    · rw [hw] at e1 e2 ht
      refine ⟨?_, ?_, ?_⟩
      · intro hc
        rw [e1] at hc
        unfold Piece.dropSet
        rw [e2]
        exact hk1.committed hc
      · intro _ sol' e'
        rw [(ht rfl sol' e').1]; simp
      · intro sol' e'
        obtain ⟨b1, b2, _⟩ := ht rfl sol' e'
        rw [b2, maskOf_nil]; simp
  refine ⟨h2.onTs _, by show s1.ax.lockSet = _; rw [hax], ?_⟩
  intro p' hp'
  simp only [State.onTs_dt, Deck.piece?, State.onPiece_dt] at hp'
  rw [find_onPiece _ _ _ _ (fun p1 => (settle_state rules write p1).2.2.1)] at hp'
  obtain ⟨p1, e1, e2⟩ := Option.map_eq_some_iff.mp hp'
  have hn : p1.serial = p.serial := by simpa using List.find?_some e1
  rw [if_pos hn] at e2
  rw [← e2]
  exact hsafe p1 e1

/-- A drop set holds no locked saw when the solution holds none (R126). -/
theorem dropSetOf_safe (g : Geometry) (locked : SawSet) (sol : Solution) (ends : Option (Nat × Nat))
    (hw : sol.Whole) (hs : sol.kind = .normal → sol.sawSet &&& locked = 0) : dropSetOf g locked sol ends &&& locked = 0 := by
  unfold dropSetOf
  split
  · rename_i hk
    have hd := hs hk
    have hsaw : ∀ i, (maskOf 20 sol.saws).getLsbD i = true → locked.getLsbD i = false := by
      intro i hi
      exact (and_eq_zero.mp hd) i ((sub_eq_zero.mp hw) i hi)
    split
    · rw [and_eq_zero]
      intro i hi
      rw [maskOf_getLsbD, Bool.and_eq_true, decide_eq_true_eq] at hi
      rcases List.mem_append.mp hi.1 with hm | hm
      · refine hsaw i ?_
        rw [maskOf_getLsbD, Bool.and_eq_true, decide_eq_true_eq]
        exact ⟨hm, hi.2⟩
      · unfold chopSaws at hm
        rw [List.mem_filter] at hm
        have h1 := hm.2
        simp only [Bool.and_eq_true] at h1
        have h2 : has locked (i + 1) = false := by simpa using h1.1.1.1
        unfold has at h2
        simpa using h2
    · rw [and_eq_zero]
      exact hsaw
  · simp

theorem handOver (h : Kept q room s) (p : Piece) : Kept q room (s.handOver p) := by
  unfold State.handOver
  split
  · exact h
  · refine Kept.each _ _ (fun i _ s h => ?_) h
    split
    · exact h
    · exact h.addTo _ _

theorem pieceAt_piece {d : Deck} {n : Nat} {p : Piece} (h : d.pieceAt n = some p) : d.piece? p.serial = some p := by
  unfold Deck.pieceAt at h
  split at h
  · exact absurd h (by simp)
  · unfold Deck.pieceOf at h
    split at h
    · exact absurd h (by simp)
    · rename_i m _
      have : p.serial = m := by simpa using List.find?_some h
      rw [this]
      exact h

theorem commitAt (h : Kept q room s) (g : Geometry) : Kept q room (s.commitAt g) := by
  unfold State.commitAt
  split
  · exact h
  · rename_i p hp
    split
    · obtain ⟨h1, hl, hs⟩ := h.settleDeadline (pieceAt_piece hp)
      simp only []
      refine Kept.onAxCounts (Kept.handOver (Kept.onPiece h1 _ _ ?_ ?_) p) _ ?_ ?_ ?_ ?_
      · intro p1; rfl
      · intro p1 hp1 hk
        have hsafe := hs p1 hp1
        refine ⟨?_, ?_, hk.saws⟩
        · intro _
          unfold Piece.commitWith Piece.dropSet
          cases hsol : p1.solution with
          | none => simp
          | some sol =>
            simp only [Option.map_some, Option.getD_some]
            refine dropSetOf_safe _ _ _ _ (hk.saws sol hsol) ?_
            intro hkind
            rw [hl]
            exact hsafe sol hsol hkind
        · intro hst; exact absurd hst (by simp [Piece.commitWith])
      all_goals rfl
    · exact h

/-! ## Issue -/

theorem issue (h : Kept q room s) (g : Geometry) : Kept q room (s.issue g) := by
  unfold State.issue
  extract_lets tag tracking command
  have hc : command &&& s.ax.lockSet = 0 := by
    show (if tracking = true then s.dt.commandAt g else 0) &&& s.ax.lockSet = 0
    split
    · unfold Deck.commandAt
      split
      · rename_i p hp
        split
        · rename_i hst
          exact (h.locks.pieces _ p (pieceAt_piece hp)).committed hst
        · simp
      · simp
    · simp
  refine h.onAx _ rfl rfl ?_ ?_
  · show (if tracking = true then command else s.ax.sawOut) &&& s.ax.lockSet = 0
    split
    · exact hc
    · exact h.locks.out
  · intro w hw
    rcases List.mem_cons.mp hw with rfl | hw
    · exact hc
    · exact h.locks.window w (List.mem_of_mem_take hw)

/-! ## Bins -/

theorem testBin (h : Kept q room s) (g : Geometry) (b : Nat) : Kept q room (s.testBin g b) := by
  unfold State.testBin
  split
  · exact h
  · split
    · exact h
    · rename_i station _ _ p hp
      split
      · rename_i c hst _
        split
        · simp only []
          have h1 : Kept q room ((s.onPiece p.serial (fun p =>
              { p with commit := p.commit.map (CommitPart.test station
                  (binAction g (s.binAvailable b) b c)) })).onBin b (Bin.test (binAction g (s.binAvailable b) b c))) := by
            refine Kept.onBin (Kept.onPiece h _ _ ?_ ?_) _ _
            · intro p1; rfl
            intro p1 hp1 hk
            have e : p1 = p := by
              have := pieceAt_piece hp
              rw [hp1] at this
              injection this
            refine ⟨?_, hk.solved, hk.saws⟩
            intro hc
            rw [e] at hc
            exact absurd (hst.symm.trans hc) (by simp)
          split
          · exact h1.sortPiece _ _
          · exact h1
        · exact h
      · exact h

theorem testBins (h : Kept q room s) (g : Geometry) : Kept q room (s.testBins g) :=
  Kept.each _ _ (fun b _ _ h => h.testBin g b) h

theorem fallOut (h : Kept q room s) (g : Geometry) : Kept q room (s.fallOut g) := by
  unfold State.fallOut
  split
  · exact h
  · split
    · have h1 := h.sortPiece ‹Piece›.serial 0
      revert h1
      generalize State.sortPiece _ 0 s = x
      intro h1
      exact h1.onAxCounts _ rfl rfl rfl rfl
    · exact h

end Kept

end Sys2Proof.Machine
end

