-- ==== Sys2Proof/Laws/KeptDeck.lean ====
section
/-! SUPPORT. What the deck, its beats, the requests, the resets and the works keep. -/

namespace Sys2Proof.Machine

variable {q : Fixed} {room : Nat} {s : State}

namespace Kept

/-! ## The deck -/

theorem reportDeck (h : Kept q room s) (old new : DeckState) : Kept q room (s.reportDeck old new) := by
  unfold State.reportDeck
  have h1 := h.notify .deck
  simp only []
  split
  · exact (h1.notify _).onXiSame _ rfl rfl rfl rfl rfl
  · exact h1

theorem leaveRunning (h : Kept q room s) : Kept q room s.leaveRunning :=
  Kept.suspendSearch (h.onDtSame (fun d => { d with restartPending := false }) rfl rfl rfl rfl)

theorem startStandby (h : Kept q room s) : Kept q room s.startStandby :=
  h.onSaSame (fun sa => { sa with standbyTimer := true }) rfl

theorem markStale_eq (p : Piece) : p.markStale.serial = p.serial ∧ p.markStale.state = p.state
    ∧ p.markStale.commit = p.commit ∧ p.markStale.solution = p.solution := by
  unfold Piece.markStale
  split <;> exact ⟨rfl, rfl, rfl, rfl⟩

theorem wakeLine (h : Kept q room s) : Kept q room s.wakeLine := by
  unfold State.wakeLine
  extract_lets long s1 s2
  have h1 : Kept q room s1 := h.wakeHeads
  have h2 : Kept q room s2 := by
    show Kept q room (if long = true then s1.onPieces Piece.markStale else s1)
    split
    · refine h1.onPieces _ (fun p => (markStale_eq p).1) ?_
      intro p hk
      exact hk.of_eq (markStale_eq p).2.1 (markStale_eq p).2.2.1 (markStale_eq p).2.2.2
    · exact h1
  clear_value s2
  exact h2.onSaSame (fun sa => { sa with longStop := false, standbyTimer := false }) rfl

theorem setDeck (h : Kept q room s) (new : DeckState) : Kept q room (s.setDeck new) := by
  unfold State.setDeck
  simp only []
  split
  · exact h
  · have h1 : Kept q room ((s.onDt (fun d => { d with state := new })).reportDeck s.dt.state new) :=
      (h.onDtSame (fun d => { d with state := new }) rfl rfl rfl rfl).reportDeck _ _
    generalize (s.onDt (fun d => { d with state := new })).reportDeck s.dt.state new = s1 at h1
    have h2 : Kept q room (if s.dt.state = .running then s1.leaveRunning else s1) := by
      split
      · exact h1.leaveRunning
      · exact h1
    generalize (if s.dt.state = .running then s1.leaveRunning else s1) = s2 at h2
    have h3 : Kept q room (if new = .faulted then s2.onAx Actuation.releaseAll else s2) := by
      split
      · exact h2.releaseAll
      · exact h2
    generalize (if new = .faulted then s2.onAx Actuation.releaseAll else s2) = s3 at h3
    have h4 : Kept q room (if stopsFromRunning s.dt.state new || (s.dt.state == .halted && new.stopped)
        then s3.startStandby else s3) := by
      split
      · exact h3.startStandby
      · exact h3
    generalize (if stopsFromRunning s.dt.state new || (s.dt.state == .halted && new.stopped)
        then s3.startStandby else s3) = s4 at h4
    split
    · have h5 := h4.wakeLine
      generalize s4.wakeLine = s5 at h5
      exact h5.onDtSame (fun d => { d with restartPending := restartDue s.dt.state d.loaded }) rfl rfl rfl rfl
    · exact h4

theorem addCause (h : Kept q room s) (c : CauseName) : Kept q room (s.addCause c) := by
  unfold State.addCause
  split
  · exact ((h.onDtSame (fun d => { d with causes := d.causes.add c }) rfl rfl rfl rfl).notify _).setDeck _
  · exact h

theorem clearStall (h : Kept q room s) : Kept q room s.clearStall :=
  h.onDtSame (fun d => { d with causes := { d.causes with stall := d.causes.stall.clear } }) rfl rfl rfl rfl

end Kept

/-! ## The moves of the map -/

theorem range_map_succ {α : Type} (n : Nat) (f : Nat → α) :
    (List.range (n + 1)).map f = f 0 :: (List.range n).map (fun i => f (i + 1)) := by
  rw [List.range_succ_eq_map, List.map_cons, List.map_map]
  rfl

theorem range_map_append {α : Type} (n : Nat) (f : Nat → α) :
    (List.range (n + 1)).map f = (List.range n).map f ++ [f n] := by
  rw [List.range_succ, List.map_append]
  rfl

theorem byte_sub_succ (a : Byte) (i : Nat) : a + 1 - BitVec.ofNat 8 (i + 1) = a - BitVec.ofNat 8 i := by
  rw [show BitVec.ofNat 8 (i + 1) = BitVec.ofNat 8 i + 1 from by
    apply BitVec.eq_of_toNat_eq; simp [BitVec.toNat_add, BitVec.toNat_ofNat]]
  generalize BitVec.ofNat 8 i = b
  bv_omega

theorem byte_add_succ (a : Byte) (i : Nat) : a + BitVec.ofNat 8 (i + 1 + 1) = a + 1 + BitVec.ofNat 8 (i + 1) := by
  rw [show BitVec.ofNat 8 (i + 1 + 1) = BitVec.ofNat 8 (i + 1) + 1 from by
    apply BitVec.eq_of_toNat_eq; simp [BitVec.toNat_add, BitVec.toNat_ofNat]]
  generalize BitVec.ofNat 8 (i + 1) = b
  bv_omega

/-- A forward beat keeps the map rigid (R2). -/
theorem Deck.Rigid.forward {room : Nat} {d : Deck} (h : d.Rigid room) : d.forward.Rigid room := by
  obtain ⟨hl, hu, hr⟩ := h
  have hhead : (d.upstream.headD (Lug.empty (d.tagCounter + 1))).tag = d.tagCounter + 1 := by
    cases hc : d.upstream with
    | nil => rfl
    | cons x rest =>
      rw [hc, List.length_cons, List.map_cons, range_map_succ] at hu
      exact (List.cons.inj hu).1
  refine ⟨?_, ?_, ?_⟩
  · show ((d.upstream.headD (Lug.empty (d.tagCounter + 1))) :: d.lugs.take 63).map (fun l => l.tag) = _
    rw [List.map_cons, hhead, List.map_take, hl, ← List.map_take, List.take_range]
    show (d.tagCounter + 1) :: (List.range 63).map (fun s => d.tagCounter - BitVec.ofNat 8 s)
      = (List.range (63 + 1)).map (fun s => d.tagCounter + 1 - BitVec.ofNat 8 s)
    rw [range_map_succ 63]
    congr 1
    · exact (BitVec.sub_zero _).symm
    · apply List.map_congr_left
      intro i _
      exact (byte_sub_succ _ _).symm
  · show d.upstream.tail.map (fun l => l.tag) = (List.range d.upstream.tail.length).map _
    cases hc : d.upstream with
    | nil => rfl
    | cons x rest =>
      rw [hc, List.length_cons, List.map_cons, range_map_succ] at hu
      injection hu with _ h2
      rw [List.tail_cons, h2]
      apply List.map_congr_left
      intro i _
      exact byte_add_succ _ _
  · show d.upstream.tail.length ≤ room
    rw [List.length_tail]
    omega

/-- A back beat keeps the map rigid, with one lug more upstream (R3). -/
theorem Deck.Rigid.backward {room : Nat} {d : Deck} (h : d.Rigid room) : d.backward.Rigid (room + 1) := by
  obtain ⟨hl, hu, hr⟩ := h
  cases hc : d.lugs with
  | nil => rw [hc] at hl; exact absurd (congrArg List.length hl) (by simp)
  | cons x rest =>
    rw [hc, List.map_cons, show (64 : Nat) = 63 + 1 from rfl, range_map_succ] at hl
    injection hl with h1 h2
    have hx : x.tag = d.tagCounter := by rw [h1]; exact BitVec.sub_zero _
    refine ⟨?_, ?_, ?_⟩
    · show (d.lugs.tail ++ [Lug.empty (d.tagCounter - 1 - 63)]).map (fun l => l.tag)
        = (List.range (63 + 1)).map (fun s => d.tagCounter - 1 - BitVec.ofNat 8 s)
      rw [hc, List.tail_cons, List.map_append, h2, range_map_append 63]
      congr 1
      apply List.map_congr_left
      intro i _
      have := byte_sub_succ (d.tagCounter - 1) i
      rw [BitVec.sub_add_cancel] at this
      exact this
    · show (d.lugs.head?.toList ++ d.upstream).map (fun l => l.tag)
        = (List.range (d.lugs.head?.toList ++ d.upstream).length).map
            (fun k => d.tagCounter - 1 + BitVec.ofNat 8 (k + 1))
      rw [hc]
      simp only [List.head?_cons, Option.toList_some, List.singleton_append, List.map_cons, List.length_cons, hu]
      rw [range_map_succ]
      congr 1
      · rw [hx]
        show d.tagCounter = d.tagCounter - 1 + 1
        rw [BitVec.sub_add_cancel]
      · apply List.map_congr_left
        intro i _
        rw [byte_add_succ, BitVec.sub_add_cancel]
    · show (d.lugs.head?.toList ++ d.upstream).length ≤ room + 1
      rw [hc]
      simp
      exact hr

namespace Kept

theorem forward (h : Kept q room s) : Kept q room (s.onDt Deck.forward) :=
  ⟨h.pending, h.mem, h.rigid.forward, h.ring, h.heads, { h.sized with pieces := h.sized.pieces },
    ⟨h.locks.out, h.locks.window, h.locks.pieces⟩, h.runs, h.serials⟩

theorem backward (h : Kept q room s) : Kept q (room + 1) (s.onDt Deck.backward) :=
  ⟨h.pending, h.mem, h.rigid.backward, h.ring, h.heads, { h.sized with pieces := h.sized.pieces },
    ⟨h.locks.out, h.locks.window, h.locks.pieces⟩, h.runs, h.serials⟩

theorem takeEight (h : Kept q 9 s) : Kept q 8 (s.onDt (fun d => { d with upstream := d.upstream.take 8 })) := by
  refine ⟨h.pending, h.mem, ⟨h.rigid.lugs, ?_, ?_⟩, h.ring, h.heads, { h.sized with pieces := h.sized.pieces },
    ⟨h.locks.out, h.locks.window, h.locks.pieces⟩, h.runs, h.serials⟩
  · show (s.dt.upstream.take 8).map (fun l => l.tag) = (List.range (s.dt.upstream.take 8).length).map _
    rw [List.map_take, h.rigid.upstream, ← List.map_take, List.take_range, List.length_take]
    rfl
  · show (s.dt.upstream.take 8).length ≤ 8
    rw [List.length_take]; omega

theorem dropNinth (h : Kept q 9 s) : Kept q 8 s.dropNinth := by
  unfold State.dropNinth
  split
  · rename_i hn
    have hl : s.dt.upstream.length ≤ 8 := by simpa using List.getElem?_eq_none_iff.mp hn
    exact ⟨h.pending, h.mem, ⟨h.rigid.lugs, h.rigid.upstream, hl⟩, h.ring, h.heads, h.sized, h.locks, h.runs, h.serials⟩
  · refine Kept.takeEight ?_
    split
    · exact h.losePiece _
    · exact h

/-! ## Admission and the presence checks -/

theorem admitBoard (h : Kept q room s) (a : Area) (handLoaded : Bool) (hn : s.dt.pieces.length < 96) :
    Kept q room (s.admitBoard a handLoaded) := by
  unfold State.admitBoard
  extract_lets serial tag run pieces
  have h1 : Kept q room (s.onDt (fun d =>
      { d with pieces, nextSerial := nextSerialAfter pieces serial })) := by
    refine ⟨h.pending, h.mem, ⟨h.rigid.lugs, h.rigid.upstream, h.rigid.room⟩, h.ring, h.heads,
      { h.sized with pieces := ?_ }, ⟨h.locks.out, h.locks.window, ?_⟩,
       h.runs, h.serials.admission (Piece.fresh serial tag run handLoaded) pieces rfl rfl hn rfl rfl⟩
    · simp only [State.onDt_dt, pieces, List.length_append, List.length_singleton]
      omega
    · intro m p hp
      simp only [State.onDt_dt, Deck.piece?, pieces, List.find?_append] at hp
      rcases Option.or_eq_some_iff.mp hp with hp | ⟨_, hp⟩
      · exact h.locks.pieces m p hp
      · rw [List.find?_cons] at hp
        split at hp
        · injection hp with hp
          rw [← hp]
          exact Piece.KeepsOff.other (fun sol e => absurd e (by simp [Piece.fresh])) (by simp [Piece.fresh])
            (by simp [Piece.fresh])
        · exact absurd hp (by simp)
  refine Kept.syncHolds (Kept.onArea (Kept.onLugAt h1 0 _ ?_) a (fun e => { e with live := e.live + 1 }) (fun _ => rfl)
    (fun _ => rfl))
  intro x; rfl

theorem markStranger (h : Kept q room s) (n : Nat) : Kept q room (s.markStranger n) := by
  refine Kept.countStranger (Kept.onLugAt h n _ ?_)
  intro x; rfl

theorem offerLug (h : Kept q room s) (wood : Bool) : Kept q room (s.offerLug wood) := by
  unfold State.offerLug
  split
  · split
    · split
      · rename_i hc
        rw [Bool.and_eq_true] at hc
        exact h.admitBoard _ _ (by simpa [Deck.entryFree] using hc.2)
      · split
        · rename_i hc
          unfold State.handLoadAllowed at hc
          simp only [Bool.and_eq_true] at hc
          exact h.admitBoard _ _ (by simpa [Deck.entryFree] using hc.2.1.1.2)
        · exact h.markStranger 0
    · exact h.markStranger 0
  · exact h

theorem checkTrim (h : Kept q room s) (g : Geometry) (wood : Bool) : Kept q room (s.checkTrim g wood) := by
  unfold State.checkTrim
  split
  · exact h
  · split
    · split
      · exact (h.releaseTag _).losePiece _
      · exact h
    · split
      · exact h.markStranger _
      · exact h

theorem checkEnd (h : Kept q room s) (g : Geometry) (wood : Bool) : Kept q room (s.checkEnd g wood) := by
  unfold State.checkEnd
  split
  · exact h
  · split
    · split
      · refine Kept.onLugAt (Kept.countDropMiss h _) _ _ ?_
        intro x; rfl
      · exact h
    · exact h

theorem checkLoader (h : Kept q room s) (wood : Bool) : Kept q room (s.checkLoader wood) := by
  unfold State.checkLoader
  split
  · exact h
  · split
    · split
      · exact h.losePiece _
      · exact h
    · split
      · exact h.markStranger _
      · exact h

theorem checkRestart (h : Kept q room s) (g : Geometry) (eyes : Eyes) : Kept q room (s.checkRestart g eyes) :=
  (((h.onDtSame (fun d => { d with restartPending := false }) rfl rfl rfl rfl).checkEnd g _).checkTrim g _).checkLoader _

/-! ## Beats -/

theorem sortStage (h : Kept q room s) (g : Geometry) (advancing : Bool) (eyes : Eyes) :
    Kept q room (s.sortStage g advancing eyes) := by
  unfold State.sortStage
  have h1 := (h.fallOut g).testBins g
  simp only []
  split
  · exact (h1.checkEnd g _).checkTrim g _
  · exact h1

theorem scanStage (h : Kept q room s) (g : Geometry) : Kept q room (s.scanStage g) :=
  ((h.zoneEntry g _).alignBeat g _).sendBeats _ _ _

theorem stationActions (h : Kept q room s) (g : Geometry) (offered advancing : Bool) (eyes : Eyes)
    (feedback : SawSet) : Kept q room (s.stationActions g offered advancing eyes feedback) := by
  unfold State.stationActions
  have h1 : Kept q room (if offered = true then s.offerLug eyes.loader else s) := by
    split
    · exact h.offerLug _
    · exact h
  exact (((((h1.checkCut g feedback).sortStage g advancing eyes).commitAt g).issue g).closeAtZoneEnd g).scanStage g

theorem takeForward (h : Kept q room s) (g : Geometry) (eyes : Eyes) (feedback : SawSet) (restart : Eyes) :
    Kept q room (s.takeForward g eyes feedback restart) := by
  unfold State.takeForward
  have h1 : Kept q room (if s.dt.restartPending = true then s.checkRestart g restart else s) := by
    split
    · exact h.checkRestart g restart
    · exact h
  exact (h1.clearStall.forward).stationActions g _ _ eyes feedback

/-- What holds after the encoder alone has moved and after the beat holds after every motion. -/
theorem turnEncoder {r : Nat} (h : Kept q r s) (turn : Int) (beat : Geometry → State → State) (encoder : Int)
    (hb : ∀ g s, Kept q r s → Kept q r (beat g s)) : Kept q r (s.turnEncoder turn beat encoder) := by
  unfold State.turnEncoder
  have h1 : Kept q r (s.onDt (fun d => { d with encoder := encoder })) := h.onDtSame _ rfl rfl rfl rfl
  simp only []
  split
  · exact h1
  · split
    · exact h1
    · split
      · exact hb _ _ h1
      · exact h

theorem forwardBeat (h : Kept q room s) (encoder : Int) (eyes : Eyes) (feedback : SawSet) (restart : Eyes) :
    Kept q room (s.forwardBeat encoder eyes feedback restart) :=
  h.turnEncoder _ _ _ (fun g _ h => h.takeForward g _ _ _)

theorem testReverse (h : Kept q room s) : Kept q room s.testReverse := by
  unfold State.testReverse
  split
  · exact h.addCause _
  · exact h

theorem restartAfterBack (h : Kept q room s) (g : Geometry) (restart : Option Eyes) :
    Kept q room (s.restartAfterBack g restart) := by
  unfold State.restartAfterBack
  split
  · split
    · exact h.checkRestart g _
    · exact h
  · exact h

theorem takeBack (h : Kept q 8 s) (g : Geometry) (restart : Option Eyes) : Kept q 8 (s.takeBack g restart) := by
  unfold State.takeBack
  exact ((((h.clearStall.backward).dropNinth).backRelease g).suspendSearch.testReverse).restartAfterBack g restart

theorem backBeat (h : Kept q 8 s) (encoder : Int) (restart : Option Eyes) :
    Kept q 8 (s.backBeat encoder restart) := h.turnEncoder _ _ _ (fun g _ h => h.takeBack g _)

theorem changeRunLine (h : Kept q room s) (up : Bool) : Kept q room (s.changeRunLine up) := by
  unfold State.changeRunLine
  split
  · exact h
  · have h1 : Kept q room (s.onDt (fun d => { d with runLine := up })) := h.onDtSame _ rfl rfl rfl rfl
    simp only []
    split
    · unfold State.runLineUp
      split
      · exact h1.setDeck _
      · exact h1
    · unfold State.runLineDown
      have h2 := h1.clearStall
      simp only []
      split
      · exact h2.setDeck _
      · exact h2

theorem assertEstop (h : Kept q room s) : Kept q room s.assertEstop := by
  unfold State.assertEstop
  split
  · exact h
  · exact (h.onDtSame (fun d => { d with estop := true }) rfl rfl rfl rfl).addCause _

theorem releaseEstop (h : Kept q room s) : Kept q room s.releaseEstop := h.onDtSame _ rfl rfl rfl rfl

theorem expireStall (h : Kept q room s) : Kept q room s.expireStall := by
  unfold State.expireStall
  split
  · exact h.addCause _
  · exact h

theorem settleRestart (h : Kept q room s) (eyes : Eyes) : Kept q room (s.settleRestart eyes) := by
  unfold State.settleRestart
  split
  · split
    · exact h.checkRestart _ _
    · exact h
  · exact h

/-! ## Requests -/

theorem serveSetGeometry (h : Kept q room s) (r : Request) : Kept q room (s.serveSetGeometry r) := by
  unfold State.serveSetGeometry
  split
  · simp only []
    split
    · exact h.reply _ _ _ _
    · exact ((h.onDtSame (fun d => { d with geometry := some (geometryOf (geometryFields s.mem)) }) rfl rfl rfl
        rfl).setDeck _).reply _ _ _ _
  · exact h.reply _ _ _ _

theorem serveStartLine (h : Kept q room s) (r : Request) : Kept q room (s.serveStartLine r) := by
  unfold State.serveStartLine
  split
  · exact ((h.onDtSame (fun d => { d with position := 0, highWater := 0 }) rfl rfl rfl rfl).setDeck _).reply _ _ _ _
  · exact h.reply _ _ _ _

theorem serveResume (h : Kept q room s) (r : Request) : Kept q room (s.serveResume r) := by
  unfold State.serveResume
  split
  · split
    · exact ((h.onDtSame Deck.resumed rfl rfl rfl rfl).setDeck _).reply _ _ _ _
    · exact h.reply _ _ _ _
  · exact h.reply _ _ _ _

theorem setHostHold (h : Kept q room s) (on : Bool) : Kept q room (s.setHostHold on) :=
  h.onDtSame (fun d => { d with hold := { d.hold with host := on } }) rfl rfl rfl rfl

theorem serveEnableHead (h : Kept q room s) (r : Request) : Kept q room (s.serveEnableHead r) := by
  unfold State.serveEnableHead
  simp only []
  split
  · exact h.reply _ _ _ _
  · split
    · exact (h.onHeadSame (r.byte 0x10) (fun hd => { hd with state := .linkFault, badRun := 0, rx := [] })
        (fun _ => rfl) (fun _ => rfl) (fun _ _ => Nat.zero_le _)).reply _ _ _ _
    · exact h.reply _ _ _ _

theorem serveDisableHead (h : Kept q room s) (r : Request) : Kept q room (s.serveDisableHead r) := by
  unfold State.serveDisableHead
  simp only []
  split
  · exact h.reply _ _ _ _
  · split
    · exact h.reply _ _ _ _
    · split
      · exact h.reply _ _ _ _
      · exact (h.onHeadSame (r.byte 0x10) (fun hd => { hd with state := .offline, badRun := 0, rx := [] })
          (fun _ => rfl) (fun _ => rfl) (fun _ _ => Nat.zero_le _)).reply _ _ _ _

theorem serveAlignHead (h : Kept q room s) (r : Request) : Kept q room (s.serveAlignHead r) := by
  unfold State.serveAlignHead
  simp only []
  split
  · exact h.reply _ _ _ _
  · split
    · exact h.reply _ _ _ _
    · split
      · exact h.reply _ _ _ _
      · split
        · exact h.reply _ _ _ _
        · exact (h.onDa (fun da => da.begin (r.byte 0x10) r.cell) (Nat.zero_le _)).keepInHand r

theorem serveCancelAlign (h : Kept q room s) (r : Request) : Kept q room (s.serveCancelAlign r) := by
  unfold State.serveCancelAlign
  split
  · exact h.reply _ _ _ _
  · exact (h.endSearch _).reply _ _ _ _

theorem serveActivateRules (h : Kept q room s) (r : Request) : Kept q room (s.serveActivateRules r) := by
  unfold State.serveActivateRules
  simp only []
  split
  · exact h.reply _ _ _ _
  · split
    · exact h.reply _ _ _ _
    · split
      · exact h.reply _ _ _ _
      · exact h.reply _ _ _ _
      · refine Kept.keepInHand (h.onRs _ ?_) r
        simp [RuleStore.stage]

theorem serveRemoteOverride (h : Kept q room s) (r : Request) : Kept q room (s.serveRemoteOverride r) := by
  unfold State.serveRemoteOverride
  split
  · exact h.reply _ _ _ _
  · split
    · exact h.reply _ _ _ _
    · exact (h.resolve _ _ _ _).reply _ _ _ _

theorem serveLockSaw (h : Kept q room s) (r : Request) : Kept q room (s.serveLockSaw r) := by
  unfold State.serveLockSaw
  simp only []
  split
  · exact h.reply _ _ _ _
  · exact (h.lockSaw _).reply _ _ _ _

theorem serveUnlockSaw (h : Kept q room s) (r : Request) : Kept q room (s.serveUnlockSaw r) := by
  unfold State.serveUnlockSaw
  simp only []
  split
  · exact h.reply _ _ _ _
  · refine Kept.reply (h.onSawShrink _ _ ?_) _ _ _ _
    intro w hw
    simp only [Saw.unlock, Saw.locked, Bool.false_or, Bool.and_eq_true] at hw
    simp [Saw.locked, hw.1]

theorem serveSetBin (h : Kept q room s) (r : Request) : Kept q room (s.serveSetBin r) := by
  unfold State.serveSetBin
  simp only []
  split
  · exact (h.onBin _ _).reply _ _ _ _
  · exact h.reply _ _ _ _

/-- The OPEN run drains where none drains yet. -/
theorem drainRun (h : Kept q room s) (a : Area) (reason : CloseReason) (h1 : (s.tu.entry a).run = some .opened)
    (h2 : s.tu.drainingArea = none) : Kept q room (s.drainRun a reason) := by
  refine Kept.writeHeader (Kept.onAreaRun h a _ ?_ ?_) a _
  · exact h.runs.inUse a (by rw [h1]; simp)
  · intro e
    exact Tally.no_draining h2 (otherArea a) e.symm

/-- A run starts in an area where the other area holds no OPEN run. -/
theorem startRun (h : Kept q room s) (a : Area) (number : Nat) (label : Word)
    (h1 : (s.tu.entry (otherArea a)).run ≠ some .opened) : Kept q room (s.startRun a number label) :=
  Kept.store (Kept.writeHeader (Kept.onAreaRun h a _ rfl (fun e => h1 e.symm)) a _) _ _

theorem openRunIn (h : Kept q room s) (a : Area) (label : Word) (h1 : (s.tu.entry a).area = .free)
    (h2 : s.tu.drainingArea = none) : Kept q room (s.openRunIn a label) := by
  have ha : (s.tu.entry a).run = none := h.runs.notInUse (by rw [h1]; simp)
  unfold State.openRunIn
  extract_lets number former s1 s2
  have h1 : Kept q room s1 ∧ (s1.tu.entry (otherArea a)).run ≠ some .opened := by
    show Kept q room (match s.tu.openArea with
        | some o => s.drainRun o .switch
        | none => s) ∧ ((match s.tu.openArea with
        | some o => s.drainRun o .switch
        | none => s).tu.entry (otherArea a)).run ≠ some .opened
    split
    · rename_i o ho
      have hr := Tally.openArea_run ho
      refine ⟨h.drainRun _ _ hr h2, ?_⟩
      have hne : o = otherArea a := by
        cases o <;> cases a <;> first | rfl | (rw [ha] at hr; exact absurd hr (by simp))
      subst hne
      have hd : ((s.drainRun (otherArea a) .switch).tu.entry (otherArea a)).run = some .draining := by cases a <;> rfl
      rw [hd]; simp
    · rename_i ho
      exact ⟨h, Tally.no_opened ho _⟩
  clear_value s1
  have h2 : Kept q room s2 :=
    (h1.1.startRun a number label h1.2).onTuSame (fun tu => { tu with nextRun := runAfter number, lastOpened := some a })
      rfl rfl rfl
  clear_value s2 former
  split
  · exact h2.closeIfDrained _
  · exact h2

theorem serveOpenRun (h : Kept q room s) (r : Request) : Kept q room (s.serveOpenRun r) := by
  unfold State.serveOpenRun
  simp only []
  split
  · exact h.reply _ _ _ _
  · rename_i hf
    split
    · exact h.reply _ _ _ _
    · rename_i hd
      split
      · exact h.reply _ _ _ _
      · exact (h.openRunIn _ _ (by simpa using hf) (by simpa using hd)).reply _ _ _ _

theorem serveCloseRun (h : Kept q room s) (r : Request) : Kept q room (s.serveCloseRun r) := by
  unfold State.serveCloseRun
  split
  · exact h.reply _ _ _ _
  · rename_i o ho
    split
    · exact h.reply _ _ _ _
    · rename_i hd
      exact ((h.drainRun _ _ (Tally.openArea_run ho) (by simpa using hd)).reply _ _ _ _).closeIfDrained _

theorem serveReleaseArea (h : Kept q room s) (r : Request) : Kept q room (s.serveReleaseArea r) := by
  unfold State.serveReleaseArea
  split
  · exact h.reply _ _ _ _
  · split
    · rename_i hh
      refine Kept.keepInHand (Kept.onAreaEnd h _ _ ?_) _
      show (s.tu.entry _).run = none
      exact h.runs.notInUse (by rw [hh]; simp)
    · exact h.reply _ _ _ _

theorem serveUnknownKind (h : Kept q room s) (r : Request) : Kept q room (s.serveUnknownKind r) :=
  (h.onXiSame (fun xi => { xi with unknownKinds := xi.unknownKinds + 1 }) rfl rfl rfl rfl rfl).reply _ _ _ _

/-- Every owner keeps the conditions. -/
theorem serve (h : Kept q room s) (kind : Option ReqKind) (r : Request) : Kept q room (s.serve kind r) := by
  unfold State.serve
  split
  · exact h.serveSetGeometry r
  · exact h.serveStartLine r
  · exact h.serveResume r
  · exact (h.setHostHold true).reply _ _ _ _
  · exact (h.setHostHold false).reply _ _ _ _
  · exact h.reply _ _ _ _
  · exact h.serveEnableHead r
  · exact h.serveDisableHead r
  · exact h.serveAlignHead r
  · exact h.serveCancelAlign r
  · exact h.serveActivateRules r
  · exact h.serveRemoteOverride r
  · exact h.serveLockSaw r
  · exact h.serveUnlockSaw r
  · exact h.serveSetBin r
  · exact h.serveOpenRun r
  · exact h.serveCloseRun r
  · exact h.serveReleaseArea r
  · exact h.serveUnknownKind r

theorem takeCell (h : Kept q room s) (kind : Option ReqKind) (cell : Nat) : Kept q room (s.takeCell kind cell) :=
  ((h.store _ _).onXiSame (fun xi => { xi with sweep := cellAfter cell, cellsTaken := xi.cellsTaken + 1 })
    rfl rfl rfl rfl rfl).serve _ _

theorem takeRow (h : Kept q room s) (kind : Option ReqKind) (cell : Nat) : Kept q room (s.takeRow kind cell) := by
  unfold State.takeRow
  split
  · exact h.takeCell _ _
  · exact h

theorem visitCell (h : Kept q room s) : Kept q room s.visitCell := by
  unfold State.visitCell
  split
  · exact h
  · split
    · exact h.takeCell _ _
    · exact h.onXiSame _ rfl rfl rfl rfl rfl

theorem visitNext (h : Kept q room s) (cell : Nat) : Kept q room (s.visitNext cell) := by
  unfold State.visitNext
  split
  · exact h.visitCell.endEvent _ _
  · exact h.visitCell

theorem visitCells (h : Kept q room s) (n : Nat) : Kept q room (State.visitCells n s) := by
  induction n generalizing s with
  | zero => exact h
  | succ n ih =>
    unfold State.visitCells
    split
    · exact h
    · exact ih (h.visitNext _)

theorem startSweep (h : Kept q room s) : Kept q room s.startSweep := by
  unfold State.startSweep
  have h1 := ((h.onXiSame (fun xi => { xi with sweeps := xi.sweeps + 1 }) rfl rfl rfl rfl rfl).readReleaseMark).readNotifyCount
  generalize ((s.onXi (fun xi => { xi with sweeps := xi.sweeps + 1 })).readReleaseMark).readNotifyCount = x at h1
  exact h1.onXiSame (fun xi => { xi with sweep := some 0 }) rfl rfl rfl rfl rfl

theorem tickSweep (h : Kept q room s) : Kept q room s.tickSweep := by
  unfold State.tickSweep
  refine Kept.endEvent ?_ _ _
  split
  · exact h.startSweep
  · exact h

theorem sweepCells (h : Kept q room s) : Kept q room s.sweepCells := (h.visitCells 32).tickSweep

/-! ## Resets -/

/-- After a port reset RESET_CAUSE reads PORT alone (R182). -/
theorem resetPort (h : Kept q room s) : Kept { q with cause := 2 } room s.resetPort :=
  h.onXiCause _ 2 rfl rfl rfl rfl rfl

theorem discardPiece (h : Kept q room s) (p : Piece) : Kept q room (s.discardPiece p) := by
  unfold State.discardPiece
  split
  · exact h
  · simp only []
    split
    · exact (h.addTo _ _).addTo _ _
    · exact h.addTo _ _

theorem discardPieces (h : Kept q room s) : Kept q room s.discardPieces := by
  unfold State.discardPieces
  have h1 := Kept.each s.dt.pieces State.discardPiece (fun p _ _ h => h.discardPiece p) h
  generalize s.each s.dt.pieces State.discardPiece = x at h1
  exact h1.onPiecesTable (fun _ => []) (by simp) (fun n p hp => absurd hp (by simp)) (List.nil_sublist _)

theorem clearMap (h : Kept q room s) : Kept q room (s.onDt Deck.clearMap) := by
  refine ⟨h.pending, h.mem, ⟨?_, rfl, Nat.zero_le _⟩, h.ring, h.heads, { h.sized with pieces := h.sized.pieces },
    ⟨h.locks.out, h.locks.window, h.locks.pieces⟩, h.runs, h.serials⟩
  simp only [State.onDt_dt, Deck.clearMap]
  rw [map_tag_map _ (fun l => Lug.empty l.tag) (fun _ => rfl)]
  exact h.rigid.lugs

theorem discardLog (h : Kept q room s) (r : LogRecord) : Kept q room (s.discardLog r) := by
  unfold State.discardLog
  have h1 := h.onTuSame (fun tu => { tu with unjournaledLogs := tu.unjournaledLogs + 1 }) rfl rfl rfl
  simp only []
  split
  · exact h1.addException _ _
  · exact h1

theorem discardLogs (h : Kept q room s) : Kept q room s.discardLogs := by
  unfold State.discardLogs
  have h1 := Kept.each s.tu.pendingLogs State.discardLog (fun r _ _ h => h.discardLog r) h
  generalize s.each s.tu.pendingLogs State.discardLog = x at h1
  exact (h1.onTuLogs (fun tu => { tu with pendingLogs := [] }) (Nat.zero_le _) rfl rfl).onXiSame
    (fun xi => { xi with waiting := [] }) rfl rfl rfl rfl rfl

theorem closeAtReset (h : Kept q room s) (a : Option Area) : Kept q room (s.closeAtReset a) := by
  unfold State.closeAtReset
  split
  · exact h
  · exact (h.onArea _ (fun e => { e with reason := some .lineReset, live := 0, logPending := 0 }) (fun _ => rfl)
      (fun _ => rfl)).closeRun _

theorem resetRuns (h : Kept q room s) : Kept q room s.resetRuns :=
  ((h.discardLogs).closeAtReset _).closeAtReset _

theorem resetScan (h : Kept q room s) : Kept q room s.resetScan := by
  unfold State.resetScan
  have h1 := (h.onSaSame (fun sa => { sa with standbyTimer := false, longStop := false }) rfl).endSearch .lineReset
  generalize (s.onSa (fun sa => { sa with standbyTimer := false, longStop := false })).endSearch .lineReset = x at h1
  refine h1.onSa _ ?_ ?_
  · rw [List.length_map]; exact h1.sized.heads
  · intro hd hm
    obtain ⟨hd0, h0, rfl⟩ := List.mem_map.mp hm
    exact ⟨Nat.le_refl _, (h1.heads.heads hd0 h0).2⟩

theorem resetDeck (h : Kept q room s) : Kept q room s.resetDeck := by
  unfold State.resetDeck
  have h1 : Kept q room (s.onDt Deck.lineReset) := h.onDtSame _ rfl rfl rfl rfl
  simp only []
  split
  · exact h1.notify _
  · exact h1

theorem resetCause_line (xi : Exchange) :
    ({ xi with causeLine := true } : Exchange).resetCause = xi.resetCause ||| 4 := by
  unfold Exchange.resetCause
  simp only []
  cases xi.causePower <;> cases xi.causePort <;> cases xi.causeLine <;> rfl

/-- After a line reset RESET_CAUSE reads LINE too (R163). -/
theorem lineReset (h : Kept q room s) : Kept { q with cause := q.cause ||| 4 } room s.lineReset := by
  unfold State.lineReset
  have h1 := ((h.resetScan.onTs Solver.lineReset).discardPieces).clearMap
  simp only []
  generalize ((s.resetScan.onTs Solver.lineReset).discardPieces).onDt Deck.clearMap = s1 at h1
  have h2 := (h1.onRs (fun rs => { rs with slots := rs.slots.map Slot.lineReset }) (List.length_map _)).resetRuns
  generalize (s1.onRs (fun rs => { rs with slots := rs.slots.map Slot.lineReset })).resetRuns = s2 at h2
  have h3 : Kept q room (s2.onOu (fun ou => { ou with stations := ou.stations.map Station.lineReset })) := by
    refine h2.onOu _ ?_ ?_
    · rw [List.length_map]; exact h2.sized.stations
    · intro st hm
      obtain ⟨st0, _, rfl⟩ := List.mem_map.mp hm
      exact Nat.zero_le _
  generalize s2.onOu (fun ou => { ou with stations := ou.stations.map Station.lineReset }) = s3 at h3
  have h4 : Kept q room (s3.onAx Actuation.lineReset) :=
    h3.onAx _ rfl (List.length_map _) (by simp [Actuation.lineReset]) (by simp [Actuation.lineReset])
  generalize s3.onAx Actuation.lineReset = s4 at h4
  have h5 := h4.resetDeck
  generalize s4.resetDeck = s5 at h5
  exact h5.onXiCause (fun xi => { xi with causeLine := true }) _ rfl rfl rfl rfl
    ((resetCause_line s5.xi).trans (by rw [h5.ring.cause]))

theorem writeExchCtl (h : Kept q room s) (value : Word) :
    Kept { q with cause := if value.getLsbD 1 then q.cause ||| 4 else q.cause } room (s.writeExchCtl value) := by
  unfold State.writeExchCtl
  have h1 : Kept q room (s.onXi (fun xi => { xi with enable := value.getLsbD 0 })) := h.onXiSame _ rfl rfl rfl rfl rfl
  simp only []
  split
  · exact h1.lineReset
  · exact h1

theorem clearNotice (h : Kept q room s) (value : Word) : Kept q room (s.clearNotice value) := h.setNotice _ _

theorem writeMask (h : Kept q room s) (value : Word) : Kept q room (s.writeMask value) := h.setNotice _ _

theorem configurePort (h : Kept q room s) (port : Bool) : Kept q room (s.configurePort port) :=
  h.onXiSame _ rfl rfl rfl rfl rfl

/-- A read of RESET_CAUSE empties it (R163). -/
theorem readResetCause (h : Kept q room s) : Kept { q with cause := 0 } room s.readResetCause :=
  (h.emit _).onXiCause _ 0 rfl rfl rfl rfl rfl

theorem writeRegister (h : Kept q room s) (offset : Nat) (value : Word) :
    Kept { q with cause := if offset = 0x04 ∧ value.getLsbD 1 = true then q.cause ||| 4 else q.cause } room
      (s.writeRegister offset value) := by
  unfold State.writeRegister
  by_cases ho : offset = 0x04
  · simp only [ho, true_and, if_true]
    exact h.writeExchCtl value
  · rw [if_neg ho, if_neg (fun x => ho x.1)]
    split
    · exact h.clearNotice _
    · split
      · exact h.writeMask _
      · exact h

/-! ## Works -/

theorem completeClearing (h : Kept q room s) (a : Area) : Kept q room (s.completeClearing a) := by
  unfold State.completeClearing
  split
  · rename_i hc
    simp only []
    refine Kept.endInHand (Kept.onAreaEnd (h.zeroThrough a areaWords) a _ ?_) _ _ _ _
    show (s.tu.entry a).run = none
    exact h.runs.notInUse (by rw [hc]; simp)
  · exact h

theorem endGate (h : Kept q room s) (b : Nat) : Kept q room (s.endGate b) := h.onBin b _

theorem setFull (h : Kept q room s) (b : Nat) (level : Bool) : Kept q room (s.setFull b level) := h.onBin b _

end Kept

/-! ## Power-on -/

/-- The part right after power-on meets every condition. -/
theorem Kept.powerOn (inputs : Inputs) : Kept { queue := [], cause := 1 } 8 (State.powerOn inputs) := by
  refine ⟨rfl, Memory.wf_splice _ _ rfl, ⟨?_, rfl, Nat.zero_le _⟩,
    ⟨show 0 < journalUnits by decide, show 0 < journalUnits by decide, ?_, Nat.zero_le _, rfl⟩, ⟨?_, Nat.zero_le _⟩,
    ⟨rfl, rfl, rfl, rfl, ?_, Nat.zero_le _, Nat.zero_le _, ?_⟩, ⟨?_, ?_, ?_⟩, ⟨fun _ => rfl, ?_⟩, ?_⟩
  · simp only [State.powerOn, Deck.powerOn, emptyMap, List.map_map]
    rfl
  · intro u hu; exact absurd hu (by simp [State.powerOn, Exchange.powerOn])
  · intro hd hm
    simp only [State.powerOn, Scan.powerOn, List.mem_replicate] at hm
    rw [hm.2]
    decide
  · simp [State.powerOn, Actuation.powerOn]
  · intro st hm
    simp only [State.powerOn, Overrides.powerOn, List.mem_replicate] at hm
    rw [hm.2]
    decide
  · simp [State.powerOn, Actuation.powerOn]
  · intro w hw; exact absurd hw (by simp [State.powerOn, Actuation.powerOn])
  · intro n p hp; exact absurd hp (by simp [State.powerOn, Deck.powerOn, Deck.piece?])
  · intro a hn
    cases a <;> exact absurd rfl hn
  · simp [Deck.Distinct, State.powerOn, Deck.powerOn]

end Sys2Proof.Machine
end

