-- ==== Sys2Proof/Laws/Commands.lean ====
section
/-! SUPPORT. What each command is in terms of `completes` and `withHost`, one lemma for each constructor, what every
take of a request cell is, and the lemmas that lift a property of an effect to its command. -/

namespace Sys2Proof.Machine

variable (s : State)

theorem exec_powerOn (inputs : Inputs) : exec (.powerOn inputs) s = .next (s.powerUp inputs) := rfl

theorem exec_portReset : exec .portReset s = completes false State.resetPort s := rfl

theorem exec_lineReset (value : Word) :
    exec (.lineReset value) s = completes false (State.writeExchCtl value) s := rfl

theorem exec_lineResetInput : exec .lineResetInput s = completes false State.lineReset s := rfl

theorem exec_enable (value : Word) : exec (.enable value) s = completes false (State.writeExchCtl value) s := rfl

theorem exec_noticeClear (value : Word) :
    exec (.noticeClear value) s = completes false (State.clearNotice value) s := rfl

theorem exec_noticeMaskWrite (value : Word) (port : Bool) :
    exec (.noticeMaskWrite value port) s = completes false (fun s => (s.configurePort port).writeMask value) s := rfl

theorem exec_resetCauseRead : exec .resetCauseRead s = completes false State.readResetCause s := rfl

theorem exec_registerWriteOther (offset : Nat) (value : Word) :
    exec (.registerWriteOther offset value) s = completes false (State.writeRegister offset value) s := rfl

theorem exec_forwardBeat (encoder : Int) (eyes : Eyes) (feedback : SawSet) (restart : Eyes) :
    exec (.forwardBeat encoder eyes feedback restart) s
      = completes (takesBeat 1 encoder s) (State.forwardBeat encoder eyes feedback restart) s := rfl

theorem exec_backBeat (encoder : Int) (restart : Option Eyes) :
    exec (.backBeat encoder restart) s = completes (takesBeat (-1) encoder s) (State.backBeat encoder restart) s := rfl

theorem exec_deckRunLineChange (up : Bool) :
    exec (.deckRunLineChange up) s = completes false (State.changeRunLine up) s := rfl

theorem exec_estopAssert : exec .estopAssert s = completes false State.assertEstop s := rfl

theorem exec_estopRelease : exec .estopRelease s = completes false State.releaseEstop s := rfl

theorem exec_stallTimerExpiry : exec .stallTimerExpiry s = completes false State.expireStall s := rfl

theorem exec_restartCheck (eyes : Eyes) :
    exec (.restartCheck eyes) s = completes false (State.settleRestart eyes) s := rfl

theorem exec_sweep (host : List HostWrite) :
    exec (.sweep host) s =
      if hostInWindow host then .next (s.clearOut.hostWrites host).sweepCells else .fault .outsideWindow := rfl

theorem exec_headStatus (head : Nat) (identity condition clock : Word) :
    exec (.headStatus head identity condition clock) s
      = completes false (State.takeStatus head identity condition clock) s := rfl

theorem exec_headReport (head : Nat) (report : HeadReport) :
    exec (.headReport head report) s = completes false (State.takeReport head report) s := rfl

theorem exec_alignEcho (head : Nat) (seen : Bool) :
    exec (.alignEcho head seen) s = completes false (State.takeEchoFrame head seen) s := rfl

theorem exec_badFrame (head : Nat) : exec (.badFrame head) s = completes false (State.takeBad head) s := rfl

theorem exec_linkSilence (head : Nat) : exec (.linkSilence head) s = completes false (State.silence head) s := rfl

theorem exec_wakeTimeout (head : Nat) : exec (.wakeTimeout head) s = completes false (State.wakeExpires head) s := rfl

theorem exec_standbyTimerExpiry : exec .standbyTimerExpiry s = completes false State.expireStandby s := rfl

theorem exec_logReport (report : LogReport) :
    exec (.logReport report) s = completes false (State.takeLogReport report) s := rfl

theorem exec_logBadFrame : exec .logBadFrame s = completes false State.takeLogBad s := rfl

theorem exec_stagingCompletion (host : List HostWrite) :
    exec (.stagingCompletion host) s = withHost host (fun _ => false) State.completeStaging s := rfl

theorem exec_solveCompletion : exec .solveCompletion s = completes false State.completeSolve s := rfl

theorem exec_keyPress (station : Nat) (key : BitVec 4) (authority : Bool) :
    exec (.keyPress station key authority) s = completes false (State.pressKey station key authority) s := rfl

theorem exec_lampPulseEnd (station : Nat) :
    exec (.lampPulseEnd station) s = completes false (State.endPulse station) s := rfl

theorem exec_gatePulseEnd (bin : Nat) : exec (.gatePulseEnd bin) s = completes false (State.endGate bin) s := rfl

theorem exec_binFullChange (bin : Nat) (level : Bool) :
    exec (.binFullChange bin level) s = completes false (State.setFull bin level) s := rfl

theorem exec_clearingCompletion (area : Area) (host : List HostWrite) :
    exec (.clearingCompletion area host) s = withHost host (fun _ => false) (State.completeClearing area) s := rfl

/-- The take of a request cell. -/
theorem exec_take (kind : Option ReqKind) (cell : Nat) (host : List HostWrite) :
    exec (takeCommand kind cell host) s = withHost host (fun _ => false) (State.takeRow kind cell) s := by
  rcases kind with _ | kind
  · rfl
  · cases kind <;> rfl

variable {s}

theorem completes_next {always : Bool} {f : State → State} {t : State} (h : completes always f s = .next t) :
    t = s.event always f := by
  unfold completes at h
  injection h with h
  exact h.symm

theorem withHost_next {host : List HostWrite} {always : State → Bool} {f : State → State} {t : State}
    (h : withHost host always f s = .next t) :
    hostInWindow host = true ∧ t = s.event (always s) (fun s => f (s.hostWrites host)) := by
  unfold withHost at h
  split at h
  · rename_i hw
    injection h with h
    exact ⟨hw, h.symm⟩
  · exact absurd h (by simp)

theorem kept_ofCompletes {q q' : Fixed} {always : Bool} {f : State → State} {t : State} (h : Kept q 8 s)
    (hf : ∀ s, Kept q 8 s → Kept q' 8 (f s)) (e : completes always f s = .next t) : Kept q' 8 t := by
  rw [completes_next e]
  exact Kept.event _ h hf

theorem kept_ofWithHost {q : Fixed} {host : List HostWrite} {always : State → Bool} {f : State → State}
    {t : State} (h : Kept q 8 s) (hf : ∀ s, Kept q 8 s → Kept q 8 (f s))
    (e : withHost host always f s = .next t) : Kept q 8 t := by
  rw [(withHost_next e).2]
  exact Kept.event _ h (fun s h => hf _ (h.hostWrites host))

end Sys2Proof.Machine
end

