-- ==== Sys2Proof/Laws/Untouched.lean ====
section
/-! SUPPORT. What the composed operations leave alone: one lemma for each operation, which simp takes block by block. -/

namespace Sys2Proof.Machine

/-- What one operation of a list leaves alone, the whole list leaves alone. -/
theorem State.each_same {α β : Type} (view : State → β) (l : List α) (f : α → State → State)
    (h : ∀ x s, view (f x s) = view s) (s : State) : view (s.each l f) = view s := by
  unfold State.each
  induction l generalizing s with
  | nil => rfl
  | cons x rest ih => exact (ih (f x s)).trans (h x s)

@[simp] theorem State.layRecord_same (kind : RecordKind) (len : Nat) (body : List Byte) (s : State) :
    (s.layRecord kind len body).pending = s.pending ∧ (s.layRecord kind len body).out = s.out
    ∧ (s.layRecord kind len body).dt = s.dt ∧ (s.layRecord kind len body).sa = s.sa
    ∧ (s.layRecord kind len body).da = s.da ∧ (s.layRecord kind len body).rs = s.rs
    ∧ (s.layRecord kind len body).ts = s.ts ∧ (s.layRecord kind len body).ou = s.ou
    ∧ (s.layRecord kind len body).ax = s.ax ∧ (s.layRecord kind len body).tu = s.tu :=
  ⟨rfl, rfl, rfl, rfl, rfl, rfl, rfl, rfl, rfl, rfl⟩

@[simp] theorem State.layFiller_same (len : Nat) (s : State) :
    (s.layFiller len).pending = s.pending ∧ (s.layFiller len).out = s.out ∧ (s.layFiller len).dt = s.dt
    ∧ (s.layFiller len).sa = s.sa ∧ (s.layFiller len).da = s.da ∧ (s.layFiller len).rs = s.rs
    ∧ (s.layFiller len).ts = s.ts ∧ (s.layFiller len).ou = s.ou ∧ (s.layFiller len).ax = s.ax
    ∧ (s.layFiller len).tu = s.tu := by
  unfold State.layFiller
  split <;> simp

@[simp] theorem State.testNotify_same (s : State) :
    (s.testNotify).pending = s.pending ∧ (s.testNotify).mem = s.mem ∧ (s.testNotify).dt = s.dt
    ∧ (s.testNotify).sa = s.sa ∧ (s.testNotify).da = s.da ∧ (s.testNotify).rs = s.rs ∧ (s.testNotify).ts = s.ts
    ∧ (s.testNotify).ou = s.ou ∧ (s.testNotify).ax = s.ax ∧ (s.testNotify).tu = s.tu := by
  unfold State.testNotify
  split <;> simp

@[simp] theorem State.writeRecord_same (kind : RecordKind) (len : Nat) (body : List Byte) (s : State) :
    (s.writeRecord kind len body).pending = s.pending ∧ (s.writeRecord kind len body).dt = s.dt
    ∧ (s.writeRecord kind len body).sa = s.sa ∧ (s.writeRecord kind len body).da = s.da
    ∧ (s.writeRecord kind len body).rs = s.rs ∧ (s.writeRecord kind len body).ts = s.ts
    ∧ (s.writeRecord kind len body).ou = s.ou ∧ (s.writeRecord kind len body).ax = s.ax
    ∧ (s.writeRecord kind len body).tu = s.tu := by
  unfold State.writeRecord
  simp

@[simp] theorem State.writeHeader_same (a : Area) (n : Nat) (s : State) :
    (s.writeHeader a n).pending = s.pending ∧ (s.writeHeader a n).out = s.out ∧ (s.writeHeader a n).dt = s.dt
    ∧ (s.writeHeader a n).sa = s.sa ∧ (s.writeHeader a n).da = s.da ∧ (s.writeHeader a n).rs = s.rs
    ∧ (s.writeHeader a n).ts = s.ts ∧ (s.writeHeader a n).ou = s.ou ∧ (s.writeHeader a n).ax = s.ax
    ∧ (s.writeHeader a n).tu = s.tu ∧ (s.writeHeader a n).xi = s.xi :=
  ⟨rfl, rfl, rfl, rfl, rfl, rfl, rfl, rfl, rfl, rfl, rfl⟩

@[simp] theorem State.addException_same (a : Area) (e : Exception) (s : State) :
    (s.addException a e).pending = s.pending ∧ (s.addException a e).out = s.out ∧ (s.addException a e).dt = s.dt
    ∧ (s.addException a e).sa = s.sa ∧ (s.addException a e).da = s.da ∧ (s.addException a e).rs = s.rs
    ∧ (s.addException a e).ts = s.ts ∧ (s.addException a e).ou = s.ou ∧ (s.addException a e).ax = s.ax
    ∧ (s.addException a e).tu = s.tu ∧ (s.addException a e).xi = s.xi :=
  ⟨rfl, rfl, rfl, rfl, rfl, rfl, rfl, rfl, rfl, rfl, rfl⟩

@[simp] theorem State.addExceptionIf_same (c : Bool) (a : Area) (e : Exception) (s : State) :
    (s.addExceptionIf c a e).pending = s.pending ∧ (s.addExceptionIf c a e).out = s.out
    ∧ (s.addExceptionIf c a e).dt = s.dt ∧ (s.addExceptionIf c a e).sa = s.sa ∧ (s.addExceptionIf c a e).da = s.da
    ∧ (s.addExceptionIf c a e).rs = s.rs ∧ (s.addExceptionIf c a e).ts = s.ts ∧ (s.addExceptionIf c a e).ou = s.ou
    ∧ (s.addExceptionIf c a e).ax = s.ax ∧ (s.addExceptionIf c a e).tu = s.tu ∧ (s.addExceptionIf c a e).xi = s.xi := by
  unfold State.addExceptionIf
  split <;> simp

@[simp] theorem State.endCell_same (cell kind : Nat) (tag : Word) (result : Result) (detail : Word) (area : List Byte) (s : State) :
    (s.endCell cell kind tag result detail area).pending = s.pending
    ∧ (s.endCell cell kind tag result detail area).dt = s.dt
    ∧ (s.endCell cell kind tag result detail area).sa = s.sa
    ∧ (s.endCell cell kind tag result detail area).da = s.da
    ∧ (s.endCell cell kind tag result detail area).rs = s.rs
    ∧ (s.endCell cell kind tag result detail area).ts = s.ts
    ∧ (s.endCell cell kind tag result detail area).ou = s.ou
    ∧ (s.endCell cell kind tag result detail area).ax = s.ax
    ∧ (s.endCell cell kind tag result detail area).tu = s.tu := by
  unfold State.endCell
  split <;> simp

@[simp] theorem State.reply_same (r : Request) (result : Result) (detail : Word) (area : List Byte) (s : State) :
    (s.reply r result detail area).pending = s.pending ∧ (s.reply r result detail area).dt = s.dt
    ∧ (s.reply r result detail area).sa = s.sa ∧ (s.reply r result detail area).da = s.da
    ∧ (s.reply r result detail area).rs = s.rs ∧ (s.reply r result detail area).ts = s.ts
    ∧ (s.reply r result detail area).ou = s.ou ∧ (s.reply r result detail area).ax = s.ax
    ∧ (s.reply r result detail area).tu = s.tu := by
  unfold State.reply
  simp

@[simp] theorem State.endInHand_same (cell : Nat) (result : Result) (detail : Word) (area : List Byte) (s : State) :
    (s.endInHand cell result detail area).pending = s.pending ∧ (s.endInHand cell result detail area).dt = s.dt
    ∧ (s.endInHand cell result detail area).sa = s.sa ∧ (s.endInHand cell result detail area).da = s.da
    ∧ (s.endInHand cell result detail area).rs = s.rs ∧ (s.endInHand cell result detail area).ts = s.ts
    ∧ (s.endInHand cell result detail area).ou = s.ou ∧ (s.endInHand cell result detail area).ax = s.ax
    ∧ (s.endInHand cell result detail area).tu = s.tu := by
  unfold State.endInHand
  split <;> simp

@[simp] theorem State.keepInHand_same (r : Request) (s : State) :
    (s.keepInHand r).pending = s.pending ∧ (s.keepInHand r).out = s.out ∧ (s.keepInHand r).mem = s.mem
    ∧ (s.keepInHand r).dt = s.dt ∧ (s.keepInHand r).sa = s.sa ∧ (s.keepInHand r).da = s.da
    ∧ (s.keepInHand r).rs = s.rs ∧ (s.keepInHand r).ts = s.ts ∧ (s.keepInHand r).ou = s.ou
    ∧ (s.keepInHand r).ax = s.ax ∧ (s.keepInHand r).tu = s.tu :=
  ⟨rfl, rfl, rfl, rfl, rfl, rfl, rfl, rfl, rfl, rfl, rfl⟩

@[simp] theorem State.closeRun_same (a : Area) (s : State) :
    (s.closeRun a).pending = s.pending ∧ (s.closeRun a).dt = s.dt ∧ (s.closeRun a).sa = s.sa
    ∧ (s.closeRun a).da = s.da ∧ (s.closeRun a).rs = s.rs ∧ (s.closeRun a).ts = s.ts ∧ (s.closeRun a).ou = s.ou
    ∧ (s.closeRun a).ax = s.ax := by
  unfold State.closeRun
  simp

@[simp] theorem State.closeIfDrained_same (a : Area) (s : State) :
    (s.closeIfDrained a).pending = s.pending ∧ (s.closeIfDrained a).dt = s.dt ∧ (s.closeIfDrained a).sa = s.sa
    ∧ (s.closeIfDrained a).da = s.da ∧ (s.closeIfDrained a).rs = s.rs ∧ (s.closeIfDrained a).ts = s.ts
    ∧ (s.closeIfDrained a).ou = s.ou ∧ (s.closeIfDrained a).ax = s.ax := by
  unfold State.closeIfDrained
  split <;> simp

@[simp] theorem State.writeLog_same (r : LogRecord) (s : State) :
    (s.writeLog r).pending = s.pending ∧ (s.writeLog r).dt = s.dt ∧ (s.writeLog r).sa = s.sa
    ∧ (s.writeLog r).da = s.da ∧ (s.writeLog r).rs = s.rs ∧ (s.writeLog r).ts = s.ts ∧ (s.writeLog r).ou = s.ou
    ∧ (s.writeLog r).ax = s.ax ∧ (s.writeLog r).tu = s.tu := by
  unfold State.writeLog
  simp

@[simp] theorem State.writePending_same (s : State) :
    (s.writePending).pending = s.pending ∧ (s.writePending).dt = s.dt ∧ (s.writePending).sa = s.sa
    ∧ (s.writePending).da = s.da ∧ (s.writePending).rs = s.rs ∧ (s.writePending).ts = s.ts
    ∧ (s.writePending).ou = s.ou ∧ (s.writePending).ax = s.ax := by
  unfold State.writePending
  try simp only []
  repeat' split
  all_goals simp

@[simp] theorem State.retire_same (p : Piece) (s : State) :
    (s.retire p).pending = s.pending ∧ (s.retire p).sa = s.sa ∧ (s.retire p).da = s.da ∧ (s.retire p).ts = s.ts
    ∧ (s.retire p).ou = s.ou ∧ (s.retire p).ax = s.ax := by
  unfold State.retire
  try simp only []
  repeat' split
  all_goals simp

@[simp] theorem State.writePiece_same (p : Piece) (s : State) :
    (s.writePiece p).pending = s.pending ∧ (s.writePiece p).sa = s.sa ∧ (s.writePiece p).da = s.da
    ∧ (s.writePiece p).ts = s.ts ∧ (s.writePiece p).ou = s.ou ∧ (s.writePiece p).ax = s.ax := by
  unfold State.writePiece
  simp

@[simp] theorem State.writeWaiting_same (w : Waiting) (s : State) :
    (s.writeWaiting w).pending = s.pending ∧ (s.writeWaiting w).sa = s.sa ∧ (s.writeWaiting w).da = s.da
    ∧ (s.writeWaiting w).ts = s.ts ∧ (s.writeWaiting w).ou = s.ou ∧ (s.writeWaiting w).ax = s.ax := by
  unfold State.writeWaiting
  try simp only []
  repeat' split
  all_goals simp

@[simp] theorem State.drain_same (n : Nat) (s : State) :
    (State.drain n s).pending = s.pending ∧ (State.drain n s).sa = s.sa ∧ (State.drain n s).da = s.da
    ∧ (State.drain n s).ts = s.ts ∧ (State.drain n s).ou = s.ou ∧ (State.drain n s).ax = s.ax := by
  induction n generalizing s with
  | zero => exact ⟨rfl, rfl, rfl, rfl, rfl, rfl⟩
  | succ n ih =>
    unfold State.drain
    split
    · simp
    · split
      · simp [ih]
      · simp

@[simp] theorem State.drainAll_same (s : State) :
    (s.drainAll).pending = s.pending ∧ (s.drainAll).sa = s.sa ∧ (s.drainAll).da = s.da ∧ (s.drainAll).ts = s.ts
    ∧ (s.drainAll).ou = s.ou ∧ (s.drainAll).ax = s.ax := by
  unfold State.drainAll
  simp

@[simp] theorem State.askPiece_same (serial : Word) (s : State) :
    (s.askPiece serial).pending = s.pending ∧ (s.askPiece serial).sa = s.sa ∧ (s.askPiece serial).da = s.da
    ∧ (s.askPiece serial).ts = s.ts ∧ (s.askPiece serial).ou = s.ou ∧ (s.askPiece serial).ax = s.ax := by
  unfold State.askPiece
  split <;> simp

@[simp] theorem State.takeNext_same (s : State) :
    (s.takeNext).pending = s.pending ∧ (s.takeNext).out = s.out ∧ (s.takeNext).mem = s.mem ∧ (s.takeNext).sa = s.sa
    ∧ (s.takeNext).da = s.da ∧ (s.takeNext).rs = s.rs ∧ (s.takeNext).ou = s.ou ∧ (s.takeNext).ax = s.ax
    ∧ (s.takeNext).tu = s.tu ∧ (s.takeNext).xi = s.xi := by
  unfold State.takeNext
  try simp only []
  repeat' split
  all_goals simp

@[simp] theorem State.joinQueue_same (serial : Word) (s : State) :
    (s.joinQueue serial).pending = s.pending ∧ (s.joinQueue serial).out = s.out ∧ (s.joinQueue serial).mem = s.mem
    ∧ (s.joinQueue serial).sa = s.sa ∧ (s.joinQueue serial).da = s.da ∧ (s.joinQueue serial).rs = s.rs
    ∧ (s.joinQueue serial).ou = s.ou ∧ (s.joinQueue serial).ax = s.ax ∧ (s.joinQueue serial).tu = s.tu
    ∧ (s.joinQueue serial).xi = s.xi := by
  unfold State.joinQueue
  simp

@[simp] theorem State.leaveQueue_same (serial : Word) (s : State) :
    (s.leaveQueue serial).pending = s.pending ∧ (s.leaveQueue serial).out = s.out
    ∧ (s.leaveQueue serial).mem = s.mem ∧ (s.leaveQueue serial).dt = s.dt ∧ (s.leaveQueue serial).sa = s.sa
    ∧ (s.leaveQueue serial).da = s.da ∧ (s.leaveQueue serial).rs = s.rs ∧ (s.leaveQueue serial).ou = s.ou
    ∧ (s.leaveQueue serial).ax = s.ax ∧ (s.leaveQueue serial).tu = s.tu ∧ (s.leaveQueue serial).xi = s.xi :=
  ⟨rfl, rfl, rfl, rfl, rfl, rfl, rfl, rfl, rfl, rfl, rfl⟩

@[simp] theorem State.abandonSolve_same (serial : Word) (s : State) :
    (s.abandonSolve serial).pending = s.pending ∧ (s.abandonSolve serial).out = s.out
    ∧ (s.abandonSolve serial).mem = s.mem ∧ (s.abandonSolve serial).sa = s.sa ∧ (s.abandonSolve serial).da = s.da
    ∧ (s.abandonSolve serial).rs = s.rs ∧ (s.abandonSolve serial).ou = s.ou ∧ (s.abandonSolve serial).ax = s.ax
    ∧ (s.abandonSolve serial).tu = s.tu ∧ (s.abandonSolve serial).xi = s.xi := by
  unfold State.abandonSolve
  split <;> simp

@[simp] theorem State.detach_same (serial : Word) (run bin : Nat) (s : State) :
    (s.detach serial run bin).pending = s.pending ∧ (s.detach serial run bin).out = s.out
    ∧ (s.detach serial run bin).mem = s.mem ∧ (s.detach serial run bin).sa = s.sa
    ∧ (s.detach serial run bin).da = s.da ∧ (s.detach serial run bin).rs = s.rs
    ∧ (s.detach serial run bin).ts = s.ts ∧ (s.detach serial run bin).ou = s.ou
    ∧ (s.detach serial run bin).ax = s.ax ∧ (s.detach serial run bin).tu = s.tu
    ∧ (s.detach serial run bin).xi = s.xi :=
  ⟨rfl, rfl, rfl, rfl, rfl, rfl, rfl, rfl, rfl, rfl, rfl⟩

@[simp] theorem State.suspendSearch_same (s : State) :
    (s.suspendSearch).pending = s.pending ∧ (s.suspendSearch).out = s.out ∧ (s.suspendSearch).mem = s.mem
    ∧ (s.suspendSearch).dt = s.dt ∧ (s.suspendSearch).sa = s.sa ∧ (s.suspendSearch).rs = s.rs
    ∧ (s.suspendSearch).ts = s.ts ∧ (s.suspendSearch).ou = s.ou ∧ (s.suspendSearch).ax = s.ax
    ∧ (s.suspendSearch).tu = s.tu ∧ (s.suspendSearch).xi = s.xi := by
  unfold State.suspendSearch
  split <;> simp

@[simp] theorem State.enterReady_same (h : Nat) (step : Bool) (s : State) :
    (s.enterReady h step).pending = s.pending ∧ (s.enterReady h step).mem = s.mem ∧ (s.enterReady h step).dt = s.dt
    ∧ (s.enterReady h step).da = s.da ∧ (s.enterReady h step).rs = s.rs ∧ (s.enterReady h step).ts = s.ts
    ∧ (s.enterReady h step).ou = s.ou ∧ (s.enterReady h step).ax = s.ax ∧ (s.enterReady h step).tu = s.tu
    ∧ (s.enterReady h step).xi = s.xi := by
  unfold State.enterReady
  try simp only []
  repeat' split
  all_goals simp

@[simp] theorem State.endSearch_same (cause : SearchCause) (s : State) :
    (s.endSearch cause).pending = s.pending ∧ (s.endSearch cause).dt = s.dt ∧ (s.endSearch cause).rs = s.rs
    ∧ (s.endSearch cause).ts = s.ts ∧ (s.endSearch cause).ou = s.ou ∧ (s.endSearch cause).ax = s.ax
    ∧ (s.endSearch cause).tu = s.tu := by
  unfold State.endSearch
  try simp only []
  repeat' split
  all_goals simp

@[simp] theorem State.headFault_same (h : Nat) (s : State) :
    (s.headFault h).pending = s.pending ∧ (s.headFault h).dt = s.dt ∧ (s.headFault h).rs = s.rs
    ∧ (s.headFault h).ts = s.ts ∧ (s.headFault h).ou = s.ou ∧ (s.headFault h).ax = s.ax ∧ (s.headFault h).tu = s.tu := by
  unfold State.headFault
  try simp only []
  repeat' split
  all_goals simp

@[simp] theorem State.clearStall_same (s : State) :
    (s.clearStall).pending = s.pending ∧ (s.clearStall).out = s.out ∧ (s.clearStall).mem = s.mem
    ∧ (s.clearStall).sa = s.sa ∧ (s.clearStall).da = s.da ∧ (s.clearStall).rs = s.rs ∧ (s.clearStall).ts = s.ts
    ∧ (s.clearStall).ou = s.ou ∧ (s.clearStall).ax = s.ax ∧ (s.clearStall).tu = s.tu ∧ (s.clearStall).xi = s.xi :=
  ⟨rfl, rfl, rfl, rfl, rfl, rfl, rfl, rfl, rfl, rfl, rfl⟩

@[simp] theorem State.discardPiece_same (p : Piece) (s : State) :
    (s.discardPiece p).pending = s.pending ∧ (s.discardPiece p).out = s.out ∧ (s.discardPiece p).dt = s.dt
    ∧ (s.discardPiece p).sa = s.sa ∧ (s.discardPiece p).da = s.da ∧ (s.discardPiece p).rs = s.rs
    ∧ (s.discardPiece p).ts = s.ts ∧ (s.discardPiece p).ou = s.ou ∧ (s.discardPiece p).ax = s.ax
    ∧ (s.discardPiece p).tu = s.tu ∧ (s.discardPiece p).xi = s.xi := by
  unfold State.discardPiece
  try simp only []
  repeat' split
  all_goals simp

@[simp] theorem State.discardPieces_same (s : State) :
    (s.discardPieces).pending = s.pending ∧ (s.discardPieces).out = s.out ∧ (s.discardPieces).sa = s.sa
    ∧ (s.discardPieces).da = s.da ∧ (s.discardPieces).rs = s.rs ∧ (s.discardPieces).ts = s.ts
    ∧ (s.discardPieces).ou = s.ou ∧ (s.discardPieces).ax = s.ax ∧ (s.discardPieces).tu = s.tu
    ∧ (s.discardPieces).xi = s.xi := by
  unfold State.discardPieces
  have same : ∀ {β : Type} (view : State → β) (_ : ∀ p s, view (State.discardPiece p s) = view s), _ :=
    fun view h => State.each_same view s.dt.pieces State.discardPiece h s
  exact ⟨same (fun s => s.pending) (fun p s => by simp),
    same (fun s => s.out) (fun p s => by simp),
    same (fun s => s.sa) (fun p s => by simp),
    same (fun s => s.da) (fun p s => by simp),
    same (fun s => s.rs) (fun p s => by simp),
    same (fun s => s.ts) (fun p s => by simp),
    same (fun s => s.ou) (fun p s => by simp),
    same (fun s => s.ax) (fun p s => by simp),
    same (fun s => s.tu) (fun p s => by simp),
    same (fun s => s.xi) (fun p s => by simp)⟩

@[simp] theorem State.discardLog_same (r : LogRecord) (s : State) :
    (s.discardLog r).pending = s.pending ∧ (s.discardLog r).out = s.out ∧ (s.discardLog r).dt = s.dt
    ∧ (s.discardLog r).sa = s.sa ∧ (s.discardLog r).da = s.da ∧ (s.discardLog r).rs = s.rs
    ∧ (s.discardLog r).ts = s.ts ∧ (s.discardLog r).ou = s.ou ∧ (s.discardLog r).ax = s.ax
    ∧ (s.discardLog r).xi = s.xi := by
  unfold State.discardLog
  try simp only []
  repeat' split
  all_goals simp

@[simp] theorem State.discardLogs_same (s : State) :
    (s.discardLogs).pending = s.pending ∧ (s.discardLogs).out = s.out ∧ (s.discardLogs).dt = s.dt
    ∧ (s.discardLogs).sa = s.sa ∧ (s.discardLogs).da = s.da ∧ (s.discardLogs).rs = s.rs ∧ (s.discardLogs).ts = s.ts
    ∧ (s.discardLogs).ou = s.ou ∧ (s.discardLogs).ax = s.ax := by
  unfold State.discardLogs
  have same : ∀ {β : Type} (view : State → β) (_ : ∀ r s, view (State.discardLog r s) = view s), _ :=
    fun view h => State.each_same view s.tu.pendingLogs State.discardLog h s
  exact ⟨same (fun s => s.pending) (fun r s => by simp),
    same (fun s => s.out) (fun r s => by simp),
    same (fun s => s.dt) (fun r s => by simp),
    same (fun s => s.sa) (fun r s => by simp),
    same (fun s => s.da) (fun r s => by simp),
    same (fun s => s.rs) (fun r s => by simp),
    same (fun s => s.ts) (fun r s => by simp),
    same (fun s => s.ou) (fun r s => by simp),
    same (fun s => s.ax) (fun r s => by simp)⟩

@[simp] theorem State.closeAtReset_same (a : Option Area) (s : State) :
    (s.closeAtReset a).pending = s.pending ∧ (s.closeAtReset a).dt = s.dt ∧ (s.closeAtReset a).sa = s.sa
    ∧ (s.closeAtReset a).da = s.da ∧ (s.closeAtReset a).rs = s.rs ∧ (s.closeAtReset a).ts = s.ts
    ∧ (s.closeAtReset a).ou = s.ou ∧ (s.closeAtReset a).ax = s.ax := by
  unfold State.closeAtReset
  split <;> simp

@[simp] theorem State.resetRuns_same (s : State) :
    (s.resetRuns).pending = s.pending ∧ (s.resetRuns).dt = s.dt ∧ (s.resetRuns).sa = s.sa ∧ (s.resetRuns).da = s.da
    ∧ (s.resetRuns).rs = s.rs ∧ (s.resetRuns).ts = s.ts ∧ (s.resetRuns).ou = s.ou ∧ (s.resetRuns).ax = s.ax := by
  unfold State.resetRuns
  simp

@[simp] theorem State.resetScan_same (s : State) :
    (s.resetScan).pending = s.pending ∧ (s.resetScan).dt = s.dt ∧ (s.resetScan).rs = s.rs ∧ (s.resetScan).ts = s.ts
    ∧ (s.resetScan).ou = s.ou ∧ (s.resetScan).ax = s.ax ∧ (s.resetScan).tu = s.tu := by
  unfold State.resetScan
  simp

@[simp] theorem State.resetDeck_same (s : State) :
    (s.resetDeck).pending = s.pending ∧ (s.resetDeck).mem = s.mem ∧ (s.resetDeck).sa = s.sa
    ∧ (s.resetDeck).da = s.da ∧ (s.resetDeck).rs = s.rs ∧ (s.resetDeck).ts = s.ts ∧ (s.resetDeck).ou = s.ou
    ∧ (s.resetDeck).ax = s.ax ∧ (s.resetDeck).tu = s.tu := by
  unfold State.resetDeck
  try simp only []
  repeat' split
  all_goals simp

/-! ## The registers and marks of XI that no record and no end of a request reaches -/

@[simp] theorem State.layRecord_xi_same (kind : RecordKind) (len : Nat) (body : List Byte) (s : State) :
    (s.layRecord kind len body).xi.enable = s.xi.enable
    ∧ (s.layRecord kind len body).xi.noticeMask = s.xi.noticeMask ∧ (s.layRecord kind len body).xi.port = s.xi.port
    ∧ (s.layRecord kind len body).xi.causePower = s.xi.causePower
    ∧ (s.layRecord kind len body).xi.causePort = s.xi.causePort
    ∧ (s.layRecord kind len body).xi.causeLine = s.xi.causeLine
    ∧ (s.layRecord kind len body).xi.release = s.xi.release ∧ (s.layRecord kind len body).xi.waiting = s.xi.waiting
    ∧ (s.layRecord kind len body).xi.notifyCount = s.xi.notifyCount
    ∧ (s.layRecord kind len body).xi.releaseBad = s.xi.releaseBad
    ∧ (s.layRecord kind len body).xi.sweep = s.xi.sweep := by
  exact ⟨rfl, rfl, rfl, rfl, rfl, rfl, rfl, rfl, rfl, rfl, rfl⟩

@[simp] theorem State.layFiller_xi_same (len : Nat) (s : State) :
    (s.layFiller len).xi.enable = s.xi.enable ∧ (s.layFiller len).xi.noticeMask = s.xi.noticeMask
    ∧ (s.layFiller len).xi.port = s.xi.port ∧ (s.layFiller len).xi.causePower = s.xi.causePower
    ∧ (s.layFiller len).xi.causePort = s.xi.causePort ∧ (s.layFiller len).xi.causeLine = s.xi.causeLine
    ∧ (s.layFiller len).xi.release = s.xi.release ∧ (s.layFiller len).xi.waiting = s.xi.waiting
    ∧ (s.layFiller len).xi.notifyCount = s.xi.notifyCount ∧ (s.layFiller len).xi.releaseBad = s.xi.releaseBad
    ∧ (s.layFiller len).xi.sweep = s.xi.sweep := by
  unfold State.layFiller
  split
  · simp
  · cases RecordKind.filler <;> simp [countRecord]

@[simp] theorem State.testNotify_xi_same (s : State) :
    (s.testNotify).xi.enable = s.xi.enable ∧ (s.testNotify).xi.noticeMask = s.xi.noticeMask
    ∧ (s.testNotify).xi.port = s.xi.port ∧ (s.testNotify).xi.causePower = s.xi.causePower
    ∧ (s.testNotify).xi.causePort = s.xi.causePort ∧ (s.testNotify).xi.causeLine = s.xi.causeLine
    ∧ (s.testNotify).xi.release = s.xi.release ∧ (s.testNotify).xi.waiting = s.xi.waiting
    ∧ (s.testNotify).xi.notifyCount = s.xi.notifyCount ∧ (s.testNotify).xi.releaseBad = s.xi.releaseBad
    ∧ (s.testNotify).xi.sweep = s.xi.sweep := by
  unfold State.testNotify
  split <;> simp

@[simp] theorem State.writeRecord_xi_same (kind : RecordKind) (len : Nat) (body : List Byte) (s : State) :
    (s.writeRecord kind len body).xi.enable = s.xi.enable
    ∧ (s.writeRecord kind len body).xi.noticeMask = s.xi.noticeMask
    ∧ (s.writeRecord kind len body).xi.port = s.xi.port
    ∧ (s.writeRecord kind len body).xi.causePower = s.xi.causePower
    ∧ (s.writeRecord kind len body).xi.causePort = s.xi.causePort
    ∧ (s.writeRecord kind len body).xi.causeLine = s.xi.causeLine
    ∧ (s.writeRecord kind len body).xi.release = s.xi.release
    ∧ (s.writeRecord kind len body).xi.waiting = s.xi.waiting
    ∧ (s.writeRecord kind len body).xi.notifyCount = s.xi.notifyCount
    ∧ (s.writeRecord kind len body).xi.releaseBad = s.xi.releaseBad
    ∧ (s.writeRecord kind len body).xi.sweep = s.xi.sweep := by
  unfold State.writeRecord
  cases kind <;> simp [countRecord]

@[simp] theorem State.endCell_xi_same (cell kind : Nat) (tag : Word) (result : Result) (detail : Word) (area : List Byte) (s : State) :
    (s.endCell cell kind tag result detail area).xi.enable = s.xi.enable
    ∧ (s.endCell cell kind tag result detail area).xi.noticeMask = s.xi.noticeMask
    ∧ (s.endCell cell kind tag result detail area).xi.port = s.xi.port
    ∧ (s.endCell cell kind tag result detail area).xi.causePower = s.xi.causePower
    ∧ (s.endCell cell kind tag result detail area).xi.causePort = s.xi.causePort
    ∧ (s.endCell cell kind tag result detail area).xi.causeLine = s.xi.causeLine
    ∧ (s.endCell cell kind tag result detail area).xi.release = s.xi.release
    ∧ (s.endCell cell kind tag result detail area).xi.waiting = s.xi.waiting
    ∧ (s.endCell cell kind tag result detail area).xi.notifyCount = s.xi.notifyCount
    ∧ (s.endCell cell kind tag result detail area).xi.releaseBad = s.xi.releaseBad
    ∧ (s.endCell cell kind tag result detail area).xi.sweep = s.xi.sweep := by
  unfold State.endCell
  split <;> simp

@[simp] theorem State.reply_xi_same (r : Request) (result : Result) (detail : Word) (area : List Byte) (s : State) :
    (s.reply r result detail area).xi.enable = s.xi.enable
    ∧ (s.reply r result detail area).xi.noticeMask = s.xi.noticeMask
    ∧ (s.reply r result detail area).xi.port = s.xi.port
    ∧ (s.reply r result detail area).xi.causePower = s.xi.causePower
    ∧ (s.reply r result detail area).xi.causePort = s.xi.causePort
    ∧ (s.reply r result detail area).xi.causeLine = s.xi.causeLine
    ∧ (s.reply r result detail area).xi.release = s.xi.release
    ∧ (s.reply r result detail area).xi.waiting = s.xi.waiting
    ∧ (s.reply r result detail area).xi.notifyCount = s.xi.notifyCount
    ∧ (s.reply r result detail area).xi.releaseBad = s.xi.releaseBad
    ∧ (s.reply r result detail area).xi.sweep = s.xi.sweep := by
  unfold State.reply
  simp

@[simp] theorem State.endInHand_xi_same (cell : Nat) (result : Result) (detail : Word) (area : List Byte) (s : State) :
    (s.endInHand cell result detail area).xi.enable = s.xi.enable
    ∧ (s.endInHand cell result detail area).xi.noticeMask = s.xi.noticeMask
    ∧ (s.endInHand cell result detail area).xi.port = s.xi.port
    ∧ (s.endInHand cell result detail area).xi.causePower = s.xi.causePower
    ∧ (s.endInHand cell result detail area).xi.causePort = s.xi.causePort
    ∧ (s.endInHand cell result detail area).xi.causeLine = s.xi.causeLine
    ∧ (s.endInHand cell result detail area).xi.release = s.xi.release
    ∧ (s.endInHand cell result detail area).xi.waiting = s.xi.waiting
    ∧ (s.endInHand cell result detail area).xi.notifyCount = s.xi.notifyCount
    ∧ (s.endInHand cell result detail area).xi.releaseBad = s.xi.releaseBad
    ∧ (s.endInHand cell result detail area).xi.sweep = s.xi.sweep := by
  unfold State.endInHand
  split <;> simp

@[simp] theorem State.closeRun_xi_same (a : Area) (s : State) :
    (s.closeRun a).xi.enable = s.xi.enable ∧ (s.closeRun a).xi.noticeMask = s.xi.noticeMask
    ∧ (s.closeRun a).xi.port = s.xi.port ∧ (s.closeRun a).xi.causePower = s.xi.causePower
    ∧ (s.closeRun a).xi.causePort = s.xi.causePort ∧ (s.closeRun a).xi.causeLine = s.xi.causeLine
    ∧ (s.closeRun a).xi.release = s.xi.release ∧ (s.closeRun a).xi.waiting = s.xi.waiting
    ∧ (s.closeRun a).xi.notifyCount = s.xi.notifyCount ∧ (s.closeRun a).xi.releaseBad = s.xi.releaseBad
    ∧ (s.closeRun a).xi.sweep = s.xi.sweep := by
  unfold State.closeRun
  simp

@[simp] theorem State.closeIfDrained_xi_same (a : Area) (s : State) :
    (s.closeIfDrained a).xi.enable = s.xi.enable ∧ (s.closeIfDrained a).xi.noticeMask = s.xi.noticeMask
    ∧ (s.closeIfDrained a).xi.port = s.xi.port ∧ (s.closeIfDrained a).xi.causePower = s.xi.causePower
    ∧ (s.closeIfDrained a).xi.causePort = s.xi.causePort ∧ (s.closeIfDrained a).xi.causeLine = s.xi.causeLine
    ∧ (s.closeIfDrained a).xi.release = s.xi.release ∧ (s.closeIfDrained a).xi.waiting = s.xi.waiting
    ∧ (s.closeIfDrained a).xi.notifyCount = s.xi.notifyCount ∧ (s.closeIfDrained a).xi.releaseBad = s.xi.releaseBad
    ∧ (s.closeIfDrained a).xi.sweep = s.xi.sweep := by
  unfold State.closeIfDrained
  split <;> simp

end Sys2Proof.Machine
end

