-- ==== Sys2Proof/Laws/Drain.lean ====
section
/-! SUPPORT. The loops of the model one turn at a time: the waiting list (R173) and the visits of a sweep (R166); and
what a tally and an empty set of faulty saws leave alone. -/

namespace Sys2Proof.Machine

/-! ## Writing a record leaves the waiting list as it stands -/

@[simp] theorem State.retire_waiting (p : Piece) (s : State) : (s.retire p).xi.waiting = s.xi.waiting := by
  unfold State.retire
  cases p.generation <;> simp only [] <;> split <;> simp

@[simp] theorem State.writePiece_waiting (p : Piece) (s : State) : (s.writePiece p).xi.waiting = s.xi.waiting := by
  simp [State.writePiece]

@[simp] theorem State.writePending_waiting (s : State) : (s.writePending).xi.waiting = s.xi.waiting := by
  unfold State.writePending
  split
  · rfl
  · simp only [State.writeLog]
    split <;> simp

@[simp] theorem State.writeWaiting_waiting (w : Waiting) (s : State) :
    (s.writeWaiting w).xi.waiting = s.xi.waiting := by
  cases w with
  | piece serial => simp only [State.writeWaiting]; split <;> simp
  | log => simp [State.writeWaiting]

/-! ## The waiting list, one record at a time -/

theorem State.drainAll_empty {s : State} (h : s.xi.waiting = []) : s.drainAll = s := by
  simp [State.drainAll, h, State.drain]

/-- The head of the waiting list is written where it may be, and the rest drains after it (R173). -/
theorem State.drainAll_head {s : State} {w : Waiting} {rest : List Waiting} (h : s.xi.waiting = w :: rest) :
    s.drainAll = if mayWrite s w then
      ((s.onXi (fun xi => { xi with waiting := rest })).writeWaiting w).drainAll
    else s := by
  simp [State.drainAll, h, State.drain]

/-! ## The visits of a sweep, one cell at a time -/

theorem State.visitCells_none {s : State} (n : Nat) (h : s.xi.sweep = none) : State.visitCells n s = s := by
  cases n <;> simp [State.visitCells, h]

theorem State.visitCells_some {s : State} {cell : Nat} (n : Nat) (h : s.xi.sweep = some cell) :
    State.visitCells (n + 1) s = State.visitCells n (s.visitNext cell) := by
  simp [State.visitCells, h]

/-- A cell that can be taken is taken, and its event ends (R166). -/
theorem State.visitNext_takes {s : State} {cell : Nat} (h : s.xi.sweep = some cell) (take : s.takeable cell = true) :
    s.visitNext cell = (s.takeCell (ReqKind.ofCode (cellKind s.mem cell)) cell).endEvent false s.image := by
  simp [State.visitNext, State.visitCell, h, take]

/-- A cell that cannot be taken is passed. -/
theorem State.visitNext_passes {s : State} {cell : Nat} (h : s.xi.sweep = some cell)
    (pass : s.takeable cell = false) : s.visitNext cell = s.onXi (fun xi => { xi with sweep := cellAfter cell }) := by
  simp [State.visitNext, State.visitCell, h, pass]

/-! ## A tally changes memory alone -/

@[simp] theorem State.each_tallyProduct_dt (area : Area) (nominal : Nat × Nat) (size : Nat) (l : List Product)
    (s : State) : (s.each l (State.tallyProduct area nominal size)).dt = s.dt :=
  State.each_same (fun s => s.dt) l (State.tallyProduct area nominal size) (fun _ _ => rfl) s

@[simp] theorem State.tallyPiece_dt (p : Piece) (s : State) : (s.tallyPiece p).dt = s.dt := by
  unfold State.tallyPiece
  split
  · rfl
  · refine (State.each_same (fun s => s.dt) pieceExceptions _ (fun _ _ => ?_) _).trans ?_
    · simp
    · unfold State.tallyBin
      split
      · simp
      · exact State.each_tallyProduct_dt ..

/-- No faulty saw, no change. -/
@[simp] theorem State.faultSaws_zero (s : State) : s.faultSaws 0 = s := by
  have none : members 20 (0#20) = [] := by decide
  simp [State.faultSaws, none, State.each, Actuation.newlyFaulted, State.notifyTimes, State.joinLock]

end Sys2Proof.Machine
end

