-- ==== Sys2Proof/Laws/Frames.lean ====
section
/-! SUPPORT. The reading of a link's stream into frames: a frame taken is shorter than the stream, and the bound on
the frames taken plays no part once it covers the stream. -/

namespace Sys2Proof.Machine

/-- What follows the next delimiter is shorter than the bytes searched. -/
theorem afterDelimiter_shorter {bytes after : List Byte} (h : afterDelimiter bytes = some after) :
    after.length < bytes.length := by
  induction bytes with
  | nil => simp [afterDelimiter] at h
  | cons b t ih =>
    match t, ih with
    | [], _ => simp [afterDelimiter] at h
    | c :: r, ih =>
      unfold afterDelimiter at h
      split at h
      · injection h with h
        subst h
        simp
      · have := ih h
        simp at this ⊢
        omega

/-- The bytes that follow a stream's first frame are fewer than the stream's. -/
theorem takeFrame_shorter {bytes rest : List Byte} {f : Received} (h : takeFrame bytes = some (f, rest)) :
    rest.length < bytes.length := by
  have bad : ∀ l : List Byte, (afterDelimiter l).map (fun r => (Received.bad, r)) = some (f, rest) →
      rest.length < l.length := by
    intro l hl
    simp only [Option.map_eq_some_iff] at hl
    obtain ⟨after, h1, h2⟩ := hl
    injection h2 with _ h3
    exact h3 ▸ afterDelimiter_shorter h1
  unfold takeFrame at h
  split at h
  · dsimp only at h
    split at h
    · exact bad _ h
    · split at h
      · simp at h
      · split at h
        · injection h with h
          injection h with _ h
          subst h
          simp
          omega
        · exact bad _ h
  · simp at h

/-- Any bound that covers the stream takes the same frames of it. -/
theorem takeFrames_bound {n m : Nat} {bytes : List Byte} (hn : bytes.length ≤ n) (hm : bytes.length ≤ m) :
    takeFrames n bytes = takeFrames m bytes := by
  induction n generalizing m bytes with
  | zero =>
    have : bytes = [] := List.length_eq_zero_iff.mp (by omega)
    subst this
    cases m <;> rfl
  | succ n ih =>
    cases m with
    | zero =>
      have : bytes = [] := List.length_eq_zero_iff.mp (by omega)
      subst this
      rfl
    | succ m =>
      unfold takeFrames
      split
      · rfl
      · next f rest he =>
        have := takeFrame_shorter he
        rw [ih (m := m) (bytes := rest) (by omega) (by omega)]

end Sys2Proof.Machine
end

