-- ==== Sys2Proof/Laws/HostWrites.lean ====
section
/-! SUPPORT. What a host write finds of a clearing, how many words of an area it has passed and what the area's bytes
read (R151, log 21); what it leaves in a staging copy (R74, log 21); and what it leaves alone. -/

namespace Sys2Proof.Machine

theorem State.sweepThrough_entry (a b : Area) (n : Nat) (s : State) :
    (s.sweepThrough a n).tu.entry b =
      if b = a ∧ (s.tu.entry a).area = .clearing then
        { s.tu.entry a with swept := max (s.tu.entry a).swept n }
      else s.tu.entry b := by
  unfold State.sweepThrough
  split
  · rename_i h
    have e : max (s.tu.entry a).swept n = n := by omega
    cases a <;> cases b <;> simp_all [State.onArea, State.zeroThrough, Tally.entry]
  · rename_i h
    by_cases hc : b = a ∧ (s.tu.entry a).area = .clearing
    · have e : max (s.tu.entry a).swept n = (s.tu.entry a).swept := by
        have : ¬(s.tu.entry a).swept < n := fun x => h ⟨hc.2, x⟩
        omega
      rw [if_pos hc, e, hc.1]
    · rw [if_neg hc]

theorem State.read_sweepThrough (a : Area) (n : Nat) (s : State) (x : Nat) :
    (s.sweepThrough a n).mem.read x =
      if (s.tu.entry a).area = .clearing ∧ areaAddr a + 4 * (s.tu.entry a).swept ≤ x ∧ x < areaAddr a + 4 * n then 0
      else s.mem.read x := by
  unfold State.sweepThrough
  split
  · rename_i h
    have e : ((s.zeroThrough a n).onArea a (fun e => { e with swept := n })).mem
        = s.mem.zero (areaAddr a + 4 * (s.tu.entry a).swept) (4 * (n - (s.tu.entry a).swept)) := by
      cases a <;> rfl
    rw [e, Memory.read_zero]
    by_cases hx : areaAddr a + 4 * (s.tu.entry a).swept ≤ x ∧ x < areaAddr a + 4 * n
    · rw [if_neg (by omega), if_pos ⟨h.1, hx⟩]
    · rw [if_pos (by omega), if_neg (fun y => hx y.2)]
  · rename_i h
    rw [if_neg (fun y => h ⟨y.1, by omega⟩)]

/-! ## A staging copy and a host write (R74, log 21) -/

/-- The aligned words that a host write touches. -/
theorem mem_touchedWords (w : HostWrite) (a : Nat) : a ∈ touchedWords w ↔
    a % 4 = 0 ∧ w.bytes ≠ [] ∧ w.addr / 4 ≤ a / 4 ∧ a / 4 ≤ (w.addr + w.bytes.length - 1) / 4 := by
  unfold touchedWords
  by_cases h : w.bytes = []
  · simp [h]
  · have hl : w.bytes.length ≠ 0 := by simpa using h
    simp only [List.isEmpty_iff, h, if_false, List.mem_map, List.mem_range, ne_eq, not_false_eq_true, true_and]
    constructor
    · rintro ⟨i, hi, rfl⟩; omega
    · intro ⟨h1, h2, h3⟩
      exact ⟨a / 4 - w.addr / 4, by omega, by omega⟩

/-- What a staging keeps of words that it has read: the bytes of each word of its bank that it kept none of. -/
theorem Staging.keep_kept (m : Memory) (words : List Nat) (h4 : ∀ a ∈ words, a % 4 = 0) (st : Staging) :
    ∃ kept, st.keep m words = { st with kept } ∧ ∀ c, c ∈ kept ↔ c ∈ st.kept ∨ ∃ word ∈ words,
      bankAddr st.bank ≤ word ∧ word < bankAddr st.bank + bankBytes ∧ (∀ d ∈ st.kept, d.1 ≠ word)
      ∧ word ≤ c.1 ∧ c.1 < word + 4 ∧ c.2 = m.read c.1 := by
  induction words generalizing st with
  | nil => exact ⟨st.kept, rfl, by simp⟩
  | cons a rest ih =>
    have h4' := fun b hb => h4 b (List.mem_cons_of_mem _ hb)
    unfold Staging.keep
    rw [List.foldl_cons]
    split
    · rename_i h
      obtain ⟨k, e, f⟩ := ih h4' { st with kept := st.kept ++ [(a, m.read a), (a + 1, m.read (a + 1)),
        (a + 2, m.read (a + 2)), (a + 3, m.read (a + 3))] }
      refine ⟨k, e, fun c => ?_⟩
      rw [f c]
      have hall : ∀ d ∈ st.kept, d.1 ≠ a := by simpa using h.2.2
      have fresh : ∀ c : Host.Cell, a ≤ c.1 → c.1 < a + 4 → c.2 = m.read c.1 →
          c ∈ [(a, m.read a), (a + 1, m.read (a + 1)), (a + 2, m.read (a + 2)), (a + 3, m.read (a + 3))] := by
        rintro ⟨c1, c2⟩ h5 h6 h7
        simp only at h5 h6 h7
        have : c1 = a ∨ c1 = a + 1 ∨ c1 = a + 2 ∨ c1 = a + 3 := by omega
        rcases this with rfl | rfl | rfl | rfl <;> simp [h7]
      constructor
      · rintro (hc | ⟨w, hw, h1, h2, h3, h5⟩)
        · rcases List.mem_append.mp hc with hc | hc
          · exact Or.inl hc
          · refine Or.inr ⟨a, by simp, h.1, h.2.1, hall, ?_⟩
            simp only [List.mem_cons, List.not_mem_nil, or_false] at hc
            rcases hc with rfl | rfl | rfl | rfl <;> exact ⟨by simp, by simp, rfl⟩
        · exact Or.inr ⟨w, List.mem_cons_of_mem _ hw, h1, h2, fun d hd => h3 d (by simp [hd]), h5⟩
      · rintro (hc | ⟨w, hw, h1, h2, h3, h5, h6, h7⟩)
        · exact Or.inl (by simp [hc])
        · by_cases hwa : w = a
          · subst hwa
            exact Or.inl (List.mem_append_right _ (fresh c h5 h6 h7))
          · have hr : w ∈ rest := by
              rcases List.mem_cons.mp hw with h | h
              · exact absurd h hwa
              · exact h
            refine Or.inr ⟨w, hr, h1, h2, fun d hd => ?_, h5, h6, h7⟩
            rcases List.mem_append.mp hd with hd | hd
            · exact h3 d hd
            · have q1 := h4 w hw
              have q2 := h4 a (by simp)
              simp only [List.mem_cons, List.not_mem_nil, or_false] at hd
              rcases hd with rfl | rfl | rfl | rfl <;> simp only <;> omega
    · rename_i h
      obtain ⟨k, e, f⟩ := ih h4' st
      refine ⟨k, e, fun c => ?_⟩
      rw [f c]
      constructor
      · rintro (hc | ⟨w, hw, r⟩)
        · exact Or.inl hc
        · exact Or.inr ⟨w, List.mem_cons_of_mem _ hw, r⟩
      · rintro (hc | ⟨w, hw, h1, h2, h3, h5⟩)
        · exact Or.inl hc
        · rcases List.mem_cons.mp hw with rfl | hw
          · exact absurd ⟨h1, h2, by simpa using h3⟩ h
          · exact Or.inr ⟨w, hw, h1, h2, h3, h5⟩

/-! ## What a host write leaves alone -/

theorem State.passWords_same (w : HostWrite) (s : State) : s.passWords w =
    { s with
      mem := (s.passWords w).mem
      rs := { s.rs with staging := s.rs.staging.map (fun st => st.keep s.mem (touchedWords w)) }
      tu := { s.tu with areaA := (s.passWords w).tu.areaA, areaB := (s.passWords w).tu.areaB } } := by
  unfold State.passWords State.sweepThrough
  simp only
  split <;> split <;> rfl

/-- A host write changes memory, what a staging keeps, and how far a clearing has come. -/
theorem State.hostWrite_same (w : HostWrite) (s : State) : s.hostWrite w =
    { s with
      mem := (s.hostWrite w).mem
      rs := { s.rs with
              staging := if w.late then s.rs.staging.map (fun st => st.keep s.mem (touchedWords w)) else s.rs.staging }
      tu := { s.tu with areaA := (s.hostWrite w).tu.areaA, areaB := (s.hostWrite w).tu.areaB } } := by
  unfold State.hostWrite
  split
  · conv_lhs => rw [State.passWords_same]
    rfl
  · rfl

end Sys2Proof.Machine
end

