-- ==== Sys2Proof/WellFormed.lean ====
section
/-! DEFINITION. Which commands are well formed: operands within what the ports and windows of the part can
carry. `exec` is total on the others too; its docstrings say what each does there. -/

namespace Sys2Proof

/-- A head number 1..8. -/
def headInRange (h : Nat) : Bool := decide (1 ≤ h) && decide (h ≤ 8)

/-- A bin number 1..24. -/
def binInRange (b : Nat) : Bool := decide (1 ≤ b) && decide (b ≤ 24)

/-- A station number 1..2. -/
def stationInRange (n : Nat) : Bool := decide (1 ≤ n) && decide (n ≤ 2)

/-- A cell index 0..31 and host writes inside the window. -/
def requestInRange (cell : Nat) (host : List HostWrite) : Bool := decide (cell < 32) && Machine.hostInWindow host

/-- A command is well formed. -/
def Instr.wellFormed : Instr → Bool
  | .powerOn _ => true
  | .portReset => true
  | .lineReset value => value.getLsbD 1
  | .lineResetInput => true
  | .enable _ => true
  | .noticeClear _ => true
  | .noticeMaskWrite _ _ => true
  | .resetCauseRead => true
  | .registerWriteOther offset _ => offset != 0x04 && offset != 0x08 && offset != 0x0C
  | .forwardBeat _ _ _ _ => true
  | .backBeat _ _ => true
  | .deckRunLineChange _ => true
  | .estopAssert => true
  | .estopRelease => true
  | .stallTimerExpiry => true
  | .restartCheck _ => true
  | .sweep host => Machine.hostInWindow host
  | .setGeometry cell host => requestInRange cell host
  | .startLine cell host => requestInRange cell host
  | .resume cell host => requestInRange cell host
  | .holdLoader cell host => requestInRange cell host
  | .releaseLoader cell host => requestInRange cell host
  | .queryLug cell host => requestInRange cell host
  | .enableHead cell host => requestInRange cell host
  | .disableHead cell host => requestInRange cell host
  | .alignHead cell host => requestInRange cell host
  | .cancelAlign cell host => requestInRange cell host
  | .activateRules cell host => requestInRange cell host
  | .remoteOverride cell host => requestInRange cell host
  | .lockSaw cell host => requestInRange cell host
  | .unlockSaw cell host => requestInRange cell host
  | .setBin cell host => requestInRange cell host
  | .openRun cell host => requestInRange cell host
  | .closeRun cell host => requestInRange cell host
  | .releaseArea cell host => requestInRange cell host
  | .unknownKind cell host => requestInRange cell host
  | .headStatus head _ _ _ => headInRange head
  | .headReport head report => headInRange head && Machine.reportGood report
  | .alignEcho head _ => headInRange head
  | .badFrame head => headInRange head
  | .linkSilence head => headInRange head
  | .wakeTimeout head => headInRange head
  | .standbyTimerExpiry => true
  | .logReport report => Machine.logGood report
  | .logBadFrame => true
  | .stagingCompletion host => Machine.hostInWindow host
  | .solveCompletion => true
  | .keyPress station _ _ => stationInRange station
  | .lampPulseEnd station => stationInRange station
  | .gatePulseEnd bin => binInRange bin
  | .binFullChange bin _ => binInRange bin
  | .clearingCompletion _ host => Machine.hostInWindow host

end Sys2Proof
end

