-- ==== Sys2Proof/Laws/PerInstr.lean ====
section
/-! SUPPORT. The family `HostWrites`: a well-formed command's host writes lie inside the window BAR0. -/

namespace Sys2Proof.Laws.HostWrites

/-- Every host write that a well-formed command carries lies inside the window (R161). -/
def Statement (i : Sys2Proof.Instr) : Prop := i.wellFormed = true → Sys2Proof.Machine.hostInWindow i.host = true

theorem request {cell : Nat} {host : List Sys2Proof.HostWrite} (h : Sys2Proof.requestInRange cell host = true) :
    Sys2Proof.Machine.hostInWindow host = true := by
  unfold Sys2Proof.requestInRange at h
  rw [Bool.and_eq_true] at h
  exact h.2

theorem powerOn (inputs : Inputs) : Statement (.powerOn inputs) := fun _ => rfl
theorem portReset : Statement .portReset := fun _ => rfl
theorem lineReset (value : Word) : Statement (.lineReset value) := fun _ => rfl
theorem lineResetInput : Statement .lineResetInput := fun _ => rfl
theorem enable (value : Word) : Statement (.enable value) := fun _ => rfl
theorem noticeClear (value : Word) : Statement (.noticeClear value) := fun _ => rfl
theorem noticeMaskWrite (value : Word) (port : Bool) : Statement (.noticeMaskWrite value port) := fun _ => rfl
theorem resetCauseRead : Statement .resetCauseRead := fun _ => rfl
theorem registerWriteOther (offset : Nat) (value : Word) : Statement (.registerWriteOther offset value) := fun _ => rfl
theorem forwardBeat (encoder : Int) (eyes : Eyes) (feedback : SawSet) (restart : Eyes) :
    Statement (.forwardBeat encoder eyes feedback restart) := fun _ => rfl
theorem backBeat (encoder : Int) (restart : Option Eyes) : Statement (.backBeat encoder restart) := fun _ => rfl
theorem deckRunLineChange (up : Bool) : Statement (.deckRunLineChange up) := fun _ => rfl
theorem estopAssert : Statement .estopAssert := fun _ => rfl
theorem estopRelease : Statement .estopRelease := fun _ => rfl
theorem stallTimerExpiry : Statement .stallTimerExpiry := fun _ => rfl
theorem restartCheck (eyes : Eyes) : Statement (.restartCheck eyes) := fun _ => rfl
theorem sweep (host : List Sys2Proof.HostWrite) : Statement (.sweep host) := fun h => h
theorem setGeometry (cell : Nat) (host : List Sys2Proof.HostWrite) : Statement (.setGeometry cell host) := fun h => request h
theorem startLine (cell : Nat) (host : List Sys2Proof.HostWrite) : Statement (.startLine cell host) := fun h => request h
theorem resume (cell : Nat) (host : List Sys2Proof.HostWrite) : Statement (.resume cell host) := fun h => request h
theorem holdLoader (cell : Nat) (host : List Sys2Proof.HostWrite) : Statement (.holdLoader cell host) := fun h => request h
theorem releaseLoader (cell : Nat) (host : List Sys2Proof.HostWrite) : Statement (.releaseLoader cell host) := fun h => request h
theorem queryLug (cell : Nat) (host : List Sys2Proof.HostWrite) : Statement (.queryLug cell host) := fun h => request h
theorem enableHead (cell : Nat) (host : List Sys2Proof.HostWrite) : Statement (.enableHead cell host) := fun h => request h
theorem disableHead (cell : Nat) (host : List Sys2Proof.HostWrite) : Statement (.disableHead cell host) := fun h => request h
theorem alignHead (cell : Nat) (host : List Sys2Proof.HostWrite) : Statement (.alignHead cell host) := fun h => request h
theorem cancelAlign (cell : Nat) (host : List Sys2Proof.HostWrite) : Statement (.cancelAlign cell host) := fun h => request h
theorem activateRules (cell : Nat) (host : List Sys2Proof.HostWrite) : Statement (.activateRules cell host) := fun h => request h
theorem remoteOverride (cell : Nat) (host : List Sys2Proof.HostWrite) : Statement (.remoteOverride cell host) := fun h => request h
theorem lockSaw (cell : Nat) (host : List Sys2Proof.HostWrite) : Statement (.lockSaw cell host) := fun h => request h
theorem unlockSaw (cell : Nat) (host : List Sys2Proof.HostWrite) : Statement (.unlockSaw cell host) := fun h => request h
theorem setBin (cell : Nat) (host : List Sys2Proof.HostWrite) : Statement (.setBin cell host) := fun h => request h
theorem openRun (cell : Nat) (host : List Sys2Proof.HostWrite) : Statement (.openRun cell host) := fun h => request h
theorem closeRun (cell : Nat) (host : List Sys2Proof.HostWrite) : Statement (.closeRun cell host) := fun h => request h
theorem releaseArea (cell : Nat) (host : List Sys2Proof.HostWrite) : Statement (.releaseArea cell host) := fun h => request h
theorem unknownKind (cell : Nat) (host : List Sys2Proof.HostWrite) : Statement (.unknownKind cell host) := fun h => request h
theorem headStatus (head : Nat) (identity condition clock : Word) :
    Statement (.headStatus head identity condition clock) := fun _ => rfl
theorem headReport (head : Nat) (report : HeadReport) : Statement (.headReport head report) := fun _ => rfl
theorem alignEcho (head : Nat) (seen : Bool) : Statement (.alignEcho head seen) := fun _ => rfl
theorem badFrame (head : Nat) : Statement (.badFrame head) := fun _ => rfl
theorem linkSilence (head : Nat) : Statement (.linkSilence head) := fun _ => rfl
theorem wakeTimeout (head : Nat) : Statement (.wakeTimeout head) := fun _ => rfl
theorem standbyTimerExpiry : Statement .standbyTimerExpiry := fun _ => rfl
theorem logReport (report : LogReport) : Statement (.logReport report) := fun _ => rfl
theorem logBadFrame : Statement .logBadFrame := fun _ => rfl
theorem stagingCompletion (host : List Sys2Proof.HostWrite) : Statement (.stagingCompletion host) := fun h => h
theorem solveCompletion : Statement .solveCompletion := fun _ => rfl
theorem keyPress (station : Nat) (key : BitVec 4) (authority : Bool) : Statement (.keyPress station key authority) := fun _ => rfl
theorem lampPulseEnd (station : Nat) : Statement (.lampPulseEnd station) := fun _ => rfl
theorem gatePulseEnd (bin : Nat) : Statement (.gatePulseEnd bin) := fun _ => rfl
theorem binFullChange (bin : Nat) (level : Bool) : Statement (.binFullChange bin level) := fun _ => rfl
theorem clearingCompletion (area : Area) (host : List Sys2Proof.HostWrite) : Statement (.clearingCompletion area host) := fun h => h

end Sys2Proof.Laws.HostWrites
end

