-- ==== Sys2Proof/Laws/Queue.lean ====
section
/-! SUPPORT. The solver queue: where a piece stands that joins it, and which pieces change state with it (R83, R84). -/

namespace Sys2Proof.Machine

/-! ## The place of a piece -/

theorem insertByAge_perm (age : Word → Nat) (x : Word) (l : List Word) : (insertByAge age x l).Perm (x :: l) := by
  induction l with
  | nil => exact .refl _
  | cons y rest ih =>
    unfold insertByAge
    split
    · exact .refl _
    · exact (ih.cons y).trans (.swap x y rest)

/-- A piece that joins a queue in admission order leaves it in admission order. -/
theorem insertByAge_sorted (age : Word → Nat) (x : Word) (l : List Word) (h : l.Pairwise (fun a b => age a ≤ age b)) :
    (insertByAge age x l).Pairwise (fun a b => age a ≤ age b) := by
  induction l with
  | nil => simp [insertByAge]
  | cons y rest ih =>
    unfold insertByAge
    rw [List.pairwise_cons] at h
    split
    · rename_i hlt
      rw [List.pairwise_cons]
      refine ⟨fun z hz => ?_, List.pairwise_cons.mpr h⟩
      rcases List.mem_cons.mp hz with rfl | hz
      · omega
      · have := h.1 z hz; omega
    · rename_i hge
      rw [List.pairwise_cons]
      refine ⟨fun z hz => ?_, ih h.2⟩
      rcases List.mem_cons.mp ((insertByAge_perm age x rest).mem_iff.mp hz) with rfl | hz
      · omega
      · exact h.1 z hz

/-- The order of admission is that of the serials in the table, whatever else the entries hold. -/
theorem Deck.age_eq (d e : Deck) (h : d.pieces.map (fun p => p.serial) = e.pieces.map (fun p => p.serial)) :
    d.age = e.age := by
  funext n
  have key : ∀ l : List Piece,
      l.findIdx (fun p => p.serial == n) = (l.map (fun p => p.serial)).findIdx (fun x => x == n) := by
    intro l; rw [List.findIdx_map]; rfl
  unfold Deck.age
  rw [key, key, h]

/-! ## TS takes the head of the queue -/

theorem State.takeNext_busy (u : State) (h : u.ts.inHand ≠ none) : u.takeNext = u := by
  unfold State.takeNext
  split
  · simp_all
  · rfl

theorem State.takeNext_serials (u : State) :
    u.takeNext.dt.pieces.map (fun p => p.serial) = u.dt.pieces.map (fun p => p.serial) := by
  unfold State.takeNext
  split
  · split
    · simp only [State.onPiece, State.onDt, State.onTs]
      rw [pieces_serial _ _ _ (by intro _; rfl)]
    · rfl
  · rfl

/-- Everything that taking the head of the queue can do to a piece: SOLVING, for the one taken. -/
theorem State.takeNext_piece (u : State) (n : Word) (x : Piece) (h : u.dt.piece? n = some x) :
    ∃ y, u.takeNext.dt.piece? n = some y ∧ { y with state := x.state } = x
      ∧ (y.state = x.state
        ∨ (u.ts.inHand = none ∧ n ∈ u.ts.queue ∧ y.state = .solving ∧ u.takeNext.ts.solves n = true)) := by
  unfold State.takeNext
  split
  · rename_i m rest hi hq
    split
    · have hx : x.serial = n := by simpa using List.find?_some h
      refine ⟨if x.serial = m then { x with state := .solving } else x, ?_, ?_, ?_⟩
      · simp only [State.onPiece, State.onDt, State.onTs, Deck.piece?]
        rw [find_onPiece _ _ _ _ (by intro _; rfl)]
        change u.dt.pieces.find? _ = _ at h
        rw [h]; rfl
      · split <;> rfl
      · split
        · rename_i e
          refine Or.inr ⟨hi, ?_, rfl, ?_⟩
          · rw [hq, ← hx, e]; simp
          · simp [State.onTs, Solver.solves, ← hx, e]
        · exact Or.inl rfl
    · exact ⟨x, h, rfl, Or.inl rfl⟩
  · exact ⟨x, h, rfl, Or.inl rfl⟩

/-! ## A piece joins the queue -/

theorem State.joinQueue_serials (n : Word) (u : State) :
    (u.joinQueue n).dt.pieces.map (fun p => p.serial) = u.dt.pieces.map (fun p => p.serial) := by
  unfold State.joinQueue
  rw [State.takeNext_serials]
  simp only [State.onPiece, State.onDt, State.onTs]
  rw [pieces_serial _ _ _ (by intro _; rfl)]

/-- With a solve in hand a piece that joins the queue is SCANNED and stands at its place, and nothing is taken. -/
theorem State.joinQueue_busy (n : Word) (u : State) (h : u.ts.inHand ≠ none) :
    u.joinQueue n = (u.onPiece n (fun p => { p with state := .scanned })).onTs (fun ts =>
      { ts with queue := insertByAge u.dt.age n ts.queue }) :=
  State.takeNext_busy _ h

end Sys2Proof.Machine
end

