-- ==== Sys2Proof/Tests/Slice0.lean ====
section
/-! SUPPORT. The model's own tests: well-formedness, the manual's worked examples, one step on small states, and a
witness for the hypotheses of each statement. -/

open Sys2Proof Sys2Proof.Machine

namespace Sys2Proof.Tests

set_option Elab.async false

/-! ## Well-formedness: each check refuses an ill-formed term -/

def noHost : List HostWrite := []
def past : List HostWrite := [{ addr := 0xFFFFF, bytes := [1, 2], late := false }]
def report : HeadReport :=
  { tag := 1, density := 2, extent := some (1000, 1999), widthMin := 100, widthMax := 110, thickMin := 20
    thickMax := 25, finds := [] }
def log1 : LogReport := { tag := 5, length := 4880, smallEnd := 240, largeEnd := 300, sweep := 3 }

theorem test_formed_line_reset : (Instr.lineReset 2).wellFormed = true ∧ (Instr.lineReset 1).wellFormed = false := by
  decide

theorem test_formed_other_register : (Instr.registerWriteOther 0x14 1).wellFormed = true
    ∧ (Instr.registerWriteOther 0x04 1).wellFormed = false ∧ (Instr.registerWriteOther 0x08 1).wellFormed = false
    ∧ (Instr.registerWriteOther 0x0C 1).wellFormed = false := by decide

theorem test_formed_host_writes : (Instr.sweep noHost).wellFormed = true ∧ (Instr.sweep past).wellFormed = false
    ∧ (Instr.stagingCompletion past).wellFormed = false ∧ (Instr.clearingCompletion .a past).wellFormed = false := by
  decide +kernel

theorem test_formed_cell : (Instr.lockSaw 31 []).wellFormed = true ∧ (Instr.lockSaw 32 []).wellFormed = false
    ∧ (Instr.lockSaw 31 past).wellFormed = false := by decide +kernel

theorem test_formed_requests : ([Instr.setGeometry 32 [], .startLine 32 [], .resume 32 [], .holdLoader 32 [],
    .releaseLoader 32 [], .queryLug 32 [], .enableHead 32 [], .disableHead 32 [], .alignHead 32 [], .cancelAlign 32 [],
    .activateRules 32 [], .remoteOverride 32 [], .unlockSaw 32 [], .setBin 32 [], .openRun 32 [], .closeRun 32 [],
    .releaseArea 32 [], .unknownKind 32 []].all (fun c => !c.wellFormed)) = true := by decide +kernel

theorem test_formed_head : (Instr.badFrame 8).wellFormed = true ∧ (Instr.badFrame 9).wellFormed = false
    ∧ (Instr.badFrame 0).wellFormed = false ∧ (Instr.alignEcho 9 true).wellFormed = false
    ∧ (Instr.linkSilence 0).wellFormed = false ∧ (Instr.wakeTimeout 9).wellFormed = false
    ∧ (Instr.headStatus 0 0 0 0).wellFormed = false ∧ (Instr.headReport 9 report).wellFormed = false := by decide

theorem test_formed_report : (Instr.headReport 1 report).wellFormed = true
    ∧ (Instr.headReport 1 { report with density := 3 }).wellFormed = false
    ∧ (Instr.headReport 1 { report with extent := some (5, 4) }).wellFormed = false
    ∧ (Instr.headReport 1 { report with widthMin := 111 }).wellFormed = false
    ∧ (Instr.headReport 1 { report with thickMin := 26 }).wellFormed = false
    ∧ (Instr.headReport 1 { report with finds := [0xC0000000] }).wellFormed = false
    ∧ (Instr.headReport 1 { report with finds := List.replicate 33 0 }).wellFormed = false := by decide +kernel

theorem test_formed_log : (Instr.logReport log1).wellFormed = true
    ∧ (Instr.logReport { log1 with length := 0 }).wellFormed = false
    ∧ (Instr.logReport { log1 with length := 16384 }).wellFormed = false
    ∧ (Instr.logReport { log1 with smallEnd := 0 }).wellFormed = false
    ∧ (Instr.logReport { log1 with smallEnd := 301 }).wellFormed = false
    ∧ (Instr.logReport { log1 with largeEnd := 1024 }).wellFormed = false := by decide

theorem test_formed_station : (Instr.keyPress 2 0 true).wellFormed = true
    ∧ (Instr.keyPress 3 0 true).wellFormed = false ∧ (Instr.lampPulseEnd 0).wellFormed = false := by decide

theorem test_formed_bin : (Instr.gatePulseEnd 24).wellFormed = true ∧ (Instr.gatePulseEnd 25).wellFormed = false
    ∧ (Instr.gatePulseEnd 0).wellFormed = false ∧ (Instr.binFullChange 25 true).wellFormed = false := by decide

/-- No word spells a command: no row of the table has bits. -/
theorem test_no_word_decodes : decodeTableWord 32 0 = none ∧ decodeTableWord 8 255 = none := ⟨rfl, rfl⟩

/-! ## Small states -/

/-- Reset with memory empty, which keeps the tests small. -/
def base : State := { State.reset with mem := [] }

def write (addr : Nat) (bytes : List Byte) : HostWrite := { addr, bytes, late := false }

/-- Post a request in cell 0. -/
def post (kind : Nat) (params : List Byte) : List HostWrite :=
  [write 0x804 (le16 kind), write 0x808 (le32 0xA0), write 0x810 params, write 0x800 (le32 1)]

/-- A sweep stands at cell 0. -/
def sweeping (s : State) : State := s.onXi (fun xi => { xi with enable := true, sweep := some 0 })

/-- The state in which the take of a request in cell 0 acts. -/
def met (s : State) (kind : Nat) (params : List Byte) : State := (sweeping s).met (post kind params)

/-- The sweep comes to cell 0, which can be taken and holds a request of the kind with this code. -/
def comes (s : State) (kind : Nat) (params : List Byte) : Bool :=
  hostInWindow (post kind params) && (met s kind params).sweepReaches 0 && (met s kind params).takeable 0
    && cellKind (met s kind params).mem 0 == kind

/-- Result code and detail of cell 0 after a take, and the state it leaves. -/
def after (c : Instr) (s : State) : State :=
  match exec c s with
  | .next t => t
  | .fault _ => base
  | .refused _ => base

def resultOf (t : State) : Nat × Word := (t.mem.read16 0x806, t.mem.read32 0x80C)

/-- The geometry of 5.9: ten saws 600 mm apart, off-fall 1200 mm. -/
def geoFields : List Nat :=
  [5, 8, 14, 16, 20, 2, 24, 50] ++ (List.range 24).map (fun i => 25 + i) ++ [64, 10, 600, 1200, 1000, 120, 5, 500]

def geo : Geometry := geometryOf geoFields

def geoBytes : List Byte :=
  (geoFields.take 32).flatMap le8 ++ le16 64 ++ le8 10 ++ le8 0 ++ le16 600 ++ le16 1200 ++ le16 1000 ++ le16 120
    ++ le8 5 ++ le8 0 ++ le16 500

/-- The deck with a geometry, in a state. -/
def deck (state : DeckState) : State :=
  base.onDt (fun d => { d with state := state, geometry := some geo, runLine := true })

/-- A board with serial 1 of run 1. -/
def board (state : PieceState) : Piece := { Piece.fresh 1 0 1 false with state := state }

/-- A piece on the lug at a station of the map. -/
def laid (p : Piece) (station : Nat) (s : State) : State :=
  s.onDt (fun d =>
    { d with
      pieces := [{ p with tag := ((d.lugAt station).map (fun l => l.tag)).getD 0 }]
      nextSerial := 2
      lugs := d.lugs.modify station (fun l => { l with piece := some p.serial }) })

/-- A run with a number in an area. -/
def runIn (state : RunState) (number : Nat) : RunEntry :=
  { RunEntry.empty with area := .inUse, number := some number, label := some 9, run := some state, reservation := 2 }

def withRun (s : State) : State :=
  s.onTu (fun tu => { tu with areaA := runIn .opened 1, nextRun := 2, lastOpened := some .a })

/-- Rules with one grade, one length class and one log class. -/
def smallRules : Rules :=
  { Rules.zero with
    label := 77
    grades := [{ code := 1, minDensity := 1, limits := List.replicate 11 (255, 15) }]
    lengths := [4], logs := [(200, 280)]
    policy := { density := 2, cutInTwo := 1, fallback := 2, remanBin := 6, recutBin := 4, offSizeGrade := 13
                overflowGrade := 13, offSizeWidth := 100, offSizeThick := 25 } }

def withRules (s : State) : State :=
  s.onRs (fun rs =>
    { rs with slots := rs.slots.modify 0 (fun sl =>
        { sl with state := .active, bank := some 0, number := some 1, label := some 77, rules := smallRules }) })

def headIs (h : Nat) (state : HeadState) (s : State) : State := s.onHead h (fun hd => { hd with state := state })

/-- A deck ready for admissions: RUNNING, gate open, a run OPEN and a generation ACTIVE. -/
def admitting : State :=
  (withRules (withRun (deck .running))).onDt (fun d =>
    { d with
      gate := true
      hold := { host := false, journal := false, table := false, run := false, rules := false, align := false
                wake := false, fault := false } })

/-- The same deck held by HOST. -/
def held : State := admitting.onDt (fun d => { d with gate := false, hold := { d.hold with host := true } })

def solution : Solution :=
  { kind := .normal, reason := .noReason, saws := [2, 8]
    products := [{ grade := 2, lengthClass := 2, length := 3600, value := 360 }]
    totalValue := 360, totalLength := 3600, target := none, constraint := .free, deadline := false, number := 1
    sawSet := BitVec.ofNat 20 (2 + 128 + 256) }

def commitPart : CommitPart :=
  { dropSet := 0x82, primary := 9, alternate := some 15, target := 9, cause := .sortPrimary, lastStation := none }

def solved : Piece := { board .solved with generation := some (1, 0), solution := some solution, sizeClass := some 3 }
def committed : Piece := { solved with state := .committed, commit := some commitPart }
def cut : Piece := { committed with state := .cut }

def scanning : Piece :=
  { board .scanning with
    generation := some (1, 0), density := some .x2, roster := some 3
    assembly := some { received := [], dropped := 0, downgraded := false, stale := false } }

/-! ## The manual's worked examples -/

/-- The limits of a grade: the listed kinds, every other kind `other`. -/
def limits (l : List (Nat × Nat × Nat)) (other : Nat × Nat) : List (Nat × Nat) :=
  (List.range 11).map (fun k => ((l.find? (fun x => x.1 == k)).map Prod.snd).getD other)

def price (g c v : Nat) : Memory := [(2 * (((g - 1) * 16 + c) * 32 + 3), BitVec.ofNat 8 v),
  (2 * (((g - 1) * 16 + c) * 32 + 3) + 1, BitVec.ofNat 8 (v / 256))]

/-- The rules of 5.9. -/
def rules59 : Rules :=
  { smallRules with
    grades :=
      [{ code := 1, minDensity := 2, limits := limits [(0, 1, 3)] (0, 0) },
       { code := 2, minDensity := 2, limits := limits [(0, 2, 6), (1, 1, 3), (5, 1, 4)] (0, 0) },
       { code := 4, minDensity := 1, limits := limits [(3, 1, 8), (2, 1, 5)] (255, 15) }]
    sizes := [100, 200, 1000].map (fun w =>
      { widthMin := w, widthMax := w + 100, thickMin := 200, thickMax := 260, nominalWidth := 100, nominalThick := 25 })
    lengths := [4, 5, 6, 7]
    prices := [price 1 0 300, price 1 1 390, price 1 2 480, price 1 3 580, price 2 0 220, price 2 1 290,
      price 2 2 360, price 2 3 430, price 4 0 100, price 4 1 130, price 4 2 160, price 4 3 190].flatten }

def find59 (along : Nat) (kind : FindKind) (size : Nat) : Find := { along, across := 0, kind, size, face := 0 }

/-- The scan record of piece 5140 (5.9). -/
def scan59 : ScanRecord :=
  { ends := some (35, 4930), measures := some { widthMin := 1010, widthMax := 1050, thickMin := 210, thickMax := 220 }
    finds := [find59 210 (FindKind.ofCode 5) 5, find59 980 (FindKind.ofCode 0) 2, find59 1650 (FindKind.ofCode 1) 2,
      find59 2300 (FindKind.ofCode 0) 4, find59 3100 (FindKind.ofCode 0) 2, find59 4500 (FindKind.ofCode 3) 6]
    incomplete := false, gap := false, truncated := false, downgraded := false, stale := false, missing := 0 }

def input59 (density : Nat) : SolveInput :=
  { g := geo, rules := rules59, scan := scan59, density, size := 3, view := 0, left := 35, right := 4930 }

/-- The ten candidates of 5.9 with their values. -/
theorem test_candidates_of_5_9 : (input59 2).candidates.map (fun c => (c.saws, c.value)) =
    [([2, 6], 220), ([2, 7], 290), ([2, 8], 360), ([2, 9], 190), ([3, 7], 220), ([3, 8], 290), ([3, 9], 160),
     ([4, 8], 220), ([4, 9], 130), ([5, 9], 100)] := by decide +kernel

theorem test_choice_of_5_9 : (chooseFrom (input59 2).candidates).map (fun c => (c.saws, c.value)) = some ([2, 8], 360)
    ∧ (chooseFrom (input59 1).candidates).map (fun c => (c.saws, c.value)) = some ([2, 9], 190) := by decide +kernel

/-- The TRIM_SHORTER and the tie of 5.10. -/
theorem test_choice_of_5_10 : (chooseFrom ((input59 2).candidates.filter (fun c => decide (c.length < 3600)))).map
    (fun c => (c.saws, c.value)) = some ([2, 7], 290) := by decide +kernel

/-- The log of 8.4.1: 280.56 dm³ rounds to 281. -/
theorem test_log_volume : logVolume log1 = 281 := by decide +kernel

theorem test_geometry_passes : geometryFailure geoFields = none
    ∧ geometryFields (Memory.splice [] geometryAddr geoBytes) = geoFields := by decide +kernel

theorem test_geometry_names_the_first_field : geometryFailure (geoFields.set 0 0) = some 0
    ∧ geometryFailure (geoFields.set 7 64) = some 7 ∧ geometryFailure (geoFields.set 31 50) = some 31
    ∧ geometryFailure (geoFields.set 39 2001) = some 39 := by decide +kernel

/-- The density decision of 3.1: the lowest credit of the roster decides. -/
theorem test_density : densityFor [{ Head.powerOn with credit := 3 }, { Head.powerOn with credit := 1 }] 3 .x4 = .x2
    ∧ densityFor [{ Head.powerOn with credit := 4 }, { Head.powerOn with credit := 0 }] 3 .x4 = .x1
    ∧ densityFor [{ Head.powerOn with credit := 4 }, { Head.powerOn with credit := 0 }] 1 .x4 = .x4 := by
  decide +kernel

/-- The frames of 10.9, read back from bytes. -/
theorem test_frames : Frame.bytes (.alignStep 63) = [2, 0, 4, 63, 0x5A, 0xC3]
    ∧ takeFrames 9 [2, 0, 0x12, 1, 0x5A, 0xC3, 200, 0, 7, 0x5A, 0xC3, 1]
      = ([.payload [0x12, 1], .bad], [1])
    ∧ headLinkCommand 4 0 (.payload [0x12, 1]) = .alignEcho 4 true
    ∧ headLinkCommand 4 0 (.payload [0x12, 2]) = .badFrame 4 := by decide +kernel

theorem test_memory_form : Memory.wf (Memory.splice (Memory.splice [] 0x7FF [1, 2, 3]) 0x800 [0]) = true
    ∧ Memory.splice (Memory.splice [] 0x7FF [1, 2, 3]) 0x800 [0] = [(0x7FF, 1), (0x801, 3)] := by decide +kernel

theorem test_reset_memory_form : Memory.wf State.reset.mem = true := Memory.wf_splice _ _ rfl

/-! ## Witnesses: states and operands that meet the hypotheses of the statements -/

/-- O1. -/
theorem test_meets_front_command : ({ base with pending := [.portReset, .estopAssert] } : State).pending
    = .portReset :: [.estopAssert] := rfl

/-- O2: no sweep, a cell that cannot be taken, and the last cell that can. -/
theorem test_meets_idle : (base.pending = [] ∧ base.xi.sweep = none)
    ∧ ((sweeping base).pending = [] ∧ (sweeping base).xi.sweep = some 0 ∧ (sweeping base).takeable 0 = false)
    ∧ ((base.onXi (fun xi => { xi with sweep := some 31 })).store 0xFC0 [1]).takeable 31 = true := by decide +kernel

/-- O3: the last byte of the window, and one past it. -/
theorem test_meets_window : hostInWindow (Instr.host (.sweep [write 0xFFFFF [1]])) = true
    ∧ hostInWindow (Instr.host (.sweep past)) = false ∧ hostInWindow (Instr.host .portReset) = true := by
  decide +kernel

/-- O4, O7, O11, O12, O14: the conditions hold with other input levels too. -/
theorem test_meets_conditions : (State.powerOn { runLine := true, estop := true, binFull := 2 }).Inv :=
  (Kept.powerOn _).inv

/-- O14: a step of a command that is neither a reset nor the read, and a write that resets. -/
theorem test_meets_reset_cause : ({ base with pending := [.estopAssert] } : State).pending.head? = some .estopAssert
    ∧ (∀ inputs, Instr.estopAssert ≠ .powerOn inputs)
    ∧ (∀ value : Word, Instr.estopAssert ∉ [Instr.lineReset value, .enable value, .registerWriteOther 0x04 value])
    ∧ (2 : Word).getLsbD 1 = true ∧ base.pending.head? = none :=
  ⟨rfl, by simp, by simp, by decide, rfl⟩

/-- O6: a state whose holds agree. -/
theorem test_meets_agreement : base.Synced :=
  ⟨by decide +kernel, by decide +kernel, by decide +kernel, by decide +kernel⟩

/-- O8: the bounds of a record's length, the first and last byte outside the Status Block. -/
theorem test_meets_power_on : (1 ≤ 1 ∧ 20 ≤ 20) ∧ 0x0FFF < statusAddr ∧ statusAddr + statusBytes ≤ 0x5000
    ∧ 0xFFFF < areaBytes := by decide

/-- O11, O13: the bits of EXCH_CTL, and an offset that is no written register's. -/
theorem test_meets_registers : (2 : Word).getLsbD 1 = true ∧ (1 : Word).getLsbD 1 = false
    ∧ (0x10 ≠ 0x04 ∧ 0x10 ≠ 0x08 ∧ 0x10 ≠ 0x0C) := by decide

/-- O13: another cause. -/
theorem test_meets_notice : NoticeCause.hold ≠ .journal := by decide

/-- O17, O18: no geometry; both states without beats; no crossing, one each way, and two, by a pitch of 64 counts. -/
theorem test_meets_beats_not_taken : base.dt.geometry = none ∧ base.dt.state = .unconfigured
    ∧ (deck .halted).dt.state = .halted
    ∧ [0, 63, 64, 127, 128, -1, -64, -65].map (fun x => (deck .running).dt.crossings geo x)
      = [0, 0, 1, 1, 2, -1, -1, -2] := by
  decide +kernel

/-- O17: a new lug on an advancing beat, a restart check pending, a returning lug on a repeat beat. -/
theorem test_meets_forward_beat : ((deck .running).dt.geometry = some geo ∧ (deck .running).dt.state.takesBeats = true)
    ∧ ((deck .running).onDt (fun d => { d with restartPending := true })).dt.restartPending = true
    ∧ ((deck .faulted).onDt (fun d => { d with highWater := 1, upstream := [Lug.empty 1] })).dt.depth = 1 := by
  decide +kernel

/-- O18: a ninth lug with a piece, and a fifth beat back. -/
theorem test_meets_back_beat : (deck .stoppedLoaded).dt.state.takesBeats = true
    ∧ ((deck .stoppedLoaded).onDt (fun d =>
        { d with upstream := List.replicate 8 { Lug.empty 1 with piece := some 1 } })).dt.upstream.length = 8
    ∧ ((deck .stoppedLoaded).onDt (fun d => { d with highWater := 4 })).dt.backward.depth = 5 := by decide +kernel

/-- O19: a FAULTED deck that is quiet. -/
theorem test_meets_quiet : (deck .faulted).dt.state = .faulted ∧ (deck .faulted).ax.sawOut = 0
    ∧ (∀ b ∈ (deck .faulted).ax.bins, b.pulsing = false) ∧ (deck .faulted).ax.window = [] := by decide +kernel

/-- O20. -/
theorem test_meets_deck_change : (deck .halted).sa.heads.length = 8 ∧ (deck .halted).dt.state ≠ .running := by
  decide +kernel

/-- O21: each branch. -/
theorem test_meets_line_inputs : (deck .running).dt.runLine = true ∧ base.dt.runLine = false
    ∧ (deck .stoppedClear).dt.state = .stoppedClear ∧ base.dt.estop = false
    ∧ (base.onDt (fun d => { d with estop := true })).dt.estop = true := by decide +kernel

/-- O24: an ADMITTED piece at station 0, a lug without one, and no check pending. -/
theorem test_meets_restart_check :
    ((laid (board .admitted) 0 (deck .running)).onDt (fun d => { d with restartPending := true })).dt.restartPending
      = true
    ∧ ((laid (board .admitted) 0 (deck .running)).dt.pieceAt 0).map (fun p => p.state) = some .admitted
    ∧ (deck .running).dt.pieceAt 0 = none ∧ (deck .running).dt.restartPending = false := by decide +kernel

/-- O23: gate open; gate closed by HOST alone; a closed gate without a run; 96 pieces are no room. -/
theorem test_meets_admission : (admitting.dt.gate = true ∧ admitting.tu.openArea = some .a
      ∧ admitting.dt.pieces.length < 96)
    ∧ (held.dt.gate = false ∧ held.dt.hold.onlyHost = true ∧ held.dt.state.tracking = true
      ∧ 39 ≤ unreservedUnits held.dt held.tu held.xi ∧ held.rs.activeSlot ≠ none)
    ∧ ((deck .running).dt.gate = false ∧ (deck .running).tu.openArea = none) := by decide +kernel

/-- O24: a COMMITTED piece at T, a bare lug at T, a drop mark at E. -/
theorem test_meets_presence : ((laid committed 24 (deck .running)).dt.pieceAt 24).map (fun p => p.state)
      = some .committed
    ∧ (deck .running).dt.lugAt 24 = some (Lug.empty 232)
    ∧ (((deck .running).onLugAt 50 (fun l => { l with dropMark := some { bin := 24, run := 1 } })).dt.lugAt 50).map
      (fun l => l.dropMark) = some (some { bin := 24, run := 1 }) := by decide +kernel

/-- O25: a piece of a live run and one of no run, off-size and not, with products made and none. -/
theorem test_meets_sorted : (laid cut 40 (deck .running)).dt.piece? 1 ≠ none ∧ cut.state ≠ .sorted
    ∧ (withRun base).tu.areaOfRun cut.run = some .a ∧ base.tu.areaOfRun cut.run = none
    ∧ cut.sizeClass = some 3 ∧ (board .cut).sizeClass = none
    ∧ ({ cut with cutCheck := some .clean }).tallied = solution.products ∧ cut.tallied = [] := by
  decide +kernel

/-- O10: a piece one station past SE, its assembly at hand, and others; a queue with a head to take, and none. -/
theorem test_meets_assembly :
    ((laid scanning 9 (deck .running)).dt.pieceAt (geo.se + 1)).map (fun p => (p.state, p.assembly))
      = some (.scanning, some { received := [], dropped := 0, downgraded := false, stale := false })
    ∧ ((laid (board .scanned) 9 (deck .running)).dt.pieceAt (geo.se + 1)).map (fun p => p.state) = some .scanned
    ∧ (deck .running).dt.pieceAt (geo.se + 1) = none
    ∧ (((laid { board .scanned with generation := some (1, 0) } 10 (deck .running)).onTs (fun ts =>
        { ts with queue := [1] })).dt.piece? 1).map (fun p => p.generation) = some (some (1, 0))
    ∧ base.ts.inHand = none ∧ base.ts.queue = [] := by decide +kernel

def partialOf (head : Nat) (extent : Option (Nat × Nat)) (finds : List Find) : Partial :=
  { head, density := 2, extent, widthMin := 10 * head, widthMax := 20 * head, thickMin := head, thickMax := 2 * head, finds }

def mark (across : Nat) : Find := { along := 7, across, kind := .hole, size := 1, face := 0 }

/-- Three heads with wood and without, a find beyond the room of a scan record, a head that did not report. -/
theorem test_meets_scan_record :
    let r := closeAssembly 0x0F
      { received :=
          [partialOf 3 (some (40, 900)) (List.replicate 65 (mark 1)), partialOf 2 none [],
           partialOf 1 (some (50, 800)) [mark 2]]
        dropped := 0, downgraded := true, stale := true }
    r.ends = some (40, 900) ∧ r.finds.length = 64 ∧ (r.finds.map (fun f => f.across)).take 2 = [2, 1]
    ∧ r.truncated = true ∧ r.missing = 8 ∧ r.incomplete = true ∧ r.gap = true
    ∧ r.measures = some { widthMin := 10, widthMax := 60, thickMin := 1, thickMax := 6 }
    ∧ (closeAssembly 0 { received := [], dropped := 0, downgraded := false, stale := false }).ends = none
    ∧ (closeAssembly 0 { received := [], dropped := 0, downgraded := false, stale := false }).incomplete = true := by
  decide +kernel

/-- O15: a PIECE record at the head of the list and a LOG record, each written and each held back. -/
def waitingFor (w : Waiting) (s : State) : State :=
  (s.onXi (fun xi => { xi with waiting := [w] })).onTu (fun tu =>
    { tu with
      pendingLogs := [{ report := log1, logClass := some 0, volume := 281, run := 1, generation := 1 }] })

def full (s : State) : State := s.onXi (fun xi => { xi with fill := 49150 })

theorem test_meets_waiting :
    let p := laid { cut with state := .sorted, reservation := 0 } 40 base
    (waitingFor (.piece 1) p).dt.piece? 1 ≠ none ∧ mayWrite (waitingFor (.piece 1) p) (.piece 1) = true
    ∧ mayWrite (full (waitingFor (.piece 1) p)) (.piece 1) = false
    ∧ (waitingFor .log base).tu.pendingLogs.length = 1 ∧ mayWrite (waitingFor .log base) .log = true
    ∧ mayWrite (full (waitingFor .log base)) .log = false
    ∧ (waitingFor .log base).drainAll.xi.waiting = [] ∧ (waitingFor .log base).drainAll.tu.pendingLogs = []
    ∧ (full (waitingFor .log base)).drainAll.xi.waiting = [.log] := by decide +kernel

/-- O16: a piece of the first class, of a later one and of none; a span of the first grade, of a later one and of none;
a span that a length class holds and one that none holds. -/
theorem test_meets_candidates : sizeClassOf rules59 scan59 = 3
    ∧ sizeClassOf { rules59 with sizes := [] } scan59 = 0 ∧ sizeClassOf rules59 { scan59 with measures := none } = 0
    ∧ gradeSpan rules59 [] 2 0 600 3000 = 1 ∧ gradeSpan rules59 [] 2 2 600 3000 = 2
    ∧ gradeSpan rules59 [] 2 13 600 3000 = 13
    ∧ rules59.grades.length = 3 ∧ ((input59 2).product 2 6).isSome = true ∧ (input59 2).product 2 5 = none
    ∧ (input59 2).singles ≠ [] ∧ (input59 2).doubles = [] := by decide +kernel

/-- O22: a PIECE record of every field, of none, and the images of a lug alone and of a piece alone. -/
theorem test_meets_records : cut.overrides.length = 15
    ∧ (pieceBody { cut with scan := some scan59 }).length = 60 + 4 * 6
    ∧ (pieceBody (Piece.fresh 1 0 1 false)).length = 60
    ∧ (queryImage none none).length = 48 ∧ (queryImage (some (-8, Lug.empty 1)) (some cut)).length = 48
    ∧ (queryImage none (some cut)).take 3 = [4, 0xFF, 0xFF] := by decide +kernel

/-- Absent fields (R183): authority and mismatch saws of a piece before its override and its cut check, the station of
a bin without one, the segment without a geometry record, and the outcome of no staging. -/
theorem test_absent_fields :
    let part := fun (p : Piece) (i n : Nat) => ((pieceBody p).drop (i - 4)).take n
    part (board .scanned) 0x2A 1 = [0x38] ∧ part (board .scanned) 0x30 3 = [0xFF, 0xFF, 0x0F]
    ∧ part { cut with cutCheck := some .clean } 0x30 3 = [0, 0, 0]
    ∧ base.ax.bins.map (fun b => (statusBin .halted none b).take 1) = List.replicate 24 [0]
    ∧ (statusHead none 1 Head.powerOn).take 5 = [0, 0xFF, 0xFF, 0, 0]
    ∧ statusOutcome none = [0xFF, 0xFF, 0, 0, 0xFF, 0xFF, 0xFF, 0xFF, 0, 0, 0, 0] := by decide +kernel

/-- O26: an ISSUED entry, a RELEASED one, and a saw at the count's edge; a piece at T + 1 and a window without one. -/
theorem test_meets_cut_check : committed.state = .committed ∧ committed.dropSet ≠ 0
    ∧ ({ tag := 0, command := 2, issued := true } : WindowEntry).issued = true
    ∧ mismatchSaws 10 (BitVec.ofNat 20 512) 0 = BitVec.ofNat 20 512
    ∧ mismatchSaws 10 (BitVec.ofNat 20 1024) 0 = 0 ∧ cut.state ≠ .committed
    ∧ ((laid committed 25 (deck .running)).dt.pieceAt (geo.t + 1)).map (fun p => p.state) = some .committed
    ∧ (deck .running).ax.window[geo.d]? = none := by decide +kernel

/-- O27, O28: twenty saws; a COMMITTED piece and a SOLVED one that a lock reaches. -/
theorem test_meets_locks : base.ax.saws.length = 20
    ∧ (laid solved 15 (deck .running)).dt.piece? 1
      = some { solved with tag := (((deck .running).dt.lugAt 15).map (fun l => l.tag)).getD 0 }
    ∧ solution.sawSet &&& 2 ≠ 0 := by decide +kernel

/-- O29: a CUT piece at bin 9's station, its target; one tested there before; one at E. -/
theorem test_meets_bin_test : geo.binStation 9 = some 33
    ∧ ((laid cut 33 (deck .running)).dt.pieceAt 33).map (fun p => (p.state, p.commit)) = some (.cut, some commitPart)
    ∧ (deck .running).binAvailable 9 = true
    ∧ ((deck .running).onBin 9 (fun b => { b with isFull := true })).binAvailable 9 = false
    ∧ (33 < (geo.binStation 15).getD 0)
    ∧ ((laid cut 50 (deck .running)).dt.pieceAt geo.e).map (fun p => p.state) = some .cut := by decide +kernel

/-- O30: a piece at C in each of the three states, and solutions of one and of two products. -/
theorem test_meets_commit : ((laid solved 20 (deck .running)).dt.pieceAt geo.c).map (fun p => p.state) = some .solved
    ∧ ((laid (board .scanned) 20 (deck .running)).dt.pieceAt geo.c).map (fun p => p.state) = some .scanned
    ∧ ((laid (board .solving) 20 (deck .running)).dt.pieceAt geo.c).map (fun p => p.state) = some .solving
    ∧ (∃ x, solution.products = [x]) ∧ solution.kind = .normal :=
  ⟨by decide +kernel, by decide +kernel, by decide +kernel, ⟨_, rfl⟩, rfl⟩

/-- O31. -/
theorem test_meets_issue : (deck .running).dt.lugAt (geo.t - geo.d) = some (Lug.empty 234) := by decide +kernel

/-- O32: a piece entering, and none. -/
theorem test_meets_zone_entry :
    ((laid (board .admitted) 5 admitting).dt.entering geo).map (fun p => p.serial) = some 1
    ∧ admitting.dt.entering geo = none ∧ admitting.rs.activeSlot = some 0 ∧ admitting.sa.heads.length = 8 := by
  decide +kernel

def searching (st : SearchState) (miss : Nat) (outstanding : Bool) : State :=
  (headIs 4 .ready (deck .running)).onDa (fun da =>
    { da with search := st, head := 4, miss := miss, outstanding := outstanding })

/-- O33: every state of a search, with the zone clear and not. -/
theorem test_meets_search_beat : (searching .pending 0 false).da.search = .pending
    ∧ has (searching .pending 0 false).sa.readySet 4 = true
    ∧ (∀ l ∈ (deck .running).dt.lugs.take (geo.se + 1), l.piece = none)
    ∧ ((laid (board .scanning) 8 (deck .running)).dt.clearZone geo) = false
    ∧ ((laid (board .scanned) 9 (deck .running)).dt.clearZone geo) = true
    ∧ (searching .suspended 0 false).da.search = .suspended ∧ (searching .stepping 0 true).da.outstanding = true
    ∧ (searching .stepping 1 true).da.miss ≠ 0 := by decide +kernel

/-- O34. -/
theorem test_meets_search_end : (searching .stepping 0 true).da.search ≠ .idle
    ∧ (searching .stepping 0 true).sa.head? 4 = some { Head.powerOn with state := .ready } := by decide +kernel

/-- O35: enabled and not; a sweep left at a cell to take and at one to pass; a mark that is the fill mark, and one past
the ring. -/
theorem test_meets_sweep : (sweeping base).xi.enable = true ∧ base.xi.enable = false
    ∧ (met base 4 []).xi.sweep = some 0 ∧ (met base 4 []).takeable 0 = true ∧ (sweeping base).takeable 0 = false
    ∧ (base.mem.read32 releaseMarkAddr).toNat = base.xi.fill
    ∧ ¬((Memory.splice [] releaseMarkAddr (le32 49152)).read32 releaseMarkAddr).toNat < 49152
    ∧ base.xi.releaseBad = false := by decide +kernel

/-- O36: a record that just fits before the ring's end, and one that does not. -/
theorem test_meets_record : 49148 < 49152 ∧ ¬49152 - 49148 < 4 ∧ 49152 - 49149 < 4
    ∧ [(0 : Byte)].length ≤ 16 * 1 - 4 ∧ RecordKind.piece ≠ .filler := by decide

/-- O37: an unlisted kind at each end of the list. -/
theorem test_meets_unknown_kind : comes base 0 [] = true ∧ comes base 19 [] = true ∧ ReqKind.ofCode 0 = none
    ∧ ReqKind.ofCode 18 ≠ none ∧ ReqKind.ofCode 19 = none ∧ comes base 18 [] = true := by decide +kernel

/-- O38 to O51: each request comes to its take, with the state and parameters of each case. -/
theorem test_meets_takes : (List.range' 1 18).all (fun k => comes base k [] && comes (deck .running) k []) = true := by
  decide +kernel

theorem test_meets_host_hold : held.dt.hold.host = true ∧ held.dt.hold.onlyHost = true ∧ held.tu.openArea = some .a :=
  by decide +kernel

theorem test_meets_set_geometry : (met base 1 []).dt.state = .unconfigured ∧ (deck .halted).dt.state ≠ .unconfigured
    ∧ geometryFailure (geometryFields base.mem) = some 0 := by decide +kernel

theorem test_meets_start_line : (deck .halted).dt.state = .halted ∧ (deck .halted).dt.estop = false
    ∧ (deck .faulted).dt.causes = Causes.empty
    ∧ ((deck .faulted).onDt (fun d => { d with causes := d.causes.add .stall })).dt.causes.stall = .standing := by
  decide +kernel

/-- O41: a station 0 and 63, a tag on the map, tags and serials that are not there. -/
theorem test_meets_query : base.dt.lugs.length = 64 ∧ (base.dt.lugByTag 255).map Prod.fst = some 1
    ∧ (base.dt.lugByTag 100) = none ∧ (laid (board .admitted) 0 base).dt.piece? 1 ≠ none
    ∧ base.dt.piece? 1 = none ∧ (queryAnswer base.dt 1 63).1 = .done ∧ (queryAnswer base.dt 1 64).1 = .badParam
    ∧ (queryAnswer base.dt 2 256).1 = .badParam ∧ (queryAnswer base.dt 4 0).1 = .badParam := by decide +kernel

theorem test_meets_heads : (params (met base 7 [8]) 0).byte 0x10 = 8 ∧ (params (met base 7 [9]) 0).byte 0x10 = 9
    ∧ (headIs 8 .offline base).sa.headState 8 = .offline ∧ (headIs 1 .aligning base).sa.headState 1 = .aligning
    ∧ base.sa.headState 1 = .absent := by decide +kernel

theorem test_meets_align : (headIs 4 .ready (deck .running)).sa.headState 4 = .ready
    ∧ (deck .running).da.search = .idle ∧ (searching .pending 0 false).da.search ≠ .idle := by decide +kernel

theorem test_meets_activate : (params (met base 11 [1]) 0).byte 0x10 = 1 ∧ (params (met base 11 [2]) 0).byte 0x10 = 2
    ∧ (deck .running).rs.slots.findIdx? (fun sl => sl.state == .free) = some 0
    ∧ admitting.rs.slots.findIdx? (fun sl => sl.state == .free) = some 1 ∧ base.rs.staging = none := by decide +kernel

theorem test_meets_remote : (params (met base 12 [255, 0, 1, 13]) 0).half 0x10 = 255
    ∧ (params (met base 12 [0, 1, 1, 13]) 0).half 0x10 = 256
    ∧ (params (met base 12 [255, 0, 1, 13]) 0).byte 0x13 = 13 := by decide +kernel

/-- O46: every answer is given for some piece. -/
theorem test_meets_override : (base.answerTag 0 .accept true).1 = .notFound
    ∧ ((laid committed 20 (deck .running)).answerTag 236 .accept true).1 = .tooLate
    ∧ ((laid (board .admitted) 0 (deck .running)).answerTag 0 .accept true).1 = .refusedState
    ∧ ((laid solved 15 (withRules (deck .running))).answerTag 241 (.forceGrade 3) true).1 = .badParam
    ∧ ((laid solved 15 (withRules (deck .running))).answerTag 241 (.forceGrade 1) false).1 = .noAuthority
    ∧ ((laid solved 15 (withRules (deck .running))).answerTag 241 (.forceGrade 1) true).1 = .done := by decide +kernel

theorem test_meets_saws : base.ax.saws[0]? ≠ none ∧ base.ax.saws[19]? ≠ none
    ∧ (params (met base 13 [20]) 0).byte 0x10 = 20 ∧ (params (met base 14 [21, 1]) 0).byte 0x11 = 1 := by decide +kernel

theorem test_meets_bins : base.ax.bins[23]? ≠ none ∧ (params (met base 15 [24, 2]) 0).byte 0x11 = 2
    ∧ (params (met base 15 [25, 2]) 0).byte 0x10 = 25 := by decide +kernel

/-- O49: both areas FREE, and a run OPEN before. -/
theorem test_meets_open_run : base.tu.openArea = none ∧ (withRun base).tu.openArea = some .a
    ∧ (withRun base).tu.drainingArea = none ∧ 21 ≤ unreservedUnits base.dt base.tu base.xi := by decide +kernel

theorem test_meets_runs_apart : (withRun base).tu.Apart :=
  ⟨fun h => absurd h (by decide +kernel), fun area h => by cases area <;> first | rfl | exact absurd rfl h⟩

/-- O51: a HELD area, and one being cleared for a cell in hand. -/
def clearing : State :=
  (base.onTu (fun tu => { tu with areaB := { RunEntry.empty with area := .clearing, clearingCell := some 3 } })).onXi
    (fun xi => { xi with inHand := [{ cell := 3, tag := 5, kind := 18 }] })

theorem test_meets_areas : (clearing.tu.entry .b).area = .clearing ∧ (clearing.tu.entry .b).clearingCell = some 3
    ∧ clearing.xi.inHand.find? (fun h => h.cell == 3) = some { cell := 3, tag := 5, kind := 18 }
    ∧ (base.tu.entry .a).area ≠ .clearing := by decide +kernel

/-- The words that a host write reaches as the last of an area: the first and the last word of the area, a write that
runs over both areas, one that ends below the area, and one without a byte. -/
theorem test_words_through : wordsThrough .b (write 0x30000 [1]) = 1 ∧ wordsThrough .b (write 0x3FFFF [1]) = 0x4000
    ∧ wordsThrough .a (write 0x2FFFF [1, 2]) = 0x4000 ∧ wordsThrough .b (write 0x2FFFF [1, 2]) = 1
    ∧ wordsThrough .b (write 0x2FFFF [1]) = 0 ∧ wordsThrough .a (write 0x30000 [1]) = 0
    ∧ wordsThrough .a (write 0x20004 []) = 0 := by decide +kernel

theorem test_meets_status : base.sa.head? 1 ≠ none ∧ base.sa.head? 8 ≠ none ∧ base.sa.head? 9 = none := by
  decide +kernel

/-- O53: a piece at SS and at SE that takes a report, and one that does not stand in the zone. -/
theorem test_meets_report : reportGood report = true ∧ reportGood { report with density := 0 } = false
    ∧ ((laid scanning 5 (deck .running)).dt.lugByTag 251).map Prod.fst = some 5
    ∧ ((laid scanning 8 (deck .running)).dt.scanningPiece geo 248) ≠ none
    ∧ ((laid scanning 9 (deck .running)).dt.scanningPiece geo 247) = none
    ∧ (Machine.partialOf geo 2 report).density = 2 := by decide +kernel

/-- O56: the edges of the ranges of R45. -/
theorem test_meets_log : logGood { log1 with length := 1, smallEnd := 1, largeEnd := 1 } = true
    ∧ logGood { log1 with length := 16383, largeEnd := 1023 } = true
    ∧ logGood { log1 with length := 16384 } = false ∧ (withRun base).tu.pendingLogs = [] := by decide +kernel

/-- O57: a staging with its cell in hand, with a copy that passes and one that fails. -/
def staging (bank : Nat) : State :=
  ((base.onRs (fun rs =>
    { rs with
      staging := some { slot := 0, bank, cell := 3, saws := 10, kept := [] } })).onXi (fun xi =>
    { xi with inHand := [{ cell := 3, tag := 5, kind := 11 }] })).store 0x10000
      (le32 77 ++ [1, 1, 1, 1] ++ List.replicate 8 0 ++ [1, 1])

theorem test_meets_staging : (staging 0).rs.staging ≠ none
    ∧ (staging 0).xi.inHand.find? (fun h => h.cell == 3) ≠ none ∧ base.rs.staging = none
    ∧ (bankFailure 10 (stagedRules (staging 1).mem { slot := 0, bank := 1, cell := 3, saws := 10, kept := [] })).isSome
      = true := by decide +kernel

/-- O57: the number to give passes over those that slots hold, and goes on at 1 after 65535. -/
theorem test_meets_held_numbers :
    let held := fun n : Nat => { Slot.powerOn with state := .retiring, number := some n }
    let rs : RuleStore := { base.rs with slots := [held 65535, held 1, Slot.powerOn] }
    rs.slots.length = 3 ∧ rs.numberToGive 3 65535 = 2 ∧ rs.numberToGive 3 7 = 7 := by decide +kernel

def goodBank : Rules :=
  { rules59 with
    gradeCount := 3, sizeCount := 1, lengthCount := 4, logCount := 1
    sizes :=
      [{ widthMin := 90, widthMax := 110, thickMin := 20, thickMax := 30, nominalWidth := 100, nominalThick := 25 }] }

/-- A staging with memory in its form, a byte kept from before a later write, and the first and the last table. -/
theorem test_meets_bank_tests :
    let st : Staging := { slot := 0, bank := 1, cell := 3, saws := 10, kept := [(0x18000, 9), (0x18004, 0)] }
    Memory.wf (staging 1).mem = true ∧ (stagedMemory (staging 1).mem st).read 0x18000 = 9
    ∧ (bankFailure 10 (stagedRules (staging 1).mem st)).map (fun f => (f.table, f.index, f.check.code)) = some (0, 1, 1)
    ∧ (bankFailure 10 { goodBank with sort := [(13311, 25)] }).map (fun f => (f.table, f.index, f.check.code))
      = some (6, 6655, 6)
    ∧ (bankFailure 10 { goodBank with policy := { goodBank.policy with offSizeThick := 1024 } }).map (fun f =>
        (f.table, f.index, f.check.code)) = some (7, 8, 2)
    ∧ (bankFailure 3 goodBank).map (fun f => (f.table, f.index, f.check.code)) = some (3, 0, 5) := by decide +kernel

theorem test_meets_a_good_bank : bankFailure 10 goodBank = none := by decide +kernel

/-- O58: a solve in hand for a piece. -/
def solving : State :=
  (laid { solved with state := .solving, scan := some { scan59 with incomplete := true } } 10
    (withRules (deck .running))).onTs (fun ts =>
    { ts with inHand := some { serial := 1, slot := 0, lockView := 0, trim := none, arrival := false } })

theorem test_meets_solve : solving.ts.inHand ≠ none ∧ solving.dt.piece? 1 ≠ none ∧ base.ts.inHand = none
    ∧ ((solving.ts.inHand).bind (fun c => (solving.dt.piece? 1).bind (fun p => solving.solveResult c p))).isSome
      = true := by decide +kernel

/-- O58: the solve in hand has its geometry, scan record and slot, and a forced grade is put back before the solve. -/
theorem test_meets_solve_inputs : solving.dt.geometry = some geo
    ∧ ((solving.dt.piece? 1).bind (fun p => p.scan)).isSome = true ∧ (solving.rs.slots[0]?).isSome = true
    ∧ ((({ solved with gradePart := some { kind := .forceGrade 4, source := .remote, authority := true
                                           state := .applied, solved := some [(1, 500)] } } : Piece).solverSolution).map
        (fun sol => (sol.products.map (fun x => (x.grade, x.value)), sol.totalValue))) = some ([(1, 500)], 500) := by
  decide +kernel

/-- O59: each way a solve ends, under each trim override, with something left to choose and with nothing, and with a
last solution that the lock view leaves usable and one that it does not. -/
theorem test_meets_solve_ways : (solve geo rules59 { scan59 with gap := true } 2 0 none none).solution.kind = .fallback
    ∧ (solve geo rules59 { scan59 with ends := none } 2 0 none none).solution.reason = .noWood
    ∧ (solve geo rules59 scan59 2 0 none none).solution.saws = [2, 8]
    ∧ (solve geo rules59 scan59 2 0 (some (.reman, none)) none).solution.constraint = .reman
    ∧ (solve geo rules59 scan59 2 0 (some (.shorter, some 3600)) none).solution.constraint = .shorter
    ∧ (solve geo rules59 scan59 2 0 (some (.shorter, none)) none).reference = some 3600
    ∧ (solve geo rules59 scan59 2 0 (some (.shorter, some 100)) none).applied = false
    ∧ (solve geo rules59 scan59 2 0 (some (.cutInTwo, none)) (some solution)).solution = solution
    ∧ (solve geo rules59 scan59 2 2 (some (.cutInTwo, none)) (some solution)).solution.saws ≠ [2, 8]
    ∧ (solve geo { rules59 with lengths := [2, 4] } scan59 2 0 (some (.cutInTwo, none)) none).solution.constraint
      = .twoOnly := by decide +kernel

/-- O60: both stations, with the geometry and without; a full queue; a station that shows an answer. -/
theorem test_meets_keys : base.ou.station? 1 ≠ none ∧ base.ou.station? 2 ≠ none ∧ base.dt.geometry = none
    ∧ (deck .halted).dt.lugAt geo.aim1 ≠ none ∧ (deck .halted).dt.lugAt geo.aim2 ≠ none
    ∧ (List.replicate 4 ({ key := 0, tag := 0, authority := false } : KeyEntry)).length = 4 := by decide +kernel

/-! ## One step -/

def eyes (loader trim deckEnd : Bool) : Eyes := { loader, trim, deckEnd }

/-- A forward beat with wood at the loader or not, none at T and E: the encoder rises from 0 to one pitch. -/
def beat (wood : Bool) (feedback : SawSet) : Instr :=
  .forwardBeat geo.countsPerPitch (eyes wood false false) feedback (eyes true true false)

theorem test_hold_loader : resultOf (after (.holdLoader 0 (post 4 [])) (sweeping admitting)) = (0, 0)
    ∧ (after (.holdLoader 0 (post 4 [])) (sweeping admitting)).dt.gate = false
    ∧ (after (.releaseLoader 0 (post 5 [])) (sweeping held)).dt.gate = true := by decide +kernel

theorem test_unknown_kind :
    resultOf (after (.unknownKind 0 (post 19 [])) (sweeping base)) = (Result.unknownKind.code, 0)
    ∧ (after (.unknownKind 0 (post 19 [])) (sweeping base)).xi.unknownKinds = 1 := by decide +kernel

theorem test_set_geometry :
    (after (.setGeometry 0 (write geometryAddr geoBytes :: post 1 [])) (sweeping base)).dt.geometry = some geo
    ∧ resultOf (after (.setGeometry 0 (write geometryAddr (geoBytes.set 6 21) :: post 1 [])) (sweeping base))
      = (Result.badParam.code, 6) := by decide +kernel

theorem test_start_line : (after (.startLine 0 (post 2 [])) (sweeping (deck .halted))).dt.state = .running
    ∧ resultOf (after (.startLine 0 (post 2 [])) (sweeping (deck .running))) = (Result.refusedState.code, 0) := by
  decide +kernel

theorem test_lock_saw : resultOf (after (.lockSaw 0 (post 13 [20])) (sweeping base)) = (0, 1)
    ∧ (after (.lockSaw 0 (post 13 [20])) (sweeping base)).ax.lockSet = BitVec.ofNat 20 (2 ^ 19) := by decide +kernel

theorem test_set_bin : resultOf (after (.setBin 0 (post 15 [24, 1])) (sweeping base)) = (0, 1)
    ∧ resultOf (after (.setBin 0 (post 15 [24, 2])) (sweeping base)) = (0, 4) := by decide +kernel

theorem test_open_run : (after (.openRun 0 (post 16 [9])) (sweeping base)).tu.openArea = some .a
    ∧ (after (.openRun 0 (post 16 [9])) (sweeping base)).mem.readBytes 0x810 3 = [1, 0, 0]
    ∧ (after (.closeRun 0 (post 17 [])) (sweeping (withRun base))).mem.read journalAddr = 3 := by decide +kernel

/-- The gate is open: the board is admitted, 20 units are reserved, the map moves. -/
theorem test_admission : (after (beat true 0) admitting).dt.pieces.map (fun p => (p.serial, p.tag, p.reservation))
      = [(1, 1, 20)]
    ∧ (after (beat true 0) admitting).dt.position = 1 ∧ (after (beat true 0) admitting).tu.areaA.live = 1 := by
  decide +kernel

/-- After serial 4294967295 the next is 1, or 2 where an entry still holds 1 (R5, log 43). -/
theorem test_serials_wrap :
    let last := admitting.onDt (fun d => { d with nextSerial := 0xFFFFFFFF })
    (after (beat true 0) last).dt.nextSerial = 1
    ∧ (after (beat true 0) (last.onDt (fun d => { d with pieces := [board .sorted] }))).dt.nextSerial = 2
    ∧ (after (beat true 0) admitting).dt.nextSerial = 2 := by decide +kernel

/-- A sweep that left OPEN_RUN in cell 0 and CLOSE_RUN in cell 1: each take is an event of its own (R166), so the hold
and the log hold that the close calls for raise HOLD. -/
theorem test_visits_are_events :
    let t := after (.sweep (post 16 [9] ++ [write 0x844 (le16 17), write 0x848 (le32 0xA1), write 0x840 (le32 1)]))
      (sweeping base)
    t.xi.raises.hold = 2 ∧ t.tu.areaA.area = .held ∧ t.xi.cellsTaken = 2 := by decide +kernel

/-- A motion within a pitch, over one multiple and back, and over two (R1, log 28). -/
theorem test_crossings :
    let at63 := after (.forwardBeat 63 (eyes false false false) 0 (eyes false false false)) admitting
    let at64 := after (.forwardBeat 64 (eyes false false false) 0 (eyes false false false)) at63
    let back := after (.backBeat 63 none) at64
    (at63.dt.position = 0 ∧ at63.dt.encoder = 63) ∧ (at64.dt.position = 1 ∧ at64.dt.encoder = 64)
    ∧ (back.dt.position = 0 ∧ back.dt.encoder = 63 ∧ back.dt.backBeats = 1)
    ∧ (after (.forwardBeat 128 (eyes false false false) 0 (eyes false false false)) admitting).dt = admitting.dt := by
  decide +kernel

/-- HOST holds alone: the board is admitted by hand. -/
theorem test_hand_loaded : (after (beat true 0) held).dt.pieces.map (fun p => p.handLoaded) = [true]
    ∧ (after (beat true 0) (deck .running)).dt.strangers = 1 := by decide +kernel

/-- A saw that does not follow its command (R132, R133): it is locked, the piece goes to the recut bin. -/
theorem test_cut_check :
    let s := (laid committed 24 admitting).onAx (fun ax =>
      { ax with sawOut := 0x82, window := List.replicate 3 { tag := 232, command := 0x82, issued := true } })
    ((after (beat false 0x82) s).dt.pieces.map (fun p => p.cutCheck)) = [some .clean]
    ∧ ((after (beat false 0x02) s).dt.pieces.map (fun p => (p.cutCheck, p.commit.map (fun c => c.target))))
      = [(some .mismatch, some 4)]
    ∧ (after (beat false 0x02) s).ax.lockSet = BitVec.ofNat 20 128 := by decide +kernel

/-- A CUT piece reaches its bin's station (R140, R16): the gate pulses, the record is written, the entry freed. -/
theorem test_bin_drop : (after (beat false 0) (laid cut 32 admitting)).dt.pieces = []
    ∧ (after (beat false 0) (laid cut 32 admitting)).ax.bins.map (fun b => b.pulsing)
      = (List.range' 1 24).map (fun b => b == 9)
    ∧ (after (beat false 0) (laid cut 32 admitting)).mem.readBytes journalAddr 8 = [1, 4, 0, 0, 1, 0, 0, 0] := by
  decide +kernel

theorem test_back_beat :
    let s := (deck .running).onAx (fun ax => { ax with sawOut := 0x82 })
    (after (.backBeat (-1) none) s).ax.sawOut = 0
    ∧ ((after (.backBeat (-1) none) s).dt.lugs[63]?).map (fun l => l.tag) = some 192
    ∧ ((after (.backBeat (-1) none) s).dt.upstream).map (fun l => l.tag) = [0] := by decide +kernel

theorem test_estop : (after .estopAssert (deck .running)).dt.state = .faulted
    ∧ (after .stallTimerExpiry (deck .running)).dt.causes.stall = .standing
    ∧ (after (.deckRunLineChange false) (deck .running)).dt.state = .stoppedClear := by decide +kernel

theorem test_head_status : (after (.headStatus 3 7 8 100) base).out = [.frame 3 (.alignStep 32)]
    ∧ (after (.headStatus 3 7 8 100) base).sa.headState 3 = .ready
    ∧ (after (.badFrame 3) base).sa.headState 3 = .linkFault := by decide +kernel

theorem test_key_press : ((after (.keyPress 1 3 false) base).ou.station? 1).map (fun st => st.showing)
      = some (some { ok := false, refuse := true })
    ∧ (after (.keyPress 1 0 true) (laid solved 14 (withRules (deck .running)))).dt.pieces.map (fun p =>
        p.gradePart.map (fun x => x.state)) = [some .applied] := by decide +kernel

theorem test_log_report : (after (.logReport log1) (withRules (withRun base))).mem.readBytes journalAddr 2 = [2, 2]
    ∧ (after (.logReport log1) (withRules (withRun base))).mem.read32 (areaAddr .a + 0xD108 + 4) = 281
    ∧ (after (.logReport log1) base).tu.refusedLogs = 1 := by decide +kernel

theorem test_line_reset : (after (.lineReset 3) admitting).dt.state = .unconfigured
    ∧ (after (.lineReset 3) admitting).tu.areaA.area = .held ∧ (after (.lineReset 3) admitting).xi.enable = true
    ∧ (after (.lineReset 3) admitting).xi.causeLine = true := by decide +kernel

theorem test_solve_completion : ((after .solveCompletion solving).dt.pieces.map (fun p =>
    p.solution.map (fun x => (x.kind, x.target)))) = [some (.fallback, some 6)] := by decide +kernel

/-- A late write at word 2 has the words up to it passed: a later write at word 1 stands, the rest is zeroed (R151). -/
theorem test_clearing_goes_up : ((after (.clearingCompletion .b
      [write 0x30000 (List.replicate 16 9), { addr := 0x30008, bytes := [5], late := true }, write 0x30004 [7]])
      clearing).mem.readBytes 0x30000 16) = [0, 0, 0, 0, 7, 0, 0, 0, 5, 0, 0, 0, 0, 0, 0, 0] := by decide +kernel

theorem test_clearing : (after (.clearingCompletion .b []) clearing).tu.areaB.area = .free
    ∧ (after (.clearingCompletion .b []) clearing).xi.dropped = 1 := by decide +kernel

def filledTo (fill : Nat) : State := base.onXi (fun xi => { xi with fill := fill })

def tableOf (n : Nat) : State := base.onDt (fun d => { d with pieces := List.replicate n (board .cut) })

/-- The reasons at the edges of R9, R10, R158 and R170. -/
theorem test_meets_holds : (filledTo 49112).holdNow.journal = false ∧ (filledTo 49113).holdNow.journal = true
    ∧ (tableOf 95).holdNow.table = false ∧ (tableOf 96).holdNow.table = true
    ∧ base.holdNow.run = true ∧ (withRun base).holdNow.run = false
    ∧ base.holdNow.rules = true ∧ (withRules base).holdNow.rules = false
    ∧ base.holdNow.align = false ∧ (headIs 8 .waking base).holdNow.wake = true ∧ (deck .faulted).holdNow.fault = true
    ∧ gateNow .running base.dt.hold = false ∧ logHoldNow (withRun base).tu = false ∧ logHoldNow base.tu = true := by
  decide +kernel

/-- The Status Block is rewritten when an item changes and left when none does (R176). -/
theorem test_status_due : (after (.keyPress 1 3 false) base).xi.updateCount = 4
    ∧ (after (.keyPress 1 3 false) base).mem.read32 0x1000 = 4
    ∧ (after (.keyPress 1 3 false) base).mem.readBytes 0x1010 2 = [1, 0]
    ∧ (after .estopRelease base).xi.updateCount = 2 ∧ (after .estopRelease base).mem = [] := by decide +kernel

/-- The lock set is the mask of its saws and then their reasons (R183, R134). -/
theorem test_lock_set_shown :
    ((statusActuation base.dt ((base.onSaw 3 (fun w => { w with host := true })).onSaw 20 (fun w =>
      { w with fault := true })).ax).drop 3).take 23
      = [4, 0, 8] ++ [0, 0, 1] ++ List.replicate 16 0 ++ [2] := by decide +kernel

/-- Streams at the edges of R25 and R185: unfinished, good, misplaced delimiter, length words 145 and 146. -/
theorem test_meets_frames : takeFrame [2] = none ∧ takeFrame [2, 0, 0x12, 1, 0x5A] = none
    ∧ takeFrame [2, 0, 0x12, 1, 0x5A, 0xC3, 9] = some (.payload [0x12, 1], [9])
    ∧ takeFrame [2, 0, 0x12, 1, 0, 0x5A, 0xC3, 9] = some (.bad, [9])
    ∧ takeFrame [2, 0, 0x12, 1, 0, 0, 0x5A] = none
    ∧ takeFrame [145, 0, 0x5A, 0xC3, 9] = none ∧ takeFrame [146, 0, 0x5A, 0xC3, 9] = some (.bad, [9])
    ∧ takeFrame [146, 0, 0x5A, 0x5A, 0xC3] = some (.bad, []) := by decide +kernel

theorem test_link_commands : headLinkCommand 3 7 (.payload [0x12, 0]) = .alignEcho 3 false
    ∧ headLinkCommand 3 7 (.payload [0x12, 2]) = .badFrame 3 ∧ headLinkCommand 3 7 (.payload []) = .badFrame 3
    ∧ headLinkCommand 3 7 (.payload [0x13, 1, 0, 0, 0, 2, 0, 0, 0]) = .headStatus 3 1 2 7
    ∧ headLinkCommand 3 7 (.payload ([0x11, 1, 2, 1, 0, 0xE8, 3, 0xCF, 7, 100, 0, 110, 0, 20, 0, 25, 0]))
      = .headReport 3 report
    ∧ headLinkCommand 3 7 (.payload ([0x11, 1, 2, 0, 0, 0xE8, 3, 0xCF, 7, 100, 0, 110, 0, 20, 0, 25, 0]))
      = .badFrame 3
    ∧ logLinkCommand (.payload [0x21, 5, 0, 0x10, 0x13, 240, 0, 0x2C, 1, 3, 0]) = .logReport log1
    ∧ logLinkCommand (.payload [0x21, 5, 0, 0, 0, 240, 0, 0x2C, 1, 3, 0]) = .logBadFrame := by decide +kernel

/-- The first bytes of a frame stand on the link of head 8. -/
def partly : State := base.receiveHead 8 7 [2, 0, 0x12]

/-- A frame in two parts: the first is kept, the second finishes it; an OFFLINE head's bytes are discarded. -/
theorem test_link_bytes : (partly.sa.head? 8).map (fun hd => hd.rx) = some [2, 0, 0x12] ∧ partly.pending = []
    ∧ (partly.receiveHead 8 7 [1, 0x5A, 0xC3, 2]).pending = [.alignEcho 8 true]
    ∧ ((partly.receiveHead 8 7 [1, 0x5A, 0xC3, 2]).sa.head? 8).map (fun hd => hd.rx) = some [2]
    ∧ (headIs 8 .offline base).receiveHead 8 7 [2, 0, 0x12] = headIs 8 .offline base
    ∧ (base.receiveLog [146, 0, 0x5A, 0xC3]).pending = [.logBadFrame] := by decide +kernel

theorem test_lost : ((laid solved 10 (deck .running)).losePiece 1).dt.pieces = []
    ∧ ((laid solved 10 (deck .running)).losePiece 1).mem.read (journalAddr + 0x0E) = 0x02 := by decide +kernel

theorem test_takes_counted : ((base.countTake .station2 .tooLate).ou.station? 2).map (fun st =>
      (st.counts.taken, st.counts.accepted, st.counts.tooLate)) = some (1, 0, 1)
    ∧ (base.countTake .remote .done).ou.remote.accepted = 1 := by decide +kernel

theorem test_meets_bins_and_commit : (deck .running).dt.pieceAt geo.c = none ∧ (deck .running).dt.pieceAt geo.e = none
    ∧ (deck .running).binAvailable 24 = true ∧ (deck .faulted).binAvailable 24 = false := by decide +kernel

theorem test_registers_read : registerRead 0x04 (sweeping base) = 1 ∧ registerRead 0x04 base = 0
    ∧ registerRead 0x05 (sweeping base) = 0 := by decide +kernel

/-- O13, O36: the AND of NOTICE and NOTICE_MASK comes from zero, or not; a record that reaches the notify count sends
the message that its notice calls for. -/
theorem test_meets_message : msiFollows true 0 1 1 1 = true ∧ msiFollows true 2 3 3 3 = false
    ∧ msiFollows false 0 1 1 1 = false
    ∧ (let t := (base.onXi (fun xi => { xi with notifyCount := 1, noticeMask := 1, port := true })).writeRecord .log 2 []
      t.out = [.msi] ∧ t.xi.notice = 1 ∧ t.xi.recordsSince = 0) := by decide +kernel

/-- Two pieces, the first on a lug; the second waits in the solver queue. -/
def twoPieces (p : Piece) (station : Nat) : State :=
  ((laid p station admitting).onDt (fun d =>
    { d with pieces := d.pieces ++ [{ board .scanned with serial := 2, generation := some (1, 0) }] })).onTs (fun ts =>
      { ts with queue := [2] })

/-- A solve in hand for a piece. -/
def solvingFor (n : Word) (s : State) : State :=
  s.onTs (fun ts =>
    { ts with inHand := some { serial := n, slot := 0, lockView := 0, trim := none, arrival := false } })

/-- O28: a SOLVED piece joins a queue in admission order before the younger one; with no solve in hand TS takes it. -/
theorem test_meets_sent_back : ((twoPieces solved 15).joinLock 2).ts.queue = [2]
    ∧ ((twoPieces solved 15).joinLock 2).ts.solves 1 = true
    ∧ ((solvingFor 3 (twoPieces solved 15)).joinLock 2).ts.queue = [1, 2]
    ∧ ((solvingFor 3 (twoPieces solved 15)).joinLock 2).dt.pieces.map (fun p => p.state) = [.scanned, .scanned]
    ∧ (twoPieces solved 15).dt.age 1 ≤ (twoPieces solved 15).dt.age 2 := by decide +kernel

/-- O30, O32: the commit of the piece of the solve in hand, with another that TS takes; another piece and another slot
beside the piece that enters. -/
theorem test_meets_other_pieces :
    ((solvingFor 1 (twoPieces (board .solving) 20)).commitAt geo).dt.pieces.map (fun p => p.state)
      = [.committed, .solving]
    ∧ ((solvingFor 1 (twoPieces (board .solving) 20)).commitAt geo).ts.solves 2 = true
    ∧ ((twoPieces solved 20).commitAt geo).dt.pieces.map (fun p => p.state) = [.committed, .scanned]
    ∧ ((twoPieces (board .admitted) 5).zoneEntry geo 0).dt.pieces.map (fun p => p.state) = [.scanning, .scanned]
    ∧ (twoPieces (board .admitted) 5).dt.piece? 2 ≠ none ∧ admitting.rs.slots[1]? ≠ none := by decide +kernel

/-- O34: a request in hand whose cell reads TAKEN, one whose cell does not, and a cell that holds none. -/
theorem test_meets_held_end : clearing.xi.inHand.find? (fun h => h.cell == 4) = none
    ∧ clearing.mem.read32 0x8C0 ≠ 2 ∧ (clearing.store 0x8C0 (le32 2)).mem.read32 (0x800 + 64 * 3) = 2 := by
  decide +kernel

/-- O37: a sweep comes to cell 31 past cells that it cannot take, to none behind one that it can, and to no cell 32; a
cell in hand; the last byte, half and word of the parameters. -/
theorem test_meets_sweep_course : (sweeping base).sweepReaches 31 = true ∧ (sweeping base).sweepReaches 32 = false
    ∧ (met base 4 []).sweepReaches 0 = true ∧ (met base 4 []).sweepReaches 1 = false
    ∧ ((met base 4 []).onXi (fun xi => { xi with inHand := [{ cell := 0, tag := 0, kind := 9 }] })).takeable 0 = false
    ∧ cellAfter 30 = some 31
    ∧ (let r := params (base.store 0x83C [1, 2, 3, 4]) 0
      r.byte 0x3F = 4 ∧ r.half 0x3E = 0x403 ∧ r.word 0x3C = 0x04030201) := by decide +kernel

/-- O39: fields at the edges of their ranges and relations. -/
theorem test_meets_field_edges : geometryFieldOk (geoFields.set 1 5) 1 = true
    ∧ geometryFieldOk (geoFields.set 1 4) 1 = false ∧ geometryFieldOk (geoFields.set 3 8) 3 = false
    ∧ geometryFieldOk (geoFields.set 6 22) 6 = true ∧ geometryFieldOk (geoFields.set 6 21) 6 = false
    ∧ geometryFieldOk (geoFields.set 8 24) 8 = false ∧ geometryFieldOk (geoFields.set 31 49) 31 = true
    ∧ geometryFieldOk (geoFields.set 31 48) 31 = true ∧ geometryFieldOk (geoFields.set 31 47) 31 = false
    ∧ geometryFieldOk (geoFields.set 39 0) 39 = true := by decide +kernel

/-- O53: the edges of a find word's fields; kind codes 9, 10 and 15. -/
theorem test_meets_find_words :
    Find.ofWord 0x3FFF = { along := 16383, across := 0, kind := .knotSound, size := 0, face := 0 }
    ∧ Find.ofWord 0x827FC000 = { along := 0, across := 255, kind := .check, size := 0, face := 2 }
    ∧ Find.ofWord 0x3E800000 = { along := 0, across := 0, kind := .other, size := 15, face := 0 }
    ∧ (Find.ofWord 0x03C00000).kind = .other := by decide +kernel

/-- O57: a late write into the last word of bank 0 and past it keeps that word's bytes once; one that is not late and
one without a byte keep none. -/
theorem test_meets_late_writes :
    let late : HostWrite := { addr := 0x17FFE, bytes := [7, 8, 9], late := true }
    let kept := fun (s : State) => s.rs.staging.map (fun st => st.kept)
    kept ((staging 0).hostWrite late) = some [(0x17FFC, 0), (0x17FFD, 0), (0x17FFE, 0), (0x17FFF, 0)]
    ∧ kept (((staging 0).hostWrite late).hostWrite late) = kept ((staging 0).hostWrite late)
    ∧ kept ((staging 1).hostWrite late) = some [(0x18000, 0), (0x18001, 0), (0x18002, 0), (0x18003, 0)]
    ∧ kept ((staging 0).hostWrite { late with late := false }) = some []
    ∧ kept ((staging 0).hostWrite { late with bytes := [] }) = some []
    ∧ ((staging 0).hostWrite late).mem.read 0x18000 = 9 := by decide +kernel

end Sys2Proof.Tests
end

section
/-! SUPPORT. The assembly close (R36, R37, R38, R83, R84): what the scan record takes from the partial results, where the
piece joins the solver queue, and what TS takes from it. -/

open Sys2Proof

namespace Sys2Proof.Machine

/-! ## Least and greatest -/

theorem leastOf_eq_some_iff (l : List Nat) (m : Nat) : leastOf l = some m ↔ m ∈ l ∧ ∀ x ∈ l, m ≤ x := by
  have h : leastOf l = l.min? := by cases l <;> rfl
  rw [h, List.min?_eq_some_iff]

theorem greatestOf_eq_some_iff (l : List Nat) (m : Nat) : greatestOf l = some m ↔ m ∈ l ∧ ∀ x ∈ l, x ≤ m := by
  have h : greatestOf l = l.max? := by cases l <;> rfl
  rw [h, List.max?_eq_some_iff]

@[simp] theorem leastOf_eq_none_iff (l : List Nat) : leastOf l = none ↔ l = [] := by
  cases l <;> simp [leastOf]

@[simp] theorem greatestOf_eq_none_iff (l : List Nat) : greatestOf l = none ↔ l = [] := by
  cases l <;> simp [greatestOf]

theorem leastOf_map_eq_some_iff {α : Type} (f : α → Nat) (l : List α) (m : Nat) :
    leastOf (l.map f) = some m ↔ (∃ x ∈ l, f x = m) ∧ ∀ x ∈ l, m ≤ f x := by
  rw [leastOf_eq_some_iff, List.mem_map, List.forall_mem_map]

theorem greatestOf_map_eq_some_iff {α : Type} (f : α → Nat) (l : List α) (m : Nat) :
    greatestOf (l.map f) = some m ↔ (∃ x ∈ l, f x = m) ∧ ∀ x ∈ l, f x ≤ m := by
  rw [greatestOf_eq_some_iff, List.mem_map, List.forall_mem_map]

/-! ## The heads that saw wood (R36) -/

/-- The partial results of the heads that saw wood, by head number. -/
def Assembly.wood (a : Assembly) : List Partial := (byHead a.received).filter (fun q => q.extent.isSome)

theorem Assembly.wood_eq (a : Assembly) :
    a.wood = (byHead a.received).filter (fun q => q.extent.isSome) := rfl

/-- A head that saw wood has an end on either side. -/
theorem Assembly.wood_ends_eq_nil (a : Assembly) (side : Nat × Nat → Nat) :
    a.wood.filterMap (fun q => q.extent.map side) = [] ↔ a.wood = [] := by
  refine ⟨fun h => List.eq_nil_iff_forall_not_mem.mpr fun q hq => ?_, fun h => by rw [h]; rfl⟩
  have hnone : q.extent.map side = none := List.filterMap_eq_nil_iff.mp h q hq
  have hsome : q.extent.isSome = true := (List.mem_filter.mp hq).2
  rw [Option.map_eq_none_iff.mp hnone] at hsome
  exact absurd hsome Bool.false_ne_true

theorem closeAssembly_ends_eq_none (roster : HeadSet) (a : Assembly) :
    (closeAssembly roster a).ends = none ↔ a.wood = [] := by
  have hfirsts := a.wood_ends_eq_nil Prod.fst
  have hlasts := a.wood_ends_eq_nil Prod.snd
  simp only [closeAssembly, ← Assembly.wood_eq]
  cases hl : leastOf (a.wood.filterMap (fun q => q.extent.map Prod.fst)) with
  | none =>
    rw [leastOf_eq_none_iff] at hl
    simp [hfirsts.mp hl]
  | some l => simp [hlasts]

/-- The ends are the least first and the greatest last millimetre of the heads that saw wood. -/
theorem closeAssembly_ends_eq_some (roster : HeadSet) (a : Assembly) (left right : Nat)
    (h : (closeAssembly roster a).ends = some (left, right)) :
    (∃ q ∈ a.wood, q.extent.map Prod.fst = some left) ∧ (∃ q ∈ a.wood, q.extent.map Prod.snd = some right)
      ∧ ∀ q ∈ a.wood, ∀ x, q.extent = some x → left ≤ x.1 ∧ x.2 ≤ right := by
  obtain ⟨l, hl, hpair⟩ := Option.bind_eq_some_iff.mp h
  obtain ⟨r, hr, heq⟩ := Option.map_eq_some_iff.mp hpair
  obtain ⟨rfl, rfl⟩ := Prod.mk.inj heq
  obtain ⟨hleft, hleast⟩ := (leastOf_eq_some_iff _ _).mp hl
  obtain ⟨hright, hgreatest⟩ := (greatestOf_eq_some_iff _ _).mp hr
  refine ⟨List.mem_filterMap.mp hleft, List.mem_filterMap.mp hright, fun q hq x hx => ⟨?_, ?_⟩⟩
  · exact hleast _ (List.mem_filterMap.mpr ⟨q, hq, by rw [hx]; rfl⟩)
  · exact hgreatest _ (List.mem_filterMap.mpr ⟨q, hq, by rw [hx]; rfl⟩)

/-- The measures are there exactly when their four extremes are. -/
theorem closeAssembly_measures_eq_some_iff (roster : HeadSet) (a : Assembly) (m : Measures) :
    (closeAssembly roster a).measures = some m ↔
      leastOf (a.wood.map (fun q => q.widthMin)) = some m.widthMin
      ∧ greatestOf (a.wood.map (fun q => q.widthMax)) = some m.widthMax
      ∧ leastOf (a.wood.map (fun q => q.thickMin)) = some m.thickMin
      ∧ greatestOf (a.wood.map (fun q => q.thickMax)) = some m.thickMax := by
  simp only [closeAssembly, ← Assembly.wood_eq, Option.bind_eq_some_iff, Option.map_eq_some_iff]
  constructor
  · rintro ⟨_, hwl, _, hwh, _, htl, _, hth, rfl⟩
    exact ⟨hwl, hwh, htl, hth⟩
  · rintro ⟨hwl, hwh, htl, hth⟩
    exact ⟨_, hwl, _, hwh, _, htl, _, hth, rfl⟩

theorem closeAssembly_measures_eq_none (roster : HeadSet) (a : Assembly) :
    (closeAssembly roster a).measures = none ↔ a.wood = [] := by
  simp only [closeAssembly, ← Assembly.wood_eq]
  cases a.wood with
  | nil => simp [leastOf]
  | cons q rest => simp [leastOf, greatestOf]

/-- Each measure is the extreme over the heads that saw wood. -/
theorem closeAssembly_measures_eq_some (roster : HeadSet) (a : Assembly) (m : Measures)
    (h : (closeAssembly roster a).measures = some m) :
    (∃ q ∈ a.wood, q.widthMin = m.widthMin) ∧ (∃ q ∈ a.wood, q.widthMax = m.widthMax)
      ∧ (∃ q ∈ a.wood, q.thickMin = m.thickMin) ∧ (∃ q ∈ a.wood, q.thickMax = m.thickMax)
      ∧ ∀ q ∈ a.wood, m.widthMin ≤ q.widthMin ∧ q.widthMax ≤ m.widthMax ∧ m.thickMin ≤ q.thickMin
        ∧ q.thickMax ≤ m.thickMax := by
  rw [closeAssembly_measures_eq_some_iff, leastOf_map_eq_some_iff, greatestOf_map_eq_some_iff,
    leastOf_map_eq_some_iff, greatestOf_map_eq_some_iff] at h
  obtain ⟨⟨hwl, hwl'⟩, ⟨hwh, hwh'⟩, ⟨htl, htl'⟩, hth, hth'⟩ := h
  exact ⟨hwl, hwh, htl, hth, fun q hq => ⟨hwl' q hq, hwh' q hq, htl' q hq, hth' q hq⟩⟩

/-! ## The finds (R37) -/

theorem mem_insertFind {f x : Find} {l : List Find} : x ∈ insertFind f l ↔ x = f ∨ x ∈ l := by
  induction l with
  | nil => simp [insertFind]
  | cons g rest ih =>
    unfold insertFind
    split
    · exact List.mem_cons
    · rw [List.mem_cons, ih, List.mem_cons, or_left_comm]

theorem insertFind_sorted (f : Find) (l : List Find) (h : l.Pairwise (fun x y => x.along ≤ y.along)) :
    (insertFind f l).Pairwise (fun x y => x.along ≤ y.along) := by
  induction l with
  | nil => simp [insertFind]
  | cons g rest ih =>
    obtain ⟨hg, hrest⟩ := List.pairwise_cons.mp h
    unfold insertFind
    split
    · rename_i hlt
      refine List.pairwise_cons.mpr ⟨fun x hx => ?_, h⟩
      rcases List.mem_cons.mp hx with rfl | hx
      · exact hlt.le
      · exact hlt.le.trans (hg x hx)
    · rename_i hge
      refine List.pairwise_cons.mpr ⟨fun x hx => ?_, ih hrest⟩
      rcases mem_insertFind.mp hx with rfl | hx
      · exact Nat.le_of_not_lt hge
      · exact hg x hx

/-- Among the finds at one position the inserted one comes last. -/
theorem filter_insertFind (f : Find) (k : Nat) (l : List Find) (h : l.Pairwise (fun x y => x.along ≤ y.along)) :
    (insertFind f l).filter (fun x => x.along == k)
      = l.filter (fun x => x.along == k) ++ [f].filter (fun x => x.along == k) := by
  induction l with
  | nil => rfl
  | cons g rest ih =>
    obtain ⟨hg, hrest⟩ := List.pairwise_cons.mp h
    unfold insertFind
    split
    · rename_i hlt
      by_cases hk : f.along = k
      · -- every find from `g` on lies beyond `k`
        have hbeyond : (g :: rest).filter (fun x => x.along == k) = [] := by
          refine List.filter_eq_nil_iff.mpr fun x hx => ?_
          have hgx : g.along ≤ x.along := by
            rcases List.mem_cons.mp hx with rfl | hx
            · exact le_rfl
            · exact hg x hx
          rw [beq_iff_eq]
          omega
        rw [List.filter_cons, hbeyond, List.nil_append, List.filter_cons, List.filter_nil]
      · simp [List.filter_cons, hk]
    · rw [List.filter_cons, List.filter_cons, ih hrest]
      split <;> rfl

/-- The invariant of the sort: the finds taken so far stand in order, and those at one position in the order taken. -/
theorem foldl_insertFind (l acc : List Find) (h : acc.Pairwise (fun x y => x.along ≤ y.along)) :
    (l.foldl (fun acc f => insertFind f acc) acc).Pairwise (fun x y => x.along ≤ y.along)
    ∧ ∀ k, (l.foldl (fun acc f => insertFind f acc) acc).filter (fun x => x.along == k)
      = acc.filter (fun x => x.along == k) ++ l.filter (fun x => x.along == k) := by
  induction l generalizing acc with
  | nil => exact ⟨h, fun k => (List.append_nil _).symm⟩
  | cons f rest ih =>
    obtain ⟨hsorted, hfilter⟩ := ih (insertFind f acc) (insertFind_sorted f acc h)
    refine ⟨hsorted, fun k => ?_⟩
    rw [List.foldl_cons, hfilter, filter_insertFind f k acc h, List.append_assoc, ← List.filter_append,
      List.singleton_append]

theorem sortFinds_sorted (l : List Find) : (sortFinds l).Pairwise (fun x y => x.along ≤ y.along) :=
  (foldl_insertFind l [] .nil).1

theorem filter_sortFinds (l : List Find) (k : Nat) :
    (sortFinds l).filter (fun x => x.along == k) = l.filter (fun x => x.along == k) :=
  (foldl_insertFind l [] .nil).2 k

/-! ## Missing heads and gaps (R38) -/

theorem Assembly.has_receivedSet (a : Assembly) (h : Nat) (hlo : 1 ≤ h) (hhi : h ≤ 8) :
    has a.receivedSet h = a.received.any (fun q => q.head == h) := by
  have hbit : h - 1 < 8 := by omega
  rw [Bool.eq_iff_iff]
  simp [has, Assembly.receivedSet, maskOf_getLsbD, Nat.sub_add_cancel hlo, hlo, hbit, -BitVec.getLsbD_eq_getElem]

/-- The absent heads are the roster's heads not received; no head beyond the eight is in a roster. -/
theorem Assembly.has_absentHeads (a : Assembly) (roster : HeadSet) (h : Nat) :
    has (a.absentHeads roster) h = (has roster h && !(a.received.any (fun q => q.head == h))) := by
  by_cases hh : 1 ≤ h ∧ h ≤ 8
  · obtain ⟨hlo, hhi⟩ := hh
    have hbit : h - 1 < 8 := by omega
    rw [← a.has_receivedSet h hlo hhi]
    simp [has, Assembly.absentHeads, hlo, hbit]
  · have hout : ∀ m : HeadSet, has m h = false := fun m => by
      by_cases hlo : 1 ≤ h
      · simp [has, BitVec.getLsbD_of_ge m (h - 1) (by omega)]
      · simp [has, hlo]
    rw [hout, hout, Bool.false_and]

theorem gapIn_iff (received : List Partial) :
    gapIn received = true ↔ ∃ q ∈ received, ∃ x ∈ received, ∃ y ∈ received,
      q.extent = none ∧ x.extent ≠ none ∧ y.extent ≠ none ∧ x.head < q.head ∧ q.head < y.head := by
  simp only [gapIn, List.any_eq_true, Bool.and_eq_true, decide_eq_true_eq, Option.isNone_iff_eq_none,
    Option.isSome_iff_ne_none]
  constructor
  · rintro ⟨q, hq, ⟨hnone, x, hx, hxw, hxq⟩, y, hy, hyw, hqy⟩
    exact ⟨q, hq, x, hx, y, hy, hnone, hxw, hyw, hxq, hqy⟩
  · rintro ⟨q, hq, x, hx, y, hy, hnone, hxw, hyw, hxq, hqy⟩
    exact ⟨q, hq, ⟨hnone, x, hx, hxw, hxq⟩, y, hy, hyw, hqy⟩

/-! ## The close, the place in the queue and the take -/

theorem State.closeAtZoneEnd_eq_self (g : Geometry) (s : State)
    (h : ∀ p, s.dt.pieceAt (g.se + 1) = some p → p.state ≠ .scanning ∨ p.assembly = none) :
    s.closeAtZoneEnd g = s := by
  unfold State.closeAtZoneEnd
  split
  · rfl
  · rename_i p hp
    split
    · rename_i a hstate hassembly
      rcases h p hp with hn | hn
      · exact absurd hstate hn
      · rw [hn] at hassembly
        cases hassembly
    · rfl

theorem State.closeAtZoneEnd_scanning (g : Geometry) (s : State) (p : Piece) (a : Assembly)
    (hp : s.dt.pieceAt (g.se + 1) = some p) (hstate : p.state = .scanning) (ha : p.assembly = some a) :
    s.closeAtZoneEnd g =
      (s.onPiece p.serial (fun q =>
        { q with
          scan := some (closeAssembly (q.roster.getD 0) a)
          assembly := none })).joinQueue p.serial := by
  simp only [State.closeAtZoneEnd, hp, hstate, ha]

/-- A piece that joins stands behind every piece not admitted after it, and right before the first that was. -/
theorem insertByAge_place (age : Word → Nat) (n : Word) (queue : List Word) :
    ∃ before after, queue = before ++ after ∧ (∀ x ∈ before, age x ≤ age n)
      ∧ (∀ x, after.head? = some x → age n < age x) ∧ insertByAge age n queue = before ++ n :: after := by
  induction queue with
  | nil => exact ⟨[], [], rfl, by simp, by simp, rfl⟩
  | cons y rest ih =>
    unfold insertByAge
    split
    · rename_i hlt
      exact ⟨[], y :: rest, rfl, by simp, by simpa using hlt, rfl⟩
    · rename_i hge
      obtain ⟨before, after, hqueue, hbefore, hafter, hinsert⟩ := ih
      refine ⟨y :: before, after, congrArg (y :: ·) hqueue, ?_, hafter, congrArg (y :: ·) hinsert⟩
      exact List.forall_mem_cons.mpr ⟨Nat.le_of_not_lt hge, hbefore⟩

/-- TS takes nothing with a solve in hand, and nothing from an empty queue. -/
theorem State.takeNext_eq_self (s : State) (h : s.ts.inHand ≠ none ∨ s.ts.queue = []) : s.takeNext = s := by
  rcases h with hbusy | hempty
  · exact s.takeNext_busy hbusy
  · unfold State.takeNext
    split
    · rename_i hqueue
      rw [hempty] at hqueue
      cases hqueue
    · rfl

theorem State.takeNext_head (s : State) (n : Word) (rest : List Word) (p : Piece) (hidle : s.ts.inHand = none)
    (hqueue : s.ts.queue = n :: rest) (hp : s.dt.piece? n = some p) :
    s.takeNext =
      (s.onPiece n (fun q => { q with state := .solving })).onTs (fun ts =>
        { ts with
          queue := rest
          inHand := some
            { serial := n, slot := p.slot, lockView := s.ax.lockSet, trim := p.trimTaken, arrival := false }
          taken := ts.taken + 1 }) := by
  simp only [State.takeNext, hidle, hqueue, hp]

theorem Piece.slot_of_generation (p : Piece) (number slot : Nat) (h : p.generation = some (number, slot)) :
    p.slot = slot := by
  simp only [Piece.slot, h]

/-- Settles O10, part by part: the close, the scan record, the place in the queue, the take. -/
theorem assemblyClosesAndJoinsTheQueue : Obligations.AssemblyClosesAndJoinsTheQueue := by
  refine ⟨fun g s => ⟨s.closeAtZoneEnd_eq_self g, s.closeAtZoneEnd_scanning g⟩, fun roster a => ?_,
    fun n s => ?_, fun s => ⟨s.takeNext_eq_self, ?_⟩⟩
  · exact ⟨closeAssembly_ends_eq_none roster a, closeAssembly_ends_eq_some roster a,
      closeAssembly_measures_eq_none roster a, closeAssembly_measures_eq_some roster a,
      ⟨_, sortFinds_sorted _, filter_sortFinds _, rfl, rfl⟩, a.has_absentHeads roster, rfl,
      gapIn_iff (byHead a.received), rfl, rfl⟩
  · obtain ⟨before, after, hqueue, hbefore, hafter, hinsert⟩ := insertByAge_place s.dt.age n s.ts.queue
    refine ⟨before, after, hqueue, hbefore, hafter, ?_⟩
    rw [← hinsert]
    rfl
  · intro n rest p number slot hidle hqueue hp hgeneration
    rw [s.takeNext_head n rest p hidle hqueue hp, p.slot_of_generation number slot hgeneration]
    rfl

end Sys2Proof.Machine
end

section
/-! SUPPORT. What a solve chooses among (R69, R70, R88, R91, R92, R93, R94, R95, R96, R98): the size class, the grade of
a span, the product of two saws, the off-fall condition, the candidates, and the saw set of a NORMAL result. -/

open Sys2Proof

namespace Sys2Proof.Machine

/-! ## The first entry of a table -/

theorem findIdx?_eq_some_of_first {α : Type} {p : α → Bool} {l : List α} {k : Nat} {a : α} (hk : l[k]? = some a)
    (ha : p a = true) (hfirst : ∀ j b, j < k → l[j]? = some b → ¬p b = true) : l.findIdx? p = some k := by
  obtain ⟨hlt, rfl⟩ := List.getElem?_eq_some_iff.mp hk
  exact List.findIdx?_eq_some_iff_getElem.mpr
    ⟨hlt, ha, fun j hj => hfirst j _ hj (List.getElem?_eq_getElem (hj.trans hlt))⟩

theorem find?_eq_some_of_first {α : Type} {p : α → Bool} {l : List α} {k : Nat} {a : α} (hk : l[k]? = some a)
    (ha : p a = true) (hfirst : ∀ j b, j < k → l[j]? = some b → ¬p b = true) : l.find? p = some a := by
  obtain ⟨hlt, rfl⟩ := List.getElem?_eq_some_iff.mp hk
  refine List.find?_eq_some_iff_getElem.mpr ⟨ha, k, hlt, rfl, fun j hj => ?_⟩
  rw [Bool.eq_false_of_not_eq_true (hfirst j _ hj (List.getElem?_eq_getElem (hj.trans hlt))), Bool.not_false]

/-! ## The size class (R88) -/

theorem SizeRow.holds_iff (z : SizeRow) (m : Measures) :
    z.holds m = true ↔ z.widthMin ≤ m.widthMin ∧ m.widthMax ≤ z.widthMax ∧ z.thickMin ≤ m.thickMin
      ∧ m.thickMax ≤ z.thickMax := decide_eq_true_iff

theorem sizeClassOf_unmeasured (r : Rules) (scan : ScanRecord) (h : scan.measures = none) :
    sizeClassOf r scan = 0 := by
  simp only [sizeClassOf, h]

theorem sizeClassOf_measured (r : Rules) (scan : ScanRecord) (m : Measures) (h : scan.measures = some m) :
    sizeClassOf r scan = ((r.sizes.findIdx? (fun z => z.holds m)).map (· + 1)).getD 0 := by
  simp only [sizeClassOf, h]
  cases r.sizes.findIdx? (fun z => z.holds m) <;> rfl

theorem sizeClassOf_eq_zero (r : Rules) (scan : ScanRecord) (m : Measures) (h : scan.measures = some m)
    (hnone : ∀ z ∈ r.sizes, ¬z.holds m = true) : sizeClassOf r scan = 0 := by
  rw [sizeClassOf_measured r scan m h,
    List.findIdx?_eq_none_iff.mpr fun z hz => Bool.eq_false_of_not_eq_true (hnone z hz)]
  rfl

theorem sizeClassOf_eq_succ (r : Rules) (scan : ScanRecord) (m : Measures) (h : scan.measures = some m) (k : Nat)
    (z : SizeRow) (hk : r.sizes[k]? = some z) (hz : z.holds m = true)
    (hfirst : ∀ j w, j < k → r.sizes[j]? = some w → ¬w.holds m = true) : sizeClassOf r scan = k + 1 := by
  rw [sizeClassOf_measured r scan m h, findIdx?_eq_some_of_first hk hz hfirst]
  rfl

/-! ## The grade of a span (R91, R92) -/

/-- A grade is open to the density, no better than the cap, and its limits hold for the span (R92). -/
def GradeRow.qualifies (row : GradeRow) (finds : List Find) (density cap p q : Nat) : Bool :=
  decide (row.minDensity ≤ density) && decide (cap ≤ row.code) && limitsHold row finds p q

theorem gradeSpan_eq (r : Rules) (finds : List Find) (density cap p q : Nat) :
    gradeSpan r finds density cap p q
      = ((r.grades.find? (fun row => row.qualifies finds density cap p q)).map GradeRow.code).getD 13 := by
  unfold gradeSpan GradeRow.qualifies
  cases r.grades.find? _ <;> rfl

theorem findsIn_eq (finds : List Find) (p q k : Nat) :
    findsIn finds p q k = finds.filter (fun f => decide (p ≤ f.along ∧ f.along ≤ q ∧ f.kind.place = k)) := by
  refine List.filter_congr fun f _ => ?_
  rw [Bool.decide_and, Bool.decide_and, ← Bool.and_assoc]
  rfl

theorem limitHolds_iff (limit : Nat × Nat) (metres : Nat) (found : List Find) :
    limitHolds limit metres found = true
      ↔ (limit.1 = 255 ∨ found.length ≤ limit.1 * metres) ∧ ∀ f ∈ found, f.size ≤ limit.2 := by
  simp [limitHolds]

theorem limitsHold_iff (row : GradeRow) (finds : List Find) (p q : Nat) :
    limitsHold row finds p q = true ↔ ∀ k < 11,
      limitHolds (row.limits.getD k (0, 0)) (startedMetres (q - p)) (findsIn finds p q k) = true := by
  simp only [limitsHold, List.all_eq_true, List.mem_range]

theorem GradeRow.qualifies_iff (row : GradeRow) (finds : List Find) (density cap p q : Nat) :
    row.qualifies finds density cap p q = true
      ↔ row.minDensity ≤ density ∧ cap ≤ row.code ∧ ∀ k : Nat, k < 11 →
        let limit := row.limits.getD k (0, 0)
        let found := finds.filter (fun f => decide (p ≤ f.along ∧ f.along ≤ q ∧ f.kind.place = k))
        (limit.1 = 255 ∨ found.length ≤ limit.1 * ((q - p + 999) / 1000)) ∧ ∀ f ∈ found, f.size ≤ limit.2 := by
  simp only [GradeRow.qualifies, Bool.and_eq_true, decide_eq_true_eq, and_assoc, limitsHold_iff, limitHolds_iff,
    findsIn_eq, startedMetres]

theorem gradeSpan_eq_reject (r : Rules) (finds : List Find) (density cap p q : Nat)
    (hnone : ∀ row ∈ r.grades, ¬row.qualifies finds density cap p q = true) :
    gradeSpan r finds density cap p q = 13 := by
  rw [gradeSpan_eq, List.find?_eq_none.mpr hnone]
  rfl

theorem gradeSpan_eq_code (r : Rules) (finds : List Find) (density cap p q k : Nat) (row : GradeRow)
    (hk : r.grades[k]? = some row) (hrow : row.qualifies finds density cap p q = true)
    (hfirst : ∀ j w, j < k → r.grades[j]? = some w → ¬w.qualifies finds density cap p q = true) :
    gradeSpan r finds density cap p q = row.code := by
  rw [gradeSpan_eq, find?_eq_some_of_first hk hrow hfirst]
  rfl

/-! ## The product of two saws (R67, R92, R93) -/

theorem SolveInput.product_eq_none (x : SolveInput) (a b : Nat) (h : ∀ n ∈ x.rules.lengths, n ≠ b - a) :
    x.product a b = none := by
  have hnone : x.rules.lengths.findIdx? (fun n => n == b - a) = none :=
    List.findIdx?_eq_none_iff.mpr fun n hn => beq_eq_false_iff_ne.mpr (h n hn)
  simp only [SolveInput.product, hnone]

theorem SolveInput.product_eq_some (x : SolveInput) (a b lc : Nat) (h : x.rules.lengths[lc]? = some (b - a))
    (hfirst : ∀ j, j < lc → x.rules.lengths[j]? ≠ some (b - a)) :
    let grade := gradeSpan x.rules x.scan.finds x.density (capOf x.rules x.size x.scan.truncated)
      (x.g.sawPos a) (x.g.sawPos b)
    x.product a b = some
      { grade, lengthClass := lc, length := (b - a) * x.g.sawSpacing, value := x.rules.price grade lc x.size } := by
  have hsome : x.rules.lengths.findIdx? (fun n => n == b - a) = some lc :=
    findIdx?_eq_some_of_first h (beq_iff_eq.mpr rfl)
      fun j n hj hn hbeq => hfirst j hj (hn.trans (congrArg some (beq_iff_eq.mp hbeq)))
  simp only [SolveInput.product, hsome]

/-! ## Usable saws, chop saws and the off-fall condition (R93, R94) -/

/-- A saw that the geometry has and the lock view does not hold. -/
def SolveInput.Usable (x : SolveInput) (k : Nat) : Prop := 1 ≤ k ∧ k ≤ x.g.sawCount ∧ has x.view k = false

theorem SolveInput.mem_usable (x : SolveInput) (k : Nat) : k ∈ x.usable ↔ x.Usable k := by
  simp only [SolveInput.Usable, SolveInput.usable, List.mem_filter, List.mem_range'_1, Bool.not_eq_true', and_assoc,
    Nat.add_comm 1, Nat.lt_succ_iff]

/-- The usable saws within the piece that meet a condition, rising. -/
def SolveInput.chops (x : SolveInput) (p : Nat → Bool) : List Nat :=
  (List.range' 1 x.g.sawCount).filter (fun k =>
    !has x.view k && decide (x.left < x.g.sawPos k ∧ x.g.sawPos k < x.right) && p k)

theorem SolveInput.chops_eq (x : SolveInput) (p : Nat → Bool) :
    x.chops p = x.usable.filter (fun k => x.within k && p k) := by
  rw [SolveInput.chops, SolveInput.usable, List.filter_filter]
  refine List.filter_congr fun k _ => ?_
  rw [SolveInput.within, ← Bool.decide_and, Bool.and_assoc, Bool.and_comm]

theorem SolveInput.chopBelow_eq (x : SolveInput) (a : Nat) :
    x.chopBelow a = x.chops (fun k => decide (x.g.sawPos k < x.g.sawPos a)) :=
  (x.chops_eq _).symm

theorem SolveInput.chopAbove_eq (x : SolveInput) (b : Nat) :
    x.chopAbove b = x.chops (fun k => decide (x.g.sawPos b < x.g.sawPos k)) :=
  (x.chops_eq _).symm

/-- No two neighbours lie further apart than the limit. -/
def ShortBlocks (limit : Nat) (points : List Nat) : Prop :=
  ∀ i u v, points[i]? = some u → points[i + 1]? = some v → v - u ≤ limit

theorem shortBlocks_cons_cons (limit p q : Nat) (rest : List Nat) :
    ShortBlocks limit (p :: q :: rest) ↔ q - p ≤ limit ∧ ShortBlocks limit (q :: rest) := by
  refine ⟨fun h => ⟨h 0 p q rfl rfl, fun i => h (i + 1)⟩, fun ⟨hfirst, hrest⟩ i u v hu hv => ?_⟩
  cases i with
  | zero =>
    cases hu
    cases hv
    exact hfirst
  | succ i => exact hrest i u v hu hv

theorem blocksOk_iff (limit : Nat) (points : List Nat) : blocksOk limit points = true ↔ ShortBlocks limit points := by
  induction points with
  | nil => exact ⟨fun _ i u v hu => by simp at hu, fun _ => rfl⟩
  | cons p rest ih =>
    cases rest with
    | nil => exact ⟨fun _ i u v _ hv => by simp at hv, fun _ => rfl⟩
    | cons q rest => rw [blocksOk, Bool.and_eq_true, decide_eq_true_eq, ih, shortBlocks_cons_cons]

/-- The saws from a to b lie within the wood and leave no block of off-fall above the maximum (R93, R94). -/
def SolveInput.Fits (x : SolveInput) (a b : Nat) : Prop :=
  x.left ≤ x.g.sawPos a ∧ x.g.sawPos b ≤ x.right
    ∧ ShortBlocks x.g.maxOffFall
      (x.left :: ((x.chops (fun k => decide (x.g.sawPos k < x.g.sawPos a))).map x.g.sawPos ++ [x.g.sawPos a]))
    ∧ ShortBlocks x.g.maxOffFall
      (x.g.sawPos b :: ((x.chops (fun k => decide (x.g.sawPos b < x.g.sawPos k))).map x.g.sawPos ++ [x.right]))

theorem SolveInput.fits_iff (x : SolveInput) (a b : Nat) :
    x.Fits a b ↔ x.inWood a b = true ∧ x.offFallOk a b = true := by
  simp only [SolveInput.Fits, SolveInput.inWood, SolveInput.offFallOk, Bool.and_eq_true, decide_eq_true_eq,
    blocksOk_iff, and_assoc, x.chopBelow_eq, x.chopAbove_eq]

/-! ## The candidates (R95, R96) -/

theorem SolveInput.single_eq_some (x : SolveInput) (a b : Nat) (c : Candidate) :
    x.single a b = some c
      ↔ a < b ∧ x.Fits a b ∧ ∃ p, x.product a b = some p ∧ c = { saws := [a, b], products := [p] } := by
  rw [SolveInput.single, x.fits_iff, Option.ite_none_right_eq_some, Option.map_eq_some_iff, and_assoc, and_assoc]
  simp only [eq_comm (b := c), and_assoc]

theorem SolveInput.double_eq_some (x : SolveInput) (a b d : Nat) (c : Candidate) :
    x.double a b d = some c
      ↔ a < b ∧ b < d ∧ x.Fits a d ∧ ∃ p q, x.product a b = some p ∧ x.product b d = some q
        ∧ x.rules.primary x.size p.grade p.lengthClass = x.rules.primary x.size q.grade q.lengthClass
        ∧ c = { saws := [a, b, d], products := [p, q] } := by
  rw [SolveInput.double, x.fits_iff, Option.ite_none_right_eq_some]
  cases x.product a b with
  | none => simp
  | some p =>
    cases x.product b d with
    | none => simp
    | some q => simp [Option.ite_none_right_eq_some, and_assoc, eq_comm (a := c)]

theorem SolveInput.mem_singles (x : SolveInput) (c : Candidate) :
    c ∈ x.singles ↔ ∃ a b p, x.Usable a ∧ x.Usable b ∧ a < b ∧ x.Fits a b ∧ x.product a b = some p
      ∧ c = { saws := [a, b], products := [p] } := by
  simp only [SolveInput.singles, List.mem_flatMap, List.mem_filterMap, x.mem_usable, x.single_eq_some]
  constructor
  · rintro ⟨a, ha, b, hb, hlt, hfits, p, hp, hc⟩
    exact ⟨a, b, p, ha, hb, hlt, hfits, hp, hc⟩
  · rintro ⟨a, b, p, ha, hb, hlt, hfits, hp, hc⟩
    exact ⟨a, ha, b, hb, hlt, hfits, p, hp, hc⟩

theorem SolveInput.mem_doubles (x : SolveInput) (c : Candidate) :
    c ∈ x.doubles ↔ ∃ a b d p q, x.Usable a ∧ x.Usable b ∧ x.Usable d ∧ a < b ∧ b < d ∧ x.Fits a d
      ∧ x.product a b = some p ∧ x.product b d = some q
      ∧ x.rules.primary x.size p.grade p.lengthClass = x.rules.primary x.size q.grade q.lengthClass
      ∧ c = { saws := [a, b, d], products := [p, q] } := by
  simp only [SolveInput.doubles, List.mem_flatMap, List.mem_filterMap, x.mem_usable, x.double_eq_some]
  constructor
  · rintro ⟨a, ha, b, hb, d, hd, hab, hbd, hfits, p, q, hp, hq, hbin, hc⟩
    exact ⟨a, b, d, p, q, ha, hb, hd, hab, hbd, hfits, hp, hq, hbin, hc⟩
  · rintro ⟨a, b, d, p, q, ha, hb, hd, hab, hbd, hfits, hp, hq, hbin, hc⟩
    exact ⟨a, ha, b, hb, d, hd, hab, hbd, hfits, p, q, hp, hq, hbin, hc⟩

/-! ## The saw set of a NORMAL result (R98) -/

theorem has_maskOf (w : Nat) (l : List Nat) (k : Nat) (hlo : 1 ≤ k) (hhi : k ≤ w) :
    has (maskOf w l) k = true ↔ k ∈ l := by
  have hbit : k - 1 < w := by omega
  simp only [has, maskOf_getLsbD, Nat.sub_add_cancel hlo, hlo, hbit, decide_true, Bool.true_and, Bool.and_true,
    decide_eq_true_eq]

theorem SolveInput.has_normal_sawSet (x : SolveInput) (c : Candidate) (constraint : Constraint) (k : Nat)
    (hlo : 1 ≤ k) (hhi : k ≤ 20) :
    has (x.normal c constraint).sawSet k = true
      ↔ k ∈ c.saws ∨ k ∈ x.chops (fun k => decide (x.g.sawPos k < x.g.sawPos (c.saws.getD 0 0)))
        ∨ k ∈ x.chops (fun k => decide (x.g.sawPos (c.saws.getLastD 0) < x.g.sawPos k)) := by
  rw [← x.chopBelow_eq, ← x.chopAbove_eq, SolveInput.normal, has_maskOf 20 _ k hlo hhi, List.mem_append,
    List.mem_append, or_assoc]

/-! ## What a solve chooses among -/

/-- Settles O16, clause by clause: the find kinds, the size class, the grade of a span, the tables, the candidates. -/
theorem candidatesFollowSizeGradeAndOffFall : Obligations.CandidatesFollowSizeGradeAndOffFall := by
  refine ⟨rfl, fun rules scan => ⟨sizeClassOf_unmeasured rules scan, fun m hm => ⟨fun hnone => ?_,
    fun k z hk hz hfirst => ?_⟩⟩, fun rules finds density cap p q => ⟨fun hnone => ?_,
    fun k row hk hrow hfirst => ?_⟩, fun _ _ _ _ _ => ⟨rfl, rfl, rfl, rfl⟩, fun x => ?_⟩
  · exact sizeClassOf_eq_zero rules scan m hm fun z hz => (z.holds_iff m).not.mpr (hnone z hz)
  · exact sizeClassOf_eq_succ rules scan m hm k z hk ((z.holds_iff m).mpr hz)
      fun j w hj hw => (w.holds_iff m).not.mpr (hfirst j w hj hw)
  · exact gradeSpan_eq_reject rules finds density cap p q
      fun row hrow => (row.qualifies_iff finds density cap p q).not.mpr (hnone row hrow)
  · exact gradeSpan_eq_code rules finds density cap p q k row hk ((row.qualifies_iff finds density cap p q).mpr hrow)
      fun j w hj hw => (w.qualifies_iff finds density cap p q).not.mpr (hfirst j w hj hw)
  · exact ⟨fun a b => ⟨x.product_eq_none a b, x.product_eq_some a b⟩, x.mem_singles, x.mem_doubles, rfl,
      fun c constraint => ⟨rfl, x.has_normal_sawSet c constraint⟩⟩

end Sys2Proof.Machine
end

section
/-! SUPPORT. Power-on in the exchange (R161, R172, R176, R180): what one rewrite of the Status Block leaves of memory,
where a record that needs no filler stands, and the registers, marks and counts that power-on leaves. -/

open Sys2Proof

namespace Sys2Proof.Machine

/-! ## Memory outside the Status Block (R176) -/

theorem statusRewrite_length (count : Word) (image : List Byte) :
    ((le32 (count + 2) ++ image).take statusBytes).length ≤ statusBytes := List.length_take_le _ _

theorem statusRewrite_read_out (m : Memory) (count : Word) (image : List Byte) (a : Nat)
    (h : a < statusAddr ∨ statusAddr + statusBytes ≤ a) : (statusRewrite m count image).read a = m.read a :=
  Memory.read_splice_out _ _ _ _ (by have := statusRewrite_length count image; omega)

theorem statusRewrite_read32_out (m : Memory) (count : Word) (image : List Byte) (a : Nat)
    (h : a + 4 ≤ statusAddr ∨ statusAddr + statusBytes ≤ a) :
    (statusRewrite m count image).read32 a = m.read32 a :=
  Memory.read32_splice_out _ _ _ _ (by have := statusRewrite_length count image; omega)

/-- Memory of zeros reads zero in words too (R161). -/
theorem Memory.read32_nil (a : Nat) : Memory.read32 [] a = 0 := by
  have hbyte (x : Nat) : Memory.read [] x = 0 := rfl
  rw [Memory.read32, hbyte, hbyte, hbyte, hbyte]
  rfl

/-! ## A record without a filler (R172) -/

theorem padTo_getD (n : Nat) (l : List Byte) (i : Nat) (h : i < n) : (padTo n l).getD i 0 = l.getD i 0 := by
  unfold padTo
  by_cases hi : i < l.length
  · rw [List.getD_append _ _ _ _ (by rw [List.length_take]; omega), List.getD_eq_getElem?_getD,
      List.getElem?_take_of_lt h, List.getD_eq_getElem?_getD]
  · have hfill : i - l.length < n - l.length := by omega
    rw [List.take_of_length_le (by omega), List.getD_append_right _ _ _ _ (by omega), List.getD_replicate _ hfill,
      List.getD_eq_default _ _ (by omega)]

theorem State.layFiller_eq_self {len : Nat} {s : State} (h : fillerUnits s.xi.fill len = 0) : s.layFiller len = s :=
  if_pos h

/-- A record that needs no filler stands at the fill mark. -/
theorem State.writeRecord_mem {kind : RecordKind} {len : Nat} {body : List Byte} {s : State}
    (h : fillerUnits s.xi.fill len = 0) :
    (s.writeRecord kind len body).mem = s.mem.splice (journalAddr + 16 * s.xi.fill)
      (padTo (16 * len) (le8 kind.code ++ le8 len ++ le16 s.xi.sequence.toNat ++ body)) := by
  obtain ⟨-, hmem, -⟩ := State.testNotify_same (((s.layFiller len).layRecord kind len body).onXi (fun xi =>
    { countRecord kind len xi with recordsSince := xi.recordsSince + 1 }))
  rw [State.writeRecord, hmem, State.layFiller_eq_self h]
  rfl

/-- A byte of a record's first unit, its header or its body. -/
theorem State.writeRecord_read {kind : RecordKind} {len : Nat} {body : List Byte} {s : State}
    (h : fillerUnits s.xi.fill len = 0) (hlen : 1 ≤ len) (i : Nat) (hi : i < 16) :
    (s.writeRecord kind len body).mem.read (journalAddr + 16 * s.xi.fill + i)
      = (le8 kind.code ++ le8 len ++ le16 s.xi.sequence.toNat ++ body).getD i 0 := by
  rw [State.writeRecord_mem h, Memory.read_splice, if_pos (by rw [padTo_length]; omega), Nat.add_sub_cancel_left,
    padTo_getD _ _ _ (by omega)]

theorem State.writeRecord_kind {kind : RecordKind} {len : Nat} {body : List Byte} {s : State}
    (h : fillerUnits s.xi.fill len = 0) (hlen : 1 ≤ len) :
    (s.writeRecord kind len body).mem.read (journalAddr + 16 * s.xi.fill) = BitVec.ofNat 8 kind.code :=
  State.writeRecord_read h hlen 0 (by decide)

theorem State.writeRecord_sequence {kind : RecordKind} {len : Nat} {body : List Byte} {s : State}
    (h : fillerUnits s.xi.fill len = 0) (hlen : 1 ≤ len) :
    (s.writeRecord kind len body).mem.read16 (journalAddr + 16 * s.xi.fill + 2) = s.xi.sequence.toNat := by
  have hjoin : (s.writeRecord kind len body).mem.read16 (journalAddr + 16 * s.xi.fill + 2)
      = s.xi.sequence.toNat % 65536 := by
    rw [Memory.read16, State.writeRecord_read h hlen 2 (by decide), Nat.add_assoc,
      State.writeRecord_read h hlen 3 (by decide)]
    exact le16_join _
  rw [hjoin, Nat.mod_eq_of_lt s.xi.sequence.isLt]

/-- With the whole ring before it, no record needs a filler: none is longer than 20 units (R172). -/
theorem fillerUnits_zero_fill {len : Nat} (h : len ≤ 20) : fillerUnits 0 len = 0 :=
  if_neg (by unfold journalUnits; omega)

/-! ## The exchange after power-on (R180) -/

section PowerUp

variable (inputs : Inputs) (s : State)

theorem State.powerUp_xi : (s.powerUp inputs).xi = { Exchange.powerOn with updateCount := 2 } := rfl

/-- The Status Block is written once, over memory of zeros: its items do not show the update count, which the write
itself moves to 2. -/
theorem State.powerUp_mem : (s.powerUp inputs).mem = statusRewrite [] 0 (s.powerUp inputs).image := rfl

theorem State.powerUp_read (a : Nat) (h : a < statusAddr ∨ statusAddr + statusBytes ≤ a) :
    (s.powerUp inputs).mem.read a = 0 :=
  statusRewrite_read_out _ _ _ a h

theorem State.powerUp_read32 (a : Nat) (h : a + 4 ≤ statusAddr ∨ statusAddr + statusBytes ≤ a) :
    (s.powerUp inputs).mem.read32 a = 0 := by
  rw [s.powerUp_mem inputs, statusRewrite_read32_out _ _ _ a h, Memory.read32_nil]

theorem cellAddr_below_status {cell : Nat} (h : cell < 32) : cellAddr cell + 4 ≤ statusAddr := by
  unfold cellAddr statusAddr; omega

theorem areaAddr_above_status (area : Area) : statusAddr + statusBytes ≤ areaAddr area := by
  cases area <;> decide

theorem State.powerUp_raises (c : NoticeCause) : (s.powerUp inputs).xi.raises.count c = 0 := by cases c <;> rfl

/-- ENABLE, NOTICE and NOTICE_MASK are clear and RESET_CAUSE holds POWER alone (R161). -/
theorem State.powerUp_registers :
    registerRead 0x04 (s.powerUp inputs) = 0 ∧ registerRead 0x08 (s.powerUp inputs) = 0
    ∧ registerRead 0x0C (s.powerUp inputs) = 0 ∧ registerRead 0x10 (s.powerUp inputs) = 1 :=
  ⟨rfl, rfl, rfl, rfl⟩

/-- All units of the ring but one are free and none is reserved (R170). -/
theorem State.powerUp_units :
    reservedTotal (s.powerUp inputs).dt (s.powerUp inputs).tu = 0
    ∧ unreservedUnits (s.powerUp inputs).dt (s.powerUp inputs).tu (s.powerUp inputs).xi = 49151 := by
  have hreserved : reservedTotal (s.powerUp inputs).dt (s.powerUp inputs).tu = 0 := rfl
  have hfree : (s.powerUp inputs).xi.freeUnits = 49151 := by rw [s.powerUp_xi inputs]; decide
  exact ⟨hreserved, by rw [unreservedUnits, hreserved, hfree]⟩

/-- The first record after power-on stands at unit 0 with sequence number 0. -/
theorem State.powerUp_firstRecord (kind : RecordKind) (len : Nat) (body : List Byte) (hlo : 1 ≤ len)
    (hhi : len ≤ 20) :
    ((s.powerUp inputs).writeRecord kind len body).mem.read journalAddr = BitVec.ofNat 8 kind.code
    ∧ ((s.powerUp inputs).writeRecord kind len body).mem.read16 (journalAddr + 2) = 0 :=
  have hfill : fillerUnits (s.powerUp inputs).xi.fill len = 0 := fillerUnits_zero_fill hhi
  ⟨State.writeRecord_kind hfill hlo, State.writeRecord_sequence hfill hlo⟩

end PowerUp

/-- Settles O8: memory outside the Status Block reads zero, the items of the Exchange Interface are those of
`Exchange.powerOn`, and the first record needs no filler. -/
theorem powerOnLeavesTheExchangeAsStated : Obligations.PowerOnLeavesTheExchangeAsStated := by
  intro inputs s
  have hcells (cell : Nat) (h : cell < 32) : cellState (s.powerUp inputs).mem cell = 0 :=
    s.powerUp_read32 inputs _ (.inl (cellAddr_below_status h))
  have hareas (area : Area) (i : Nat) (_ : i < areaBytes) : (s.powerUp inputs).mem.read (areaAddr area + i) = 0 :=
    s.powerUp_read inputs _ (.inr (Nat.le_add_right_of_le (areaAddr_above_status area)))
  obtain ⟨henable, hnotice, hmask, hcause⟩ := s.powerUp_registers inputs
  obtain ⟨hreserved, hunits⟩ := s.powerUp_units inputs
  exact ⟨s.powerUp inputs, exec_powerOn s inputs, s.powerUp_read inputs, hcells,
    s.powerUp_read32 inputs _ (.inl (by decide)), s.powerUp_read32 inputs _ (.inl (by decide)), hareas,
    henable, hnotice, hmask, hcause, rfl, rfl, hreserved, hunits, rfl, rfl, rfl, rfl, rfl, rfl, rfl, rfl, rfl, rfl,
    rfl, rfl, rfl, rfl, rfl, rfl, rfl, s.powerUp_raises inputs, rfl, s.powerUp_mem inputs,
    s.powerUp_firstRecord inputs⟩

end Sys2Proof.Machine
end

section
/-! SUPPORT. What a step can be: the front command, or with none waiting the next visit of a sweep in progress; what every
command leaves of the queue, of RESET_CAUSE and of the conditions that every step keeps; and how every step settles. -/

open Sys2Proof

namespace Sys2Proof.Machine

/-! ## The kinds of meaning -/

/-- What the meaning of a command is made of: power-on, an event, an event behind host writes, or a sweep. -/
inductive Meaning (c : Instr) (s : State) : Prop
  | power (inputs : Inputs) (row : c = .powerOn inputs)
  | event (always : Bool) (f : State → State) (host : c.host = []) (meaning : exec c s = completes always f s)
  | hosted (f : State → State) (meaning : exec c s = withHost c.host (fun _ => false) f s)
  | sweep (host : List HostWrite) (row : c = .sweep host)

theorem exec_meaning (c : Instr) (s : State) : Meaning c s := by
  cases c with
  | powerOn inputs => exact .power inputs rfl
  | sweep host => exact .sweep host rfl
  | setGeometry cell host | startLine cell host | resume cell host | holdLoader cell host | releaseLoader cell host
  | queryLug cell host | enableHead cell host | disableHead cell host | alignHead cell host | cancelAlign cell host
  | activateRules cell host | remoteOverride cell host | lockSaw cell host | unlockSaw cell host | setBin cell host
  | openRun cell host | closeRun cell host | releaseArea cell host | unknownKind cell host | stagingCompletion host
  | clearingCompletion area host => exact .hosted _ rfl
  | portReset | lineReset value | lineResetInput | enable value | noticeClear value | noticeMaskWrite value port
  | resetCauseRead | registerWriteOther offset value | forwardBeat encoder eyes feedback restart
  | backBeat encoder restart | deckRunLineChange up | estopAssert | estopRelease | stallTimerExpiry | restartCheck eyes
  | headStatus head identity condition clock | headReport head report | alignEcho head seen | badFrame head
  | linkSilence head | wakeTimeout head | standbyTimerExpiry | logReport report | logBadFrame | solveCompletion
  | keyPress station key authority | lampPulseEnd station | gatePulseEnd bin | binFullChange bin level =>
    exact .event _ _ rfl rfl

/-- Settles O3, by the four kinds of meaning: only host writes can fault. -/
theorem everyCommandCompletesOrLeavesTheWindow : Obligations.EveryCommandCompletesOrLeavesTheWindow := by
  intro c s
  cases exec_meaning c s with
  | power inputs row => subst row; exact ⟨_, rfl⟩
  | event always f host meaning => rw [host]; exact ⟨_, meaning⟩
  | hosted f meaning =>
    rw [meaning, withHost]
    split
    · exact ⟨_, rfl⟩
    · rfl
  | sweep host row =>
    subst row
    rw [exec_sweep]
    simp only [Instr.host]
    split
    · exact ⟨_, rfl⟩
    · rfl

/-! ## A step -/

theorem step_empty {s : State} (h : s.pending = []) : step s = .next s.idle := by simp only [step, h]

theorem step_front {s : State} {c : Instr} {rest : List Instr} (h : s.pending = c :: rest) :
    step s = exec c { s with pending := rest } := by simp only [step, h]

/-- Settles O1. -/
theorem stepRunsFrontCommand : Obligations.StepRunsFrontCommand := fun _ _ _ => step_front

theorem State.idle_of_none {s : State} (h : s.xi.sweep = none) : s.idle = s := by simp only [State.idle, h]; rfl

theorem State.idle_of_some {s : State} {cell : Nat} (h : s.xi.sweep = some cell) :
    s.idle = s.event false State.visitCell := by simp only [State.idle, h]; rfl

/-! ## What every command keeps -/

/-- What RESET_CAUSE reads after a command, of what it read before (R163, log 30). -/
def resetCauseAfter (cause : Word) : Instr → Word
  | .powerOn _ => 1
  | .portReset => 2
  | .lineResetInput => cause ||| 4
  | .lineReset value => if value.getLsbD 1 then cause ||| 4 else cause
  | .enable value => if value.getLsbD 1 then cause ||| 4 else cause
  | .registerWriteOther offset value => if offset = 0x04 ∧ value.getLsbD 1 = true then cause ||| 4 else cause
  | .resetCauseRead => 0
  | _ => cause

theorem Kept.powerUp {q : Fixed} {s : State} (h : Kept q 8 s) (inputs : Inputs) :
    Kept { q with cause := 1 } 8 (s.powerUp inputs) := by
  have hkept := (Kept.powerOn inputs).withPending s.pending
  rw [h.pending] at hkept
  rw [State.powerUp, h.pending]
  exact hkept

theorem Kept.take {q : Fixed} {s t : State} {kind : Option ReqKind} {cell : Nat} {host : List HostWrite}
    (h : Kept q 8 s) (e : exec (takeCommand kind cell host) s = .next t) : Kept q 8 t :=
  kept_ofWithHost h (fun _ h => h.takeRow kind cell) ((exec_take s kind cell host).symm.trans e)

/-- Every command that completes keeps the conditions and the queue, and moves RESET_CAUSE as its row says. -/
theorem Kept.exec {q : Fixed} {c : Instr} {s t : State} (h : Kept q 8 s) (e : exec c s = .next t) :
    Kept { q with cause := resetCauseAfter q.cause c } 8 t := by
  cases c with
  | powerOn inputs =>
    rw [exec_powerOn] at e
    cases e
    exact h.powerUp inputs
  | sweep host =>
    rw [exec_sweep] at e
    split at e
    · cases e
      exact (h.clearOut.hostWrites host).sweepCells
    · cases e
  | setGeometry cell host => exact h.take (kind := some .setGeometry) e
  | startLine cell host => exact h.take (kind := some .startLine) e
  | resume cell host => exact h.take (kind := some .resume) e
  | holdLoader cell host => exact h.take (kind := some .holdLoader) e
  | releaseLoader cell host => exact h.take (kind := some .releaseLoader) e
  | queryLug cell host => exact h.take (kind := some .queryLug) e
  | enableHead cell host => exact h.take (kind := some .enableHead) e
  | disableHead cell host => exact h.take (kind := some .disableHead) e
  | alignHead cell host => exact h.take (kind := some .alignHead) e
  | cancelAlign cell host => exact h.take (kind := some .cancelAlign) e
  | activateRules cell host => exact h.take (kind := some .activateRules) e
  | remoteOverride cell host => exact h.take (kind := some .remoteOverride) e
  | lockSaw cell host => exact h.take (kind := some .lockSaw) e
  | unlockSaw cell host => exact h.take (kind := some .unlockSaw) e
  | setBin cell host => exact h.take (kind := some .setBin) e
  | openRun cell host => exact h.take (kind := some .openRun) e
  | closeRun cell host => exact h.take (kind := some .closeRun) e
  | releaseArea cell host => exact h.take (kind := some .releaseArea) e
  | unknownKind cell host => exact h.take (kind := none) e
  | stagingCompletion host => exact kept_ofWithHost h (fun _ h => h.completeStaging) ((exec_stagingCompletion s host).symm.trans e)
  | clearingCompletion area host =>
    exact kept_ofWithHost h (fun _ h => h.completeClearing area) ((exec_clearingCompletion s area host).symm.trans e)
  | portReset => exact kept_ofCompletes h (fun _ h => h.resetPort) e
  | lineReset value | enable value => exact kept_ofCompletes h (fun _ h => h.writeExchCtl value) e
  | lineResetInput => exact kept_ofCompletes h (fun _ h => h.lineReset) e
  | noticeClear value => exact kept_ofCompletes h (fun _ h => h.clearNotice value) e
  | noticeMaskWrite value port => exact kept_ofCompletes h (fun _ h => Kept.writeMask (h.configurePort port) value) e
  | resetCauseRead => exact kept_ofCompletes h (fun _ h => h.readResetCause) e
  | registerWriteOther offset value => exact kept_ofCompletes h (fun _ h => h.writeRegister offset value) e
  | forwardBeat encoder eyes feedback restart =>
    exact kept_ofCompletes h (fun _ h => h.forwardBeat encoder eyes feedback restart) e
  | backBeat encoder restart => exact kept_ofCompletes h (fun _ h => h.backBeat encoder restart) e
  | deckRunLineChange up => exact kept_ofCompletes h (fun _ h => h.changeRunLine up) e
  | estopAssert => exact kept_ofCompletes h (fun _ h => h.assertEstop) e
  | estopRelease => exact kept_ofCompletes h (fun _ h => h.releaseEstop) e
  | stallTimerExpiry => exact kept_ofCompletes h (fun _ h => h.expireStall) e
  | restartCheck eyes => exact kept_ofCompletes h (fun _ h => h.settleRestart eyes) e
  | headStatus head identity condition clock =>
    exact kept_ofCompletes h (fun _ h => h.takeStatus head identity condition clock) e
  | headReport head report => exact kept_ofCompletes h (fun _ h => h.takeReport head report) e
  | alignEcho head seen => exact kept_ofCompletes h (fun _ h => h.takeEchoFrame head seen) e
  | badFrame head => exact kept_ofCompletes h (fun _ h => h.takeBad head) e
  | linkSilence head => exact kept_ofCompletes h (fun _ h => h.silence head) e
  | wakeTimeout head => exact kept_ofCompletes h (fun _ h => h.wakeExpires head) e
  | standbyTimerExpiry => exact kept_ofCompletes h (fun _ h => h.expireStandby) e
  | logReport report => exact kept_ofCompletes h (fun _ h => h.takeLogReport report) e
  | logBadFrame => exact kept_ofCompletes h (fun _ h => h.takeLogBad) e
  | solveCompletion => exact kept_ofCompletes h (fun _ h => h.completeSolve) e
  | keyPress station key authority => exact kept_ofCompletes h (fun _ h => h.pressKey station key authority) e
  | lampPulseEnd station => exact kept_ofCompletes h (fun _ h => h.endPulse station) e
  | gatePulseEnd bin => exact kept_ofCompletes h (fun _ h => h.endGate bin) e
  | binFullChange bin level => exact kept_ofCompletes h (fun _ h => h.setFull bin level) e

theorem Kept.idle {q : Fixed} {s : State} (h : Kept q 8 s) : Kept q 8 s.idle := by
  unfold State.idle
  split
  · exact h.event false (fun _ h => h.visitCell)
  · exact h

/-- What RESET_CAUSE reads after a step. -/
def resetCauseAfterStep (s : State) : Word :=
  match s.pending.head? with
  | none => registerRead 0x10 s
  | some c => resetCauseAfter (registerRead 0x10 s) c

/-- Every step keeps the conditions, takes the front command off the queue, and moves RESET_CAUSE as the command says. -/
theorem State.Inv.step {s t : State} (h : s.Inv) (e : step s = .next t) :
    Kept { queue := s.pending.tail, cause := resetCauseAfterStep s } 8 t := by
  unfold resetCauseAfterStep
  cases hp : s.pending with
  | nil =>
    rw [step_empty hp] at e
    cases e
    have hk := h.kept.idle
    rwa [hp] at hk
  | cons c rest =>
    rw [step_front hp] at e
    exact (h.kept.withPending rest).exec e

/-- Settles O4: the conditions are the part of `Kept` that names no queue. -/
theorem everyStepKeepsTheConditions : Obligations.EveryStepKeepsTheConditions := fun _ _ h e => (h.step e).inv

/-- Settles O7. -/
theorem everyStepTakesOneCommand : Obligations.EveryStepTakesOneCommand := fun _ _ h e => (h.step e).pending

/-! ## How every step settles -/

theorem State.powerUp_synced (inputs : Inputs) (s : State) : (s.powerUp inputs).Synced :=
  have hhold : (s.powerUp inputs).holdNow = (s.powerUp inputs).dt.hold := by
    rw [State.holdNow, (s.powerUp_units inputs).2]
    rfl
  ⟨hhold.symm, rfl, rfl, fun h => by cases h⟩

/-- Settles O5: the conditions are those of power-on, and the holds are those of empty tables. -/
theorem resetMeetsTheConditions : Obligations.ResetMeetsTheConditions :=
  ⟨(Kept.powerOn resetInputs).inv, State.reset.powerUp_synced resetInputs⟩

theorem State.endEvent_synced (always : Bool) (before : List Byte) (u : State) : (u.endEvent always before).Synced :=
  (State.endEvent_settles always before u).synced

theorem exec_synced {c : Instr} {s t : State} (e : exec c s = .next t) : t.Synced := by
  cases exec_meaning c s with
  | power inputs row =>
    subst row
    rw [exec_powerOn] at e
    cases e
    exact s.powerUp_synced inputs
  | event always f host meaning =>
    rw [meaning] at e
    rw [completes_next e]
    exact State.endEvent_synced _ _ _
  | hosted f meaning =>
    rw [meaning] at e
    rw [(withHost_next e).2]
    exact State.endEvent_synced _ _ _
  | sweep host row =>
    subst row
    rw [exec_sweep] at e
    split at e
    · cases e
      exact State.endEvent_synced _ _ _
    · cases e

theorem State.Synced.idle {s : State} (h : s.Synced) : s.idle.Synced := by
  unfold State.idle
  split
  · exact State.endEvent_synced _ _ _
  · exact h

theorem State.Synced.step {s t : State} (h : s.Synced) (e : step s = .next t) : t.Synced := by
  cases hp : s.pending with
  | nil =>
    rw [step_empty hp] at e
    cases e
    exact h.idle
  | cons c rest =>
    rw [step_front hp] at e
    exact exec_synced e

end Sys2Proof.Machine
end

section
/-! SUPPORT. The hold set, the loader gate, the log hold and the stopped states, condition by condition (R9, R10, R17,
R158); and what RESET_CAUSE reads after every command (R163). -/

open Sys2Proof

namespace Sys2Proof.Machine

/-! ## The conditions behind the holds -/

theorem Tally.openArea_isNone_iff (tu : Tally) :
    tu.openArea.isNone = true ↔ ¬∃ area, (tu.entry area).run = some .opened := by
  constructor
  · rintro h ⟨area, ha⟩
    exact Tally.no_opened (Option.isNone_iff_eq_none.mp h) area ha
  · intro h
    cases ho : tu.openArea with
    | none => rfl
    | some area => exact absurd ⟨area, Tally.openArea_run ho⟩ h

theorem RuleStore.activeSlot_isNone_iff (rs : RuleStore) :
    rs.activeSlot.isNone = true ↔ ∀ sl ∈ rs.slots, sl.state ≠ .active := by
  simp [RuleStore.activeSlot]

theorem Scan.anyWaking_iff (sa : Scan) : sa.anyWaking = true ↔ ∃ hd ∈ sa.heads, hd.state = .waking := by
  simp [Scan.anyWaking]

theorem Deck.loaded_iff (d : Deck) : d.loaded = true ↔ ∃ l ∈ d.lugs ++ d.upstream, l.piece ≠ none := by
  simp [Deck.loaded, Option.isSome_iff_ne_none, or_and_right, exists_or]

/-- The hold set without a reason. -/
theorem HoldSet.isEmpty_iff (h : HoldSet) :
    h.isEmpty = true ↔ h = { host := false, journal := false, table := false, run := false, rules := false,
                             align := false, wake := false, fault := false } := by
  cases h
  simp [HoldSet.isEmpty, and_assoc]

theorem gateNow_iff (state : DeckState) (hold : HoldSet) :
    gateNow state hold = true ↔ state = .running ∧ hold.isEmpty = true := by simp [gateNow]

theorem logHoldNow_iff (tu : Tally) :
    logHoldNow tu = true ↔ 6 ≤ tu.pendingLogs.length ∨ ¬∃ area, (tu.entry area).run = some .opened := by
  rw [logHoldNow, Bool.or_eq_true, tu.openArea_isNone_iff, decide_eq_true_eq]

/-- A stopped deck is in the state that its load gives. -/
theorem stopped_iff (d : Deck) :
    (d.state.stopped = true → d.state = stoppedNow d)
      ↔ (d.state = .stoppedLoaded → d.loaded = true) ∧ (d.state = .stoppedClear → ¬d.loaded = true) := by
  unfold stoppedNow
  cases d.state <;> cases d.loaded <;> simp [DeckState.stopped]

/-- The hold set is the one that the conditions give, reason by reason; HOST is the host's own. -/
theorem State.hold_eq_iff (s : State) :
    s.dt.hold = s.holdNow ↔
      (s.dt.hold.journal = true ↔ unreservedUnits s.dt s.tu s.xi < 39)
      ∧ (s.dt.hold.table = true ↔ 96 ≤ s.dt.pieces.length)
      ∧ (s.dt.hold.run = true ↔ ¬∃ area, (s.tu.entry area).run = some .opened)
      ∧ (s.dt.hold.rules = true ↔ ∀ sl ∈ s.rs.slots, sl.state ≠ .active)
      ∧ (s.dt.hold.align = true ↔ s.da.search ≠ .idle)
      ∧ (s.dt.hold.wake = true ↔ ∃ hd ∈ s.sa.heads, hd.state = .waking)
      ∧ (s.dt.hold.fault = true ↔ s.dt.state = .faulted) := by
  rw [← s.tu.openArea_isNone_iff, ← s.rs.activeSlot_isNone_iff, ← s.sa.anyWaking_iff,
    ← decide_eq_true_iff (p := unreservedUnits s.dt s.tu s.xi < 39), ← decide_eq_true_iff (p := 96 ≤ s.dt.pieces.length),
    ← bne_iff_ne, ← beq_iff_eq (b := DeckState.faulted)]
  simp only [← Bool.eq_iff_iff]
  constructor
  · intro h
    rw [h]
    exact ⟨rfl, rfl, rfl, rfl, rfl, rfl, rfl⟩
  · rintro ⟨hjournal, htable, hrun, hrules, halign, hwake, hfault⟩
    unfold State.holdNow
    rw [← hjournal, ← htable, ← hrun, ← hrules, ← halign, ← hwake, ← hfault]

/-- Settles O6: every event settles, and `State.Synced` says of each flag what its condition says. -/
theorem everyStepKeepsHoldsInAgreement : Obligations.EveryStepKeepsHoldsInAgreement := by
  refine ⟨fun s t h e => h.step e, fun s => ?_⟩
  dsimp only
  rw [← s.dt.loaded_iff, ← logHoldNow_iff, ← HoldSet.isEmpty_iff, ← gateNow_iff, ← stopped_iff, ← Bool.eq_iff_iff,
    ← Bool.eq_iff_iff]
  constructor
  · rintro ⟨hhold, hgate, hlog, hstopped⟩
    obtain ⟨hjournal, htable, hrun, hrules, halign, hwake, hfault⟩ := s.hold_eq_iff.mp hhold
    exact ⟨hjournal, htable, hrun, hrules, halign, hwake, hfault, hgate, hlog, hstopped⟩
  · rintro ⟨hjournal, htable, hrun, hrules, halign, hwake, hfault, hgate, hlog, hstopped⟩
    exact ⟨s.hold_eq_iff.mpr ⟨hjournal, htable, hrun, hrules, halign, hwake, hfault⟩, hgate, hlog, hstopped⟩

/-! ## RESET_CAUSE (R163) -/

/-- A command that completes from a state that meets the conditions moves RESET_CAUSE as its row says. -/
theorem State.Inv.resetCause {c : Instr} {s t : State} (h : s.Inv) (e : exec c s = .next t) :
    registerRead 0x10 t = resetCauseAfter (registerRead 0x10 s) c := by
  have hread : registerRead 0x10 s = s.xi.resetCause := rfl
  have hcause := (h.kept.exec e).cause
  rw [hread]
  exact hcause

/-- The end of an event leaves RESET_CAUSE. -/
theorem State.Settles.resetCause {always : Bool} {before : List Byte} {u t : State} (h : u.Settles always before t) :
    registerRead 0x10 t = registerRead 0x10 u := by
  have hread (x : State) : registerRead 0x10 x = x.xi.resetCause := rfl
  rw [hread, hread, h.xi]
  rfl

theorem resetCauseAfter_lineReset (cause value : Word) (c : Instr) (hv : value.getLsbD 1 = true)
    (hc : c ∈ [Instr.lineReset value, .enable value, .registerWriteOther 0x04 value]) :
    resetCauseAfter cause c = cause ||| 4 := by
  simp only [List.mem_cons, List.not_mem_nil, or_false] at hc
  rcases hc with rfl | rfl | rfl
  · exact if_pos hv
  · exact if_pos hv
  · exact if_pos ⟨rfl, hv⟩

/-- The commands that are no reset and no read of RESET_CAUSE leave what it reads. -/
theorem resetCauseAfter_eq_self (cause : Word) (c : Instr) (hport : c ≠ .portReset) (hinput : c ≠ .lineResetInput)
    (hread : c ≠ .resetCauseRead) (hpower : ∀ inputs, c ≠ .powerOn inputs)
    (hline : ∀ value : Word, value.getLsbD 1 = true →
      c ∉ [Instr.lineReset value, .enable value, .registerWriteOther 0x04 value]) :
    resetCauseAfter cause c = cause := by
  cases c with
  | powerOn inputs => exact absurd rfl (hpower inputs)
  | portReset => exact absurd rfl hport
  | lineResetInput => exact absurd rfl hinput
  | resetCauseRead => exact absurd rfl hread
  | lineReset value | enable value => exact if_neg fun hv => hline value hv (by simp)
  | registerWriteOther offset value =>
    exact if_neg fun ⟨hoffset, hv⟩ => hline value hv (by simp [hoffset])
  | _ => rfl

theorem State.readResetCause_eq (s : State) :
    State.readResetCause s.clearOut =
      { s with
        out := [.readData (registerRead 0x10 s)]
        xi := { s.xi with causePower := false, causePort := false, causeLine := false } } := rfl

/-- Settles O14: each reset and the read by its row, and every other step by `resetCauseAfter_eq_self`. -/
theorem resetCauseHoldsTheResetsSinceItsRead : Obligations.ResetCauseHoldsTheResetsSinceItsRead := by
  refine ⟨fun _ => rfl, fun inputs s => ⟨_, exec_powerOn s inputs, (s.powerUp_registers inputs).2.2.2⟩,
    fun s => ⟨_, exec_portReset s, ?_⟩, fun s h => ⟨_, exec_lineResetInput s, h.resetCause (exec_lineResetInput s)⟩,
    fun value c s hv hc h => ?_, fun s => ⟨?_, rfl⟩, fun s t h e hc => ?_⟩
  · exact (State.endEvent_settles false s.image (State.resetPort s.clearOut)).resetCause
  · have hwindow : hostInWindow c.host = true := by
      simp only [List.mem_cons, List.not_mem_nil, or_false] at hc
      rcases hc with rfl | rfl | rfl <;> rfl
    obtain ⟨t, e⟩ := by simpa only [hwindow, if_true] using everyCommandCompletesOrLeavesTheWindow c s
    exact ⟨t, e, by rw [h.resetCause e, resetCauseAfter_lineReset _ value c hv hc]⟩
  · rw [← s.readResetCause_eq]
    exact completes_does (exec_resetCauseRead s)
  · rw [show registerRead 0x10 t = resetCauseAfterStep s from (h.step e).cause, resetCauseAfterStep]
    cases hp : s.pending.head? with
    | none => rfl
    | some c =>
      obtain ⟨hport, hinput, hread, hpower, hline⟩ := hc c hp
      exact resetCauseAfter_eq_self _ c hport hinput hread hpower hline

end Sys2Proof.Machine
end

section
/-! SUPPORT. The registers, the notices and the line reset: what a raised notice leaves (R178, R179), what the register
window writes and reads (R161, R162), what power-on leaves in the blocks, and what a line reset does, part by part. -/

open Sys2Proof

namespace Sys2Proof.Machine

/-! ## Power-on in the blocks -/

theorem emptyMap_getElem? (tagCounter : Byte) (n : Nat) (h : n < 64) :
    (emptyMap tagCounter)[n]? = some (Lug.empty (tagCounter - BitVec.ofNat 8 n)) := by
  simp [emptyMap, h]

theorem Actuation.powerOn_bins_getElem? (inputs : Inputs) (b : Nat) (hlo : 1 ≤ b) (hhi : b ≤ 24) :
    (Actuation.powerOn inputs).bins[b - 1]?
      = some { closed := false, isFull := inputs.binFull.getLsbD b, pulsing := false, pulses := 0, toAlternate := 0,
               toFallout := 0 } := by
  have hlt : b - 1 < 24 := by omega
  have hadd : 1 + (b - 1) = b := by omega
  simp [Actuation.powerOn, hlt, hadd]

/-- Settles O9, block by block. -/
theorem powerOnLeavesTheBlocksAsStated : Obligations.PowerOnLeavesTheBlocksAsStated := by
  intro inputs s
  have hheads : ∀ hd ∈ (s.powerUp inputs).sa.heads, hd = Head.powerOn := fun hd h => List.eq_of_mem_replicate h
  have hslots : ∀ sl ∈ (s.powerUp inputs).rs.slots, sl = Slot.powerOn := fun sl h => List.eq_of_mem_replicate h
  have hstations : ∀ st ∈ (s.powerUp inputs).ou.stations, st = Station.powerOn := fun st h =>
    List.eq_of_mem_replicate h
  have hdepth : (s.powerUp inputs).dt.depth = 0 := by
    change ((0 : Word) - 0).toNat = 0
    decide
  refine ⟨s.powerUp inputs, exec_powerOn s inputs, ?deck, ?scan, ⟨rfl, rfl, rfl, rfl⟩, ?rules, rfl, ?overrides,
    ?actuation, ?tally⟩
  case deck =>
    exact ⟨rfl, rfl, rfl, rfl, rfl, rfl, rfl, emptyMap_getElem? 0, rfl, rfl, hdepth, rfl, rfl, rfl, rfl, rfl, rfl, rfl, rfl⟩
  case scan =>
    refine ⟨rfl, fun hd h => ?_, rfl, rfl, rfl⟩
    rw [hheads hd h]
    exact ⟨rfl, rfl, rfl, rfl, rfl, rfl, rfl, rfl, rfl, rfl, rfl, rfl, rfl, rfl⟩
  case rules =>
    refine ⟨rfl, fun sl h => ?_, rfl, rfl, rfl⟩
    rw [hslots sl h]
    exact ⟨rfl, rfl, rfl, rfl, rfl⟩
  case overrides =>
    refine ⟨rfl, fun st h => ?_, rfl⟩
    rw [hstations st h]
    exact ⟨rfl, rfl, rfl, rfl, rfl, rfl⟩
  case actuation =>
    exact ⟨rfl, rfl, fun w h => List.eq_of_mem_replicate h, rfl, rfl, rfl, Actuation.powerOn_bins_getElem? inputs,
      rfl, rfl, rfl, rfl, rfl, rfl, rfl⟩
  case tally =>
    exact ⟨fun x => by cases x <;> rfl, rfl, rfl, rfl, rfl, rfl, rfl, rfl, rfl, rfl⟩

/-! ## Notices (R178, R179) -/

theorem msiFollows_iff (port : Bool) (notice mask notice' mask' : BitVec 6) :
    msiFollows port notice mask notice' mask' = true ↔ port = true ∧ notice &&& mask = 0 ∧ notice' &&& mask' ≠ 0 := by
  simp [msiFollows, and_assoc]

/-- Raising a cause takes the AND of NOTICE and NOTICE_MASK from zero exactly where the mask holds the cause's bit. -/
theorem NoticeCause.mask_and_ne_zero (c : NoticeCause) (mask : BitVec 6) :
    c.mask &&& mask ≠ 0 ↔ mask.getLsbD c.bit = true := by
  revert mask
  cases c <;> decide

theorem State.notify_out (c : NoticeCause) (s : State) :
    (s.notify c).out = s.out ++ (if s.xi.port = true ∧ s.xi.notice &&& s.xi.noticeMask = 0
      ∧ s.xi.noticeMask.getLsbD c.bit = true then [.msi] else []) := by
  have hraise : msiFollows s.xi.port s.xi.notice s.xi.noticeMask (s.xi.notice ||| c.mask) s.xi.noticeMask = true
      ↔ s.xi.port = true ∧ s.xi.notice &&& s.xi.noticeMask = 0 ∧ s.xi.noticeMask.getLsbD c.bit = true := by
    rw [msiFollows_iff, ← c.mask_and_ne_zero]
    refine and_congr_right fun _ => and_congr_right fun hzero => ?_
    rw [BitVec.and_or_distrib_right, hzero, BitVec.or_comm, bv6_or_zero]
  change s.out ++ (if msiFollows _ _ _ _ _ = true then _ else _) = _
  simp only [hraise]

theorem Raises.count_add_same (c : NoticeCause) (r : Raises) : (r.add c).count c = r.count c + 1 := by cases c <;> rfl

theorem Raises.count_add_other (c c' : NoticeCause) (r : Raises) (h : c' ≠ c) : (r.add c).count c' = r.count c' := by
  cases c <;> cases c' <;> simp [Raises.add, Raises.count] at h ⊢

/-! ## The register window (R161, R162, R178, R179) -/

theorem State.writeExchCtl_enable {value : Word} (s : State) (h : value.getLsbD 1 = false) :
    s.writeExchCtl value = s.onXi (fun xi => { xi with enable := value.getLsbD 0 }) := by
  simp only [State.writeExchCtl, h, Bool.false_eq_true, if_false]

theorem State.writeExchCtl_lineReset {value : Word} (s : State) (h : value.getLsbD 1 = true) :
    s.writeExchCtl value = (s.onXi (fun xi => { xi with enable := value.getLsbD 0 })).lineReset := by
  simp only [State.writeExchCtl, h, if_true]

theorem State.writeRegister_elsewhere {offset : Nat} (value : Word) (s : State) (h4 : offset ≠ 0x04)
    (h8 : offset ≠ 0x08) (hC : offset ≠ 0x0C) : s.writeRegister offset value = s := by
  simp only [State.writeRegister, h4, h8, hC, if_false]

theorem registerRead_enable (s : State) : registerRead 0x04 s = if s.xi.enable = true then 1 else 0 := by
  change BitVec.ofNat 32 (bit s.xi.enable 0) = _
  cases s.xi.enable <;> rfl

theorem registerRead_elsewhere {offset : Nat} (s : State) (h : offset ∉ [0x00, 0x04, 0x08, 0x0C, 0x10]) :
    registerRead offset s = 0 := by
  simp only [List.mem_cons, List.not_mem_nil, or_false, not_or] at h
  obtain ⟨h0, h4, h8, hC, h10⟩ := h
  simp only [registerRead, h0, h4, h8, hC, h10, if_false]

/-- Settles O13: the port reset, the writes of the registers, the reads, and the raising of a notice. -/
theorem registersAndNoticesChangeAsStated : Obligations.RegistersAndNoticesChangeAsStated := by
  refine ⟨fun s => completes_does (exec_portReset s), fun value s => ⟨fun hv => ?_,
    completes_does (exec_noticeClear s value), fun port => completes_does (exec_noticeMaskWrite s value port),
    fun offset h4 h8 hC => ?_, rfl, rfl, rfl⟩,
    fun s => ⟨registerRead_enable s, rfl, rfl, fun offset h => registerRead_elsewhere s h⟩, rfl, fun _ => rfl,
    fun _ => rfl, msiFollows_iff, fun c s => ⟨rfl, Raises.count_add_same c _, fun c' => Raises.count_add_other c c' _,
    s.notify_out c, rfl⟩⟩
  · rw [← s.clearOut.writeExchCtl_enable hv]
    exact completes_does (exec_enable s value)
  · have hdoes := completes_does (exec_registerWriteOther s offset value)
    rwa [s.clearOut.writeRegister_elsewhere value h4 h8 hC] at hdoes

end Sys2Proof.Machine
end

section
/-! SUPPORT. A line reset (R16, R24, R47, R63, R82, R106, R124, R145, R159, R163, R181): its parts in the model's order
(log 17), and what they leave in each block. -/

open Sys2Proof

namespace Sys2Proof.Machine

/-! ## The end of a search leaves the registers -/

@[simp] theorem State.endSearch_xi_same (cause : SearchCause) (s : State) :
    (s.endSearch cause).xi.enable = s.xi.enable ∧ (s.endSearch cause).xi.noticeMask = s.xi.noticeMask
    ∧ (s.endSearch cause).xi.port = s.xi.port ∧ (s.endSearch cause).xi.causePower = s.xi.causePower
    ∧ (s.endSearch cause).xi.causePort = s.xi.causePort ∧ (s.endSearch cause).xi.causeLine = s.xi.causeLine
    ∧ (s.endSearch cause).xi.release = s.xi.release ∧ (s.endSearch cause).xi.sweep = s.xi.sweep := by
  simp only [State.endSearch]
  split
  · simp
  · split <;> split <;> simp

/-! ## The parts -/

theorem State.onDt_onDt (f g : Deck → Deck) (s : State) : (s.onDt f).onDt g = s.onDt (fun d => g (f d)) := rfl

/-- A line reset up to the solver: SA, DA and TS. -/
def State.resetScanAndSolver (s : State) : State := s.resetScan.onTs Solver.lineReset

/-- A line reset's discarding of the pieces of a table, the map and what the slots are bound to. -/
def State.resetPieces (pieces : List Piece) (s : State) : State :=
  ((s.each pieces State.discardPiece).onDt (fun d => Deck.clearMap { d with pieces := [] })).onRs
    (fun rs => { rs with slots := rs.slots.map Slot.lineReset })

/-- A line reset's discarding of pending logs and its closing of runs. -/
def State.resetTally (logs : List LogRecord) (draining opened : Option Area) (s : State) : State :=
  ((((s.each logs State.discardLog).onTu (fun tu => { tu with pendingLogs := [] })).onXi
    (fun xi => { xi with waiting := [] })).closeAtReset draining).closeAtReset opened

/-- A line reset's part in the stations, the outputs and the deck, and its mark in RESET_CAUSE. -/
def State.resetOutputs (old : DeckState) (s : State) : State :=
  let u := (s.onOu (fun ou => { ou with stations := ou.stations.map Station.lineReset })).onAx Actuation.lineReset
  let v := if old = .unconfigured then u.onDt Deck.lineReset else (u.onDt Deck.lineReset).notify .deck
  v.onXi (fun xi => { xi with causeLine := true })

@[simp] theorem State.resetScanAndSolver_same (s : State) :
    s.resetScanAndSolver.pending = s.pending ∧ s.resetScanAndSolver.dt = s.dt ∧ s.resetScanAndSolver.rs = s.rs
    ∧ s.resetScanAndSolver.ou = s.ou ∧ s.resetScanAndSolver.ax = s.ax ∧ s.resetScanAndSolver.tu = s.tu := by
  simp [State.resetScanAndSolver]

@[simp] theorem State.each_discardPiece_same (pieces : List Piece) (s : State) :
    (s.each pieces State.discardPiece).pending = s.pending ∧ (s.each pieces State.discardPiece).dt = s.dt
    ∧ (s.each pieces State.discardPiece).sa = s.sa ∧ (s.each pieces State.discardPiece).da = s.da
    ∧ (s.each pieces State.discardPiece).rs = s.rs ∧ (s.each pieces State.discardPiece).ts = s.ts
    ∧ (s.each pieces State.discardPiece).ou = s.ou ∧ (s.each pieces State.discardPiece).ax = s.ax
    ∧ (s.each pieces State.discardPiece).tu = s.tu ∧ (s.each pieces State.discardPiece).xi = s.xi := by
  refine ⟨?_, ?_, ?_, ?_, ?_, ?_, ?_, ?_, ?_, ?_⟩ <;> exact State.each_same _ pieces _ (fun p s => by simp) s

@[simp] theorem State.resetPieces_same (pieces : List Piece) (s : State) :
    (s.resetPieces pieces).pending = s.pending ∧ (s.resetPieces pieces).sa = s.sa
    ∧ (s.resetPieces pieces).da = s.da ∧ (s.resetPieces pieces).ts = s.ts ∧ (s.resetPieces pieces).ou = s.ou
    ∧ (s.resetPieces pieces).ax = s.ax ∧ (s.resetPieces pieces).tu = s.tu ∧ (s.resetPieces pieces).xi = s.xi := by
  simp [State.resetPieces]

@[simp] theorem State.each_discardLog_same (logs : List LogRecord) (s : State) :
    (s.each logs State.discardLog).pending = s.pending ∧ (s.each logs State.discardLog).dt = s.dt
    ∧ (s.each logs State.discardLog).sa = s.sa ∧ (s.each logs State.discardLog).da = s.da
    ∧ (s.each logs State.discardLog).rs = s.rs ∧ (s.each logs State.discardLog).ts = s.ts
    ∧ (s.each logs State.discardLog).ou = s.ou ∧ (s.each logs State.discardLog).ax = s.ax
    ∧ (s.each logs State.discardLog).xi = s.xi := by
  refine ⟨?_, ?_, ?_, ?_, ?_, ?_, ?_, ?_, ?_⟩ <;> exact State.each_same _ logs _ (fun p s => by simp) s

@[simp] theorem State.resetTally_same (logs : List LogRecord) (draining opened : Option Area) (s : State) :
    (s.resetTally logs draining opened).pending = s.pending ∧ (s.resetTally logs draining opened).dt = s.dt
    ∧ (s.resetTally logs draining opened).sa = s.sa ∧ (s.resetTally logs draining opened).da = s.da
    ∧ (s.resetTally logs draining opened).rs = s.rs ∧ (s.resetTally logs draining opened).ts = s.ts
    ∧ (s.resetTally logs draining opened).ou = s.ou ∧ (s.resetTally logs draining opened).ax = s.ax := by
  simp [State.resetTally]

/-- DECK is raised where UNCONFIGURED is a change (R17). -/
theorem State.resetOutputs_eq (s : State) :
    (((s.onOu (fun ou => { ou with stations := ou.stations.map Station.lineReset })).onAx
      Actuation.lineReset).resetDeck).onXi (fun xi => { xi with causeLine := true })
      = s.resetOutputs s.dt.state := by
  unfold State.resetDeck State.resetOutputs
  by_cases h : s.dt.state = .unconfigured <;> simp [h]

theorem State.resetPieces_state (pieces : List Piece) (s : State) : (s.resetPieces pieces).dt.state = s.dt.state := by
  simp [State.resetPieces, Deck.clearMap]

@[simp] theorem State.resetOutputs_same (old : DeckState) (s : State) :
    (s.resetOutputs old).pending = s.pending ∧ (s.resetOutputs old).sa = s.sa ∧ (s.resetOutputs old).da = s.da
    ∧ (s.resetOutputs old).rs = s.rs ∧ (s.resetOutputs old).ts = s.ts ∧ (s.resetOutputs old).tu = s.tu := by
  unfold State.resetOutputs
  split <;> simp

/-- A line reset is its parts, in the model's order (log 17). -/
theorem State.lineReset_eq (s : State) :
    s.lineReset =
      ((s.resetScanAndSolver.resetPieces s.dt.pieces).resetTally s.tu.pendingLogs s.tu.drainingArea
        s.tu.openArea).resetOutputs s.dt.state := by
  have hparts : s.lineReset =
      let a := s.resetScanAndSolver
      let b := a.resetPieces a.dt.pieces
      let c := b.resetTally b.tu.pendingLogs b.tu.drainingArea b.tu.openArea
      c.resetOutputs c.dt.state := State.resetOutputs_eq _
  simpa [State.resetPieces_state] using hparts

/-! ## What the parts leave in each block -/

section Blocks

variable (s : State)

theorem State.lineReset_pending : s.lineReset.pending = s.pending := by simp [State.lineReset_eq]

theorem State.lineReset_dt : s.lineReset.dt =
    { s.dt with
      state := .unconfigured, geometry := none, position := 0, highWater := 0, encoder := 0
      lugs := s.dt.lugs.map (fun l => Lug.empty l.tag), upstream := [], pieces := []
      causes := Causes.empty, restartPending := false } := by
  rw [State.lineReset_eq]
  unfold State.resetOutputs
  split <;> simp [State.resetPieces, Deck.lineReset, Deck.clearMap]

theorem State.lineReset_sa : s.lineReset.sa = s.resetScan.sa := by simp [State.lineReset_eq, State.resetScanAndSolver]

theorem State.lineReset_da_scan : s.lineReset.da = s.resetScan.da := by simp [State.lineReset_eq, State.resetScanAndSolver]

theorem State.lineReset_rs : s.lineReset.rs = { s.rs with slots := s.rs.slots.map Slot.lineReset } := by
  simp [State.lineReset_eq, State.resetPieces]

theorem State.lineReset_ts : s.lineReset.ts = s.ts.lineReset := by
  simp [State.lineReset_eq, State.resetScanAndSolver]

theorem State.lineReset_ou : s.lineReset.ou = { s.ou with stations := s.ou.stations.map Station.lineReset } := by
  rw [State.lineReset_eq]
  unfold State.resetOutputs
  split <;> simp

theorem State.lineReset_ax : s.lineReset.ax = s.ax.lineReset := by
  rw [State.lineReset_eq]
  unfold State.resetOutputs
  split <;> simp

/-- The registers, the marks and the sweep after a line reset (R163, R181). -/
theorem State.lineReset_xi :
    s.lineReset.xi.waiting = [] ∧ s.lineReset.xi.causeLine = true ∧ s.lineReset.xi.causePower = s.xi.causePower
    ∧ s.lineReset.xi.causePort = s.xi.causePort ∧ s.lineReset.xi.enable = s.xi.enable
    ∧ s.lineReset.xi.noticeMask = s.xi.noticeMask ∧ s.lineReset.xi.release = s.xi.release
    ∧ s.lineReset.xi.sweep = s.xi.sweep := by
  have hclose : ∀ (o : Option Area) (u : State), (u.closeAtReset o).xi.waiting = u.xi.waiting
      ∧ (u.closeAtReset o).xi.causePower = u.xi.causePower
      ∧ (u.closeAtReset o).xi.causePort = u.xi.causePort ∧ (u.closeAtReset o).xi.enable = u.xi.enable
      ∧ (u.closeAtReset o).xi.noticeMask = u.xi.noticeMask ∧ (u.closeAtReset o).xi.release = u.xi.release
      ∧ (u.closeAtReset o).xi.sweep = u.xi.sweep := by
    intro o u
    cases o <;> simp [State.closeAtReset]
  rw [State.lineReset_eq]
  unfold State.resetOutputs
  split <;> simp [State.resetTally, State.resetScanAndSolver, State.resetScan, hclose]

end Blocks

/-! ## The runs (R150, R159) -/

/-- A run table entry that a line reset closes. -/
def RunEntry.closedByReset (e : RunEntry) : RunEntry :=
  { e with area := .held, run := none, reason := some .lineReset, live := 0, logPending := 0, reservation := 0 }

theorem State.onArea_tu_entry (x y : Area) (f : RunEntry → RunEntry) (s : State) :
    (s.onArea x f).tu.entry y = if x = y then f (s.tu.entry y) else s.tu.entry y := by
  cases x <;> cases y <;> rfl

theorem State.closeRun_tu (x : Area) (s : State) :
    (s.closeRun x).tu = ((s.onArea x (fun e => { e with reservation := 0 })).onArea x
      (fun e => { e with area := .held, run := none })).tu := by
  simp [State.closeRun, State.onArea]

theorem State.closeAtReset_entry (o : Option Area) (s : State) (y : Area) :
    (s.closeAtReset o).tu.entry y = if o = some y then (s.tu.entry y).closedByReset else s.tu.entry y := by
  cases o with
  | none => rfl
  | some x =>
    simp only [State.closeAtReset, State.closeRun_tu, State.onArea_tu_entry, Option.some.injEq]
    split <;> rfl

/-- Closing a run moves nothing of TU but its entry. -/
theorem State.closeAtReset_tu (o : Option Area) (s : State) :
    (s.closeAtReset o).tu.nextRun = s.tu.nextRun ∧ (s.closeAtReset o).tu.lastOpened = s.tu.lastOpened
    ∧ (s.closeAtReset o).tu.pendingLogs = s.tu.pendingLogs := by
  cases o with
  | none => exact ⟨rfl, rfl, rfl⟩
  | some x => simp [State.closeAtReset, State.closeRun_tu]

theorem State.discardLog_tu (r : LogRecord) (s : State) :
    (s.discardLog r).tu = { s.tu with unjournaledLogs := s.tu.unjournaledLogs + 1 } := by
  unfold State.discardLog
  dsimp only
  split <;> simp

/-- Discarding logs moves nothing of TU but its count. -/
theorem State.each_discardLog_tu (logs : List LogRecord) (s : State) :
    { (s.each logs State.discardLog).tu with unjournaledLogs := 0 } = { s.tu with unjournaledLogs := 0 } :=
  State.each_same (fun s => { s.tu with unjournaledLogs := 0 }) logs _ (fun r s => by rw [State.discardLog_tu]) s

theorem State.each_discardLog_entry (logs : List LogRecord) (s : State) (y : Area) :
    (s.each logs State.discardLog).tu.entry y = s.tu.entry y := by
  have htu := congrArg (fun tu => tu.entry y) (State.each_discardLog_tu logs s)
  cases y <;> exact htu

theorem State.resetTally_entry (logs : List LogRecord) (draining opened : Option Area) (s : State) (y : Area) :
    (s.resetTally logs draining opened).tu.entry y =
      if opened = some y ∨ draining = some y then (s.tu.entry y).closedByReset else s.tu.entry y := by
  have hlogs : ((((s.each logs State.discardLog).onTu (fun tu => { tu with pendingLogs := [] })).onXi
      (fun xi => { xi with waiting := [] }))).tu.entry y = s.tu.entry y := by
    rw [← State.each_discardLog_entry logs s y]
    cases y <;> rfl
  rw [State.resetTally, State.closeAtReset_entry, State.closeAtReset_entry, hlogs]
  by_cases ho : opened = some y <;> by_cases hd : draining = some y <;> simp [ho, hd, RunEntry.closedByReset]

theorem Tally.findArea_run {tu : Tally} {st : RunState} {x : Area}
    (h : tu.findArea (fun e => e.run == some st) = some x) : (tu.entry x).run = some st := by
  unfold Tally.findArea at h
  split at h
  · rename_i hA
    cases h
    exact beq_iff_eq.mp hA
  · split at h
    · rename_i hB
      cases h
      exact beq_iff_eq.mp hB
    · cases h

/-- With the runs apart, a run in a state is found where it stands. -/
theorem Tally.Apart.findArea_iff {tu : Tally} (h : tu.Apart) (st : RunState) (x : Area) :
    tu.findArea (fun e => e.run == some st) = some x ↔ (tu.entry x).run = some st := by
  refine ⟨Tally.findArea_run, fun hx => ?_⟩
  cases x with
  | a => exact if_pos (beq_iff_eq.mpr hx)
  | b =>
    change tu.areaB.run = _ at hx
    have hA : tu.areaA.run ≠ some st := fun hA => by
      have hnone := h.one (hA.trans hx.symm)
      rw [hA] at hnone
      cases hnone
    simp [Tally.findArea, hA, hx]

theorem Tally.Apart.openArea_iff {tu : Tally} (h : tu.Apart) (x : Area) :
    tu.openArea = some x ↔ (tu.entry x).run = some .opened := h.findArea_iff .opened x

theorem Tally.Apart.drainingArea_iff {tu : Tally} (h : tu.Apart) (x : Area) :
    tu.drainingArea = some x ↔ (tu.entry x).run = some .draining := h.findArea_iff .draining x

theorem Tally.Apart.live_iff {tu : Tally} (h : tu.Apart) (x : Area) :
    (tu.openArea = some x ∨ tu.drainingArea = some x) ↔ (tu.entry x).run ≠ none := by
  rw [h.openArea_iff, h.drainingArea_iff]
  cases (tu.entry x).run with
  | none => simp
  | some st => cases st <;> simp

/-- After a line reset no area holds a run; an area that held one is HELD, its run closed with reason LINE_RESET. -/
theorem State.lineReset_entry {s : State} (h : s.tu.Apart) (y : Area) :
    s.lineReset.tu.entry y = if (s.tu.entry y).run = none then s.tu.entry y else (s.tu.entry y).closedByReset := by
  have htu : ((s.resetScanAndSolver.resetPieces s.dt.pieces)).tu = s.tu := by simp
  rw [State.lineReset_eq, (State.resetOutputs_same _ _).2.2.2.2.2, State.resetTally_entry, htu]
  simp only [h.live_iff, ne_eq, ite_not]

theorem State.lineReset_run {s : State} (h : s.tu.Apart) (y : Area) : (s.lineReset.tu.entry y).run = none := by
  rw [State.lineReset_entry h]
  split
  · assumption
  · rfl

theorem Tally.findArea_eq_none {tu : Tally} (st : RunState) (h : ∀ x, (tu.entry x).run = none) :
    tu.findArea (fun e => e.run == some st) = none := by
  have hA : tu.areaA.run = none := h .a
  have hB : tu.areaB.run = none := h .b
  simp [Tally.findArea, hA, hB]

theorem State.lineReset_openArea {s : State} (h : s.tu.Apart) : s.lineReset.tu.openArea = none :=
  Tally.findArea_eq_none .opened (State.lineReset_run h)

theorem State.lineReset_drainingArea {s : State} (h : s.tu.Apart) : s.lineReset.tu.drainingArea = none :=
  Tally.findArea_eq_none .draining (State.lineReset_run h)

theorem State.lineReset_tu (s : State) :
    s.lineReset.tu.pendingLogs = [] ∧ s.lineReset.tu.nextRun = s.tu.nextRun
    ∧ s.lineReset.tu.lastOpened = s.tu.lastOpened := by
  have hlogs := State.each_discardLog_tu s.tu.pendingLogs (s.resetScanAndSolver.resetPieces s.dt.pieces)
  have hrun := congrArg Tally.nextRun hlogs
  have hlast := congrArg Tally.lastOpened hlogs
  dsimp only at hrun hlast
  simp [State.lineReset_eq, State.resetTally, State.closeAtReset_tu, hrun, hlast]

/-! ## The heads and the search (R47, R60, R63) -/

theorem State.onHead_heads_getElem? (h i : Nat) (f : Head → Head) (s : State) :
    (s.onHead h f).sa.heads[i]? = if h = i + 1 then (s.sa.heads[i]?).map f else s.sa.heads[i]? := by
  rw [State.onHead_sa]
  by_cases h0 : h = 0
  · simp [h0]
  · rw [if_neg h0, List.getElem?_modify]
    by_cases hi : h = i + 1
    · subst hi; simp
    · have hne : h - 1 ≠ i := by omega
      simp [hi, hne]

theorem Scan.headState_succ (sa : Scan) (i : Nat) : sa.headState (i + 1) = ((sa.heads[i]?).map (·.state)).getD .offline := by
  simp only [Scan.headState, Scan.head?, Nat.add_one_ne_zero, if_false, Nat.add_sub_cancel]
  cases sa.heads[i]? <;> rfl

/-- Without the long-stop mark a line reset ends a search by making READY the head that was ALIGNING. -/
theorem State.endSearch_lineReset_sa (s : State) (h : s.sa.longStop = false) :
    (s.endSearch .lineReset).sa =
      if s.da.search ≠ .idle ∧ s.sa.headState s.da.head = .aligning then
        (s.onHead s.da.head (fun hd => { hd with state := .ready })).sa
      else s.sa := by
  have hready (u : State) (n : Nat) (hu : u.sa = s.sa) :
      (u.enterReady n true).sa = (s.onHead n (fun hd => { hd with state := .ready })).sa := by
    simp [State.enterReady, hu, h]
  simp only [State.endSearch]
  by_cases hidle : s.da.search = .idle
  · simp [hidle]
  · by_cases hal : s.sa.headState s.da.head = .aligning
    · simp only [hidle, hal, if_false, State.onDa_sa, State.endInHand_same, reduceCtorEq, if_true, ne_eq, not_false_eq_true,
        and_self]
      exact hready _ _ (by simp)
    · simp [hidle, hal]

theorem State.endSearch_da (cause : SearchCause) (s : State) :
    (s.endSearch cause).da =
      if s.da.search = .idle then s.da
      else
        { s.da with
          search := .idle, outstanding := false, last := some { cause, head := s.da.head, delay := s.da.d } } := by
  simp only [State.endSearch]
  split
  · rfl
  · split <;> split <;> simp

/-- A head once the search for it, if `searched`, has ended with LINE_RESET. -/
def Head.searchReset (searched : Bool) (hd : Head) : Head :=
  { hd with state := if hd.state = .aligning ∧ searched = true then .ready else hd.state }

/-- A head after a line reset. -/
def Head.afterReset (searched : Bool) (hd : Head) : Head := { hd.searchReset searched with credit := 16 }

theorem State.endSearch_lineReset_heads (s : State) (h : s.sa.longStop = false) (i : Nat) :
    (s.endSearch .lineReset).sa.heads[i]? = (s.sa.heads[i]?).map (Head.searchReset (s.da.searches (i + 1))) := by
  rw [State.endSearch_lineReset_sa s h]
  by_cases hends : s.da.search ≠ .idle ∧ s.sa.headState s.da.head = .aligning
  · obtain ⟨hsearch, hal⟩ := hends
    rw [if_pos ⟨hsearch, hal⟩, State.onHead_heads_getElem?]
    by_cases hi : s.da.head = i + 1
    · rw [hi, Scan.headState_succ] at hal
      rw [if_pos hi]
      cases hhd : s.sa.heads[i]? with
      | none => rfl
      | some hd =>
        rw [hhd] at hal
        change hd.state = .aligning at hal
        simp [Head.searchReset, Align.searches, hsearch, hi, hal]
    · rw [if_neg hi]
      cases s.sa.heads[i]? <;> simp [Head.searchReset, Align.searches, hi]
  · rw [if_neg hends]
    cases hhd : s.sa.heads[i]? with
    | none => rfl
    | some hd =>
      have hno : ¬(hd.state = .aligning ∧ s.da.searches (i + 1) = true) := by
        rintro ⟨hal, hsearches⟩
        simp only [Align.searches, Bool.and_eq_true, bne_iff_ne, beq_iff_eq] at hsearches
        refine hends ⟨hsearches.1, ?_⟩
        rw [hsearches.2, Scan.headState_succ, hhd]
        exact hal
      rw [Option.map_some, Head.searchReset, if_neg hno]

theorem State.lineReset_heads_getElem? (s : State) (i : Nat) :
    s.lineReset.sa.heads[i]? = (s.sa.heads[i]?).map (Head.afterReset (s.da.searches (i + 1))) := by
  rw [State.lineReset_sa, State.resetScan, State.onSa_sa, List.getElem?_map,
    State.endSearch_lineReset_heads _ (by rfl), Option.map_map]
  rfl

theorem State.lineReset_sa_same (s : State) :
    s.lineReset.sa.standbyTimer = false ∧ s.lineReset.sa.longStop = false
    ∧ s.lineReset.sa.logLink = s.sa.logLink ∧ s.lineReset.sa.heads.length = s.sa.heads.length := by
  rw [State.lineReset_sa, State.resetScan, State.onSa_sa, State.endSearch_lineReset_sa _ (by rfl)]
  split <;> simp [apply_ite List.length]

theorem Head.afterReset_waking (searched : Bool) (hd : Head) :
    (hd.afterReset searched).state = .waking ↔ hd.state = .waking := by
  unfold Head.afterReset Head.searchReset
  dsimp only
  split
  · rename_i h
    simp [h.1]
  · rfl

theorem State.lineReset_anyWaking (s : State) : s.lineReset.sa.anyWaking = s.sa.anyWaking := by
  rw [Bool.eq_iff_iff, Scan.anyWaking_iff, Scan.anyWaking_iff]
  simp only [List.mem_iff_getElem?, State.lineReset_heads_getElem?, Option.map_eq_some_iff]
  constructor
  · rintro ⟨_, ⟨i, hd, hi, rfl⟩, hwaking⟩
    exact ⟨hd, ⟨i, hi⟩, (Head.afterReset_waking _ hd).mp hwaking⟩
  · rintro ⟨hd, ⟨i, hi⟩, hwaking⟩
    exact ⟨_, ⟨i, hd, hi, rfl⟩, (Head.afterReset_waking _ hd).mpr hwaking⟩

theorem State.lineReset_da (s : State) : s.lineReset.da =
    if s.da.search = .idle then s.da
    else
      { s.da with
        search := .idle, outstanding := false
        last := some { cause := .lineReset, head := s.da.head, delay := s.da.d } } := by
  rw [State.lineReset_da_scan, State.resetScan, State.onSa_da, State.endSearch_da]
  rfl

/-- The ACTIVE slot stands through a line reset (R82). -/
theorem State.lineReset_activeSlot (s : State) :
    s.lineReset.rs.activeSlot.isNone = s.rs.activeSlot.isNone := by
  have hstate (sl : Slot) : sl.lineReset.state = .active ↔ sl.state = .active := by
    unfold Slot.lineReset
    split
    · rename_i h; simp [h]
    · rfl
  rw [Bool.eq_iff_iff, RuleStore.activeSlot_isNone_iff, RuleStore.activeSlot_isNone_iff, State.lineReset_rs]
  simp [hstate]

/-! ## The statements -/

/-- What is left of the deck once a line reset has settled. -/
theorem State.lineReset_settled_dt {s t : State} (h : s.Inv)
    (ht : s.clearOut.lineReset.Settles false s.image t) :
    t.dt =
      { s.dt with
        state := .unconfigured, geometry := none, position := 0, highWater := 0, encoder := 0
        lugs := s.dt.lugs.map (fun l => Lug.empty l.tag), upstream := [], pieces := []
        causes := Causes.empty
        hold := { host := s.dt.hold.host, journal := decide (unreservedUnits t.dt t.tu t.xi < 39), table := false,
                  run := true, rules := s.rs.activeSlot.isNone, align := false, wake := s.sa.anyWaking,
                  fault := false }
        gate := false, restartPending := false } := by
  have hdt := ht.dt
  rw [State.lineReset_dt] at hdt
  simp only [DeckState.stopped, Bool.false_eq_true, if_false] at hdt
  have hstate : t.dt.state = .unconfigured := by rw [hdt]
  have hpieces : t.dt.pieces = [] := by rw [hdt]
  have hopen : t.tu.openArea = none := by
    rw [ht.tu]; exact State.lineReset_openArea (s := s.clearOut) h.runs
  have halign : (t.da.search != .idle) = false := by
    rw [ht.da, State.lineReset_da]
    split
    · rename_i hidle; rw [hidle]; rfl
    · rfl
  have hhold : t.holdNow =
      { host := t.dt.hold.host, journal := decide (unreservedUnits t.dt t.tu t.xi < 39), table := false,
        run := true, rules := s.rs.activeSlot.isNone, align := false, wake := s.sa.anyWaking, fault := false } := by
    rw [State.holdNow, hpieces, hopen, halign, hstate, ht.rs, ht.sa, State.lineReset_activeSlot,
      State.lineReset_anyWaking]
    rfl
  rw [hhold, hstate] at hdt
  exact hdt

/-- Settles O11: the register's row is the input's line reset after ENABLE, and the deck is that of
`State.lineReset_settled_dt`. -/
theorem lineResetClearsTheDeck : Obligations.LineResetClearsTheDeck := by
  refine ⟨fun value s hv => ⟨?_, rfl⟩, fun s h => ?_⟩
  · change completes false (State.writeExchCtl value) s = completes false State.lineReset _
    rw [completes, State.event, s.clearOut.writeExchCtl_lineReset hv]
    rfl
  · obtain ⟨t, e, ht⟩ := completes_settles (exec_lineResetInput s)
    exact ⟨t, e, State.lineReset_settled_dt h ht⟩

end Sys2Proof.Machine
end

section
/-! SUPPORT. What a line reset comes to in each block (R47, R60, R63, R82, R106, R124, R145, R159, R163, R181). -/

open Sys2Proof

namespace Sys2Proof.Machine

/-- Each discarded log is counted in its run's UNJOURNALED_LOGS, the last of the exception counts (R155, R157). -/
theorem State.each_discardLog_eq (logs : List LogRecord) (s : State) :
    s.each logs State.discardLog =
      logs.foldl (fun (u : State) (r : LogRecord) =>
        let v := u.onTu (fun tu => { tu with unjournaledLogs := tu.unjournaledLogs + 1 })
        match v.tu.areaOfRun r.run with
        | none => v
        | some x => v.addTo (areaAddr x + 0xD188 + 4 * 10) 1) s := by
  refine congrArg (fun f => logs.foldl f s) (funext fun u => funext fun r => ?_)
  unfold State.discardLog
  dsimp only
  cases (u.onTu (fun tu => { tu with unjournaledLogs := tu.unjournaledLogs + 1 })).tu.areaOfRun r.run <;> rfl

/-- After a line reset only an area without a run can hold a reservation. -/
theorem State.lineReset_reservedTotal {s t : State} (h : s.Inv) (ht : s.clearOut.lineReset.Settles false s.image t) :
    reservedTotal t.dt t.tu
      = (if s.tu.areaA.run = none then s.tu.areaA.reservation else 0)
        + (if s.tu.areaB.run = none then s.tu.areaB.reservation else 0) := by
  have hpieces : t.dt.pieces = [] := by rw [State.lineReset_settled_dt h ht]
  have hentry (x : Area) : (t.tu.entry x).reservation
      = if (s.tu.entry x).run = none then (s.tu.entry x).reservation else 0 := by
    have htu : t.tu.entry x = s.clearOut.lineReset.tu.entry x := by rw [ht.tu]; cases x <;> rfl
    rw [htu, State.lineReset_entry (s := s.clearOut) h.runs, apply_ite RunEntry.reservation]
    rfl
  have hA := hentry .a
  have hB := hentry .b
  change t.tu.areaA.reservation = _ at hA
  change t.tu.areaB.reservation = _ at hB
  rw [reservedTotal, hpieces, hA, hB, List.map_nil, List.sum_nil, Nat.zero_add]
  rfl

/-- What a line reset leaves in SA and DA once it has settled. -/
theorem State.lineReset_settled_scan {s t : State} (h : s.Inv)
    (ht : s.clearOut.lineReset.Settles false s.image t) :
    (t.sa.standbyTimer = false ∧ t.sa.longStop = false ∧ t.sa.logLink = s.sa.logLink ∧ t.sa.heads.length = 8
      ∧ ∀ (i : Nat) (hd : Head), s.sa.heads[i]? = some hd → t.sa.heads[i]?
        = some { hd with
                 credit := 16
                 state := if hd.state = .aligning ∧ s.da.search ≠ .idle ∧ s.da.head = i + 1 then .ready
                   else hd.state })
    ∧ (t.da.search = .idle ∧ t.da.strayEchoes = s.da.strayEchoes ∧ t.da.downgrades = s.da.downgrades
      ∧ t.da.last = (if s.da.search = .idle then s.da.last
          else some { cause := .lineReset, head := s.da.head, delay := s.da.d })) := by
  obtain ⟨hstandby, hstop, hlink, hlength⟩ := s.clearOut.lineReset_sa_same
  rw [ht.sa, ht.da, State.lineReset_da]
  refine ⟨⟨hstandby, hstop, hlink, hlength.trans h.sized.heads, fun i hd hi => ?_⟩, ?_⟩
  · rw [State.lineReset_heads_getElem?, State.clearOut_sa, hi]
    simp [Head.afterReset, Head.searchReset, Align.searches]
  · by_cases hidle : s.da.search = .idle
    · simp [hidle]
    · simp [hidle]

/-- What a line reset leaves in TU once it has settled. -/
theorem State.lineReset_settled_tu {s t : State} (h : s.Inv) (ht : s.clearOut.lineReset.Settles false s.image t) :
    t.tu.pendingLogs = [] ∧ t.tu.logHold = true ∧ t.tu.nextRun = s.tu.nextRun
      ∧ t.tu.lastOpened = s.tu.lastOpened ∧ t.tu.openArea = none ∧ t.tu.drainingArea = none
      ∧ ∀ x, t.tu.entry x =
        if (s.tu.entry x).run = none then s.tu.entry x
        else
          { s.tu.entry x with
            area := .held, run := none, reason := some .lineReset, live := 0, logPending := 0, reservation := 0 } := by
  obtain ⟨hlogs, hnext, hlast⟩ := s.clearOut.lineReset_tu
  have hopen := State.lineReset_openArea (s := s.clearOut) h.runs
  have hhold : logHoldNow s.clearOut.lineReset.tu = true := by rw [logHoldNow, hopen]; exact Bool.or_true _
  rw [ht.tu]
  exact ⟨hlogs, hhold, hnext, hlast, hopen, State.lineReset_drainingArea (s := s.clearOut) h.runs,
    fun x => (by cases x <;> rfl : _ = _).trans (State.lineReset_entry (s := s.clearOut) h.runs x)⟩

/-- Settles O12: the parts are those of `State.lineReset_eq`, and each block has its own lemma. -/
theorem lineResetReachesEveryBlock : Obligations.LineResetReachesEveryBlock := by
  refine ⟨fun s => ?_, fun s h => ?_⟩
  · have hdoes := completes_does (exec_lineResetInput s)
    rw [State.lineReset_eq, State.resetTally, State.each_discardLog_eq] at hdoes
    exact hdoes
  · obtain ⟨t, e, ht⟩ := completes_settles (exec_lineResetInput s)
    obtain ⟨hscan, halign⟩ := State.lineReset_settled_scan h ht
    obtain ⟨hwaiting, hline, hpower, hport, henable, hmask, hrelease, hsweep⟩ := s.clearOut.lineReset_xi
    refine ⟨t, e, hscan, halign, ht.rs.trans s.clearOut.lineReset_rs, ht.ts.trans s.clearOut.lineReset_ts,
      ht.ou.trans s.clearOut.lineReset_ou, ht.ax.trans s.clearOut.lineReset_ax, State.lineReset_settled_tu h ht, ?_,
      State.lineReset_reservedTotal h ht, ?_⟩ <;> rw [ht.xi]
    · exact hwaiting
    · exact ⟨hline, hpower, hport, henable, hmask, hrelease, hsweep⟩

end Sys2Proof.Machine
end

section
/-! SUPPORT. In FAULTED nothing is driven (R131): the operations that leave the deck state and AX alone, and how each of
the others keeps every output UP, every gate at rest and every window entry RELEASED. -/

open Sys2Proof

namespace Sys2Proof.Machine

/-! ## Operations that leave the deck state and AX -/

theorem State.each_calm {α : Type} (l : List α) (f : α → State → State)
    (h : ∀ x s, (f x s).dt.state = s.dt.state ∧ (f x s).ax = s.ax) (s : State) :
    (s.each l f).dt.state = s.dt.state ∧ (s.each l f).ax = s.ax :=
  ⟨State.each_same (fun s => s.dt.state) l f (fun x s => (h x s).1) s,
    State.each_same (fun s => s.ax) l f (fun x s => (h x s).2) s⟩

/-! ### Records, retirement, the waiting list -/

@[simp] theorem State.retire_calm (p : Piece) (s : State) :
    (s.retire p).dt.state = s.dt.state ∧ (s.retire p).ax = s.ax := by
  unfold State.retire
  dsimp only
  repeat' split
  all_goals simp

@[simp] theorem State.writePiece_calm (p : Piece) (s : State) :
    (s.writePiece p).dt.state = s.dt.state ∧ (s.writePiece p).ax = s.ax := by
  unfold State.writePiece
  simp

@[simp] theorem State.writeWaiting_calm (w : Waiting) (s : State) :
    (s.writeWaiting w).dt.state = s.dt.state ∧ (s.writeWaiting w).ax = s.ax := by
  unfold State.writeWaiting
  repeat' split
  all_goals simp

@[simp] theorem State.drain_calm (n : Nat) (s : State) :
    (State.drain n s).dt.state = s.dt.state ∧ (State.drain n s).ax = s.ax := by
  induction n generalizing s with
  | zero => exact ⟨rfl, rfl⟩
  | succ n ih =>
    unfold State.drain
    split
    · exact ⟨rfl, rfl⟩
    · split
      · simp [ih]
      · exact ⟨rfl, rfl⟩

@[simp] theorem State.drainAll_calm (s : State) :
    (s.drainAll).dt.state = s.dt.state ∧ (s.drainAll).ax = s.ax := by
  unfold State.drainAll
  simp

@[simp] theorem State.askPiece_calm (serial : Word) (s : State) :
    (s.askPiece serial).dt.state = s.dt.state ∧ (s.askPiece serial).ax = s.ax := by
  unfold State.askPiece
  repeat' split
  all_goals simp

@[simp] theorem State.takeNext_calm (s : State) :
    (s.takeNext).dt.state = s.dt.state ∧ (s.takeNext).ax = s.ax := by
  unfold State.takeNext
  repeat' split
  all_goals simp

@[simp] theorem State.joinQueue_calm (serial : Word) (s : State) :
    (s.joinQueue serial).dt.state = s.dt.state ∧ (s.joinQueue serial).ax = s.ax := by
  unfold State.joinQueue
  simp

@[simp] theorem State.abandonSolve_calm (serial : Word) (s : State) :
    (s.abandonSolve serial).dt.state = s.dt.state ∧ (s.abandonSolve serial).ax = s.ax := by
  unfold State.abandonSolve
  repeat' split
  all_goals simp

@[simp] theorem State.detach_calm (serial : Word) (run bin : Nat) (s : State) :
    (s.detach serial run bin).dt.state = s.dt.state ∧ (s.detach serial run bin).ax = s.ax := by
  unfold State.detach
  simp

@[simp] theorem State.tallyPiece_calm (p : Piece) (s : State) :
    (s.tallyPiece p).dt.state = s.dt.state ∧ (s.tallyPiece p).ax = s.ax := by
  refine ⟨by simp, ?_⟩
  unfold State.tallyPiece
  split
  · rfl
  · refine (State.each_same (fun s => s.ax) pieceExceptions _ (fun _ _ => by simp) _).trans ?_
    unfold State.tallyBin
    split <;> exact State.each_same (fun s => s.ax) p.tallied (State.tallyProduct _ _ _) (fun _ _ => rfl) s

@[simp] theorem State.sortPiece_calm (serial : Word) (bin : Nat) (s : State) :
    (s.sortPiece serial bin).dt.state = s.dt.state ∧ (s.sortPiece serial bin).ax = s.ax := by
  unfold State.sortPiece
  dsimp only
  repeat' split
  all_goals simp

@[simp] theorem State.losePiece_calm (serial : Word) (s : State) :
    (s.losePiece serial).dt.state = s.dt.state ∧ (s.losePiece serial).ax = s.ax := by
  unfold State.losePiece
  simp

@[simp] theorem State.readReleaseMark_calm (s : State) :
    (s.readReleaseMark).dt.state = s.dt.state ∧ (s.readReleaseMark).ax = s.ax := by
  unfold State.readReleaseMark
  dsimp only
  repeat' split
  all_goals simp

@[simp] theorem State.readNotifyCount_calm (s : State) :
    (s.readNotifyCount).dt.state = s.dt.state ∧ (s.readNotifyCount).ax = s.ax := by
  unfold State.readNotifyCount
  simp

@[simp] theorem State.countStranger_calm (s : State) :
    (s.countStranger).dt.state = s.dt.state ∧ (s.countStranger).ax = s.ax := by
  unfold State.countStranger
  repeat' split
  all_goals simp

@[simp] theorem State.countDropMiss_calm (mark : DropMark) (s : State) :
    (s.countDropMiss mark).dt.state = s.dt.state ∧ (s.countDropMiss mark).ax = s.ax := by
  unfold State.countDropMiss
  repeat' split
  all_goals simp

@[simp] theorem State.hostWrites_calm (host : List HostWrite) (s : State) :
    (s.hostWrites host).dt.state = s.dt.state ∧ (s.hostWrites host).ax = s.ax := by
  refine State.each_calm host _ (fun w s => ?_) s
  rw [State.hostWrite_same]
  exact ⟨rfl, rfl⟩

/-! ### Heads, the search, reports -/

@[simp] theorem State.wakeHeads_calm (s : State) :
    (s.wakeHeads).dt.state = s.dt.state ∧ (s.wakeHeads).ax = s.ax := by
  unfold State.wakeHeads
  exact State.each_calm (List.range' 1 8) _ (fun n s => by split <;> simp) s

@[simp] theorem State.standbyHeads_calm (s : State) :
    (s.standbyHeads).dt.state = s.dt.state ∧ (s.standbyHeads).ax = s.ax := by
  unfold State.standbyHeads
  exact State.each_calm (List.range' 1 8) _ (fun n s => by split <;> simp) s

@[simp] theorem State.offerReport_calm (head : Nat) (r : HeadReport) (s : State) :
    (s.offerReport head r).dt.state = s.dt.state ∧ (s.offerReport head r).ax = s.ax := by
  unfold State.offerReport
  repeat' split
  all_goals simp

@[simp] theorem State.closeAtZoneEnd_calm (g : Geometry) (s : State) :
    (s.closeAtZoneEnd g).dt.state = s.dt.state ∧ (s.closeAtZoneEnd g).ax = s.ax := by
  unfold State.closeAtZoneEnd
  repeat' split
  all_goals simp

@[simp] theorem State.chargeHeads_calm (ready : HeadSet) (scan : Option Density) (s : State) :
    (s.chargeHeads ready scan).dt.state = s.dt.state ∧ (s.chargeHeads ready scan).ax = s.ax := by
  unfold State.chargeHeads
  exact State.each_calm (List.range' 1 8) _ (fun n s => by split <;> simp) s

@[simp] theorem State.bindGeneration_calm (serial : Word) (s : State) :
    (s.bindGeneration serial).dt.state = s.dt.state ∧ (s.bindGeneration serial).ax = s.ax := by
  unfold State.bindGeneration
  repeat' split
  all_goals simp

@[simp] theorem State.startScan_calm (serial : Word) (ready : HeadSet) (s : State) :
    (s.startScan serial ready).dt.state = s.dt.state ∧ (s.startScan serial ready).ax = s.ax := by
  unfold State.startScan
  simp

@[simp] theorem State.zoneEntry_calm (g : Geometry) (ready : HeadSet) (s : State) :
    (s.zoneEntry g ready).dt.state = s.dt.state ∧ (s.zoneEntry g ready).ax = s.ax := by
  unfold State.zoneEntry
  repeat' split
  all_goals simp

@[simp] theorem State.sendBeats_calm (tag : Byte) (scan : Option Density) (ready : HeadSet) (s : State) :
    (s.sendBeats tag scan ready).dt.state = s.dt.state ∧ (s.sendBeats tag scan ready).ax = s.ax := by
  unfold State.sendBeats
  exact State.each_calm (List.range' 1 8) _ (fun n s => by split <;> simp) s

@[simp] theorem State.sendStep_calm (s : State) :
    (s.sendStep).dt.state = s.dt.state ∧ (s.sendStep).ax = s.ax := by
  unfold State.sendStep
  simp

@[simp] theorem State.alignBeat_calm (g : Geometry) (ready : HeadSet) (s : State) :
    (s.alignBeat g ready).dt.state = s.dt.state ∧ (s.alignBeat g ready).ax = s.ax := by
  unfold State.alignBeat
  dsimp only
  repeat' split
  all_goals simp

@[simp] theorem State.scanStage_calm (g : Geometry) (s : State) :
    (s.scanStage g).dt.state = s.dt.state ∧ (s.scanStage g).ax = s.ax := by
  unfold State.scanStage
  simp

@[simp] theorem State.answerStep_calm (seen : Bool) (s : State) :
    (s.answerStep seen).dt.state = s.dt.state ∧ (s.answerStep seen).ax = s.ax := by
  unfold State.answerStep
  dsimp only
  repeat' split
  all_goals simp

@[simp] theorem State.takeEcho_calm (seen : Bool) (s : State) :
    (s.takeEcho seen).dt.state = s.dt.state ∧ (s.takeEcho seen).ax = s.ax := by
  unfold State.takeEcho
  repeat' split
  all_goals simp

@[simp] theorem State.answerStatus_calm (head : Nat) (s : State) :
    (s.answerStatus head).dt.state = s.dt.state ∧ (s.answerStatus head).ax = s.ax := by
  unfold State.answerStatus
  repeat' split
  all_goals simp

@[simp] theorem State.takeStatus_calm (head : Nat) (identity condition clock : Word) (s : State) :
    (s.takeStatus head identity condition clock).dt.state = s.dt.state ∧ (s.takeStatus head identity condition clock).ax = s.ax := by
  unfold State.takeStatus
  repeat' split
  all_goals simp

@[simp] theorem State.takeBad_calm (head : Nat) (s : State) :
    (s.takeBad head).dt.state = s.dt.state ∧ (s.takeBad head).ax = s.ax := by
  unfold State.takeBad
  dsimp only
  repeat' split
  all_goals simp

@[simp] theorem State.takeGoodReport_calm (head : Nat) (r : HeadReport) (s : State) :
    (s.takeGoodReport head r).dt.state = s.dt.state ∧ (s.takeGoodReport head r).ax = s.ax := by
  unfold State.takeGoodReport
  dsimp only
  repeat' split
  all_goals simp

@[simp] theorem State.takeReport_calm (head : Nat) (r : HeadReport) (s : State) :
    (s.takeReport head r).dt.state = s.dt.state ∧ (s.takeReport head r).ax = s.ax := by
  unfold State.takeReport
  repeat' split
  all_goals simp

@[simp] theorem State.takeEchoFrame_calm (head : Nat) (seen : Bool) (s : State) :
    (s.takeEchoFrame head seen).dt.state = s.dt.state ∧ (s.takeEchoFrame head seen).ax = s.ax := by
  unfold State.takeEchoFrame
  dsimp only
  repeat' split
  all_goals simp

@[simp] theorem State.silence_calm (head : Nat) (s : State) :
    (s.silence head).dt.state = s.dt.state ∧ (s.silence head).ax = s.ax := by
  unfold State.silence
  repeat' split
  all_goals simp

@[simp] theorem State.wakeExpires_calm (head : Nat) (s : State) :
    (s.wakeExpires head).dt.state = s.dt.state ∧ (s.wakeExpires head).ax = s.ax := by
  unfold State.wakeExpires
  repeat' split
  all_goals simp

@[simp] theorem State.expireStandby_calm (s : State) :
    (s.expireStandby).dt.state = s.dt.state ∧ (s.expireStandby).ax = s.ax := by
  unfold State.expireStandby
  repeat' split
  all_goals simp

/-! ### Logs -/

@[simp] theorem State.tallyLog_calm (area : Area) (r : LogRecord) (s : State) :
    (s.tallyLog area r).dt.state = s.dt.state ∧ (s.tallyLog area r).ax = s.ax := by
  unfold State.tallyLog
  repeat' split
  all_goals simp

@[simp] theorem State.queueLog_calm (area : Area) (r : LogRecord) (s : State) :
    (s.queueLog area r).dt.state = s.dt.state ∧ (s.queueLog area r).ax = s.ax := by
  unfold State.queueLog
  repeat' split
  all_goals simp

@[simp] theorem State.takeLog_calm (r : LogReport) (s : State) :
    (s.takeLog r).dt.state = s.dt.state ∧ (s.takeLog r).ax = s.ax := by
  unfold State.takeLog
  repeat' split
  all_goals simp

@[simp] theorem State.takeLogBad_calm (s : State) :
    (s.takeLogBad).dt.state = s.dt.state ∧ (s.takeLogBad).ax = s.ax := by
  unfold State.takeLogBad
  dsimp only
  repeat' split
  all_goals simp [State.onLogLink]

@[simp] theorem State.takeLogReport_calm (r : LogReport) (s : State) :
    (s.takeLogReport r).dt.state = s.dt.state ∧ (s.takeLogReport r).ax = s.ax := by
  unfold State.takeLogReport
  repeat' split
  all_goals simp [State.onLogLink]

/-! ### Rules, overrides, keys, solves -/

@[simp] theorem State.completeStaging_calm (s : State) :
    (s.completeStaging).dt.state = s.dt.state ∧ (s.completeStaging).ax = s.ax := by
  unfold State.completeStaging
  dsimp only
  repeat' split
  all_goals simp

@[simp] theorem State.trimAccepted_calm (p : Piece) (s : State) :
    (s.trimAccepted p).dt.state = s.dt.state ∧ (s.trimAccepted p).ax = s.ax := by
  unfold State.trimAccepted
  repeat' split
  all_goals simp

@[simp] theorem State.acceptOverride_calm (kind : OverrideKind) (source : Source) (authority : Bool) (p : Piece) (s : State) :
    (s.acceptOverride kind source authority p).dt.state = s.dt.state ∧ (s.acceptOverride kind source authority p).ax = s.ax := by
  unfold State.acceptOverride
  repeat' split
  all_goals simp

@[simp] theorem State.countTake_calm (source : Source) (answer : Result) (s : State) :
    (s.countTake source answer).dt.state = s.dt.state ∧ (s.countTake source answer).ax = s.ax := by
  unfold State.countTake
  repeat' split
  all_goals simp

@[simp] theorem State.resolve_calm (tag : Byte) (kind : OverrideKind) (source : Source) (authority : Bool) (s : State) :
    (s.resolve tag kind source authority).dt.state = s.dt.state ∧ (s.resolve tag kind source authority).ax = s.ax := by
  unfold State.resolve
  repeat' split
  all_goals simp

@[simp] theorem State.light_calm (n : Nat) (key : BitVec 4) (tag : Option Byte) (answer : Result) (serial : Option Word) (s : State) :
    (s.light n key tag answer serial).dt.state = s.dt.state ∧ (s.light n key tag answer serial).ax = s.ax := by
  unfold State.light
  simp

@[simp] theorem State.takeKey_calm (n : Nat) (s : State) :
    (s.takeKey n).dt.state = s.dt.state ∧ (s.takeKey n).ax = s.ax := by
  unfold State.takeKey
  repeat' split
  all_goals simp

@[simp] theorem State.refusePress_calm (n : Nat) (key : BitVec 4) (tag : Option Byte) (answer : Result) (s : State) :
    (s.refusePress n key tag answer).dt.state = s.dt.state ∧ (s.refusePress n key tag answer).ax = s.ax := by
  unfold State.refusePress
  simp

@[simp] theorem State.pressKey_calm (n : Nat) (key : BitVec 4) (authority : Bool) (s : State) :
    (s.pressKey n key authority).dt.state = s.dt.state ∧ (s.pressKey n key authority).ax = s.ax := by
  unfold State.pressKey
  dsimp only
  repeat' split
  all_goals simp

@[simp] theorem State.endPulse_calm (n : Nat) (s : State) :
    (s.endPulse n).dt.state = s.dt.state ∧ (s.endPulse n).ax = s.ax := by
  unfold State.endPulse
  repeat' split
  all_goals simp

@[simp] theorem State.discardSolve_calm (serial : Word) (s : State) :
    (s.discardSolve serial).dt.state = s.dt.state ∧ (s.discardSolve serial).ax = s.ax := by
  unfold State.discardSolve
  simp

@[simp] theorem State.keepResult_calm (c : Solve) (r : SolveResult) (s : State) :
    (s.keepResult c r).dt.state = s.dt.state ∧ (s.keepResult c r).ax = s.ax := by
  unfold State.keepResult
  repeat' split
  all_goals simp

@[simp] theorem State.completeSolve_calm (s : State) :
    (s.completeSolve).dt.state = s.dt.state ∧ (s.completeSolve).ax = s.ax := by
  unfold State.completeSolve
  repeat' split
  all_goals simp

@[simp] theorem State.settleDeadline_calm (p : Piece) (s : State) :
    (s.settleDeadline p).dt.state = s.dt.state ∧ (s.settleDeadline p).ax = s.ax := by
  unfold State.settleDeadline
  simp

@[simp] theorem State.handOver_calm (p : Piece) (s : State) :
    (s.handOver p).dt.state = s.dt.state ∧ (s.handOver p).ax = s.ax := by
  unfold State.handOver
  split
  · exact ⟨rfl, rfl⟩
  · exact State.each_calm _ _ (fun i s => by split <;> simp) s

/-! ### The map -/

@[simp] theorem State.admitBoard_calm (area : Area) (handLoaded : Bool) (s : State) :
    (s.admitBoard area handLoaded).dt.state = s.dt.state ∧ (s.admitBoard area handLoaded).ax = s.ax := by
  unfold State.admitBoard
  simp

@[simp] theorem State.markStranger_calm (station : Nat) (s : State) :
    (s.markStranger station).dt.state = s.dt.state ∧ (s.markStranger station).ax = s.ax := by
  unfold State.markStranger
  simp

@[simp] theorem State.offerLug_calm (wood : Bool) (s : State) :
    (s.offerLug wood).dt.state = s.dt.state ∧ (s.offerLug wood).ax = s.ax := by
  unfold State.offerLug
  repeat' split
  all_goals simp

@[simp] theorem State.checkEnd_calm (g : Geometry) (wood : Bool) (s : State) :
    (s.checkEnd g wood).dt.state = s.dt.state ∧ (s.checkEnd g wood).ax = s.ax := by
  unfold State.checkEnd
  repeat' split
  all_goals simp

@[simp] theorem State.checkLoader_calm (wood : Bool) (s : State) :
    (s.checkLoader wood).dt.state = s.dt.state ∧ (s.checkLoader wood).ax = s.ax := by
  unfold State.checkLoader
  repeat' split
  all_goals simp

@[simp] theorem State.dropNinth_calm (s : State) :
    (s.dropNinth).dt.state = s.dt.state ∧ (s.dropNinth).ax = s.ax := by
  unfold State.dropNinth
  repeat' split
  all_goals simp

@[simp] theorem State.leaveRunning_calm (s : State) :
    (s.leaveRunning).dt.state = s.dt.state ∧ (s.leaveRunning).ax = s.ax := by
  unfold State.leaveRunning
  simp

@[simp] theorem State.startStandby_calm (s : State) :
    (s.startStandby).dt.state = s.dt.state ∧ (s.startStandby).ax = s.ax := by
  unfold State.startStandby
  simp

@[simp] theorem State.wakeLine_calm (s : State) :
    (s.wakeLine).dt.state = s.dt.state ∧ (s.wakeLine).ax = s.ax := by
  unfold State.wakeLine
  dsimp only
  repeat' split
  all_goals simp

@[simp] theorem State.reportDeck_calm (old new : DeckState) (s : State) :
    (s.reportDeck old new).dt.state = s.dt.state ∧ (s.reportDeck old new).ax = s.ax := by
  unfold State.reportDeck
  repeat' split
  all_goals simp

@[simp] theorem State.completeClearing_calm (area : Area) (s : State) :
    (s.completeClearing area).dt.state = s.dt.state ∧ (s.completeClearing area).ax = s.ax := by
  unfold State.completeClearing
  simp only []
  split <;> simp [State.zeroThrough]

/-! ### Registers and the e-stop input -/

@[simp] theorem State.resetPort_calm (s : State) :
    (s.resetPort).dt.state = s.dt.state ∧ (s.resetPort).ax = s.ax := ⟨rfl, rfl⟩

@[simp] theorem State.clearNotice_calm (value : Word) (s : State) :
    (s.clearNotice value).dt.state = s.dt.state ∧ (s.clearNotice value).ax = s.ax := ⟨rfl, rfl⟩

@[simp] theorem State.writeMask_calm (value : Word) (s : State) :
    (s.writeMask value).dt.state = s.dt.state ∧ (s.writeMask value).ax = s.ax := ⟨rfl, rfl⟩

@[simp] theorem State.configurePort_calm (port : Bool) (s : State) :
    (s.configurePort port).dt.state = s.dt.state ∧ (s.configurePort port).ax = s.ax := ⟨rfl, rfl⟩

@[simp] theorem State.readResetCause_calm (s : State) :
    (s.readResetCause).dt.state = s.dt.state ∧ (s.readResetCause).ax = s.ax := ⟨rfl, rfl⟩

@[simp] theorem State.releaseEstop_calm (s : State) :
    (s.releaseEstop).dt.state = s.dt.state ∧ (s.releaseEstop).ax = s.ax := ⟨rfl, rfl⟩

/-! ### Requests -/

@[simp] theorem State.drainRun_calm (area : Area) (reason : CloseReason) (s : State) :
    (s.drainRun area reason).dt.state = s.dt.state ∧ (s.drainRun area reason).ax = s.ax := by
  unfold State.drainRun
  simp

@[simp] theorem State.startRun_calm (area : Area) (number : Nat) (label : Word) (s : State) :
    (s.startRun area number label).dt.state = s.dt.state ∧ (s.startRun area number label).ax = s.ax := by
  unfold State.startRun
  simp

@[simp] theorem State.openRunIn_calm (area : Area) (label : Word) (s : State) :
    (s.openRunIn area label).dt.state = s.dt.state ∧ (s.openRunIn area label).ax = s.ax := by
  unfold State.openRunIn
  dsimp only
  repeat' split
  all_goals simp

@[simp] theorem State.serveHoldLoader_calm (r : Request) (s : State) :
    (s.serveHoldLoader r).dt.state = s.dt.state ∧ (s.serveHoldLoader r).ax = s.ax := by
  simp [State.serveHoldLoader, State.setHostHold]

@[simp] theorem State.serveReleaseLoader_calm (r : Request) (s : State) :
    (s.serveReleaseLoader r).dt.state = s.dt.state ∧ (s.serveReleaseLoader r).ax = s.ax := by
  simp [State.serveReleaseLoader, State.setHostHold]

@[simp] theorem State.serveQueryLug_calm (r : Request) (s : State) :
    (s.serveQueryLug r).dt.state = s.dt.state ∧ (s.serveQueryLug r).ax = s.ax := by
  unfold State.serveQueryLug
  simp

@[simp] theorem State.serveEnableHead_calm (r : Request) (s : State) :
    (s.serveEnableHead r).dt.state = s.dt.state ∧ (s.serveEnableHead r).ax = s.ax := by
  unfold State.serveEnableHead
  dsimp only
  repeat' split
  all_goals simp

@[simp] theorem State.serveDisableHead_calm (r : Request) (s : State) :
    (s.serveDisableHead r).dt.state = s.dt.state ∧ (s.serveDisableHead r).ax = s.ax := by
  unfold State.serveDisableHead
  dsimp only
  repeat' split
  all_goals simp

@[simp] theorem State.serveAlignHead_calm (r : Request) (s : State) :
    (s.serveAlignHead r).dt.state = s.dt.state ∧ (s.serveAlignHead r).ax = s.ax := by
  unfold State.serveAlignHead
  dsimp only
  repeat' split
  all_goals simp

@[simp] theorem State.serveCancelAlign_calm (r : Request) (s : State) :
    (s.serveCancelAlign r).dt.state = s.dt.state ∧ (s.serveCancelAlign r).ax = s.ax := by
  unfold State.serveCancelAlign
  repeat' split
  all_goals simp

@[simp] theorem State.serveActivateRules_calm (r : Request) (s : State) :
    (s.serveActivateRules r).dt.state = s.dt.state ∧ (s.serveActivateRules r).ax = s.ax := by
  unfold State.serveActivateRules
  dsimp only
  repeat' split
  all_goals simp

@[simp] theorem State.serveRemoteOverride_calm (r : Request) (s : State) :
    (s.serveRemoteOverride r).dt.state = s.dt.state ∧ (s.serveRemoteOverride r).ax = s.ax := by
  unfold State.serveRemoteOverride
  repeat' split
  all_goals simp

@[simp] theorem State.serveOpenRun_calm (r : Request) (s : State) :
    (s.serveOpenRun r).dt.state = s.dt.state ∧ (s.serveOpenRun r).ax = s.ax := by
  unfold State.serveOpenRun
  dsimp only
  repeat' split
  all_goals simp

@[simp] theorem State.serveCloseRun_calm (r : Request) (s : State) :
    (s.serveCloseRun r).dt.state = s.dt.state ∧ (s.serveCloseRun r).ax = s.ax := by
  unfold State.serveCloseRun
  repeat' split
  all_goals simp

@[simp] theorem State.serveReleaseArea_calm (r : Request) (s : State) :
    (s.serveReleaseArea r).dt.state = s.dt.state ∧ (s.serveReleaseArea r).ax = s.ax := by
  unfold State.serveReleaseArea
  repeat' split
  all_goals simp

@[simp] theorem State.serveUnknownKind_calm (r : Request) (s : State) :
    (s.serveUnknownKind r).dt.state = s.dt.state ∧ (s.serveUnknownKind r).ax = s.ax := by
  unfold State.serveUnknownKind
  simp


end Sys2Proof.Machine
end

section
/-! SUPPORT. In FAULTED nothing is driven (R131), after every step: how each operation that moves the deck state or AX keeps
the outputs UP, the gates at rest and the window entries RELEASED. -/

open Sys2Proof

namespace Sys2Proof.Machine

/-! ## Nothing driven -/

/-- No saw is driven, no gate pulses, and every window entry is RELEASED with an empty command. -/
def Actuation.AtRest (ax : Actuation) : Prop :=
  ax.sawOut = 0 ∧ (∀ b ∈ ax.bins, b.pulsing = false) ∧ ∀ w ∈ ax.window, w.command = 0 ∧ w.issued = false

/-- In FAULTED nothing is driven. -/
def State.Quiet (s : State) : Prop := s.dt.state = .faulted → s.ax.AtRest

theorem Actuation.releaseAll_atRest (ax : Actuation) : ax.releaseAll.AtRest := by
  refine ⟨rfl, ?_, ?_⟩
  · intro b hb
    obtain ⟨x, _, rfl⟩ := List.mem_map.mp hb
    rfl
  · intro w hw
    obtain ⟨x, _, rfl⟩ := List.mem_map.mp hw
    exact ⟨rfl, rfl⟩

/-- A bin changed in a way that starts no pulse. -/
theorem Actuation.AtRest.modifyBin {ax : Actuation} (h : ax.AtRest) (i : Nat) {f : Bin → Bin}
    (hf : ∀ b, b.pulsing = false → (f b).pulsing = false) : ({ ax with bins := ax.bins.modify i f } : Actuation).AtRest := by
  obtain ⟨hout, hbins, hwindow⟩ := h
  refine ⟨hout, fun b hb => ?_, hwindow⟩
  rcases mem_modify hb with hb | ⟨y, hy, rfl⟩
  · exact hbins b hb
  · exact hf y (hbins y (List.mem_of_getElem? hy))

/-- Window entries changed in a way that keeps them RELEASED and empty. -/
theorem Actuation.AtRest.mapWindow {ax : Actuation} (h : ax.AtRest) {f : WindowEntry → WindowEntry}
    (hf : ∀ w, w.command = 0 ∧ w.issued = false → (f w).command = 0 ∧ (f w).issued = false) :
    ({ ax with window := ax.window.map f } : Actuation).AtRest := by
  obtain ⟨hout, hbins, hwindow⟩ := h
  refine ⟨hout, hbins, fun w hw => ?_⟩
  obtain ⟨x, hx, rfl⟩ := List.mem_map.mp hw
  exact hf x (hwindow x hx)

/-- In FAULTED no bin can take a board (R139). -/
theorem State.binAvailable_faulted {s : State} (b : Nat) (h : s.dt.state = .faulted) : s.binAvailable b = false := by
  unfold State.binAvailable Bin.available
  rw [h]
  cases s.ax.bins[b - 1]? <;> simp

/-- A bin that cannot take a board is dropped into by no piece (R140). -/
theorem binAction_unavailable (g : Geometry) (b : Nat) (c : CommitPart) : binAction g false b c ≠ .drop := by
  unfold binAction
  repeat' split
  all_goals simp_all

theorem Bin.test_pulsing {action : BinAction} (b : Bin) (h : action ≠ .drop) : (b.test action).pulsing = b.pulsing := by
  cases action with
  | drop => exact absurd rfl h
  | nothing | alternate bin | fallout => rfl

/-- A change of the deck state enters it, and the entry into FAULTED releases AX (R17, R131). -/
theorem State.setDeck_drives (new : DeckState) (s : State) (h : s.dt.state ≠ new) :
    (s.setDeck new).dt.state = new
    ∧ (s.setDeck new).ax = if new = .faulted then s.ax.releaseAll else s.ax := by
  unfold State.setDeck
  rw [if_neg h]
  dsimp only
  by_cases hrun : new = .running
  · subst hrun
    rw [if_pos rfl]
    split <;> split <;> simp
  · rw [if_neg hrun]
    split <;> split <;> split <;> simp

namespace State.Quiet

variable {s t : State}

theorem calm (h : s.Quiet) (same : t.dt.state = s.dt.state ∧ t.ax = s.ax) : t.Quiet := by
  obtain ⟨hstate, hax⟩ := same
  intro hf
  rw [hax]
  exact h (hstate.symm.trans hf)

/-- The deck state stays, and AX is at rest where it was. -/
theorem rest (h : s.Quiet) (state : t.dt.state = s.dt.state) (ax : s.ax.AtRest → t.ax.AtRest) : t.Quiet :=
  fun hf => ax (h (state.symm.trans hf))

theorem of_ne (state : t.dt.state ≠ .faulted) : t.Quiet := fun hf => absurd hf state

theorem each {α : Type} (l : List α) (f : α → State → State) (hf : ∀ x s, s.Quiet → (f x s).Quiet) (h : s.Quiet) :
    (s.each l f).Quiet := by
  unfold State.each
  induction l generalizing s with
  | nil => exact h
  | cons x rest ih => exact ih (hf x s h)

theorem onBin (h : s.Quiet) (b : Nat) {f : Bin → Bin} (hf : ∀ x, x.pulsing = false → (f x).pulsing = false) :
    (s.onBin b f).Quiet := by
  refine h.rest rfl (fun hr => ?_)
  rw [State.onBin_ax]
  split
  · exact hr
  · exact hr.modifyBin _ hf

theorem endGate (h : s.Quiet) (b : Nat) : (s.endGate b).Quiet := h.onBin b (fun _ _ => rfl)

theorem setFull (h : s.Quiet) (b : Nat) (level : Bool) : (s.setFull b level).Quiet := h.onBin b (fun _ hx => hx)

theorem onDt (h : s.Quiet) (f : Deck → Deck) (state : (f s.dt).state = s.dt.state) : (s.onDt f).Quiet :=
  h.calm ⟨state, rfl⟩

theorem onSaw (h : s.Quiet) (k : Nat) (f : Saw → Saw) : (s.onSaw k f).Quiet := h.rest rfl id

/-! ## The lock set and the cut check -/

theorem joinLock (h : s.Quiet) (saws : SawSet) : (s.joinLock saws).Quiet := by
  unfold State.joinLock
  split
  · exact h
  · refine calm (h.rest (t := s.onAx _) rfl (fun hr => ?_)) (State.each_calm _ _ (fun n s => s.joinQueue_calm n) _)
    have hout : s.ax.sawOut &&& ~~~saws = 0 := by rw [hr.1]; exact BitVec.zero_and
    exact ⟨hout, (hr.mapWindow (f := WindowEntry.without saws) fun w hw =>
      ⟨by simp [WindowEntry.without, hw.1], hw.2⟩).2⟩

theorem lockSaw (h : s.Quiet) (k : Nat) : (s.lockSaw k).Quiet := by
  unfold State.lockSaw
  dsimp only
  split
  · exact (h.onSaw k _).joinLock _
  · exact h.onSaw k _

theorem faultSaws (h : s.Quiet) (saws : SawSet) : (s.faultSaws saws).Quiet :=
  have hmarked : (s.each (members 20 saws) (fun k s =>
      s.onSaw k (fun w => { w with fault := true, mismatches := w.mismatches + 1 }))).Quiet :=
    h.each _ _ (fun k _ h => h.onSaw k _)
  (hmarked.calm (by simp)).joinLock _

theorem applyCut (h : s.Quiet) (p : Option Piece) (action : CutAction) : (s.applyCut p action).Quiet := by
  unfold State.applyCut
  split
  · rename_i result _ _ _
    exact h.rest rfl (fun hr => by cases result <;> exact hr)
  · exact h

theorem checkCut (h : s.Quiet) (g : Geometry) (feedback : SawSet) : (s.checkCut g feedback).Quiet :=
  (h.applyCut _ _).faultSaws _

/-! ## Sorting -/

/-- A gate pulse starts only at a bin that can take a board, and in FAULTED none can (R139). -/
theorem testBin (h : s.Quiet) (g : Geometry) (b : Nat) : (s.testBin g b).Quiet := by
  unfold State.testBin
  split
  · exact h
  · split
    · exact h
    · split
      · rename_i p _ _ _ c _ _
        split
        · dsimp only
          have hfaulted (hf : s.dt.state = .faulted) : binAction g (s.binAvailable b) b c ≠ .drop := by
            rw [State.binAvailable_faulted b hf]
            exact binAction_unavailable g b c
          split
          · rename_i hdrop
            exact of_ne (fun hf => hfaulted (by simpa using hf) hdrop)
          · rename_i hdrop
            exact (h.calm ⟨rfl, rfl⟩ : (s.onPiece p.serial _).Quiet).onBin b
              (fun x hx => (x.test_pulsing hdrop).trans hx)
        · exact h
      · exact h

theorem testBins (h : s.Quiet) (g : Geometry) : (s.testBins g).Quiet := h.each _ _ (fun b _ h => h.testBin g b)

theorem fallOut (h : s.Quiet) (g : Geometry) : (s.fallOut g).Quiet := by
  unfold State.fallOut
  split
  · exact h
  · split
    · exact (h.calm (State.sortPiece_calm ..)).rest rfl id
    · exact h

theorem checkTrim (h : s.Quiet) (g : Geometry) (wood : Bool) : (s.checkTrim g wood).Quiet := by
  unfold State.checkTrim
  split
  · exact h
  · split
    · split
      · refine calm (h.rest (t := s.releaseTag _) rfl (fun hr => hr.mapWindow fun w hw => ?_)) (State.losePiece_calm _ _)
        split
        · exact ⟨rfl, rfl⟩
        · exact hw
      · exact h
    · split
      · exact h.calm (by simp)
      · exact h

theorem sortStage (h : s.Quiet) (g : Geometry) (advancing : Bool) (eyes : Eyes) :
    (s.sortStage g advancing eyes).Quiet := by
  have hq := (h.fallOut g).testBins g
  unfold State.sortStage
  dsimp only
  split
  · exact (hq.calm (State.checkEnd_calm ..)).checkTrim g eyes.trim
  · exact hq

/-! ## Commit and issue -/

theorem commitAt (h : s.Quiet) (g : Geometry) : (s.commitAt g).Quiet := by
  unfold State.commitAt
  split
  · exact h
  · split
    · exact h.rest (by simp) (fun hr => by simpa [Actuation.AtRest] using hr)
    · exact h

/-- In FAULTED the new entry is RELEASED and the outputs stay (R131). -/
theorem issue (h : s.Quiet) (g : Geometry) : (s.issue g).Quiet := by
  intro hf
  obtain ⟨hout, hbins, hwindow⟩ := h hf
  have hidle : s.dt.state.tracking = false := by rw [show s.dt.state = .faulted from hf]; rfl
  unfold State.issue
  simp only [hidle]
  refine ⟨hout, hbins, fun w hw => ?_⟩
  rcases List.mem_cons.mp hw with rfl | hw
  · exact ⟨rfl, rfl⟩
  · exact hwindow w (List.mem_of_mem_take hw)

theorem stationActions (h : s.Quiet) (g : Geometry) (offered advancing : Bool) (eyes : Eyes) (feedback : SawSet) :
    (s.stationActions g offered advancing eyes feedback).Quiet := by
  have hoffered : (if offered then s.offerLug eyes.loader else s).Quiet := by
    split
    · exact h.calm (State.offerLug_calm ..)
    · exact h
  unfold State.stationActions
  exact ((((hoffered.checkCut g feedback).sortStage g advancing eyes).commitAt g).issue g).calm (by simp)

theorem checkRestart (h : s.Quiet) (g : Geometry) (eyes : Eyes) : (s.checkRestart g eyes).Quiet := by
  have hend : ((s.onDt (fun d => { d with restartPending := false })).checkEnd g eyes.deckEnd).Quiet :=
    h.calm (by simp)
  exact (hend.checkTrim g eyes.trim).calm (State.checkLoader_calm ..)

theorem takeForward (h : s.Quiet) (g : Geometry) (eyes : Eyes) (feedback : SawSet) (restart : Eyes) :
    (s.takeForward g eyes feedback restart).Quiet := by
  have hchecked : (if s.dt.restartPending then s.checkRestart g restart else s).Quiet := by
    split
    · exact h.checkRestart g restart
    · exact h
  unfold State.takeForward
  exact (hchecked.calm ⟨rfl, rfl⟩ : State.Quiet ((State.clearStall _).onDt Deck.forward)).stationActions g _ _ eyes feedback

theorem turnEncoder (h : s.Quiet) (turn encoder : Int) (beat : Geometry → State → State)
    (hbeat : ∀ g s, s.Quiet → (beat g s).Quiet) : (s.turnEncoder turn beat encoder).Quiet := by
  have hm : (s.onDt (fun d => { d with encoder := encoder })).Quiet := h.calm ⟨rfl, rfl⟩
  unfold State.turnEncoder
  dsimp only
  split
  · exact hm
  · split
    · exact hm
    · split
      · exact hbeat _ _ hm
      · exact h

/-! ## The deck state -/

/-- The entry into FAULTED releases everything (R131). -/
theorem setDeck (h : s.Quiet) (new : DeckState) : (s.setDeck new).Quiet := by
  by_cases hsame : s.dt.state = new
  · rwa [State.setDeck, if_pos hsame]
  · obtain ⟨hstate, hax⟩ := s.setDeck_drives new hsame
    intro hf
    rw [hax, if_pos (hstate.symm.trans hf)]
    exact s.ax.releaseAll_atRest

theorem addCause (h : s.Quiet) (c : CauseName) : (s.addCause c).Quiet := by
  unfold State.addCause
  split
  · exact (h.calm (by simp) : (State.notify .fault (s.onDt _)).Quiet).setDeck _
  · exact h

theorem takeBack (h : s.Quiet) (g : Geometry) (restart : Option Eyes) : (s.takeBack g restart).Quiet := by
  have hmoved : (((s.clearStall).onDt Deck.backward).dropNinth).Quiet :=
    (h.calm ⟨rfl, rfl⟩ : (s.clearStall.onDt Deck.backward).Quiet).calm (State.dropNinth_calm _)
  have hreleased : (((((s.clearStall).onDt Deck.backward).dropNinth).backRelease g).suspendSearch).Quiet := by
    refine (hmoved.rest (t := State.backRelease g _) rfl (fun hr => ⟨rfl, hr.2.1, fun w hw => ?_⟩)).calm (by simp)
    obtain ⟨l, _, rfl⟩ := List.mem_map.mp hw
    exact ⟨rfl, rfl⟩
  have htested : (((((s.clearStall).onDt Deck.backward).dropNinth).backRelease g).suspendSearch).testReverse.Quiet := by
    unfold State.testReverse
    split
    · exact hreleased.addCause .reverse
    · exact hreleased
  unfold State.takeBack State.restartAfterBack
  dsimp only
  split
  · split
    · exact htested.checkRestart g _
    · exact htested
  · exact htested

theorem changeRunLine (h : s.Quiet) (up : Bool) : (s.changeRunLine up).Quiet := by
  unfold State.changeRunLine State.runLineUp State.runLineDown
  dsimp only
  split
  · exact h
  · split
    · split
      · exact (h.onDt _ rfl).setDeck _
      · exact h.calm ⟨rfl, rfl⟩
    · split
      · exact (h.calm ⟨rfl, rfl⟩ : State.Quiet (State.clearStall (s.onDt _))).setDeck _
      · exact h.calm ⟨rfl, rfl⟩

theorem assertEstop (h : s.Quiet) : s.assertEstop.Quiet := by
  unfold State.assertEstop
  split
  · exact h
  · exact (h.onDt _ rfl).addCause _

theorem expireStall (h : s.Quiet) : s.expireStall.Quiet := by
  unfold State.expireStall
  split
  · exact h.addCause _
  · exact h

theorem settleRestart (h : s.Quiet) (eyes : Eyes) : (s.settleRestart eyes).Quiet := by
  unfold State.settleRestart
  split
  · split
    · exact h.checkRestart _ eyes
    · exact h
  · exact h

/-- A line reset leaves the deck UNCONFIGURED. -/
theorem lineReset : s.lineReset.Quiet := of_ne (by rw [State.lineReset_dt]; exact DeckState.noConfusion)

theorem writeExchCtl (h : s.Quiet) (value : Word) : (s.writeExchCtl value).Quiet := by
  unfold State.writeExchCtl
  dsimp only
  split
  · exact lineReset
  · exact h.calm ⟨rfl, rfl⟩

theorem writeRegister (h : s.Quiet) (offset : Nat) (value : Word) : (s.writeRegister offset value).Quiet := by
  unfold State.writeRegister
  split
  · exact h.writeExchCtl value
  · split
    · exact h.calm ⟨rfl, rfl⟩
    · split
      · exact h.calm ⟨rfl, rfl⟩
      · exact h

/-! ## Requests and the sweep -/

theorem reply (h : s.Quiet) (r : Request) (result : Result) (detail : Word) (area : List Byte) :
    (s.reply r result detail area).Quiet := h.calm (by simp)

theorem serveSetGeometry (h : s.Quiet) (r : Request) : (s.serveSetGeometry r).Quiet := by
  unfold State.serveSetGeometry
  dsimp only
  split
  · split
    · exact h.reply _ _ _ _
    · exact ((h.onDt _ rfl).setDeck _).reply _ _ _ _
  · exact h.reply _ _ _ _

theorem serveStartLine (h : s.Quiet) (r : Request) : (s.serveStartLine r).Quiet := by
  unfold State.serveStartLine
  split
  · exact ((h.onDt _ rfl).setDeck _).reply _ _ _ _
  · exact h.reply _ _ _ _

theorem serveResume (h : s.Quiet) (r : Request) : (s.serveResume r).Quiet := by
  unfold State.serveResume
  split
  · split
    · exact ((h.onDt _ rfl).setDeck _).reply _ _ _ _
    · exact h.reply _ _ _ _
  · exact h.reply _ _ _ _

theorem serveLockSaw (h : s.Quiet) (r : Request) : (s.serveLockSaw r).Quiet := by
  unfold State.serveLockSaw
  dsimp only
  split
  · exact h.reply _ _ _ _
  · exact (h.lockSaw _).reply _ _ _ _

theorem serveUnlockSaw (h : s.Quiet) (r : Request) : (s.serveUnlockSaw r).Quiet := by
  unfold State.serveUnlockSaw
  dsimp only
  split
  · exact h.reply _ _ _ _
  · exact (h.onSaw _ _).reply _ _ _ _

theorem serveSetBin (h : s.Quiet) (r : Request) : (s.serveSetBin r).Quiet := by
  unfold State.serveSetBin
  dsimp only
  split
  · have hclosed : (s.onBin (r.byte 0x10) (fun x => { x with closed := decide (r.byte 0x11 = 1) })).Quiet :=
      h.onBin _ (fun _ hx => hx)
    exact hclosed.reply _ _ _ _
  · exact h.reply _ _ _ _

theorem serve (h : s.Quiet) (kind : Option ReqKind) (r : Request) : (s.serve kind r).Quiet := by
  cases kind with
  | none => exact h.calm (State.serveUnknownKind_calm ..)
  | some k =>
    cases k with
    | setGeometry => exact h.serveSetGeometry r
    | startLine => exact h.serveStartLine r
    | resume => exact h.serveResume r
    | lockSaw => exact h.serveLockSaw r
    | unlockSaw => exact h.serveUnlockSaw r
    | setBin => exact h.serveSetBin r
    | holdLoader => exact h.calm (State.serveHoldLoader_calm ..)
    | releaseLoader => exact h.calm (State.serveReleaseLoader_calm ..)
    | queryLug => exact h.calm (State.serveQueryLug_calm ..)
    | enableHead => exact h.calm (State.serveEnableHead_calm ..)
    | disableHead => exact h.calm (State.serveDisableHead_calm ..)
    | alignHead => exact h.calm (State.serveAlignHead_calm ..)
    | cancelAlign => exact h.calm (State.serveCancelAlign_calm ..)
    | activateRules => exact h.calm (State.serveActivateRules_calm ..)
    | remoteOverride => exact h.calm (State.serveRemoteOverride_calm ..)
    | openRun => exact h.calm (State.serveOpenRun_calm ..)
    | closeRun => exact h.calm (State.serveCloseRun_calm ..)
    | releaseArea => exact h.calm (State.serveReleaseArea_calm ..)

theorem takeCell (h : s.Quiet) (kind : Option ReqKind) (cell : Nat) : (s.takeCell kind cell).Quiet :=
  (h.calm ⟨rfl, rfl⟩ : State.Quiet (State.onXi _ (s.store _ _))).serve kind _

theorem takeRow (h : s.Quiet) (kind : Option ReqKind) (cell : Nat) : (s.takeRow kind cell).Quiet := by
  unfold State.takeRow
  split
  · exact h.takeCell kind cell
  · exact h

theorem visitCell (h : s.Quiet) : s.visitCell.Quiet := by
  unfold State.visitCell
  split
  · exact h
  · split
    · exact h.takeCell _ _
    · exact h.calm ⟨rfl, rfl⟩

/-- A stopped deck that moves between the two stopped states is not FAULTED. -/
theorem syncStopped (h : s.Quiet) : s.syncStopped.Quiet := by
  unfold State.syncStopped
  split
  · refine of_ne ?_
    rw [State.notify_dt, State.onDt_dt]
    unfold stoppedNow
    dsimp only
    split <;> decide
  · exact h

theorem endEvent (h : s.Quiet) (always : Bool) (before : List Byte) : (s.endEvent always before).Quiet :=
  h.syncStopped.calm (by simp [State.endEvent])

theorem event (h : s.Quiet) (always : Bool) {f : State → State} (hf : ∀ s, s.Quiet → (f s).Quiet) :
    (s.event always f).Quiet := (hf s.clearOut (h.calm ⟨rfl, rfl⟩)).endEvent _ _

theorem visitCells (n : Nat) (h : s.Quiet) : (State.visitCells n s).Quiet := by
  induction n generalizing s with
  | zero => exact h
  | succ n ih =>
    unfold State.visitCells
    split
    · exact h
    · refine ih ?_
      unfold State.visitNext
      split
      · exact h.visitCell.endEvent _ _
      · exact h.visitCell

theorem sweepCells (h : s.Quiet) : s.sweepCells.Quiet := by
  unfold State.sweepCells State.tickSweep
  refine endEvent ?_ _ _
  split
  · exact (h.visitCells 32).calm (by simp [State.startSweep])
  · exact h.visitCells 32

theorem ofCompletes (h : s.Quiet) {always : Bool} {f : State → State} (hf : ∀ s, s.Quiet → (f s).Quiet)
    (e : completes always f s = .next t) : t.Quiet := by
  rw [completes_next e]
  exact h.event always hf

theorem ofWithHost (h : s.Quiet) {host : List HostWrite} {always : State → Bool} {f : State → State}
    (hf : ∀ s, s.Quiet → (f s).Quiet) (e : withHost host always f s = .next t) : t.Quiet := by
  rw [(withHost_next e).2]
  exact h.event _ (fun s hs => hf _ (hs.calm (State.hostWrites_calm host s)))

theorem take (h : s.Quiet) {kind : Option ReqKind} {cell : Nat} {host : List HostWrite}
    (e : exec (takeCommand kind cell host) s = .next t) : t.Quiet :=
  h.ofWithHost (fun _ h => h.takeRow kind cell) ((exec_take s kind cell host).symm.trans e)

theorem exec (h : s.Quiet) {c : Instr} (e : exec c s = .next t) : t.Quiet := by
  cases c with
  | powerOn inputs =>
    rw [exec_powerOn] at e
    cases e
    exact of_ne (show DeckState.unconfigured ≠ .faulted by decide)
  | sweep host =>
    rw [exec_sweep] at e
    split at e
    · cases e
      exact (h.calm (by simp) : (s.clearOut.hostWrites host).Quiet).sweepCells
    · cases e
  | setGeometry cell host => exact h.take (kind := some .setGeometry) e
  | startLine cell host => exact h.take (kind := some .startLine) e
  | resume cell host => exact h.take (kind := some .resume) e
  | holdLoader cell host => exact h.take (kind := some .holdLoader) e
  | releaseLoader cell host => exact h.take (kind := some .releaseLoader) e
  | queryLug cell host => exact h.take (kind := some .queryLug) e
  | enableHead cell host => exact h.take (kind := some .enableHead) e
  | disableHead cell host => exact h.take (kind := some .disableHead) e
  | alignHead cell host => exact h.take (kind := some .alignHead) e
  | cancelAlign cell host => exact h.take (kind := some .cancelAlign) e
  | activateRules cell host => exact h.take (kind := some .activateRules) e
  | remoteOverride cell host => exact h.take (kind := some .remoteOverride) e
  | lockSaw cell host => exact h.take (kind := some .lockSaw) e
  | unlockSaw cell host => exact h.take (kind := some .unlockSaw) e
  | setBin cell host => exact h.take (kind := some .setBin) e
  | openRun cell host => exact h.take (kind := some .openRun) e
  | closeRun cell host => exact h.take (kind := some .closeRun) e
  | releaseArea cell host => exact h.take (kind := some .releaseArea) e
  | unknownKind cell host => exact h.take (kind := none) e
  | stagingCompletion host =>
    exact h.ofWithHost (fun _ h => h.calm (State.completeStaging_calm _)) ((exec_stagingCompletion s host).symm.trans e)
  | clearingCompletion area host =>
    exact h.ofWithHost (fun _ h => h.calm (State.completeClearing_calm area _))
      ((exec_clearingCompletion s area host).symm.trans e)
  | lineReset value | enable value => exact h.ofCompletes (fun _ h => h.writeExchCtl value) e
  | lineResetInput => exact h.ofCompletes (fun _ _ => lineReset) e
  | registerWriteOther offset value => exact h.ofCompletes (fun _ h => h.writeRegister offset value) e
  | forwardBeat encoder eyes feedback restart =>
    exact h.ofCompletes (fun _ h => h.turnEncoder _ _ _ (fun g _ h => h.takeForward g eyes feedback restart)) e
  | backBeat encoder restart =>
    exact h.ofCompletes (fun _ h => h.turnEncoder _ _ _ (fun g _ h => h.takeBack g restart)) e
  | deckRunLineChange up => exact h.ofCompletes (fun _ h => h.changeRunLine up) e
  | estopAssert => exact h.ofCompletes (fun _ h => h.assertEstop) e
  | stallTimerExpiry => exact h.ofCompletes (fun _ h => h.expireStall) e
  | restartCheck eyes => exact h.ofCompletes (fun _ h => h.settleRestart eyes) e
  | gatePulseEnd bin => exact h.ofCompletes (fun _ h => h.endGate bin) e
  | binFullChange bin level => exact h.ofCompletes (fun _ h => h.setFull bin level) e
  | portReset => exact h.ofCompletes (fun _ h => h.calm (State.resetPort_calm _)) e
  | noticeClear value => exact h.ofCompletes (fun _ h => h.calm (State.clearNotice_calm ..)) e
  | noticeMaskWrite value port =>
    exact h.ofCompletes (fun s h => (h.calm (s.configurePort_calm port)).calm (State.writeMask_calm value _)) e
  | resetCauseRead => exact h.ofCompletes (fun _ h => h.calm (State.readResetCause_calm _)) e
  | estopRelease => exact h.ofCompletes (fun _ h => h.calm (State.releaseEstop_calm _)) e
  | headStatus head identity condition clock =>
    exact h.ofCompletes (fun _ h => h.calm (State.takeStatus_calm ..)) e
  | headReport head report => exact h.ofCompletes (fun _ h => h.calm (State.takeReport_calm ..)) e
  | alignEcho head seen => exact h.ofCompletes (fun _ h => h.calm (State.takeEchoFrame_calm ..)) e
  | badFrame head => exact h.ofCompletes (fun _ h => h.calm (State.takeBad_calm ..)) e
  | linkSilence head => exact h.ofCompletes (fun _ h => h.calm (State.silence_calm ..)) e
  | wakeTimeout head => exact h.ofCompletes (fun _ h => h.calm (State.wakeExpires_calm ..)) e
  | standbyTimerExpiry => exact h.ofCompletes (fun _ h => h.calm (State.expireStandby_calm _)) e
  | logReport report => exact h.ofCompletes (fun _ h => h.calm (State.takeLogReport_calm ..)) e
  | logBadFrame => exact h.ofCompletes (fun _ h => h.calm (State.takeLogBad_calm _)) e
  | solveCompletion => exact h.ofCompletes (fun _ h => h.calm (State.completeSolve_calm _)) e
  | keyPress station key authority => exact h.ofCompletes (fun _ h => h.calm (State.pressKey_calm ..)) e
  | lampPulseEnd station => exact h.ofCompletes (fun _ h => h.calm (State.endPulse_calm ..)) e

theorem step (h : s.Quiet) (e : step s = .next t) : t.Quiet := by
  cases hp : s.pending with
  | nil =>
    rw [step_empty hp] at e
    cases e
    unfold State.idle
    split
    · exact h.event false (fun _ h => h.visitCell)
    · exact h
  | cons c rest =>
    rw [step_front hp] at e
    exact (h.calm ⟨rfl, rfl⟩ : State.Quiet { s with pending := rest }).exec e

end State.Quiet

/-- Settles O19, by what each operation keeps at rest. -/
theorem faultedDeckDrivesNothing : Obligations.FaultedDeckDrivesNothing := fun _ _ h e => State.Quiet.step h e

end Sys2Proof.Machine
end

section
/-! SUPPORT. Requests about the heads, the search and the rules (R43, R44, R53, R61, R73): what each leaves over the state in
which its cell was handed to its owner. -/

open Sys2Proof

namespace Sys2Proof.Machine

/-! ## The take of a cell -/

@[simp] theorem State.handed_pending (cell : Nat) (m : State) : (m.handed cell).pending = m.pending := rfl
@[simp] theorem State.handed_out (cell : Nat) (m : State) : (m.handed cell).out = m.out := rfl
@[simp] theorem State.handed_dt (cell : Nat) (m : State) : (m.handed cell).dt = m.dt := rfl
@[simp] theorem State.handed_sa (cell : Nat) (m : State) : (m.handed cell).sa = m.sa := rfl
@[simp] theorem State.handed_da (cell : Nat) (m : State) : (m.handed cell).da = m.da := rfl
@[simp] theorem State.handed_rs (cell : Nat) (m : State) : (m.handed cell).rs = m.rs := rfl
@[simp] theorem State.handed_ts (cell : Nat) (m : State) : (m.handed cell).ts = m.ts := rfl
@[simp] theorem State.handed_ou (cell : Nat) (m : State) : (m.handed cell).ou = m.ou := rfl
@[simp] theorem State.handed_ax (cell : Nat) (m : State) : (m.handed cell).ax = m.ax := rfl
@[simp] theorem State.handed_tu (cell : Nat) (m : State) : (m.handed cell).tu = m.tu := rfl

section Take

variable {kind : Option ReqKind} {cell : Nat} {host : List HostWrite} {s u : State}

/-- A take whose owner replies over `u`. -/
theorem take_answers {result : Result} {detail : Word} {area : List Byte} (hw : hostInWindow host = true)
    (h : (s.met host).Comes kind cell)
    (serves : ((s.met host).handed cell).serve kind (params (s.met host) cell)
      = u.reply (params (s.met host) cell) result detail area)
    (taken : cellState u.mem cell = cellTaken) :
    AnswersAtOnce (takeCommand kind cell host) s (s.met host) cell u result detail area :=
  answersAtOnce_of_take (exec_take s kind cell host) hw h serves taken

/-- A take whose owner keeps the request in hand over `u`. -/
theorem take_keeps (hw : hostInWindow host = true) (h : (s.met host).Comes kind cell)
    (serves : ((s.met host).handed cell).serve kind (params (s.met host) cell)
      = u.keepInHand (params (s.met host) cell)) :
    KeepsInHand (takeCommand kind cell host) s (s.met host) cell u := by
  have hdoes := withHost_does (exec_take s kind cell host) hw
  rw [State.takeRow_of_comes h, serves] at hdoes
  exact hdoes

end Take

/-! ## The end of another request -/

/-- The end of a request writes into its own cell alone. -/
theorem State.endCell_cellState_other {cell other : Nat} (h : other ≠ cell) (kind : Nat) (tag : Word) (result : Result)
    (detail : Word) (area : List Byte) (s : State) :
    cellState (s.endCell other kind tag result detail area).mem cell = cellState s.mem cell := by
  by_cases ht : cellState s.mem other = cellTaken
  · have hmem : (s.endCell other kind tag result detail area).mem
        = (s.mem.splice (cellAddr other + 4) (cellResult kind tag result detail area)).splice (cellAddr other)
            (le32 cellDone) := by
      simp only [State.endCell, if_pos ht]
      rfl
    have hlen : (le32 cellDone).length = 4 := rfl
    unfold cellState
    rw [hmem, Memory.read32_splice_out _ _ _ _ (by unfold cellAddr; omega),
      Memory.read32_splice_out _ _ _ _ (by rw [cellResult_length]; unfold cellAddr; omega)]
  · rw [State.endCell_dropped _ _ _ _ _ ht]
    rfl

/-- The end of a request in hand leaves a cell that is not in hand. -/
theorem State.endInHand_cellState_of_not_held {cell : Nat} {s : State} (h : s.xi.holds cell = false) (other : Nat)
    (result : Result) (detail : Word) (area : List Byte) :
    cellState (s.endInHand other result detail area).mem cell = cellState s.mem cell := by
  unfold State.endInHand
  split
  · next held hfind =>
    refine State.endCell_cellState_other (fun hsame => ?_) ..
    have hcell : held.cell = other := by simpa using List.find?_some hfind
    have hholds : s.xi.holds cell = true :=
      List.any_eq_true.mpr ⟨held, List.mem_of_find?_eq_some hfind, by simp [hcell, hsame]⟩
    rw [hholds] at h
    cases h
  · rfl

theorem State.endSearch_cellState_of_not_held {cell : Nat} {s : State} (h : s.xi.holds cell = false)
    (cause : SearchCause) : cellState (s.endSearch cause).mem cell = cellState s.mem cell := by
  unfold State.endSearch
  split
  · rfl
  · dsimp only
    have hmem (x : State) (step : Bool) : cellState (x.enterReady s.da.head step).mem cell = cellState x.mem cell := by
      simp
    split <;> split
    · exact (hmem _ _).trans (State.endInHand_cellState_of_not_held (s := s.onHead _ _) h ..)
    · exact State.endInHand_cellState_of_not_held (s := s.onHead _ _) h ..
    · exact (hmem _ _).trans (State.endInHand_cellState_of_not_held h ..)
    · exact State.endInHand_cellState_of_not_held h ..

/-- A cell that the sweep takes is not in hand. -/
theorem State.Comes.not_held {kind : Option ReqKind} {cell : Nat} {m : State} (h : m.Comes kind cell) :
    (m.handed cell).xi.holds cell = false := by
  have htake := h.takeable
  simp only [State.takeable, Bool.and_eq_true, Bool.not_eq_true'] at htake
  exact htake.2

/-! ## Heads and the search -/

theorem headNumber_eq_false_iff (n : Nat) : headNumber n = false ↔ n < 1 ∨ 8 < n := by
  simp [headNumber]
  omega

theorem Align.searches_iff (da : Align) (n : Nat) : da.searches n = true ↔ da.search ≠ .idle ∧ da.head = n := by
  simp [Align.searches]

theorem DeckState.tracking_eq_false_iff (state : DeckState) :
    state.tracking = false ↔ state ≠ .running ∧ state ≠ .stoppedLoaded ∧ state ≠ .stoppedClear := by
  cases state <;> decide

/-- Settles O42, case by case as the owner decides. -/
theorem enableAndDisableHead : Obligations.EnableAndDisableHead := by
  constructor
  · intro cell host s hw h
    have taken := (s.met host).handed_taken cell
    dsimp only
    split
    · next hnum => exact take_answers hw h (if_pos ((headNumber_eq_false_iff _).mpr hnum)) taken
    · next hnum =>
      have hn := mt (headNumber_eq_false_iff _).mp hnum
      split
      · next hoff => exact take_answers hw h ((if_neg hn).trans (if_pos hoff)) taken
      · next hoff => exact take_answers hw h ((if_neg hn).trans (if_neg hoff)) taken
  · intro cell host s hw h
    have taken := (s.met host).handed_taken cell
    dsimp only
    split
    · next hnum => exact take_answers hw h (if_pos ((headNumber_eq_false_iff _).mpr hnum)) taken
    · next hnum =>
      have hn := mt (headNumber_eq_false_iff _).mp hnum
      have hiff := or_congr_right (a := (s.met host).sa.headState ((params (s.met host) cell).byte 0x10) = .aligning)
        ((s.met host).da.searches_iff ((params (s.met host) cell).byte 0x10))
      split
      · next hbusy => exact take_answers hw h ((if_neg hn).trans (if_pos (hiff.mpr hbusy))) taken
      · next hfree =>
        have hfree := mt hiff.mp hfree
        split
        · next hoff => exact take_answers hw h ((if_neg hn).trans ((if_neg hfree).trans (if_pos hoff))) taken
        · next hoff => exact take_answers hw h ((if_neg hn).trans ((if_neg hfree).trans (if_neg hoff))) taken

/-- Settles O43, case by case as the owner decides. -/
theorem alignHeadAndCancelAlign : Obligations.AlignHeadAndCancelAlign := by
  constructor
  · intro cell host s hw h
    have taken := (s.met host).handed_taken cell
    dsimp only
    split
    · next hnum => exact take_answers hw h (if_pos ((headNumber_eq_false_iff _).mpr hnum)) taken
    · next hnum =>
      have hn := mt (headNumber_eq_false_iff _).mp hnum
      split
      · next hbusy => exact take_answers hw h ((if_neg hn).trans (if_pos hbusy)) taken
      · next hidle =>
        split
        · next hstate =>
          have ht := (DeckState.tracking_eq_false_iff _).mpr hstate
          exact take_answers hw h ((if_neg hn).trans ((if_neg hidle).trans (if_pos ht))) taken
        · next hstate =>
          have ht := mt (DeckState.tracking_eq_false_iff _).mp hstate
          split
          · next hready =>
            exact take_answers hw h ((if_neg hn).trans ((if_neg hidle).trans ((if_neg ht).trans (if_pos hready)))) taken
          · next hready =>
            exact take_keeps hw h ((if_neg hn).trans ((if_neg hidle).trans ((if_neg ht).trans (if_neg hready))))
  · intro cell host s hw h
    have taken := (s.met host).handed_taken cell
    dsimp only
    split
    · next hidle => exact take_answers hw h (if_pos hidle) taken
    · next hsearch =>
      exact take_answers hw h (if_neg hsearch) ((State.endSearch_cellState_of_not_held h.not_held _).trans taken)

/-! ## Staging -/

section Activate

variable {r : Request} {s : State} {slot : Nat} {g : Geometry} (hbank : ¬1 < r.byte 0x10) (hstaging : s.rs.staging = none)
include hbank hstaging

theorem State.serveActivateRules_noSlot (hslot : s.rs.freeSlot = none) :
    s.serveActivateRules r = s.reply r .noSlot 0 [] := by
  simp [State.serveActivateRules, hbank, hstaging, hslot]

theorem State.serveActivateRules_noGeometry (hslot : s.rs.freeSlot = some slot) (hgeometry : s.dt.geometry = none) :
    s.serveActivateRules r = s.reply r .refusedState 0 [] := by
  simp [State.serveActivateRules, hbank, hstaging, hslot, hgeometry]

theorem State.serveActivateRules_stages (hslot : s.rs.freeSlot = some slot) (hgeometry : s.dt.geometry = some g) :
    s.serveActivateRules r = (s.onRs (fun rs => rs.stage slot (r.byte 0x10) r.cell g.sawCount)).keepInHand r := by
  simp [State.serveActivateRules, hbank, hstaging, hslot, hgeometry]

end Activate

/-- Settles O44, case by case as the owner decides. -/
theorem activateRulesBeginsStaging : Obligations.ActivateRulesBeginsStaging := by
  intro cell host s hw h
  have taken := (s.met host).handed_taken cell
  dsimp only
  split
  · next hbank => exact take_answers hw h (if_pos hbank) taken
  · next hbank =>
    split
    · next hbusy => exact take_answers hw h ((if_neg hbank).trans (if_pos (Option.isSome_iff_ne_none.mpr hbusy))) taken
    · next hidle =>
      have hstaging := Option.not_isSome_iff_eq_none.mp (mt Option.isSome_iff_ne_none.mp hidle)
      split
      · next hslot => exact take_answers hw h (State.serveActivateRules_noSlot hbank hstaging hslot) taken
      · next hslot hgeometry =>
        exact take_answers hw h (State.serveActivateRules_noGeometry hbank hstaging hslot hgeometry) taken
      · next hslot hgeometry =>
        exact take_keeps hw h (State.serveActivateRules_stages hbank hstaging hslot hgeometry)

end Sys2Proof.Machine
end

section
/-! SUPPORT. QUERY_LUG (R22): where a lug is found, and the answer for each selector. -/

open Sys2Proof

namespace Sys2Proof.Machine

/-! ## Finding a lug -/

/-- No lug of the map and none of the upstream list meets the test. -/
theorem Deck.findLug_eq_none {d : Deck} {p : Lug → Bool} (h : ∀ l ∈ d.lugs ++ d.upstream, p l = false) :
    d.findLug p = none := by
  have hlugs : lugIndex p d.lugs = none :=
    List.findIdx?_eq_none_iff.mpr fun l hl => h l (List.mem_append_left _ hl)
  have hupstream : lugIndex p d.upstream = none :=
    List.findIdx?_eq_none_iff.mpr fun l hl => h l (List.mem_append_right _ hl)
  simp only [Deck.findLug, hlugs, hupstream]

theorem Deck.piece?_eq_none {d : Deck} {serial : Word} (h : ∀ p ∈ d.pieces, p.serial ≠ serial) :
    d.piece? serial = none :=
  List.find?_eq_none.mpr fun p hp => by simpa using h p hp

/-! ## The answer -/

section Answer

variable {d : Deck} {value : Word}

theorem queryAnswer_station_out (h : 63 < value.toNat) : queryAnswer d 1 value = (.badParam, []) :=
  if_neg (Nat.not_le.mpr h)

theorem queryAnswer_station {l : Lug} (h : value.toNat ≤ 63) (hl : d.lugAt value.toNat = some l) :
    queryAnswer d 1 value = (.done, queryImage (some ((value.toNat : Int), l)) (d.pieceOf l)) := by
  simp [queryAnswer, h, hl]

theorem queryAnswer_tag_out (h : 255 < value.toNat) : queryAnswer d 2 value = (.badParam, []) :=
  if_neg (Nat.not_le.mpr h)

theorem queryAnswer_tag (h : value.toNat ≤ 255) :
    queryAnswer d 2 value = match d.lugByTag (value.setWidth 8) with
      | some (station, l) => (.done, queryImage (some (station, l)) (d.pieceOf l))
      | none => (.notFound, []) := by
  rw [← BitVec.ofNat_toNat]
  exact if_pos h

theorem queryAnswer_serial :
    queryAnswer d 3 value = match d.piece? value with
      | some p => (.done, queryImage (d.lugOfPiece value) (some p))
      | none => (.notFound, []) := rfl

theorem queryAnswer_other {selector : Nat} (h1 : selector ≠ 1) (h2 : selector ≠ 2) (h3 : selector ≠ 3) :
    queryAnswer d selector value = (.badParam, []) := by
  simp [queryAnswer, h1, h2, h3]

end Answer

/-- Settles O41: the take replies with the answer, and the answer by its selector. -/
theorem queryLugPicturesALug : Obligations.QueryLugPicturesALug := by
  constructor
  · intro cell host s hw h
    exact take_answers hw h rfl ((s.met host).handed_taken cell)
  · intro d selector value hlugs
    refine ⟨?_, ?_, ?_, ?_, ?_, ?_, ?_, queryAnswer_other⟩
    · rintro rfl hle
      have hl : d.lugAt value.toNat = some (d.lugs[value.toNat]'(by omega)) := List.getElem?_eq_getElem _
      exact ⟨_, hl, queryAnswer_station hle hl⟩
    · rintro rfl hout
      exact queryAnswer_station_out hout
    · rintro rfl hout
      exact queryAnswer_tag_out hout
    · rintro rfl hle station l hl
      exact (queryAnswer_tag hle).trans (by rw [hl])
    · rintro rfl hle hnone
      have hl : d.lugByTag (value.setWidth 8) = none := Deck.findLug_eq_none (by simpa using hnone)
      exact (queryAnswer_tag hle).trans (by rw [hl])
    · rintro rfl p hp
      exact queryAnswer_serial.trans (by rw [hp])
    · rintro rfl hnone
      exact queryAnswer_serial.trans (by rw [Deck.piece?_eq_none hnone])

end Sys2Proof.Machine
end

section
/-! SUPPORT. The requests that hold and release the loader and that run the line (R12, R17, R19). -/

open Sys2Proof

namespace Sys2Proof.Machine

/-! ## A change of the deck state writes no memory -/

@[simp] theorem State.wakeHeads_mem (s : State) : s.wakeHeads.mem = s.mem := by
  unfold State.wakeHeads
  exact State.each_same (fun s => s.mem) (List.range' 1 8) _ (fun n s => by split <;> rfl) s

@[simp] theorem State.wakeLine_mem (s : State) : s.wakeLine.mem = s.mem := by
  unfold State.wakeLine
  dsimp only
  split <;> simp

@[simp] theorem State.leaveRunning_mem (s : State) : s.leaveRunning.mem = s.mem := by simp [State.leaveRunning]

@[simp] theorem State.reportDeck_mem (old new : DeckState) (s : State) : (s.reportDeck old new).mem = s.mem := by
  unfold State.reportDeck
  dsimp only
  split <;> simp

@[simp] theorem State.startStandby_mem (s : State) : s.startStandby.mem = s.mem := rfl

@[simp] theorem State.setDeck_mem (new : DeckState) (s : State) : (s.setDeck new).mem = s.mem := by
  unfold State.setDeck
  dsimp only
  split
  · rfl
  · by_cases hrun : new = .running
    · rw [if_pos hrun]
      split <;> split <;> split <;> simp
    · rw [if_neg hrun]
      split <;> split <;> split <;> simp

/-! ## HOST in the hold set -/

/-- A take that ends at once leaves the state that its answer settles. -/
theorem AnswersAtOnce.settles {c : Instr} {s m u t : State} {cell : Nat} {result : Result} {detail : Word} {area : List Byte}
    (h : AnswersAtOnce c s m cell u result detail area) (e : exec c s = .next t) :
    ∃ v : State, v.dt = u.dt ∧ v.Settles false s.image t := by
  obtain ⟨v, t', e', answers, settles⟩ := h
  rw [e] at e'
  cases e'
  exact ⟨v, by rw [answers.rest], settles⟩

/-- HOST is the host's own: the end of an event leaves it. -/
theorem AnswersAtOnce.host {c : Instr} {s m u t : State} {cell : Nat} {result : Result} {detail : Word} {area : List Byte}
    (h : AnswersAtOnce c s m cell u result detail area) (e : exec c s = .next t) :
    t.dt.hold.host = u.dt.hold.host ∧ t.dt.gate = gateNow t.dt.state t.dt.hold := by
  obtain ⟨v, hdt, settles⟩ := h.settles e
  have hhold := congrArg (fun d : Deck => d.hold.host) settles.dt
  have hgate := congrArg (fun d : Deck => d.gate) settles.dt
  exact ⟨hhold.trans (by rw [hdt]), hgate⟩

/-! ## START_LINE and RESUME -/

/-- The causes that keep RESUME from being taken, as the detail gives them (R19). -/
theorem Causes.blocking_detail (c : Causes) :
    BitVec.ofNat 32 c.blocking
      = (if c.estop = .standing then 1 else 0) + (if c.stall = .standing then 2 else 0) := by
  unfold Causes.blocking
  cases c.estop <;> cases c.stall <;> rfl

theorem Causes.blocking_eq_zero_iff (c : Causes) : c.blocking = 0 ↔ ¬c.estop = .standing ∧ ¬c.stall = .standing := by
  unfold Causes.blocking
  cases c.estop <;> cases c.stall <;> decide

/-- A board that the loader was placing when HOST closed the gate (R11). -/
theorem State.offerLug_handLoaded {s : State} {area : Area} (honly : s.dt.hold.onlyHost = true) (hgate : s.dt.gate = false)
    (htracking : s.dt.state.tracking = true) (hfree : s.dt.pieces.length < 96)
    (hunits : 39 ≤ unreservedUnits s.dt s.tu s.xi) (hopen : s.tu.openArea = some area)
    (hactive : s.rs.activeSlot ≠ none) : s.offerLug true = s.admitBoard area true := by
  have hallowed : s.handLoadAllowed = true := by
    simp [State.handLoadAllowed, Deck.entryFree, honly, htracking, hfree, hunits, Option.isSome_iff_ne_none, hactive]
  simp [State.offerLug, hopen, hgate, hallowed]

/-- Settles O38, request by request. -/
theorem loaderAndLineRequestsAct : Obligations.LoaderAndLineRequestsAct := by
  refine ⟨?_, ?_, ?_, ?_, ?_⟩
  · intro cell host s hw h
    have hanswers := take_answers (u := ((s.met host).handed cell).setHostHold true) hw h rfl
      ((s.met host).handed_taken cell)
    refine ⟨hanswers, fun t e => ?_⟩
    obtain ⟨hhost, hgate⟩ := hanswers.host e
    refine ⟨hhost, hgate.trans ?_⟩
    rw [Bool.eq_false_iff, ne_eq, gateNow_iff]
    rintro ⟨_, hempty⟩
    rw [HoldSet.isEmpty_iff] at hempty
    rw [hempty] at hhost
    cases hhost
  · intro cell host s hw h
    have hanswers := take_answers (u := ((s.met host).handed cell).setHostHold false) hw h rfl
      ((s.met host).handed_taken cell)
    refine ⟨hanswers, fun t e => ?_⟩
    obtain ⟨hhost, hgate⟩ := hanswers.host e
    exact ⟨hhost, by rw [hgate, gateNow_iff]⟩
  · intro cell host s hw h
    have taken := (s.met host).handed_taken cell
    dsimp only
    split
    · next hready => exact take_answers hw h (if_pos hready) (by rw [State.setDeck_mem]; exact taken)
    · next hnot => exact take_answers hw h (if_neg hnot) taken
  · intro cell host s hw h
    have taken := (s.met host).handed_taken cell
    have hblocking := (s.met host).dt.causes.blocking_eq_zero_iff
    dsimp only
    split
    · next hready =>
      exact take_answers hw h ((if_pos hready.1).trans (if_pos (hblocking.mpr hready.2)))
        (by rw [State.setDeck_mem]; exact taken)
    · next hnot =>
      split
      · next hfaulted =>
        rw [← Causes.blocking_detail]
        exact take_answers hw h
          ((if_pos hfaulted).trans (if_neg fun hclear => hnot ⟨hfaulted, hblocking.mp hclear⟩)) taken
      · next hother => exact take_answers hw h (if_neg hother) taken
  · intro s area _ honly hgate htracking hfree hunits hopen hactive
    exact State.offerLug_handLoaded honly hgate htracking hfree hunits hopen hactive

end Sys2Proof.Machine
end

section
/-! SUPPORT. The visit of a cell with no command waiting (R166), the issue of a command (R129), and the frames that bring a
head up and answer a step (R27, R29, R56). -/

open Sys2Proof

namespace Sys2Proof.Machine

/-! ## The idle step -/

/-- A sweep that stands at a cell which can be taken comes to it next. -/
theorem State.comes_of_sweep {s : State} {cell : Nat} (hsweep : s.xi.sweep = some cell) (hlt : cell < 32)
    (htake : s.takeable cell = true) : s.Comes (ReqKind.ofCode (cellKind s.mem cell)) cell where
  reaches := by simp [State.sweepReaches, hsweep, hlt]
  takeable := htake
  kind := rfl

theorem State.visitCell_takes {s : State} {cell : Nat} (hsweep : s.xi.sweep = some cell) (htake : s.takeable cell = true) :
    s.visitCell = s.takeCell (ReqKind.ofCode (cellKind s.mem cell)) cell := by
  simp [State.visitCell, hsweep, htake]

theorem State.visitCell_passes {s : State} {cell : Nat} (hsweep : s.xi.sweep = some cell)
    (hpass : ¬s.takeable cell = true) : s.visitCell = s.onXi (fun xi => { xi with sweep := cellAfter cell }) := by
  simp [State.visitCell, hsweep, hpass]

/-- Settles O2: the visit of a cell that can be taken is the row of its kind. -/
theorem idleStepVisitsTheNextCell : Obligations.IdleStepVisitsTheNextCell := by
  intro s hp
  refine ⟨fun hsweep => by rw [step_empty hp, State.idle_of_none hsweep], fun cell hsweep hlt => ?_⟩
  rw [step_empty hp, State.idle_of_some hsweep]
  split
  · next htake =>
    have hcomes : s.clearOut.Comes _ cell := State.comes_of_sweep (s := s.clearOut) hsweep hlt htake
    have hvisit : State.visitCell s.clearOut = State.takeRow _ cell s.clearOut :=
      (State.visitCell_takes (s := s.clearOut) hsweep htake).trans (State.takeRow_of_comes hcomes).symm
    rw [exec_take]
    exact congrArg (fun u : State => Host.Outcome.next (u.endEvent false s.image)) hvisit
  · next hpass =>
    refine ⟨_, rfl, ?_⟩
    rw [← State.visitCell_passes (s := s.clearOut) hsweep hpass]
    exact State.endEvent_settles _ _ _

/-! ## Issue -/

theorem Deck.pieceAt_of_lugAt {d : Deck} {station : Nat} {lug : Lug} (h : d.lugAt station = some lug) :
    d.pieceAt station = d.pieceOf lug := by
  simp only [Deck.pieceAt, h]

/-- Settles O31. -/
theorem issueDrivesTheCommand : Obligations.IssueDrivesTheCommand := by
  intro g s lug h command
  have hcommand : s.dt.commandAt g = command := by
    rw [Deck.commandAt, Deck.pieceAt_of_lugAt h]
    rfl
  rw [← hcommand]
  unfold State.issue
  rw [h]
  dsimp only
  congr 1
  funext ax
  cases s.dt.state.tracking <;> rfl

/-! ## One head -/

theorem Scan.headState_of_head {sa : Scan} {n : Nat} {hd : Head} (h : sa.head? n = some hd) :
    sa.headState n = hd.state := by simp only [Scan.headState, h]

theorem State.onHead_head (s : State) (n k : Nat) (f : Head → Head) :
    (s.onHead n f).sa.head? k = if k = n then (s.sa.head? n).map f else s.sa.head? k := by
  unfold Scan.head?
  rw [State.onHead_sa]
  by_cases hk : k = 0
  · by_cases hkn : k = n <;> simp_all
  · by_cases hkn : k = n
    · subst hkn
      simp [hk]
    · rw [if_neg hkn, if_neg hk, if_neg hk]
      split
      · rfl
      · rw [List.getElem?_modify_ne _ _ (by omega)]

theorem State.onHead_head_same {s : State} {n : Nat} {hd : Head} (h : s.sa.head? n = some hd) (f : Head → Head) :
    (s.onHead n f).sa.head? n = some (f hd) := by
  rw [State.onHead_head, if_pos rfl, h, Option.map_some]

theorem State.onHead_head_other {s : State} {n k : Nat} (h : k ≠ n) (f : Head → Head) :
    (s.onHead n f).sa.head? k = s.sa.head? k := by
  rw [State.onHead_head, if_neg h]

/-- A change of a head that leaves its state leaves every head's state. -/
theorem State.onHead_headState (s : State) (n k : Nat) {f : Head → Head} (hf : ∀ hd, (f hd).state = hd.state) :
    (s.onHead n f).sa.headState k = s.sa.headState k := by
  unfold Scan.headState
  rw [State.onHead_head]
  by_cases hk : k = n
  · subst hk
    rw [if_pos rfl]
    cases s.sa.head? k with
    | some hd => exact hf hd
    | none => rfl
  · rw [if_neg hk]

/-- The entry to READY of a head that stands in the table (R29). -/
theorem State.enterReady_of_head {s : State} {n : Nat} {hd : Head} (h : s.sa.head? n = some hd) (step : Bool) :
    s.enterReady n step =
      let v := if step then s.send n (.alignStep hd.delay) else s
      if s.sa.longStop then (v.onHead n (fun hd => { hd with state := .standby })).send n .standby
      else v.onHead n (fun hd => { hd with state := .ready }) := by
  unfold State.enterReady
  rw [h]
  cases step <;> rfl

/-! ## HEAD_STATUS -/

/-- A link is read unless its head is OFFLINE or does not exist. -/
theorem State.ite_linkRead (n : Nat) (s x y : State) :
    (if s.linkRead n then x else y) = if s.sa.headState n = .offline then y else x := by
  by_cases h : s.sa.headState n = .offline <;> simp [State.linkRead, h]

/-- Settles O52: the frame is counted, and the head's state answers it. -/
theorem headStatusBringsAHeadUp : Obligations.HeadStatusBringsAHeadUp := by
  intro n identity condition clock s hd h m u stepped
  have hu : u.sa.head? n = some { hd with
      badRun := 0, goodFrames := hd.goodFrames + 1, lastStatus := some clock,
      identity := some (identity, condition) } := State.onHead_head_same (s := m) h _
  have htake : State.takeStatus n identity condition clock m = if hd.state = .offline then m else u.answerStatus n := by
    rw [← Scan.headState_of_head h]
    exact State.ite_linkRead n m _ _
  have hdoes := completes_does (exec_headStatus s n identity condition clock)
  rw [htake] at hdoes
  convert hdoes using 2
  unfold State.answerStatus
  rw [Scan.headState_of_head hu, State.enterReady_of_head hu, State.enterReady_of_head hu]
  cases hst : hd.state <;> simp [stepped, hst] <;> rfl

end Sys2Proof.Machine
end

section
/-! SUPPORT. Echoes, bad frames, silence and the timers of the heads (R25, R27, R29, R30, R40, R41, R56, R57). -/

open Sys2Proof

namespace Sys2Proof.Machine

/-! ## ALIGN_ECHO -/

theorem State.countGood_headState (n : Nat) (s : State) :
    (s.onHead n Head.countGood).sa.headState n = s.sa.headState n := s.onHead_headState n n (fun _ => rfl)

theorem State.takeEchoFrame_eq (n : Nat) (seen : Bool) (s : State) :
    s.takeEchoFrame n seen =
      let u := s.onHead n Head.countGood
      match s.sa.headState n with
      | .offline => s
      | .absent => u.headFault n
      | .aligning => u.takeEcho seen
      | .linkFault | .ready | .standby | .waking => u := by
  unfold State.takeEchoFrame
  rw [State.ite_linkRead]
  dsimp only
  rw [State.countGood_headState]
  cases s.sa.headState n <;> rfl

/-- The echo of the outstanding step (R56). -/
theorem State.answerStep_eq (seen : Bool) (s : State) :
    s.answerStep seen =
      let x := s.onDa (fun da => { da with outstanding := false, miss := 0 })
      let y := x.onDa (fun da => { da with unseen := da.unseen || !seen })
      if seen = true ∧ s.da.unseen = true then x.endSearch .locked
      else if 63 ≤ s.da.d then y.endSearch .range
      else y.onDa (fun da => { da with d := da.d + 1 }) := by
  unfold State.answerStep
  dsimp only
  cases seen <;> cases hunseen : s.da.unseen <;> simp [hunseen]

/-- Settles O54. -/
theorem alignEchoAnswersTheStep : Obligations.AlignEchoAnswersTheStep := by
  intro n seen s m u x y
  have hdoes := completes_does (exec_alignEcho s n seen)
  rw [State.takeEchoFrame_eq] at hdoes
  convert hdoes using 2
  dsimp only [State.takeEcho]
  rw [State.answerStep_eq, State.clearOut_sa]
  cases s.sa.headState n <;> rfl

/-! ## Bad frames, silence, the wake timer -/

theorem State.countBad_headState (n : Nat) (s : State) :
    (s.onHead n Head.countBad).sa.headState n = s.sa.headState n := s.onHead_headState n n (fun _ => rfl)

/-- The count stays at 3 once there, and it reaches 3 from 2 (R25). -/
theorem State.countBad_badRun {n : Nat} {s : State} (h : s.sa.headState n ≠ .offline) :
    (s.onHead n Head.countBad).sa.badRun n = 3 ↔ 2 ≤ ((s.sa.head? n).map (fun hd => hd.badRun)).getD 0 := by
  cases hhd : s.sa.head? n with
  | none => exact absurd (by simp only [Scan.headState, hhd]) h
  | some hd =>
    rw [Scan.badRun, State.onHead_head_same hhd]
    simp only [Option.map_some, Option.getD_some, Head.countBad]
    omega

theorem State.takeBad_eq (n : Nat) (s : State) :
    s.takeBad n =
      let bad := s.onHead n Head.countBad
      match s.sa.headState n with
      | .offline => s
      | .absent => bad.headFault n
      | .linkFault => bad
      | .ready | .standby | .waking | .aligning =>
        if 2 ≤ ((s.sa.head? n).map (fun hd => hd.badRun)).getD 0 then bad.headFault n else bad := by
  unfold State.takeBad
  rw [State.ite_linkRead]
  dsimp only
  rw [State.countBad_headState]
  cases hst : s.sa.headState n with
  | offline | absent | linkFault => rfl
  | ready | standby | waking | aligning =>
    have hread := State.countBad_badRun (n := n) (s := s) (by rw [hst]; decide)
    simp only [hread]
    rfl

theorem HeadState.silenceRuns_iff (st : HeadState) :
    st.silenceRuns = true ↔ st = .ready ∨ st = .standby ∨ st = .aligning := by cases st <;> decide

theorem State.headFault_eq (n : Nat) (s : State) :
    s.headFault n =
      let v := (s.onHead n (fun hd => { hd with state := .linkFault })).notify .fault
      if s.da.search ≠ .idle ∧ s.da.head = n then v.endSearch .link else v := by
  unfold State.headFault
  by_cases hhead : s.da.head = n
  · by_cases hidle : s.da.search = .idle
    · simp [hhead, hidle, State.endSearch]
    · simp [hhead, hidle]
  · simp [hhead]

/-! ## The standby timer -/

theorem modify_congr {α : Type} {l : List α} {i : Nat} {x : α} {f g : α → α} (h : l[i]? = some x) (e : f x = g x) :
    l.modify i f = l.modify i g := by
  refine List.ext_getElem? fun k => ?_
  rw [List.getElem?_modify, List.getElem?_modify]
  by_cases hk : i = k
  · subst hk
    simp [h, e]
  · simp [hk]

theorem flatMap_ite_singleton {α β : Type} (l : List α) (p : α → Bool) (f : α → β) :
    l.flatMap (fun x => if p x then [f x] else []) = (l.filter p).map f := by
  induction l with
  | nil => rfl
  | cons x rest ih => by_cases h : p x = true <;> simp [h, ih]

/-- What a loop over the first heads leaves whose turn changes its own head and sends frames: `g` the heads, `sent` the
frames, both by the head as it stood. -/
theorem State.each_heads (f : Nat → State → State) (g : Nat → Head → Head) (sent : Nat → Head → List Output)
    (turn : ∀ n s hd, s.sa.heads[n]? = some hd →
      f (n + 1) s = { s with sa := { s.sa with heads := s.sa.heads.modify n (g (n + 1)) }, out := s.out ++ sent (n + 1) hd })
    (n : Nat) (s : State) (hlen : n ≤ s.sa.heads.length) :
    s.each (List.range' 1 n) f =
      { s with
        sa := { s.sa with heads := s.sa.heads.mapIdx (fun i hd => if i < n then g (i + 1) hd else hd) }
        out := s.out ++ (List.range' 1 n).flatMap (fun h => ((s.sa.heads[h - 1]?).map (sent h)).getD []) } := by
  induction n with
  | zero =>
    have hheads : s.sa.heads.mapIdx (fun i hd => if i < 0 then g (i + 1) hd else hd) = s.sa.heads :=
      List.ext_getElem? fun i => by simp
    rw [hheads]
    simp [State.each]
  | succ n ih =>
    have hsplit : s.each (List.range' 1 (n + 1)) f = f (n + 1) (s.each (List.range' 1 n) f) := by
      rw [List.range'_1_concat, Nat.add_comm 1 n]
      simp [State.each]
    have hget : s.sa.heads[n]? = some s.sa.heads[n] := List.getElem?_eq_getElem _
    rw [hsplit, ih (by omega), turn n _ s.sa.heads[n] (by simp [hget])]
    have hheads : (s.sa.heads.mapIdx (fun i hd => if i < n then g (i + 1) hd else hd)).modify n (g (n + 1))
        = s.sa.heads.mapIdx (fun i hd => if i < n + 1 then g (i + 1) hd else hd) := by
      refine List.ext_getElem? fun i => ?_
      rw [List.getElem?_modify, List.getElem?_mapIdx, List.getElem?_mapIdx]
      cases s.sa.heads[i]? with
      | none => rfl
      | some hd =>
        rcases Nat.lt_trichotomy i n with hi | hi | hi
        · simp [hi, Nat.lt_succ_of_lt hi, Nat.ne_of_gt hi]
        · simp [hi]
        · simp [Nat.not_lt.mpr (Nat.le_of_lt hi), Nat.not_lt.mpr hi, Nat.ne_of_lt hi]
    have hsent : (List.range' 1 (n + 1)).flatMap (fun h => ((s.sa.heads[h - 1]?).map (sent h)).getD [])
        = (List.range' 1 n).flatMap (fun h => ((s.sa.heads[h - 1]?).map (sent h)).getD []) ++ sent (n + 1) s.sa.heads[n] := by
      rw [List.range'_1_concat, List.flatMap_append, Nat.add_comm 1 n]
      simp [hget]
    simp only [hheads, hsent, List.append_assoc]

/-- A head of one state moved to another. -/
def Head.moved (source target : HeadState) (hd : Head) : Head :=
  if hd.state = source then { hd with state := target } else hd

/-- SA moves every head of a state to another and sends each of them a frame (R40, R41). -/
theorem State.each_moveHead (source target : HeadState) (frame : Frame) (s : State) (hlen : s.sa.heads.length = 8) :
    s.each (List.range' 1 8) (fun h s =>
        if s.sa.headState h = source then (s.onHead h (fun hd => { hd with state := target })).send h frame else s) =
      { s with
        sa := { s.sa with
                heads := s.sa.heads.map (Head.moved source target) }
        out := s.out ++ ((List.range' 1 8).filter (fun h => s.sa.headState h == source)).map (fun h =>
          .frame h frame) } := by
  have hloop := State.each_heads
    (fun h s => if s.sa.headState h = source then (s.onHead h (fun hd => { hd with state := target })).send h frame else s)
    (fun _ => Head.moved source target) (fun h hd => if hd.state = source then [.frame h frame] else []) ?_ 8 s (by omega)
  · rw [hloop]
    have hheads : s.sa.heads.mapIdx (fun i hd => if i < 8 then hd.moved source target else hd)
        = s.sa.heads.map (Head.moved source target) := by
      refine List.ext_getElem (by simp) fun i h1 h2 => ?_
      have hi : i < 8 := by simpa [hlen] using h2
      simp [hi]
    have hsent : (List.range' 1 8).flatMap (fun h => ((s.sa.heads[h - 1]?).map (fun hd =>
        if hd.state = source then [Output.frame h frame] else [])).getD [])
        = ((List.range' 1 8).filter (fun h => s.sa.headState h == source)).map (fun h => .frame h frame) := by
      rw [← flatMap_ite_singleton]
      refine List.flatMap_congr fun h hh => ?_
      obtain ⟨i, rfl⟩ : ∃ i, h = i + 1 := ⟨h - 1, by simp at hh; omega⟩
      have hi : i < s.sa.heads.length := by simp at hh; omega
      rw [Scan.headState_succ, Nat.add_sub_cancel, List.getElem?_eq_getElem hi]
      simp
    simp only [hheads, hsent]
  · intro n u hd hhd
    have hstate : u.sa.headState (n + 1) = hd.state := by rw [Scan.headState_succ, hhd]; rfl
    dsimp only
    rw [hstate]
    split
    · next hsource =>
      rw [modify_congr (f := Head.moved source target) (g := fun x => { x with state := target }) hhd (if_pos hsource)]
      rfl
    · next hsource =>
      rw [modify_congr (f := Head.moved source target) (g := id) hhd (if_neg hsource), List.modify_id]
      simp

theorem State.standbyHeads_eq (s : State) (hlen : s.sa.heads.length = 8) :
    s.standbyHeads =
      { s with
        sa := { s.sa with
                heads := s.sa.heads.map (fun hd => if hd.state = .ready then { hd with state := .standby } else hd) }
        out := s.out ++ ((List.range' 1 8).filter (fun h => s.sa.headState h == .ready)).map (fun h =>
          .frame h .standby) } := s.each_moveHead .ready .standby .standby hlen

theorem State.wakeHeads_eq (s : State) (hlen : s.sa.heads.length = 8) :
    s.wakeHeads =
      { s with
        sa := { s.sa with
                heads := s.sa.heads.map (fun hd => if hd.state = .standby then { hd with state := .waking } else hd) }
        out := s.out ++ ((List.range' 1 8).filter (fun h => s.sa.headState h == .standby)).map (fun h =>
          .frame h .wake) } := s.each_moveHead .standby .waking .wake hlen

/-- Settles O55, event by event. -/
theorem headsFaultAndStandBy : Obligations.HeadsFaultAndStandBy := by
  intro n s m st bad run
  refine ⟨?_, ?_, ?_, s.headFault_eq n, fun hlen => ?_⟩
  · have hdoes := completes_does (exec_badFrame s n)
    rw [State.takeBad_eq] at hdoes
    convert hdoes using 2
    dsimp only [st, run]
    rw [State.clearOut_sa]
    cases s.sa.headState n <;> rfl
  · have hdoes := completes_does (exec_linkSilence s n)
    convert hdoes using 2
    exact if_congr (HeadState.silenceRuns_iff st).symm rfl rfl
  · exact completes_does (exec_wakeTimeout s n)
  · have hdoes := completes_does (exec_standbyTimerExpiry s)
    convert hdoes using 2
    unfold State.expireStandby
    rw [State.standbyHeads_eq m hlen]
    rfl

end Sys2Proof.Machine
end

section
/-! SUPPORT. The alignment search on a forward beat and at its end (R54, R55, R58, R60, R62), and the BEAT frames (R26). -/

open Sys2Proof

namespace Sys2Proof.Machine

/-! ## The search on a forward beat -/

theorem Deck.clearZone_iff (d : Deck) (g : Geometry) :
    d.clearZone g = true ↔ (∀ l ∈ d.lugs.take (g.se + 1), l.piece = none) ∧ ∀ l ∈ d.upstream, l.piece = none := by
  simp [Deck.clearZone]

/-- A step of a search that is STEPPING already. -/
theorem State.sendStep_of_stepping {s : State} (h : s.da.search = .stepping) :
    s.sendStep = (s.send s.da.head (.alignStep s.da.d)).onDa (fun da =>
      { da with search := .stepping, outstanding := true }) := by
  unfold State.sendStep State.onDa
  rw [State.send_da, ← h]

section AlignBeat

variable {g : Geometry} {ready : HeadSet} {s : State}

theorem State.alignBeat_pending (h : s.da.search = .pending) :
    s.alignBeat g ready =
      if (s.dt.state == .running && s.dt.clearZone g && has ready s.da.head) = true then
        ((s.onDa (fun da => { da with search := .stepping })).onHead s.da.head
          (fun hd => { hd with state := .aligning })).sendStep
      else s := by
  simp only [State.alignBeat, h]

theorem State.alignBeat_suspended (h : s.da.search = .suspended) :
    s.alignBeat g ready =
      if (s.dt.state == .running && s.dt.clearZone g) = true then (s.onDa (fun da => { da with search := .stepping })).sendStep
      else s := by
  simp only [State.alignBeat, h]

theorem State.alignBeat_stepping (h : s.da.search = .stepping) :
    s.alignBeat g ready =
      if s.da.outstanding = true then
        if s.da.miss = 0 then (s.onDa (fun da => { da with miss := 1 })).sendStep else s.endSearch .echo
      else s.sendStep := by
  simp only [State.alignBeat, h]

end AlignBeat

/-- BEAT goes to the heads in the roster that are READY still, in their order (R26). -/
theorem State.sendBeats_eq (tag : Byte) (scan : Option Density) (ready : HeadSet) (s : State) :
    s.sendBeats tag scan ready =
      { s with
        out := s.out ++ ((List.range' 1 8).filter (fun h => has ready h && s.sa.headState h == .ready)).map (fun h =>
          .frame h (.beat tag (scan.getD .x1) scan.isSome)) } := by
  unfold State.sendBeats State.each
  generalize List.range' 1 8 = heads
  induction heads generalizing s with
  | nil => simp
  | cons h rest ih =>
    rw [List.foldl_cons, ih]
    by_cases hready : (has ready h && s.sa.headState h == .ready) = true
    · simp [hready, State.send, State.emit]
    · simp [hready]

/-- Settles O33. -/
theorem forwardBeatStepsTheSearchAndSendsBeats : Obligations.ForwardBeatStepsTheSearchAndSendsBeats := by
  refine ⟨?_, fun tag scan ready s => s.sendBeats_eq tag scan ready⟩
  intro g ready s clear step
  have hclear : (s.dt.state == .running && s.dt.clearZone g) = true ↔ clear := by
    rw [Bool.and_eq_true, beq_iff_eq, Deck.clearZone_iff]
  refine ⟨fun hs => ?_, fun hs hc hr => ?_, fun hs hc => ?_, fun hs hc => ?_, fun hs hc => ?_, fun hs ho => ?_,
    fun hs ho hm => ?_, fun hs ho hm => ?_⟩
  · simp only [State.alignBeat, hs]
  · rw [State.alignBeat_pending hs, if_pos (by rw [Bool.and_eq_true]; exact ⟨hclear.mpr hc, hr⟩)]
    rfl
  · rw [State.alignBeat_pending hs, if_neg]
    rw [Bool.and_eq_true]
    rintro ⟨hgo, hr⟩
    exact hc ⟨hclear.mp hgo, hr⟩
  · rw [State.alignBeat_suspended hs, if_pos (hclear.mpr hc)]
    rfl
  · rw [State.alignBeat_suspended hs, if_neg (mt hclear.mp hc)]
  · rw [State.alignBeat_stepping hs, if_neg (by rw [ho]; decide), State.sendStep_of_stepping hs]
  · rw [State.alignBeat_stepping hs, if_pos ho, if_pos hm, State.sendStep_of_stepping (by exact hs)]
  · rw [State.alignBeat_stepping hs, if_pos ho, if_neg hm]

/-! ## The end of a search -/

/-- The end of a request reads no head and leaves every head. -/
theorem State.endInHand_onHead (s : State) (n : Nat) (f : Head → Head) (cell : Nat) (result : Result) (detail : Word)
    (area : List Byte) :
    (s.onHead n f).endInHand cell result detail area = (s.endInHand cell result detail area).onHead n f := by
  unfold State.endInHand State.endCell
  rw [State.onHead_xi]
  split
  · rw [State.onHead_mem]
    split <;> rfl
  · rfl

/-- A locked delay becomes the head's aligned delay (R60). -/
def Head.keepDelay (cause : SearchCause) (d : Nat) (hd : Head) : Head :=
  { hd with delay := if cause = .locked then d else hd.delay }

theorem State.ite_keepDelay (cause : SearchCause) (d n : Nat) (s : State) :
    (if cause = .locked then s.onHead n (fun hd => { hd with delay := d }) else s) = s.onHead n (Head.keepDelay cause d) := by
  by_cases h : cause = .locked
  · rw [if_pos h, h]
    rfl
  · have hid : Head.keepDelay cause d = id := funext fun hd => by simp [Head.keepDelay, h]
    have hsame : s.onHead n id = s := by simp [State.onHead, State.onSa]
    rw [if_neg h, hid, hsame]

/-- What a search's end leaves: the cell answered, the outcome kept, and a head that was ALIGNING freed (R60). -/
theorem State.endSearch_eq {s : State} (h : s.da.search ≠ .idle) (cause : SearchCause) :
    s.endSearch cause =
      let answered := s.endInHand s.da.cell cause.result (searchDetail cause s.da.d) []
      let ended := (answered.onHead s.da.head (Head.keepDelay cause s.da.d)).onDa (fun da =>
        { da with search := .idle, outstanding := false
                  last := some { cause, head := s.da.head, delay := s.da.d } })
      if s.sa.headState s.da.head = .aligning then ended.enterReady s.da.head (cause != .locked) else ended := by
  have hstate : ((s.endInHand s.da.cell cause.result (searchDetail cause s.da.d) []).onHead s.da.head
      (Head.keepDelay cause s.da.d)).sa.headState s.da.head = s.sa.headState s.da.head := by
    rw [State.onHead_headState _ _ _ (f := Head.keepDelay cause s.da.d) (fun _ => rfl)]
    simp
  unfold State.endSearch
  rw [if_neg h]
  dsimp only
  rw [State.ite_keepDelay, State.onDa_sa, State.onHead_da, State.endInHand_onHead, hstate]

/-- A head keeps the delay that its search locked, and one that was ALIGNING returns to READY or STANDBY (R60, R62). -/
theorem State.freeHead {x : State} {n : Nat} {hd : Head} (h : x.sa.head? n = some hd) (cause : SearchCause) (d : Nat)
    (f : Align → Align) (t : State)
    (ht : t = if hd.state = .aligning then ((x.onHead n (Head.keepDelay cause d)).onDa f).enterReady n (cause != .locked)
      else (x.onHead n (Head.keepDelay cause d)).onDa f) :
    let aligning := hd.state == .aligning
    t.da = f x.da
    ∧ t.sa.head? n = some
      { hd with
        delay := if cause = .locked then d else hd.delay
        state := if aligning then (if x.sa.longStop then .standby else .ready) else hd.state }
    ∧ (∀ k, k ≠ n → t.sa.head? k = x.sa.head? k)
    ∧ t.out = x.out
      ++ (if aligning && cause != .locked then [.frame n (.alignStep hd.delay)] else [])
      ++ (if aligning && x.sa.longStop then [.frame n .standby] else [])
    ∧ t = { x with da := t.da, sa := { x.sa with heads := t.sa.heads }, out := t.out } := by
  intro aligning
  have hkept : ((x.onHead n (Head.keepDelay cause d)).onDa f).sa.head? n = some (hd.keepDelay cause d) :=
    State.onHead_head_same h _
  have hother (k : Nat) (hk : k ≠ n) : (x.onHead n (Head.keepDelay cause d)).sa.head? k = x.sa.head? k :=
    State.onHead_head_other hk _
  by_cases ha : hd.state = .aligning
  · have hyes : aligning = true := by simp [aligning, ha]
    rw [if_pos ha, State.enterReady_of_head hkept] at ht
    have hlong : ((x.onHead n (Head.keepDelay cause d)).onDa f).sa.longStop = x.sa.longStop := rfl
    have hhead (f : Head → Head) := State.onHead_head_same hkept f
    have hothers (f : Head → Head) (k : Nat) (hk : k ≠ n) := (State.onHead_head_other hk f).trans (hother k hk)
    rw [hyes, ht, hlong]
    cases hstep : (cause != .locked) with
    | false => cases x.sa.longStop <;> exact ⟨rfl, hhead _, hothers _, by simp [State.send, State.emit], rfl⟩
    | true =>
      have hdelay : (hd.keepDelay cause d).delay = hd.delay := if_neg (bne_iff_ne.mp hstep)
      cases x.sa.longStop <;> exact ⟨rfl, hhead _, hothers _, by simp [State.send, State.emit, hdelay], rfl⟩
  · have hno : aligning = false := by simp [aligning, ha]
    rw [if_neg ha] at ht
    rw [hno, ht]
    exact ⟨rfl, hkept, hother, by simp, rfl⟩

/-- Settles O34: the request in hand by `State.endCell_answers`, the search by `State.endSearch_eq`. -/
theorem searchEndAnswersAndFreesTheHead : Obligations.SearchEndAnswersAndFreesTheHead := by
  refine ⟨rfl, ?_, ?_⟩
  · intro cell result detail area s t
    refine ⟨fun hnone => ?_, fun held hheld => ?_⟩
    · simp only [t, State.endInHand, hnone]
    · have ht : t = s.endCell cell held.kind held.tag result detail area := by
        simp only [t, State.endInHand, hheld]
      rw [ht]
      split
      · next htaken => exact State.endCell_answers _ _ _ _ _ htaken
      · next htaken => exact State.endCell_dropped _ _ _ _ _ htaken
  · intro cause s hd hsearch hhd t n result answered aligning
    have hresult : cause.result = result := by cases cause <;> rfl
    have hsa : answered.sa = s.sa := by simp [answered]
    have hda : answered.da = s.da := by simp [answered]
    have ht : t = _ := State.endSearch_eq hsearch cause
    rw [hresult, Scan.headState_of_head hhd] at ht
    have hfree := State.freeHead (x := answered) (by rw [hsa]; exact hhd) cause s.da.d _ t ht
    rw [hsa, hda] at hfree
    exact hfree

end Sys2Proof.Machine
end

section
/-! SUPPORT. The beats (R1, R2, R3): which motion of the encoder is one, and what it does. -/

open Sys2Proof

namespace Sys2Proof.Machine

/-! ## The turn of the encoder -/

theorem DeckState.takesBeats_eq_false_iff (state : DeckState) :
    state.takesBeats = false ↔ state = .unconfigured ∨ state = .halted := by cases state <;> decide

section Turn

variable {turn encoder : Int} {beat : Geometry → State → State} {s : State} {g : Geometry}

theorem State.turnEncoder_unset (h : s.dt.geometry = none) :
    s.turnEncoder turn beat encoder = s.onDt (fun d => { d with encoder := encoder }) := by
  simp only [State.turnEncoder, h]

theorem State.turnEncoder_counts (h : s.dt.geometry = some g)
    (idle : s.dt.state.takesBeats = false ∨ s.dt.crossings g encoder = 0) :
    s.turnEncoder turn beat encoder = s.onDt (fun d => { d with encoder := encoder }) := by
  simp only [State.turnEncoder, h]
  exact if_pos idle

theorem State.turnEncoder_noEvent (h : s.dt.geometry = some g) (takes : s.dt.state.takesBeats = true)
    (moves : s.dt.crossings g encoder ≠ 0) (other : s.dt.crossings g encoder ≠ turn) :
    s.turnEncoder turn beat encoder = s := by
  simp [State.turnEncoder, h, takes, moves, other]

theorem State.turnEncoder_beat (h : s.dt.geometry = some g) (takes : s.dt.state.takesBeats = true)
    (moves : s.dt.crossings g encoder ≠ 0) (crosses : s.dt.crossings g encoder = turn) :
    s.turnEncoder turn beat encoder = beat g (s.onDt (fun d => { d with encoder := encoder })) := by
  simp [State.turnEncoder, h, takes, crosses ▸ moves, crosses]

theorem takesBeat_unset (h : s.dt.geometry = none) : takesBeat turn encoder s = false := by
  simp only [takesBeat, h]

theorem takesBeat_of_geometry (h : s.dt.geometry = some g) :
    takesBeat turn encoder s = (s.dt.state.takesBeats && s.dt.crossings g encoder == turn) := by
  simp only [takesBeat, h]

/-- A motion of the encoder, case by case, of a command that turns it (R1). -/
theorem turnEncoder_does {c : Instr} (hturn : turn ≠ 0)
    (e : exec c s = completes (takesBeat turn encoder s) (State.turnEncoder turn beat encoder) s) :
    let turned := s.clearOut.onDt (fun d => { d with encoder := encoder })
    (s.dt.geometry = none → Does c s turned)
    ∧ ∀ g : Geometry, s.dt.geometry = some g →
      (s.dt.state = .unconfigured ∨ s.dt.state = .halted ∨ s.dt.crossings g encoder = 0 → Does c s turned)
      ∧ (s.dt.state.takesBeats = true → s.dt.crossings g encoder ≠ 0 → s.dt.crossings g encoder ≠ turn →
        Does c s s.clearOut)
      ∧ (s.dt.state.takesBeats = true → s.dt.crossings g encoder = turn → DoesAndShows c s (beat g turned)) := by
  intro turned
  refine ⟨fun h => ?_, fun g h => ⟨fun idle => ?_, fun takes moves other => ?_, fun takes crosses => ?_⟩⟩
  · rw [takesBeat_unset h] at e
    have hdoes := completes_does e
    rwa [State.turnEncoder_unset (s := s.clearOut) h] at hdoes
  · have hidle : s.dt.state.takesBeats = false ∨ s.dt.crossings g encoder = 0 := by
      rw [DeckState.takesBeats_eq_false_iff, or_assoc]
      exact idle
    have hnone : takesBeat turn encoder s = false := by
      rw [takesBeat_of_geometry h]
      rcases hidle with hstate | hcross
      · rw [hstate, Bool.false_and]
      · rw [hcross, beq_false_of_ne hturn.symm, Bool.and_false]
    rw [hnone] at e
    have hdoes := completes_does e
    rwa [State.turnEncoder_counts (s := s.clearOut) h hidle] at hdoes
  · have hnone : takesBeat turn encoder s = false := by
      rw [takesBeat_of_geometry h, beq_false_of_ne other, Bool.and_false]
    rw [hnone] at e
    have hdoes := completes_does e
    rwa [State.turnEncoder_noEvent (s := s.clearOut) h takes moves other] at hdoes
  · have hbeat : takesBeat turn encoder s = true := by
      rw [takesBeat_of_geometry h, takes, crosses, beq_self_eq_true]
      rfl
    rw [hbeat] at e
    have hdoes := completes_doesAndShows e
    rwa [State.turnEncoder_beat (s := s.clearOut) h takes (by exact crosses ▸ hturn) crosses] at hdoes

end Turn

/-! ## The beats -/

/-- STALL clears and the map moves one station downstream (R2, R18). -/
theorem State.clearStall_forward (s : State) :
    s.clearStall.onDt Deck.forward = s.onDt (fun d =>
      { d with
        causes := { d.causes with stall := d.causes.stall.clear }
        position := d.position + 1
        highWater := if d.depth = 0 then d.position + 1 else d.highWater
        forwardBeats := d.forwardBeats + 1
        tagCounter := d.tagCounter + 1
        lugs := d.upstream.head?.getD (Lug.empty (d.tagCounter + 1)) :: d.lugs.take 63
        upstream := d.upstream.tail }) := by
  dsimp only [State.onDt, State.clearStall, Deck.forward]
  rw [List.headD_eq_head?_getD]
  rfl

/-- Settles O17: the beat is the turn +1, and its actions are those of `State.takeForward`. -/
theorem forwardBeatMovesTheMapAndActs : Obligations.ForwardBeatMovesTheMapAndActs := by
  intro encoder eyes feedback restart s turned
  obtain ⟨hunset, hset⟩ := turnEncoder_does (turn := 1) (by decide) (exec_forwardBeat s encoder eyes feedback restart)
  refine ⟨hunset, fun g hg => ?_⟩
  obtain ⟨hcounts, hnoEvent, hbeat⟩ := hset g hg
  refine ⟨hcounts, hnoEvent, fun takes crosses => ?_⟩
  convert hbeat takes crosses using 2
  unfold State.takeForward State.stationActions State.sortStage
  dsimp only
  rw [State.clearStall_forward]
  simp only [List.isEmpty_iff, decide_eq_true_eq]
  rfl

/-- A lug at place 9 leaves tracking; with none there the list is as short already (R3). -/
theorem State.dropNinth_eq (s : State) :
    s.dropNinth =
      State.onDt (fun d => { d with upstream := d.upstream.take 8 })
        (match (s.dt.upstream[8]?).bind (fun l => l.piece) with
          | some serial => s.losePiece serial
          | none => s) := by
  unfold State.dropNinth
  cases h : s.dt.upstream[8]? with
  | some lug => cases hp : lug.piece <;> simp [hp]
  | none =>
    have hshort : s.dt.upstream.take 8 = s.dt.upstream := List.take_of_length_le (List.getElem?_eq_none_iff.mp h)
    simp [State.onDt, hshort]

/-- Only a STEPPING search is suspended (R58). -/
theorem State.suspendSearch_eq (s : State) :
    s.suspendSearch = s.onDa (fun da =>
      if da.search = .stepping then { da with search := .suspended, outstanding := false, miss := 0 } else da) := by
  unfold State.suspendSearch State.onDa
  by_cases h : s.da.search = .stepping <;> simp [h]

/-- Settles O18: the beat is the turn −1, and its actions are those of `State.takeBack`. -/
theorem backBeatMovesTheMapAndReleases : Obligations.BackBeatMovesTheMapAndReleases := by
  intro encoder restart s turned
  obtain ⟨hunset, hset⟩ := turnEncoder_does (turn := -1) (by decide) (exec_backBeat s encoder restart)
  refine ⟨hunset, fun g hg => ?_⟩
  obtain ⟨hcounts, hnoEvent, hbeat⟩ := hset g hg
  refine ⟨hcounts, hnoEvent, fun takes crosses => ?_⟩
  convert hbeat takes crosses using 2
  unfold State.takeBack State.testReverse State.restartAfterBack
  rw [State.suspendSearch_eq, State.dropNinth_eq]
  rfl

end Sys2Proof.Machine
end

section
/-! SUPPORT. A change of the deck state in every block (R17), and the line inputs that bring one (R18). -/

open Sys2Proof

namespace Sys2Proof.Machine

/-! ## The parts of a change of the deck state -/

theorem restartDue_eq (old : DeckState) (loaded : Bool) :
    restartDue old loaded = decide (old = .stoppedLoaded ∨ (old = .faulted ∧ loaded = true)) := by
  cases old <;> cases loaded <;> rfl

theorem State.wakeLine_eq {s : State} (hlen : s.sa.heads.length = 8) :
    s.wakeLine =
      { s with
        dt := { s.dt with pieces := if s.sa.longStop = true then s.dt.pieces.map Piece.markStale else s.dt.pieces }
        sa := { s.sa with
                heads := s.sa.heads.map (fun hd => if hd.state = .standby then { hd with state := .waking } else hd)
                longStop := false, standbyTimer := false }
        out := s.out ++ ((List.range' 1 8).filter (fun h => s.sa.headState h == .standby)).map (fun h =>
          .frame h .wake) } := by
  unfold State.wakeLine
  rw [State.wakeHeads_eq s hlen]
  cases s.sa.longStop <;> rfl

theorem State.reportDeck_eq (old new : DeckState) (s : State) :
    s.reportDeck old new =
      { s with
        out := if stopsFromRunning old new then ((s.notify .deck).notify .journal).out else (s.notify .deck).out
        xi :=
          { s.xi with
            notice := s.xi.notice ||| NoticeCause.deck.mask
              ||| (if stopsFromRunning old new then NoticeCause.journal.mask else 0)
            raises :=
              { s.xi.raises with
                deck := s.xi.raises.deck + 1
                journal := s.xi.raises.journal + (if stopsFromRunning old new then 1 else 0) }
            recordsSince := if stopsFromRunning old new then 0 else s.xi.recordsSince } } := by
  unfold State.reportDeck
  cases stopsFromRunning old new <;> simp [State.notify, State.setNotice, State.onXi, Raises.add]

theorem State.ite_leaveRunning (c : Prop) [Decidable c] (s : State) :
    (if c then s.leaveRunning else s) =
      { s with
        dt := { s.dt with restartPending := if c then false else s.dt.restartPending }
        da := if c ∧ s.da.search = .stepping then { s.da with search := .suspended, outstanding := false, miss := 0 }
              else s.da } := by
  by_cases h : c
  · rw [State.leaveRunning, State.suspendSearch_eq]
    simp only [h, if_true, true_and]
    rfl
  · simp [h]

theorem State.ite_releaseAll (c : Prop) [Decidable c] (s : State) :
    (if c then s.onAx Actuation.releaseAll else s) = { s with ax := if c then s.ax.releaseAll else s.ax } := by
  by_cases h : c <;> simp [h, State.onAx]

theorem State.ite_startStandby (c : Prop) [Decidable c] (s : State) :
    (if c then s.startStandby else s) = { s with sa := if c then { s.sa with standbyTimer := true } else s.sa } := by
  by_cases h : c <;> simp [h, State.startStandby, State.onSa]

theorem startsStandby_iff (old new : DeckState) :
    (stopsFromRunning old new || (old == .halted && new.stopped)) = true
      ↔ stopsFromRunning old new = true ∨ (old = .halted ∧ (new = .stoppedLoaded ∨ new = .stoppedClear)) := by
  cases old <;> cases new <;> decide

/-! ## A change of the deck state -/

/-- The entry to RUNNING stops nothing: DECK is raised, the heads wake, and the restart check is called for. -/
theorem State.setDeck_running {s : State} (h : s.dt.state ≠ .running) :
    s.setDeck .running =
      ((s.onDt (fun d => { d with state := .running })).notify .deck).wakeLine.onDt (fun d =>
        { d with restartPending := restartDue s.dt.state d.loaded }) := by
  have hstops : stopsFromRunning s.dt.state .running = false := by cases s.dt.state <;> rfl
  simp [State.setDeck, State.reportDeck, h, hstops, DeckState.stopped]

/-- Every other change: leaving RUNNING, entering FAULTED, and the standby timer. -/
theorem State.setDeck_other {s : State} {new : DeckState} (h : s.dt.state ≠ new) (hnew : new ≠ .running) :
    s.setDeck new =
      { (s.onDt (fun d => { d with state := new })).reportDeck s.dt.state new with
        dt := { s.dt with
                state := new
                restartPending := if s.dt.state = .running then false else s.dt.restartPending }
        da := if s.dt.state = .running ∧ s.da.search = .stepping then
            { s.da with search := .suspended, outstanding := false, miss := 0 }
          else s.da
        ax := if new = .faulted then s.ax.releaseAll else s.ax
        sa := if stopsFromRunning s.dt.state new = true
            ∨ (s.dt.state = .halted ∧ (new = .stoppedLoaded ∨ new = .stoppedClear)) then
            { s.sa with standbyTimer := true }
          else s.sa } := by
  simp only [State.setDeck, if_neg h, if_neg hnew, State.ite_leaveRunning, State.ite_releaseAll, State.ite_startStandby,
    startsStandby_iff, State.reportDeck_eq]
  rfl

/-- Settles O20: the entry to RUNNING and every other change. -/
theorem deckStateChangeActsInEveryBlock : Obligations.DeckStateChangeActsInEveryBlock := by
  intro new s hlen hchange t stops
  have hreport : stopsFromRunning s.dt.state new = stops := by cases new <;> rfl
  by_cases hnew : new = .running
  · subst hnew
    have hstops : stops = false := by simp [stops]
    have hdue := restartDue_eq s.dt.state s.dt.loaded
    have ht : t = _ := State.setDeck_running hchange
    rw [State.wakeLine_eq (by exact hlen)] at ht
    simp only [hstops, ht, if_true, true_and, ← hdue]
    refine ⟨rfl, ?_, rfl, rfl, ?_, rfl, rfl, rfl, rfl, rfl, rfl, rfl⟩
    · exact (if_neg fun h => hchange h.1).symm
    · simp [Raises.add]
      rfl
  · have ht : t = _ := State.setDeck_other hchange hnew
    rw [State.reportDeck_eq, hreport] at ht
    simp only [ht, hnew, false_and, if_false, List.append_nil]
    refine ⟨trivial, trivial, rfl, trivial, rfl, ?_, rfl, rfl, rfl, rfl, rfl, rfl⟩
    cases stops <;> rfl

/-! ## The line inputs -/

theorem Causes.add_eq (c : Causes) (name : CauseName) :
    c.add name =
      { estop := if name = .estop then .standing else c.estop
        stall := if name = .stall then .standing else c.stall
        reverse := if name = .reverse then .standing else c.reverse } := by
  cases name <;> rfl

theorem DeckState.stopped_iff_state (state : DeckState) :
    state.stopped = true ↔ state = .stoppedLoaded ∨ state = .stoppedClear := by cases state <;> decide

/-- Settles O21, input by input. -/
theorem lineInputsMoveTheDeck : Obligations.LineInputsMoveTheDeck := by
  refine ⟨fun up s => ?_, fun c s => ?_, fun s => ⟨?_, completes_does (exec_estopRelease s), ?_⟩⟩
  · have hdoes := completes_does (exec_deckRunLineChange s up)
    unfold State.changeRunLine at hdoes
    rw [State.clearOut_dt] at hdoes
    split
    · next hsame => rwa [if_pos hsame] at hdoes
    · next hother =>
      rw [if_neg hother] at hdoes
      dsimp only at hdoes ⊢
      split
      · next hup =>
        rw [if_pos hup] at hdoes
        convert hdoes using 2
        exact if_congr (DeckState.stopped_iff_state _).symm rfl rfl
      · next hup =>
        rwa [if_neg hup] at hdoes
  · have hiff := DeckState.takesBeats_eq_false_iff s.dt.state
    split
    · next hidle => rw [State.addCause, hiff.mpr hidle]; rfl
    · next htakes =>
      rw [State.addCause, if_pos (Bool.eq_true_of_not_eq_false (mt hiff.mp htakes))]
      simp only [Causes.add_eq]
  · have hdoes := completes_does (exec_estopAssert s)
    split
    · next hup =>
      rwa [State.assertEstop, if_pos (by exact hup)] at hdoes
    · next hdown =>
      rwa [State.assertEstop, if_neg (by exact hdown)] at hdoes
  · have hdoes := completes_does (exec_stallTimerExpiry s)
    split
    · next hruns =>
      rwa [State.expireStall, if_pos (by exact hruns)] at hdoes
    · next hnot =>
      rwa [State.expireStall, if_neg (by exact hnot)] at hdoes

end Sys2Proof.Machine
end

section
/-! SUPPORT. A new lug (R8, R11) and the presence eyes (R13, R14, R15). -/

open Sys2Proof

namespace Sys2Proof.Machine

/-! ## The presence eyes -/

theorem Lug.stranger_iff (l : Lug) (wood : Bool) :
    l.stranger wood = true ↔ l.piece = none ∧ l.untracked = false ∧ wood = true := by
  simp [Lug.stranger, and_assoc]

/-- A stranger, as the statements write it: the lug untracked, the OPEN run's count and the Status Block's. -/
theorem State.markStranger_eq (station : Nat) (s : State) :
    s.markStranger station =
      let u := s.onDt (fun d => { d with lugs := d.lugs.modify station (fun l => { l with untracked := true }) })
      (match s.tu.openArea with
        | some area => u.addTo (areaAddr area + 0xD188 + 4 * 4) 1
        | none => u).onDt (fun d => { d with strangers := d.strangers + 1 }) := rfl

theorem State.countDropMiss_clear (g : Geometry) (mark : DropMark) (s : State) :
    (s.countDropMiss mark).onLugAt g.e (fun l => { l with dropMark := none }) =
      (match s.tu.areaOfRun mark.run with
        | some area => s.addTo (areaAddr area + 0xD040 + 8 * mark.bin + 4) 1
        | none => s).onDt (fun d =>
          { d with
            dropMisses := d.dropMisses + 1
            lugs := d.lugs.modify g.e (fun l => { l with dropMark := none }) }) := rfl

/-- Settles O24, eye by eye. -/
theorem presenceEyesFindLostStrangerAndMiss : Obligations.PresenceEyesFindLostStrangerAndMiss := by
  refine ⟨fun g wood s => ⟨fun lug h => ?_, fun lug h => ?_⟩, fun eyes s g => ?_, fun eyes s g hg => ?_, fun n s => rfl⟩
  · simp only [State.checkTrim, h]
    cases hp : s.dt.pieceOf lug with
    | some p => rfl
    | none => exact if_congr (lug.stranger_iff wood) rfl rfl
  · simp only [State.checkEnd, h]
    cases lug.dropMark with
    | none => rfl
    | some mark =>
      refine if_congr ?_ rfl rfl
      simp
  · intro m
    show State.checkLoader eyes.loader m = _
    unfold State.checkLoader
    cases hl : m.dt.lugAt 0 with
    | none => rfl
    | some lug =>
      dsimp only
      cases hp : m.dt.pieceOf lug with
      | some p => rfl
      | none => exact if_congr (lug.stranger_iff eyes.loader) rfl rfl
  · have hdoes := completes_does (exec_restartCheck s eyes)
    have hsettle : State.settleRestart eyes s.clearOut
        = if s.dt.restartPending = true then s.clearOut.checkRestart g eyes else s.clearOut := by
      unfold State.settleRestart
      rw [show s.clearOut.dt.geometry = some g from hg]
      rfl
    rwa [hsettle] at hdoes

/-! ## A new lug -/

/-- The serial that follows an admission: the first in order that no entry holds, the admitted piece's among them. -/
theorem nextSerialAfter_isNext (pieces : List Piece) (p : Piece) (h : pieces.length < 96) :
    ∃ k, nextSerialAfter (pieces ++ [p]) p.serial = serialAfter p.serial k
      ∧ ¬(serialAfter p.serial k = p.serial ∨ ∃ q ∈ pieces, q.serial = serialAfter p.serial k)
      ∧ ∀ j, j < k → serialAfter p.serial j = p.serial ∨ ∃ q ∈ pieces, q.serial = serialAfter p.serial j := by
  have hheld (m : Word) : m ∈ (pieces ++ [p]).map (fun q => q.serial) ↔ m = p.serial ∨ ∃ q ∈ pieces, q.serial = m := by
    simp only [List.map_append, List.map_cons, List.map_nil, List.mem_append, List.mem_map, List.mem_singleton]
    exact or_comm
  obtain ⟨k, hnext, _, hfree, hbefore⟩ := nextSerialAfter_spec (pieces ++ [p]) p.serial (by simp; omega)
  rw [hnext] at hfree
  exact ⟨k, hnext, mt (hheld _).mpr hfree, fun j hj => (hheld _).mp (hbefore j hj)⟩

theorem State.handLoadAllowed_iff (s : State) :
    s.handLoadAllowed = true ↔
      (s.dt.hold.onlyHost = true ∧ s.dt.state.tracking = true
        ∧ 39 ≤ unreservedUnits s.dt s.tu s.xi ∧ s.rs.activeSlot ≠ none) ∧ s.dt.pieces.length < 96 := by
  simp only [State.handLoadAllowed, Deck.entryFree, Bool.and_eq_true, decide_eq_true_eq, Option.isSome_iff_ne_none]
  tauto

theorem State.offerLug_gated {s : State} {area : Area} (hgate : s.dt.gate = true) (hopen : s.tu.openArea = some area)
    (hfree : s.dt.pieces.length < 96) : s.offerLug true = s.admitBoard area false := by
  simp [State.offerLug, hopen, hgate, Deck.entryFree, hfree]

theorem State.offerLug_stranger {s : State} (hgate : s.dt.gate = false)
    (h : ∀ area, s.tu.openArea = some area → ¬s.handLoadAllowed = true) : s.offerLug true = s.markStranger 0 := by
  unfold State.offerLug
  rw [if_pos rfl]
  cases hopen : s.tu.openArea with
  | none => rfl
  | some area => simp [hgate, h area hopen]

/-- Settles O23. -/
theorem newLugIsAdmittedOrStranger : Obligations.NewLugIsAdmittedOrStranger := by
  intro s n inOrder held isNext admitted untracked resources byHand
  have hadmit (area : Area) (hand : Bool) (hroom : s.dt.pieces.length < 96) :
      ∃ m, isNext m ∧ s.admitBoard area hand = admitted area hand m := by
    obtain ⟨k, hnext, hfree, hbefore⟩ := nextSerialAfter_isNext s.dt.pieces
      (Piece.fresh n (((s.dt.lugAt 0).map (fun l => l.tag)).getD 0) ((s.tu.entry area).number.getD 0) hand) hroom
    exact ⟨_, ⟨k, hnext, by rw [hnext]; exact hfree, hbefore⟩, rfl⟩
  refine ⟨rfl, ?_, ?_, ?_⟩
  · rintro area hgate ⟨hopen, hroom⟩
    rw [State.offerLug_gated hgate hopen hroom]
    exact hadmit area false hroom
  · rintro area hgate ⟨hopen, hroom⟩ ⟨honly, htracking, hunits, hactive⟩
    rw [State.offerLug_handLoaded honly hgate htracking hroom hunits hopen hactive]
    exact hadmit area true hroom
  · intro hgate hno
    rw [State.offerLug_stranger hgate]
    · rfl
    · intro area hopen hallowed
      obtain ⟨hhand, hroom⟩ := s.handLoadAllowed_iff.mp hallowed
      exact hno ⟨hhand, area, hopen, hroom⟩

end Sys2Proof.Machine
end

section
/-! SUPPORT. A piece that is sorted (R7, R16, R81, R86, R153, R154, R155), and the records that wait (R172, R173). -/

open Sys2Proof

namespace Sys2Proof.Machine

/-! ## One piece of the table -/

theorem Deck.piece?_serial {d : Deck} {n : Word} {p : Piece} (h : d.piece? n = some p) : p.serial = n := by
  simpa using List.find?_some h

theorem State.onPiece_piece? (s : State) (n : Word) {f : Piece → Piece} (hf : ∀ p, (f p).serial = p.serial) :
    (s.onPiece n f).dt.piece? n = (s.dt.piece? n).map f := by
  show List.find? _ (List.map _ _) = _
  rw [find_onPiece _ _ _ _ hf]
  cases h : s.dt.piece? n with
  | none => rw [show s.dt.pieces.find? _ = none from h]; rfl
  | some p =>
    rw [show s.dt.pieces.find? _ = some p from h]
    simp [Deck.piece?_serial h]

theorem State.onPiece_piece?_other (s : State) {n m : Word} (hm : m ≠ n) {f : Piece → Piece}
    (hf : ∀ p, (f p).serial = p.serial) : (s.onPiece n f).dt.piece? m = s.dt.piece? m := by
  show List.find? _ (List.map _ _) = _
  rw [find_onPiece _ _ _ _ hf]
  cases h : s.dt.piece? m with
  | none => rw [show s.dt.pieces.find? _ = none from h]; rfl
  | some p =>
    have hp : p.serial ≠ n := by rw [Deck.piece?_serial h]; exact hm
    rw [show s.dt.pieces.find? _ = some p from h]
    simp [hp]

/-! ## The solver loses a piece -/

/-- TS takes nothing but the head of its queue. -/
theorem State.takeNext_piece?_of_notin {s : State} {n : Word} {p : Piece} (hp : s.dt.piece? n = some p)
    (hn : n ∉ s.ts.queue) : s.takeNext.dt.piece? n = some p := by
  obtain ⟨y, hy, hsame, hstate | ⟨_, hin, _⟩⟩ := s.takeNext_piece n p hp
  · rw [hy, ← hsame, ← hstate]
  · exact absurd hin hn

theorem State.takeNext_queue_sublist (s : State) : s.takeNext.ts.queue.Sublist s.ts.queue := by
  unfold State.takeNext
  split
  · next hq =>
    split
    · simp [hq]
    · simp [hq]
  · exact .refl _

theorem State.takeNext_solves {s : State} {n : Word} (hin : s.ts.solves n = false) (hq : n ∉ s.ts.queue) :
    s.takeNext.ts.solves n = false := by
  unfold State.takeNext
  split
  · next serial rest hi hqueue =>
    have hne : serial ≠ n := fun h => hq (by rw [hqueue, h]; exact List.mem_cons_self)
    split
    · simp [Solver.solves, hne]
    · exact hin
  · exact hin

@[simp] theorem State.takeNext_lugs (s : State) :
    s.takeNext.dt.lugs = s.dt.lugs ∧ s.takeNext.dt.upstream = s.dt.upstream := by
  unfold State.takeNext
  split
  · split <;> simp
  · simp

section Leaves

variable (n : Word) (s : State)

theorem State.leaveQueue_notin : n ∉ (s.leaveQueue n).ts.queue := by simp [State.leaveQueue]

@[simp] theorem State.abandonSolve_lugs :
    (s.abandonSolve n).dt.lugs = s.dt.lugs ∧ (s.abandonSolve n).dt.upstream = s.dt.upstream := by
  unfold State.abandonSolve
  split <;> simp

variable {n s}

theorem State.abandonSolve_piece? {p : Piece} (hp : s.dt.piece? n = some p) (hn : n ∉ s.ts.queue) :
    (s.abandonSolve n).dt.piece? n = some p := by
  unfold State.abandonSolve
  split
  · exact State.takeNext_piece?_of_notin hp hn
  · exact hp

theorem State.abandonSolve_notin (hn : n ∉ s.ts.queue) : n ∉ (s.abandonSolve n).ts.queue := by
  unfold State.abandonSolve
  split
  · exact fun h => hn ((State.takeNext_queue_sublist (s.onTs _)).subset h)
  · exact hn

theorem State.abandonSolve_solves (hn : n ∉ s.ts.queue) : (s.abandonSolve n).ts.solves n = false := by
  unfold State.abandonSolve
  split
  · exact State.takeNext_solves rfl hn
  · next h => exact Bool.eq_false_of_not_eq_true h

end Leaves

/-! ## Retirement and the record -/

@[simp] theorem State.retire_dt (p : Piece) (s : State) :
    (s.retire p).dt = { s.dt with pieces := s.dt.pieces.filter (fun q => q.serial != p.serial) } := by
  unfold State.retire
  dsimp only
  cases p.generation <;> (split <;> simp)

@[simp] theorem State.askPiece_lugs (serial : Word) (s : State) :
    (s.askPiece serial).dt.lugs = s.dt.lugs ∧ (s.askPiece serial).dt.upstream = s.dt.upstream := by
  unfold State.askPiece State.writeWaiting
  dsimp only
  cases s.dt.piece? serial <;> (split <;> simp [State.writePiece])

/-- A piece asks for its record (R172, R173). -/
theorem State.askPiece_eq {n : Word} {q : Piece} {s : State} (h : s.dt.piece? n = some q) :
    s.askPiece n =
      if s.xi.waiting = [] ∧ fillerUnits s.xi.fill q.recordUnits + q.recordUnits
          ≤ unreservedUnits s.dt s.tu s.xi + q.reservation then (s.writePiece q).syncHolds
      else s.onXi (fun xi => { xi with waiting := xi.waiting ++ [.piece n] }) := by
  unfold State.askPiece mayWrite State.writeWaiting mayWriteHeld
  simp only [h, Bool.and_eq_true, List.isEmpty_iff, decide_eq_true_eq]

/-! ## SORTED -/

/-- A piece SORTED with a bin, its assembly record dropped. -/
def Piece.sortInto (bin : Nat) (p : Piece) : Piece := { p with state := .sorted, bin := some bin, assembly := none }

/-- A piece taken off its lug and out of the solver, as it stands for the tally (R7, R86). -/
def State.sortedOut (n : Word) (run bin : Nat) (s : State) : State :=
  (((s.onPiece n (Piece.sortInto bin)).detach n run bin).leaveQueue
    n).abandonSolve n

theorem State.sortedOut_piece? {n : Word} {bin : Nat} {s : State} {p : Piece} (h : s.dt.piece? n = some p) (run : Nat) :
    (s.sortedOut n run bin).dt.piece? n = some (p.sortInto bin) := by
  refine State.abandonSolve_piece? ?_ (State.leaveQueue_notin n _)
  exact (State.onPiece_piece? s n (f := Piece.sortInto bin) (fun _ => rfl)).trans (by rw [h]; rfl)

theorem State.sortPiece_eq {n : Word} {bin : Nat} {s : State} {p : Piece} (h : s.dt.piece? n = some p)
    (hs : p.state ≠ .sorted) :
    s.sortPiece n bin =
      ((s.sortedOut n p.run bin).tallyPiece (p.sortInto bin)).askPiece n := by
  have hout := State.sortedOut_piece? (bin := bin) h p.run
  unfold State.sortPiece
  simp only [h, if_neg hs]
  change (match (s.sortedOut n p.run bin).dt.piece? n with
    | some p' => ((s.sortedOut n p.run bin).tallyPiece p').askPiece n
    | none => s.sortedOut n p.run bin) = _
  rw [hout]

/-- A tally changes memory alone: it leaves every view that an addition to a count leaves. -/
theorem State.tallyPiece_view {α : Type} (view : State → α) (h : ∀ address n s, view (s.addTo address n) = view s)
    (p : Piece) (s : State) : view (s.tallyPiece p) = view s := by
  unfold State.tallyPiece State.tallyBin
  split
  · rfl
  · next area _ =>
    have hproducts := State.each_same view p.tallied
      (State.tallyProduct area (nominals (s.rs.boundRules p) (p.sizeClass.getD 0)) (p.sizeClass.getD 0))
      (fun x u => (h _ _ _).trans (h _ _ u)) s
    have hexceptions (u : State) :=
      State.each_same view pieceExceptions (fun e s => s.addExceptionIf (p.counts e) area e) (fun e u => by
        unfold State.addExceptionIf
        split
        · exact h _ _ u
        · rfl) u
    refine (hexceptions _).trans ?_
    split
    · exact hproducts
    · exact (h _ _ _).trans hproducts

theorem nominals_eq (r : Rules) (size : Nat) : nominals r size =
    if size = 0 then (r.policy.offSizeWidth, r.policy.offSizeThick)
    else ((r.sizes[size - 1]?).map (fun z => (z.nominalWidth, z.nominalThick))).getD (0, 0) := by
  unfold nominals
  cases r.sizes[size - 1]? <;> rfl

theorem Piece.tallied_eq (p : Piece) : p.tallied =
    if p.cutCheck = some .clean ∧ p.recut = false ∧ p.lost = false then
      (p.solution.map (fun sol => sol.products)).getD []
    else [] := by
  have hproducts : p.products = (p.solution.map (fun sol => sol.products)).getD [] := by
    unfold Piece.products
    cases p.solution <;> rfl
  exact if_congr (by simp [Piece.madeProducts, and_assoc]) hproducts rfl

/-- Settles O25: the record is asked for in the state that the detachment, the solver and the tally leave, where the piece
still stands SORTED in the table. -/
theorem sortedPieceIsDetachedAndRecorded : Obligations.SortedPieceIsDetachedAndRecorded := by
  unfold Obligations.SortedPieceIsDetachedAndRecorded
  intro retired
  refine ⟨?_, fun p s => rfl, fun address n s => rfl, ?_⟩
  · intro n bin s p hp hs t detach q u u' u'' v len left filler
    have hout : u''.dt.piece? n = some q := State.sortedOut_piece? (bin := bin) hp p.run
    have ht : t = v.askPiece n := State.sortPiece_eq hp hs
    have hv : v.dt.piece? n = some q := by rw [State.tallyPiece_dt]; exact hout
    have hts : t.ts = u''.ts := by
      rw [ht, (v.askPiece_same n).2.2.2.1]
      exact State.tallyPiece_view (fun s => s.ts) (fun _ _ _ => rfl) q u''
    have hlugs : t.dt.lugs = u''.dt.lugs ∧ t.dt.upstream = u''.dt.upstream := by
      rw [ht, (v.askPiece_lugs n).1, (v.askPiece_lugs n).2, State.tallyPiece_dt]
      exact ⟨rfl, rfl⟩
    obtain ⟨habLugs, habUp⟩ := State.abandonSolve_lugs n
      (((s.onPiece n (Piece.sortInto bin)).detach n p.run bin).leaveQueue n)
    refine ⟨hout, ?_, hlugs.1.trans habLugs, hlugs.2.trans habUp, ?_, ?_⟩
    · rw [ht, State.askPiece_eq hv]
      have hn : q.serial = n := Deck.piece?_serial hv
      rw [← hn]
      rfl
    · rw [hts]
      exact State.abandonSolve_notin (State.leaveQueue_notin n
        ((s.onPiece n (Piece.sortInto bin)).detach n p.run bin))
    · rw [hts]
      exact State.abandonSolve_solves (State.leaveQueue_notin n
        ((s.onPiece n (Piece.sortInto bin)).detach n p.run bin))
  · intro p s
    refine ⟨fun h => ?_, ?_⟩
    · unfold State.tallyPiece
      rw [h]
    · intro x h rules size nominal made row u v scan committed exceptions
      have hnominal : nominals rules size = nominal := nominals_eq rules size
      have hmade : p.tallied = made := p.tallied_eq
      have hproducts : s.each p.tallied (State.tallyProduct x (nominals rules size) size) = u := by
        rw [hnominal, hmade]
        rfl
      have hbin : u.tallyBin x p = v := by
        unfold State.tallyBin
        rw [hmade]
        exact if_congr .rfl rfl (congrArg (fun n => u.addTo (binRow x (p.bin.getD 0)) n)
          (if_congr List.isEmpty_iff rfl rfl))
      have htally : s.tallyPiece p =
          ((s.each p.tallied (State.tallyProduct x (nominals rules size) size)).tallyBin x p).each pieceExceptions
            (fun e s => s.addExceptionIf (p.counts e) x e) := by
        unfold State.tallyPiece
        rw [h]
      rw [htally, hproducts, hbin]
      rfl

/-! ## The waiting list -/

/-- The free units are the distance from the fill mark up to the unit before the release mark, around the ring (R170). -/
theorem Exchange.freeUnits_int {xi : Exchange} (hf : xi.fill < 49152) :
    (xi.freeUnits : Int) = ((xi.release : Int) - (xi.fill : Int) - 1) % 49152 := by
  simp only [Exchange.freeUnits, journalUnits]
  omega

theorem mayWriteLog_iff (s : State) : mayWriteLog s = true ↔
    (if 49152 - s.xi.fill < 2 then 49152 - s.xi.fill else 0) + 2 + 19 ≤ unreservedUnits s.dt s.tu s.xi :=
  decide_eq_true_iff

/-- A piece at the head of the waiting list (R172, R173). -/
theorem State.drainAll_piece {s : State} {n : Word} {rest : List Waiting} {p : Piece}
    (hw : s.xi.waiting = .piece n :: rest) (hp : s.dt.piece? n = some p) :
    s.drainAll =
      if fillerUnits s.xi.fill p.recordUnits + p.recordUnits ≤ unreservedUnits s.dt s.tu s.xi + p.reservation then
        ((s.onXi (fun xi => { xi with waiting := rest })).writePiece p).drainAll
      else s := by
  have hpiece : (s.onXi (fun xi => { xi with waiting := rest })).dt.piece? n = some p := hp
  rw [State.drainAll_head hw]
  refine if_congr ?_ ?_ rfl
  · simp [mayWrite, mayWriteHeld, hp]
  · unfold State.writeWaiting
    simp only [hpiece]

/-- A log record at the head of the waiting list (R157, R172). -/
theorem State.drainAll_log {s : State} {rest : List Waiting} (hw : s.xi.waiting = .log :: rest) :
    s.drainAll =
      if mayWriteLog s = true then ((s.onXi (fun xi => { xi with waiting := rest })).writePending).drainAll
      else s :=
  State.drainAll_head hw

theorem State.writePending_eq {s : State} {r : LogRecord} {logs : List LogRecord} (h : s.tu.pendingLogs = r :: logs) :
    s.writePending =
      match ((s.onTu (fun tu => { tu with pendingLogs := logs })).writeLog r).tu.areaOfRun r.run with
      | some x => (((s.onTu (fun tu => { tu with pendingLogs := logs })).writeLog r).onArea x
          (fun e => { e with logPending := e.logPending - 1 })).closeIfDrained x
      | none => (s.onTu (fun tu => { tu with pendingLogs := logs })).writeLog r := by
  unfold State.writePending
  rw [h] <;> rfl

/-- Settles O15: the first entry of the list is written or stops it, and the rest drains after it. -/
theorem waitingRecordsAreWrittenInOrder : Obligations.WaitingRecordsAreWrittenInOrder := by
  refine ⟨fun s => ⟨fun hf _ => Exchange.freeUnits_int hf, rfl, rfl, mayWriteLog_iff s⟩, ?_⟩
  intro s free filler
  refine ⟨State.drainAll_empty, ?_⟩
  intro w rest hw u
  refine ⟨?_, ?_⟩
  · intro n p hn hp len
    rw [hn] at hw
    exact State.drainAll_piece hw hp
  · intro r logs hlog hpending
    rw [hlog] at hw
    refine (State.drainAll_log hw).trans (if_congr (mayWriteLog_iff s) (congrArg State.drainAll ?_) rfl)
    exact (State.writePending_eq (s := u) hpending).trans rfl

end Sys2Proof.Machine
end

section
/-! SUPPORT. The cut check, and the saws that join the lock set (R102, R132, R133, R135, R136). -/

open Sys2Proof

namespace Sys2Proof.Machine

/-! ## Saws joining the lock set -/

theorem Deck.newRecuts_zero (d : Deck) : d.newRecuts 0 = 0 := by
  have hloses (p : Piece) : p.losesSaws 0 = 0 := by
    unfold Piece.losesSaws
    split
    · split
      · exact BitVec.and_zero
      · rfl
    · rfl
  unfold Deck.newRecuts
  simp only [hloses]
  simp

theorem WindowEntry.without_zero (w : WindowEntry) : w.without 0 = w := by
  have h : w.command &&& ~~~(0 : SawSet) = w.command := BitVec.and_allOnes
  unfold WindowEntry.without
  rw [h]

/-- What saws that join the lock set leave of AX (R135, R136). -/
theorem State.joinLock_ax (saws : SawSet) (s : State) :
    (s.joinLock saws).ax =
      { s.ax with
        sawOut := s.ax.sawOut &&& ~~~saws
        window := s.ax.window.map (WindowEntry.without saws)
        recuts := s.ax.recuts + BitVec.ofNat 32 (s.dt.newRecuts saws) } := by
  unfold State.joinLock
  split
  · next h =>
    subst h
    have hwindow : s.ax.window.map (WindowEntry.without 0) = s.ax.window :=
      (List.map_congr_left (fun w _ => w.without_zero)).trans (List.map_id _)
    have hout : s.ax.sawOut &&& ~~~(0 : SawSet) = s.ax.sawOut := BitVec.and_allOnes
    rw [hwindow, hout, Deck.newRecuts_zero]
    simp
  · exact State.each_same (fun s => s.ax) _ State.joinQueue (fun n s => (s.joinQueue_same n).2.2.2.2.2.2.2.1) _

theorem State.joinLock_xi (saws : SawSet) (s : State) : (s.joinLock saws).xi = s.xi := by
  unfold State.joinLock
  split
  · rfl
  · exact State.each_same (fun s => s.xi) _ State.joinQueue (fun n s => (s.joinQueue_same n).2.2.2.2.2.2.2.2.2) _

/-! ## The cut check's table -/

theorem has_mismatchSaws (n : Nat) (command feedback : SawSet) (k : Nat) :
    has (mismatchSaws n command feedback) k
      = decide (1 ≤ k ∧ k ≤ 20 ∧ k ≤ n ∧ has command k ≠ has feedback k) := by
  rw [Bool.eq_iff_iff, decide_eq_true_iff]
  by_cases hlo : 1 ≤ k
  · by_cases hhi : k ≤ 20
    · rw [mismatchSaws, has_maskOf 20 _ k hlo hhi]
      simp [List.mem_range'_1, hlo, hhi, Nat.lt_succ_of_le hhi, Nat.add_comm 1 20]
    · simp [has, BitVec.getLsbD_of_ge _ (k - 1) (by omega : 20 ≤ k - 1), hhi]
  · simp [has, hlo]

section Table

variable {deck : DeckState} {entry : Option WindowEntry} {saws : Nat} {feedback : SawSet} {recut : Nat}

/-- A window entry reads ISSUED where there is one and it does. -/
theorem issued_getD_iff (entry : Option WindowEntry) :
    (entry.map (fun w => w.issued)).getD false = true
      ↔ entry.isSome = true ∧ ∀ w, entry = some w → w.issued = true := by
  cases entry <;> simp

/-- The cut check of a COMMITTED piece (R132). -/
theorem cutAction_committed {q : Piece} (hq : q.state = .committed) :
    cutAction deck entry (some q) saws feedback recut =
      if deck = .faulted then .cut .uncut 0 (some 0)
      else if (entry.map (fun w => w.issued)).getD false = true then
        compareAction (some q) (mismatchSaws saws ((entry.map (fun w => w.command)).getD 0) feedback) recut
      else if q.dropSet = 0 then .cut .notCutEmpty 0 none
      else .cut .uncut 0 (some recut) := by
  simp [cutAction, hq, Option.filter]

/-- The cut check leaves a piece that is not COMMITTED alone. -/
theorem cutAction_other {q : Piece} (hq : q.state ≠ .committed) :
    cutAction deck entry (some q) saws feedback recut = .nothing := by
  simp [cutAction, hq, Option.filter]

/-- The cut check of an empty lug (R132). -/
theorem cutAction_none :
    cutAction deck entry none saws feedback recut =
      if deck ≠ .faulted ∧ (entry.map (fun w => w.issued)).getD false = true ∧ mismatchSaws saws 0 feedback ≠ 0 then
        .mismatchOnly (mismatchSaws saws 0 feedback)
      else .nothing := by
  by_cases hd : deck = .faulted
  · simp [cutAction, hd]
  · by_cases hi : (entry.map (fun w => w.issued)).getD false = true
    · simp [cutAction, hd, hi, compareAction]
    · simp [cutAction, hd, hi]

end Table

/-- The cut check of a forward beat (R132, R133): the table's action, and the faults it found. -/
theorem State.checkCut_eq (g : Geometry) (feedback : SawSet) (s : State) :
    s.checkCut g feedback =
      match cutAction s.dt.state s.ax.window[g.d]? (s.dt.pieceAt (g.t + 1)) g.sawCount feedback
          ((s.dt.pieceAt (g.t + 1)).map (fun p => (s.rs.boundRules p).policy.recutBin) |>.getD 0),
        s.dt.pieceAt (g.t + 1) with
      | .cut result saws target, some p => (s.cutPiece p.serial result saws target).faultSaws saws
      | .mismatchOnly saws, _ => s.faultSaws saws
      | _, _ => s := by
  unfold State.checkCut
  cases hp : s.dt.pieceAt (g.t + 1) with
  | none =>
    simp only [Option.map_none, Option.getD_none, cutAction_none]
    split
    · rfl
    · exact s.faultSaws_zero
  | some p =>
    dsimp only
    generalize cutAction s.dt.state _ _ _ _ _ = action
    cases action with
    | nothing => exact s.faultSaws_zero
    | cut result saws target => rfl
    | mismatchOnly saws => rfl

/-- Settles O26: the table by the lug's piece, the deck state and the window entry. -/
theorem cutCheckFollowsItsTable : Obligations.CutCheckFollowsItsTable := by
  refine ⟨?_, ?_⟩
  · intro g feedback s p recut
    refine (s.checkCut_eq g feedback).trans ?_
    have hrecut : ((s.dt.pieceAt (g.t + 1)).map (fun p => (s.rs.boundRules p).policy.recutBin)).getD 0 = recut := by
      show _ = match s.dt.pieceAt (g.t + 1) with
        | some p => (s.rs.boundRules p).policy.recutBin
        | none => 0
      cases s.dt.pieceAt (g.t + 1) <;> rfl
    rw [hrecut] <;> rfl
  · intro deck entry p saws feedback recut action issued
    refine ⟨?_, ?_, ?_, fun command k => has_mismatchSaws saws command feedback k⟩
    · rintro q rfl hq
      have haction : action = _ := cutAction_committed hq
      refine ⟨fun hd => haction.trans (if_pos hd), ?_, fun hd hi => ?_⟩
      · intro hd hi w hw wrong
        refine haction.trans ((if_neg hd).trans ((if_pos ((issued_getD_iff entry).2 hi)).trans ?_))
        rw [hw]
        simp only [compareAction, bne_iff_ne]
        exact if_congr .rfl rfl rfl
      · exact haction.trans ((if_neg hd).trans (if_neg (fun h => hi ((issued_getD_iff entry).1 h))))
    · rintro q rfl hq
      exact cutAction_other hq
    · rintro rfl
      exact cutAction_none.trans (if_congr (and_congr_right fun _ => and_congr_left fun _ => issued_getD_iff entry) rfl rfl)

/-! ## What a cut check leaves -/

/-- The CUT piece's counts (R144). -/
theorem Actuation.countCheck_eq (ax : Actuation) (result : CutCheck) :
    ax.countCheck result =
      { ax with
        cutOk := ax.cutOk + (if result = .clean then 1 else 0)
        cutMismatch := ax.cutMismatch + (if result = .mismatch then 1 else 0)
        cutUncut := ax.cutUncut + (if result = .uncut then 1 else 0)
        cutEmpty := ax.cutEmpty + (if result = .notCutEmpty then 1 else 0) } := by
  cases result <;> simp [Actuation.countCheck]

theorem Piece.cutWith_eq (result : CutCheck) (saws : SawSet) (target : Option Nat) (p : Piece) :
    p.cutWith result saws target =
      { p with
        state := .cut
        cutCheck := some result
        mismatch := saws
        commit := p.commit.map (fun c =>
          { c with
            target := target.getD c.target
            cause := if target.isSome then .cutCheck else c.cause }) } := by
  cases target <;> rfl

/-- A change of each saw of a list without repetition. -/
theorem State.each_onSaw_saws {l : List Nat} (hl : l.Nodup) (f : Saw → Saw) (s : State) {k : Nat} {w : Saw}
    (hk : s.ax.saws[k]? = some w) :
    (s.each l (fun i s => s.onSaw i f)).ax.saws[k]? = some (if k + 1 ∈ l then f w else w) := by
  induction l generalizing s w with
  | nil => simpa [State.each] using hk
  | cons i rest ih =>
    obtain ⟨hi, hrest⟩ := List.nodup_cons.1 hl
    have hone : (s.onSaw i f).ax.saws[k]? = some (if k + 1 = i then f w else w) := by
      rw [State.onSaw_ax]
      by_cases h0 : i = 0
      · simpa [h0] using hk
      · have hik : i - 1 = k ↔ k + 1 = i := by omega
        simp [h0, List.getElem?_modify, hk, hik]
    refine (ih hrest (s.onSaw i f) hone).trans ?_
    by_cases hki : k + 1 = i
    · simp [hki, hi]
    · simp [hki]

theorem members_nodup (n : Nat) (saws : SawSet) : (members n saws).Nodup := (List.nodup_range').filter _

/-- The saws that get the reason FAULT newly, counted by their places (R133). -/
theorem Actuation.newlyFaulted_length (ax : Actuation) (saws : SawSet) :
    (ax.newlyFaulted saws).length = ((List.range 20).filter (fun k =>
      has saws (k + 1) && ((ax.saws[k]?).map (fun w => !w.fault)).getD false)).length := by
  have hrange : List.range' 1 20 = (List.range 20).map (fun k => k + 1) := by decide
  unfold Actuation.newlyFaulted members
  rw [hrange, List.filter_filter, List.filter_map, List.length_map]
  congr 2
  funext k
  simp [Bool.and_comm]

/-- Settles O27: the loop over the mismatched saws changes each once, and the rest is the notices and the join. -/
theorem cutCheckMarksPieceAndSaws : Obligations.CutCheckMarksPieceAndSaws := by
  intro s
  refine ⟨?_, ?_⟩
  · intro n result saws target
    unfold State.cutPiece
    rw [funext (fun p => Piece.cutWith_eq result saws target p), funext (fun ax => Actuation.countCheck_eq ax result)]
  · intro saws hsaws t
    let faulted := s.each (members 20 saws) (fun k s =>
      s.onSaw k (fun w => { w with fault := true, mismatches := w.mismatches + 1 }))
    obtain ⟨list, hlist, _⟩ := Kept.eachSaw_shape (members 20 saws)
      (fun w => { w with fault := true, mismatches := w.mismatches + 1 }) s
    have hfaulted : faulted = { s with ax := { s.ax with saws := list } } := hlist
    have ht : t = (State.notifyTimes .fault (s.ax.newlyFaulted saws).length faulted).joinLock
        (saws &&& ~~~s.ax.lockSet) := rfl
    have htsaws : t.ax.saws = faulted.ax.saws := by rw [ht, State.joinLock_ax, State.notifyTimes_ax]
    refine ⟨?_, ?_, ?_, ?_⟩
    · intro k w hk
      have hk20 : k < 20 := hsaws ▸ (List.getElem?_eq_some_iff.1 hk).1
      rw [htsaws, State.each_onSaw_saws (members_nodup 20 saws) _ s hk]
      refine congrArg some (if_congr ?_ rfl rfl)
      rw [mem_members]
      exact ⟨fun h => h.2.2, fun h => ⟨by omega, by omega, h⟩⟩
    · rw [ht, State.joinLock_xi, State.notifyTimes_spec, Raises.addTimes_fault, hfaulted, ← s.ax.newlyFaulted_length]
    · rw [ht, State.joinLock_ax, State.notifyTimes_ax, hfaulted]
    · rw [htsaws, ← s.ax.newlyFaulted_length, ht, hfaulted]
      rfl

end Sys2Proof.Machine
end

section
/-! SUPPORT. The bin test (R139, R140, R141). -/

open Sys2Proof

namespace Sys2Proof.Machine

/-- The bin test of a CUT piece that has not been tested at the station (R140). -/
theorem State.testBin_cut {g : Geometry} {b : Nat} {s : State} {station : Nat} {p : Piece} {c : CommitPart}
    (hb : g.binStation b = some station) (hp : s.dt.pieceAt station = some p) (hs : p.state = .cut)
    (hc : p.commit = some c) :
    s.testBin g b =
      if ∀ l, c.lastStation = some l → l < station then
        let action := binAction g (s.binAvailable b) b c
        let u := (s.onPiece p.serial (fun p =>
          { p with commit := p.commit.map (CommitPart.test station action) })).onBin b (Bin.test action)
        if action = .drop then u.sortPiece p.serial b else u
      else s := by
  unfold State.testBin
  simp only [hb, hp, hs, hc]
  refine if_congr ?_ rfl rfl
  cases c.lastStation <;> simp

theorem State.testBin_none {g : Geometry} {b : Nat} {s : State}
    (h : ∀ station p, g.binStation b = some station → s.dt.pieceAt station = some p → p.state ≠ .cut) :
    s.testBin g b = s := by
  unfold State.testBin
  split
  · rfl
  · next station hstation =>
    split
    · rfl
    · next p hp =>
      split
      · next hcut _ => exact absurd hcut (h station p hstation hp)
      · rfl

/-- A bin is available while it is neither closed nor full and the deck is not FAULTED (R139). -/
theorem State.binAvailable_eq (b : Nat) (s : State) :
    s.binAvailable b = ((s.ax.bins[b - 1]?).any (fun x => !x.closed && !x.isFull) && s.dt.state != .faulted) := by
  unfold State.binAvailable
  cases s.ax.bins[b - 1]? <;> simp [Bin.available]

/-- The alternate that an unavailable bin sends a board to (R140). -/
theorem binAction_of_unavailable {g : Geometry} {b station : Nat} {c : CommitPart} (hb : g.binStation b = some station)
    (hc : c.target = b) :
    binAction g false b c =
      if c.cause = .sortPrimary ∧ ∃ alt, c.alternate = some alt ∧ alt ≠ 0 ∧ station < (g.binStation alt).getD 0 then
        .alternate (c.alternate.getD 0)
      else .fallout := by
  unfold binAction
  cases c.alternate <;> simp [hc, hb]

theorem State.onBin_id (b : Nat) (s : State) : s.onBin b (Bin.test .nothing) = s := by
  have h : Bin.test .nothing = id := rfl
  simp [State.onBin, State.onAx, h]

/-- Settles O29: the action that the target, the bin and the alternate give, then its effect. -/
theorem binTestDropsOrDiverts : Obligations.BinTestDropsOrDiverts := by
  refine ⟨?_, ?_⟩
  · intro g s
    refine ⟨?_, ?_, rfl, fun b => State.testBin_none, fun b => s.binAvailable_eq b⟩
    · intro p hp hs
      unfold State.fallOut
      simp only [hp, if_pos hs]
    · intro h
      unfold State.fallOut
      split
      · rfl
      · next p hp => exact if_neg (h p hp)
  · intro g b s station p c hb hp hs hc part
    have htest := State.testBin_cut hb hp hs hc
    split
    · next hnew =>
      rw [if_pos hnew] at htest
      split
      · next htarget =>
        have haction : binAction g (s.binAvailable b) b c = .nothing := if_pos htarget
        rw [haction] at htest
        exact htest.trans (State.onBin_id b _)
      · next htarget =>
        split
        · next havailable =>
          have haction : binAction g (s.binAvailable b) b c = .drop := by
            rw [havailable]
            exact if_neg htarget
          rw [haction] at htest
          exact htest
        · next hun =>
          have haction := binAction_of_unavailable hb (not_not.1 htarget)
          rw [← Bool.eq_false_of_not_eq_true hun] at haction
          split
          · next halt =>
            rw [haction, if_pos halt] at htest
            exact htest
          · next halt =>
            rw [haction, if_neg halt] at htest
            exact htest
    · next hold => exact htest.trans (if_neg hold)

end Sys2Proof.Machine
end

section
/-! SUPPORT. A sweep (R162, R164, R166, R174, R175): no request that it takes changes ENABLE. -/

open Sys2Proof

namespace Sys2Proof.Machine

/-! ## No request changes ENABLE -/

@[simp] theorem State.hostWrites_xi (host : List HostWrite) (s : State) : (s.hostWrites host).xi = s.xi :=
  State.each_same (fun s => s.xi) host _ (fun w s => by rw [State.hostWrite_same]) s

@[simp] theorem State.wakeHeads_enable (s : State) : s.wakeHeads.xi.enable = s.xi.enable := by
  unfold State.wakeHeads
  exact State.each_same (fun s => s.xi.enable) (List.range' 1 8) _ (fun n s => by split <;> rfl) s

@[simp] theorem State.wakeLine_enable (s : State) : s.wakeLine.xi.enable = s.xi.enable := by
  unfold State.wakeLine
  dsimp only
  split <;> simp

@[simp] theorem State.leaveRunning_enable (s : State) : s.leaveRunning.xi.enable = s.xi.enable := by
  simp [State.leaveRunning]

@[simp] theorem State.reportDeck_enable (old new : DeckState) (s : State) :
    (s.reportDeck old new).xi.enable = s.xi.enable := by
  unfold State.reportDeck
  dsimp only
  split <;> simp

@[simp] theorem State.startStandby_enable (s : State) : s.startStandby.xi.enable = s.xi.enable := rfl

@[simp] theorem State.setDeck_enable (new : DeckState) (s : State) : (s.setDeck new).xi.enable = s.xi.enable := by
  unfold State.setDeck
  dsimp only
  split
  · rfl
  · by_cases hrun : new = .running
    · rw [if_pos hrun]
      split <;> split <;> split <;> simp
    · rw [if_neg hrun]
      split <;> split <;> split <;> simp

@[simp] theorem State.trimAccepted_xi (p : Piece) (s : State) : (s.trimAccepted p).xi = s.xi := by
  unfold State.trimAccepted
  split <;> simp

@[simp] theorem State.acceptOverride_xi (kind : OverrideKind) (source : Source) (authority : Bool) (p : Piece)
    (s : State) : (s.acceptOverride kind source authority p).xi = s.xi := by
  cases kind <;> simp [State.acceptOverride, OverrideKind.gradeKind, OverrideKind.trimKind]

@[simp] theorem State.resolve_xi (tag : Byte) (kind : OverrideKind) (source : Source) (authority : Bool) (s : State) :
    (s.resolve tag kind source authority).xi = s.xi := by
  have hcount (answer : Result) : (s.countTake source answer).xi = s.xi := by cases source <;> rfl
  unfold State.resolve
  split <;> simp [hcount]

@[simp] theorem State.lockSaw_xi (k : Nat) (s : State) : (s.lockSaw k).xi = s.xi := by
  unfold State.lockSaw
  dsimp only
  split
  · exact State.joinLock_xi _ _
  · rfl

@[simp] theorem State.openRunIn_enable (x : Area) (label : Word) (s : State) :
    (s.openRunIn x label).xi.enable = s.xi.enable := by
  unfold State.openRunIn
  dsimp only
  split <;> simp [State.drainRun, State.startRun, State.writeHeader]

theorem State.serve_enable (kind : Option ReqKind) (r : Request) (s : State) :
    (s.serve kind r).xi.enable = s.xi.enable := by
  cases kind with
  | none => simp [State.serve, State.serveUnknownKind]
  | some k =>
    cases k with
    | setGeometry =>
      simp only [State.serve, State.serveSetGeometry]
      split
      · split <;> simp
      · simp
    | startLine =>
      simp only [State.serve, State.serveStartLine]
      split <;> simp
    | resume =>
      simp only [State.serve, State.serveResume]
      split
      · split <;> simp
      · simp
    | holdLoader => simp [State.serve, State.serveHoldLoader, State.setHostHold]
    | releaseLoader => simp [State.serve, State.serveReleaseLoader, State.setHostHold]
    | queryLug => simp [State.serve, State.serveQueryLug]
    | enableHead =>
      simp only [State.serve, State.serveEnableHead]
      repeat' split
      all_goals simp
    | disableHead =>
      simp only [State.serve, State.serveDisableHead]
      repeat' split
      all_goals simp
    | alignHead =>
      simp only [State.serve, State.serveAlignHead]
      repeat' split
      all_goals simp [State.keepInHand]
    | cancelAlign =>
      simp only [State.serve, State.serveCancelAlign]
      split <;> simp
    | activateRules =>
      simp only [State.serve, State.serveActivateRules]
      repeat' split
      all_goals simp [State.keepInHand]
    | remoteOverride =>
      simp only [State.serve, State.serveRemoteOverride]
      repeat' split
      all_goals simp
    | lockSaw =>
      simp only [State.serve, State.serveLockSaw]
      split <;> simp
    | unlockSaw =>
      simp only [State.serve, State.serveUnlockSaw]
      split <;> simp
    | setBin =>
      simp only [State.serve, State.serveSetBin]
      split <;> simp
    | openRun =>
      simp only [State.serve, State.serveOpenRun]
      repeat' split
      all_goals simp
    | closeRun =>
      simp only [State.serve, State.serveCloseRun]
      repeat' split
      all_goals simp [State.drainRun, State.writeHeader]
    | releaseArea =>
      simp only [State.serve, State.serveReleaseArea]
      repeat' split
      all_goals simp [State.keepInHand]

/-! ## The visits of a sweep -/

theorem State.takeCell_enable (kind : Option ReqKind) (cell : Nat) (s : State) :
    (s.takeCell kind cell).xi.enable = s.xi.enable := State.serve_enable kind _ _

theorem State.endEvent_enable (always : Bool) (before : List Byte) (s : State) :
    (s.endEvent always before).xi.enable = s.xi.enable := by
  rw [(State.endEvent_settles always before s).xi]

theorem State.visitNext_enable {cell : Nat} {s : State} (h : s.xi.sweep = some cell) :
    (s.visitNext cell).xi.enable = s.xi.enable := by
  cases htake : s.takeable cell with
  | true => rw [State.visitNext_takes h htake, State.endEvent_enable, State.takeCell_enable]
  | false => rw [State.visitNext_passes h htake, State.onXi_xi]

theorem State.visitCells_enable (n : Nat) (s : State) : (State.visitCells n s).xi.enable = s.xi.enable := by
  induction n generalizing s with
  | zero => rfl
  | succ n ih =>
    cases h : s.xi.sweep with
    | none => rw [State.visitCells_none _ h]
    | some cell => rw [State.visitCells_some n h, ih, State.visitNext_enable h]

/-! ## The release mark and the notify count -/

theorem Exchange.validMark_iff (xi : Exchange) (mark : Nat) :
    xi.validMark mark = true ↔ mark < 49152 ∧ (mark = xi.fill ∨ mark = xi.release ∨ mark ∈ xi.starts) := by
  change _ ↔ mark < journalUnits ∧ _
  simp only [Exchange.validMark, Bool.and_eq_true, decide_eq_true_eq, Bool.or_eq_true, beq_iff_eq,
    List.contains_iff_mem, or_assoc]

theorem State.readReleaseMark_valid {s : State} (h : s.xi.validMark (s.mem.read32 releaseMarkAddr).toNat = true) :
    s.readReleaseMark =
      if (s.mem.read32 releaseMarkAddr).toNat = s.xi.release then s.onXi (fun xi => { xi with releaseBad := false })
      else
        ((s.onXi (fun xi =>
          { xi with
            releaseBad := false, release := (s.mem.read32 releaseMarkAddr).toNat
            starts := releasedStarts xi.starts (s.mem.read32 releaseMarkAddr).toNat })).drainAll).syncHolds := by
  unfold State.readReleaseMark
  rw [if_pos h]
  rfl

theorem State.readReleaseMark_invalid {s : State} (h : ¬s.xi.validMark (s.mem.read32 releaseMarkAddr).toNat = true) :
    s.readReleaseMark =
      if s.xi.releaseBad = true then s
      else (s.onXi (fun xi => { xi with releaseBad := true, releaseBads := xi.releaseBads + 1 })).notify .fault := by
  unfold State.readReleaseMark
  rw [if_neg h]

/-- Settles O35: the visits left by the sweep before, the new sweep's start, and what it reads. -/
theorem sweepReadsTheControlBlock : Obligations.SweepReadsTheControlBlock := by
  refine ⟨?_, ?_, ?_, ?_⟩
  · intro host s hw v
    have henable : v.xi.enable = s.xi.enable := 
      (State.visitCells_enable 32 (s.met host)).trans (congrArg Exchange.enable (State.hostWrites_xi host s.clearOut))
    refine ⟨v.tickSweep, (exec_sweep s host).trans (if_pos hw), ?_⟩
    have hsettles : (if v.xi.enable then v.startSweep else v).Settles v.xi.enable v.image v.tickSweep :=
      State.endEvent_settles _ _ _
    split
    · next h =>
      rw [henable, h] at hsettles
      exact hsettles
    · next h =>
      rw [henable, Bool.eq_false_of_not_eq_true h] at hsettles
      exact hsettles
  · intro n s
    refine ⟨rfl, State.visitCells_none n, ?_⟩
    intro cell h
    split
    · next htake =>
      refine ⟨_, State.endEvent_settles _ _ _, ?_⟩
      rw [State.visitCells_some n h, State.visitNext_takes h htake]
    · next hpass =>
      rw [State.visitCells_some n h, State.visitNext_passes h (Bool.eq_false_of_not_eq_true hpass)]
  · intro kind cell s hcomes
    have hrow : State.takeRow kind cell s.clearOut = s.clearOut.takeCell kind cell :=
      State.takeRow_of_comes ⟨hcomes.reaches, hcomes.takeable, hcomes.kind⟩
    rw [← hrow]
    exact withHost_does (host := []) (exec_take s kind cell []) rfl
  · intro s mark valid count counted
    have hiff : s.xi.validMark mark = true ↔ valid := Exchange.validMark_iff s.xi mark
    refine ⟨?_, ?_, ?_, ?_, rfl⟩
    · intro hv hm
      exact (State.readReleaseMark_valid (hiff.2 hv)).trans (if_pos hm)
    · intro hv hm
      exact (State.readReleaseMark_valid (hiff.2 hv)).trans (if_neg hm)
    · intro hv hbad
      exact (State.readReleaseMark_invalid (fun h => hv (hiff.1 h))).trans (if_pos hbad)
    · intro hv hbad
      exact (State.readReleaseMark_invalid (fun h => hv (hiff.1 h))).trans (if_neg (by simp [hbad]))

end Sys2Proof.Machine
end

section
/-! SUPPORT. The cells of a sweep (R165, R166, R167), and the geometry record (R21, R184). -/

open Sys2Proof

namespace Sys2Proof.Machine

/-! ## The fields of a cell -/

theorem Memory.byteAt_readBytes (m : Memory) (start n i : Nat) (h : i < n) :
    byteAt (m.readBytes start n) i = m.read (start + i) := by
  induction n generalizing start i with
  | zero => omega
  | succ n ih =>
    cases i with
    | zero => rfl
    | succ i =>
      have hrest := ih (start + 1) i (by omega)
      simp only [byteAt, Memory.readBytes, List.getD_cons_succ] at hrest ⊢
      rw [hrest]
      congr 1
      omega

section Params

variable (m : State) (cell : Nat) {offset : Nat}

theorem params_byteAt (hlo : 0x10 ≤ offset) (hhi : offset < 0x40) :
    byteAt (params m cell).params (offset - 0x10) = m.mem.read (0x800 + 64 * cell + offset) := by
  refine (Memory.byteAt_readBytes m.mem (cellAddr cell + 0x10) 48 (offset - 0x10) (by omega)).trans ?_
  congr 1
  simp only [cellAddr]
  omega

theorem params_byte (hlo : 0x10 ≤ offset) (hhi : offset < 0x40) :
    (params m cell).byte offset = (m.mem.read (0x800 + 64 * cell + offset)).toNat :=
  congrArg BitVec.toNat (params_byteAt m cell hlo hhi)

theorem params_half (hlo : 0x10 ≤ offset) (hhi : offset + 1 < 0x40) :
    (params m cell).half offset = m.mem.read16 (0x800 + 64 * cell + offset) := by
  have h1 := params_byteAt m cell (offset := offset + 1) (by omega) (by omega)
  rw [Nat.sub_add_comm hlo] at h1
  simp only [Request.half, half, Memory.read16, params_byteAt m cell hlo (by omega), h1]
  rfl

theorem params_word (hlo : 0x10 ≤ offset) (hhi : offset + 3 < 0x40) :
    (params m cell).word offset = m.mem.read32 (0x800 + 64 * cell + offset) := by
  have h1 := params_byteAt m cell (offset := offset + 1) (by omega) (by omega)
  have h2 := params_byteAt m cell (offset := offset + 2) (by omega) (by omega)
  have h3 := params_byteAt m cell (offset := offset + 3) (by omega) (by omega)
  rw [Nat.sub_add_comm hlo] at h1 h2 h3
  simp only [Request.word, word, Memory.read32, params_byteAt m cell hlo (by omega), h1, h2, h3]
  rfl

end Params

theorem Memory.read32_toNat (mem : Memory) (x : Nat) :
    (mem.read32 x).toNat = (mem.read x).toNat + 256 * (mem.read (x + 1)).toNat + 65536 * (mem.read (x + 2)).toNat
      + 16777216 * (mem.read (x + 3)).toNat := by
  have h0 := (mem.read x).isLt
  have h1 := (mem.read (x + 1)).isLt
  have h2 := (mem.read (x + 2)).isLt
  simp only [Memory.read32, BitVec.toNat_append]
  rw [← Nat.shiftLeft_add_eq_or_of_lt (by omega), ← Nat.shiftLeft_add_eq_or_of_lt (by omega),
    ← Nat.shiftLeft_add_eq_or_of_lt (by omega)]
  simp only [Nat.shiftLeft_eq]
  omega

/-! ## Which cell a sweep comes to -/

theorem State.takeable_iff (cell : Nat) (m : State) :
    m.takeable cell = true ↔ m.mem.read32 (0x800 + 64 * cell) = 1 ∧ ∀ h ∈ m.xi.inHand, h.cell ≠ cell := by
  simp only [State.takeable, Exchange.holds, Bool.and_eq_true, beq_iff_eq, Bool.not_eq_true', List.any_eq_false]
  rfl

theorem State.sweepReaches_iff (cell : Nat) (m : State) :
    m.sweepReaches cell = true ↔ cell < 32 ∧ ∃ next, m.xi.sweep = some next ∧ next ≤ cell
      ∧ ∀ passed, next ≤ passed → passed < cell → m.takeable passed = false := by
  unfold State.sweepReaches
  split
  · next h => simp [h]
  · next p h =>
    simp only [h, Bool.and_eq_true, decide_eq_true_eq, List.all_eq_true, List.mem_range'_1, Bool.not_eq_true',
      Option.some.injEq, exists_eq_left']
    constructor
    · rintro ⟨⟨hp, hc⟩, hpassed⟩
      exact ⟨hc, hp, fun x hx hlt => hpassed x ⟨hx, by omega⟩⟩
    · rintro ⟨hc, hp, hpassed⟩
      exact ⟨⟨hp, hc⟩, fun x ⟨hx, hlt⟩ => hpassed x hx (by omega)⟩

theorem State.takeRow_of_not_comes {kind : Option ReqKind} {cell : Nat} {m : State} (h : ¬m.Comes kind cell) :
    State.takeRow kind cell m = m := by
  unfold State.takeRow
  refine if_neg fun hc => h ?_
  simp only [Bool.and_eq_true, beq_iff_eq] at hc
  obtain ⟨⟨hreaches, htake⟩, hkind⟩ := hc
  exact ⟨hreaches, htake, hkind⟩

theorem ReqKind.ofCode_eq_none (code : Nat) : ReqKind.ofCode code = none ↔ code = 0 ∨ 19 ≤ code := by
  by_cases h : code < 19
  · have hall : ∀ code, code < 19 → (ReqKind.ofCode code = none ↔ code = 0 ∨ 19 ≤ code) := by decide
    exact hall code h
  · obtain ⟨k, rfl⟩ := Nat.exists_eq_add_of_le' (Nat.le_of_not_lt h)
    have hnone : ReqKind.ofCode (k + 19) = none := rfl
    simp [hnone]

/-- Settles O37: the row's condition, the unknown kind's answer, and the cell's fields. -/
theorem takeRowsActOnTheirRequestAlone : Obligations.TakeRowsActOnTheirRequestAlone := by
  refine ⟨?_, ?_, ReqKind.ofCode_eq_none, rfl, ?_, ?_, rfl, fun mem x => ⟨rfl, mem.read32_toNat x⟩⟩
  · intro kind cell host s hw hnot
    have hdoes := withHost_does (exec_take s kind cell host) hw
    rwa [State.takeRow_of_not_comes hnot] at hdoes
  · intro cell host s hw h
    exact take_answers hw h rfl ((s.met host).handed_taken cell)
  · intro cell m
    have hkind : cellKind m.mem cell = m.mem.read16 (0x804 + 64 * cell) :=
      congrArg m.mem.read16 (by simp only [cellAddr]; omega)
    exact ⟨m.takeable_iff cell, m.sweepReaches_iff cell, hkind, fun offset hlo =>
      ⟨params_byte m cell hlo, params_half m cell hlo, params_word m cell hlo⟩⟩
  · intro cell h
    exact if_pos h

/-! ## The geometry record -/

theorem geometryFailure_eq_none_iff (f : List Nat) :
    geometryFailure f = none ↔ ∀ n, n < 40 → geometryFieldOk f n = true := by
  simp [geometryFailure]

theorem geometryFailure_eq_some {f : List Nat} {n : Nat} (h : geometryFailure f = some n) :
    n < 40 ∧ geometryFieldOk f n = false ∧ ∀ k, k < n → geometryFieldOk f k = true := by
  unfold geometryFailure at h
  rw [List.find?_range_eq_some] at h
  simpa [and_left_comm] using h

/-- The test of one field: its range, and the ordering relations tested at it (R184). -/
theorem geometryFieldOk_iff (f : List Nat) {n : Nat} (hn : n < 40) :
    geometryFieldOk f n = true ↔
      let v := fun i => f.getD i 0
      let range : Nat × Nat :=
        if n = 0 then (1, 63) else if n = 5 then (1, 4) else if n ≤ 31 then (0, 63) else if n = 32 then (64, 4096)
        else if n = 33 then (2, 20) else if n = 34 then (300, 700) else if n = 35 then (100, 1400)
        else if n = 36 then (250, 4096) else if n = 37 then (1, 600) else if n = 38 then (1, 30) else (0, 2000)
      range.1 ≤ v n ∧ v n ≤ range.2
        ∧ (n = 1 → v 0 ≤ v 1) ∧ (n = 2 → v 1 < v 2) ∧ (n = 3 → v 1 < v 3) ∧ (n = 4 → v 2 < v 4 ∧ v 3 < v 4)
        ∧ (n = 6 → v 4 + v 5 ≤ v 6) ∧ (n = 8 → v 6 < v 8) ∧ (9 ≤ n → n ≤ 31 → v (n - 1) < v n)
        ∧ (n = 31 → v 31 < v 7) := by
  unfold geometryFieldOk geoField
  interval_cases n <;> simp [Nat.succ_le_iff]

theorem geometryOf_binStation (f : List Nat) {b : Nat} (hlo : 1 ≤ b) (hhi : b ≤ 24) :
    ((geometryOf f).binStation b).getD 0 = geoField f (7 + b) := by
  have hplace : 8 + (b - 1) = 7 + b := by omega
  have hlt : b - 1 < 24 := by omega
  simp [Geometry.binStation, geometryOf, Nat.ne_of_gt hlo, hlt, hplace]

/-- Stations that rise from one bin to the next stand that far apart at least. -/
theorem binStation_le_last {v : Nat → Nat} (h : ∀ b, 1 ≤ b → b < 24 → v (7 + b) < v (7 + (b + 1))) {b : Nat}
    (hlo : 1 ≤ b) (hhi : b ≤ 24) : v (7 + b) + (24 - b) ≤ v 31 := by
  obtain ⟨k, hk⟩ := Nat.exists_eq_add_of_le hhi
  induction k generalizing b with
  | zero =>
    have hb : b = 24 := by omega
    simp [hb]
  | succ k ih =>
    have hnext := ih (b := b + 1) (by omega) (by omega) (by omega)
    have hstep := h b hlo (by omega)
    omega

/-- The relations that a record that passes satisfies (R184). -/
theorem geometryFailure_none_iff_relations (f : List Nat) :
    let g := geometryOf f
    let bin := fun b => (g.binStation b).getD 0
    geometryFailure f = none ↔
      0 < g.ss ∧ g.ss ≤ g.se ∧ g.se < g.aim1 ∧ g.aim1 < g.c ∧ g.se < g.aim2 ∧ g.aim2 < g.c
      ∧ 1 ≤ g.d ∧ g.d ≤ 4 ∧ g.c + g.d ≤ g.t ∧ g.t < bin 1 ∧ (∀ b, 1 ≤ b → b < 24 → bin b < bin (b + 1))
      ∧ bin 24 < g.e ∧ g.e ≤ 63 ∧ 64 ≤ g.countsPerPitch ∧ g.countsPerPitch ≤ 4096
      ∧ 2 ≤ g.sawCount ∧ g.sawCount ≤ 20 ∧ 300 ≤ g.sawSpacing ∧ g.sawSpacing ≤ 700
      ∧ 100 ≤ g.maxOffFall ∧ g.maxOffFall ≤ 1400 ∧ 250 ≤ g.segmentLength ∧ g.segmentLength ≤ 4096
      ∧ 1 ≤ g.standbyDelay ∧ g.standbyDelay ≤ 600 ∧ 1 ≤ g.stallTime ∧ g.stallTime ≤ 30 ∧ g.settleTime ≤ 2000 := by
  intro g bin
  have hbin : ∀ b, 1 ≤ b → b ≤ 24 → bin b = geoField f (7 + b) := fun b => geometryOf_binStation f
  have hrise : (∀ b, 1 ≤ b → b < 24 → bin b < bin (b + 1))
      ↔ ∀ b, 1 ≤ b → b < 24 → geoField f (7 + b) < geoField f (7 + (b + 1)) := by
    refine forall_congr' fun b => forall_congr' fun hlo => forall_congr' fun hhi => ?_
    rw [hbin b hlo (by omega), hbin (b + 1) (by omega) (by omega)]
  rw [geometryFailure_eq_none_iff, hrise, hbin 1 (by omega) (by omega), hbin 24 (by omega) (by omega)]
  simp only [g, geometryOf]
  constructor
  · intro h
    have field {n : Nat} {p : Prop} [Decidable p] (hn : n < 40) (e : geometryFieldOk f n = decide p) : p :=
      of_decide_eq_true (e ▸ h n hn)
    obtain ⟨h0, h0'⟩ := field (n := 0) (by omega) rfl
    obtain ⟨-, h1⟩ := field (n := 1) (by omega) rfl
    obtain ⟨-, h2⟩ := field (n := 2) (by omega) rfl
    obtain ⟨-, h3⟩ := field (n := 3) (by omega) rfl
    obtain ⟨-, h4, h4'⟩ := field (n := 4) (by omega) rfl
    obtain ⟨h5, h5'⟩ := field (n := 5) (by omega) rfl
    obtain ⟨-, h6⟩ := field (n := 6) (by omega) rfl
    have h7 := field (n := 7) (by omega) rfl
    obtain ⟨-, h8⟩ := field (n := 8) (by omega) rfl
    obtain ⟨-, -, h31⟩ := field (n := 31) (by omega) rfl
    obtain ⟨h32, h32'⟩ := field (n := 32) (by omega) rfl
    obtain ⟨h33, h33'⟩ := field (n := 33) (by omega) rfl
    obtain ⟨h34, h34'⟩ := field (n := 34) (by omega) rfl
    obtain ⟨h35, h35'⟩ := field (n := 35) (by omega) rfl
    obtain ⟨h36, h36'⟩ := field (n := 36) (by omega) rfl
    obtain ⟨h37, h37'⟩ := field (n := 37) (by omega) rfl
    obtain ⟨h38, h38'⟩ := field (n := 38) (by omega) rfl
    have h39 := field (n := 39) (by omega) rfl
    have hstep : ∀ b, 1 ≤ b → b < 24 → geoField f (7 + b) < geoField f (7 + (b + 1)) := by
      intro b hlo hhi
      have hok := (geometryFieldOk_iff f (n := 8 + b) (by omega)).1 (h (8 + b) (by omega))
      obtain ⟨-, -, -, -, -, -, -, -, hrel, -⟩ := hok
      have hlt := hrel (by omega) (by omega)
      rwa [show 8 + b - 1 = 7 + b by omega, show 8 + b = 7 + (b + 1) by omega] at hlt
    exact ⟨h0, h1, h2, h4, h3, h4', h5, h5', h6, h8, hstep, h31, h7, h32, h32', h33, h33', h34, h34', h35, h35', h36,
      h36', h37, h37', h38, h38', h39⟩
  · rintro ⟨h0, h1, h2, h4, h3, h4', h5, h5', h6, h8, hstep, h31, h7, h32, h32', h33, h33', h34, h34', h35, h35', h36,
      h36', h37, h37', h38, h38', h39⟩ n hn
    change geoField f 6 < geoField f 8 at h8
    change geoField f 31 < geoField f 7 at h31
    have hfirst : geoField f 8 + 23 ≤ geoField f 31 := binStation_le_last hstep (b := 1) (by omega) (by omega)
    have hbelow : 8 ≤ n → n ≤ 31 → geoField f n ≤ geoField f 31 := by
      intro hlo hhi
      have hlast := binStation_le_last hstep (b := n - 7) (by omega) (by omega)
      rw [show 7 + (n - 7) = n by omega] at hlast
      omega
    have hrel : 9 ≤ n → n ≤ 31 → geoField f (n - 1) < geoField f n := by
      intro hlo hhi
      have hlt := hstep (n - 8) (by omega) (by omega)
      rwa [show 7 + (n - 8) = n - 1 by omega, show 7 + (n - 8 + 1) = n by omega] at hlt
    unfold geometryFieldOk
    interval_cases n <;> simp at hbelow hrel ⊢ <;> omega

/-- A record that passes leaves room for every unit between the scan zone and E (R21). -/
theorem geometryFailure_none_spans {f : List Nat} (h : geometryFailure f = none) :
    (geometryOf f).t + 25 ≤ (geometryOf f).e ∧ (geometryOf f).c + 1 ≤ (geometryOf f).t
      ∧ (geometryOf f).se + 3 ≤ (geometryOf f).c + 1 := by
  obtain ⟨-, -, h2, h4, -, -, h5, -, h6, h8, hrise, h31, -⟩ := (geometryFailure_none_iff_relations f).1 h
  have hlast := binStation_le_last (v := fun n => ((geometryOf f).binStation (n - 7)).getD 0)
    (fun b hlo hhi => by simpa [Nat.add_sub_cancel_left] using hrise b hlo hhi) (b := 1) (by omega) (by omega)
  simp only [Nat.add_sub_cancel_left, Nat.reduceSub] at hlast h8 h31
  omega

/-- Settles O39: the first field that fails, and what the tests of all fields come to. -/
theorem setGeometryKeepsARecordThatPasses : Obligations.SetGeometryKeepsARecordThatPasses := by
  refine ⟨?_, ?_⟩
  · intro cell host s hw h
    have taken := (s.met host).handed_taken cell
    dsimp only
    split
    · next hstate =>
      split
      · next n hn =>
        refine take_answers hw h ?_ taken
        simp [State.serve, State.serveSetGeometry, hstate, hn]
      · next hn =>
        refine take_answers hw h ?_ (by rw [State.setDeck_mem]; exact taken)
        simp [State.serve, State.serveSetGeometry, hstate, hn]
    · next hstate => exact take_answers hw h (if_neg hstate) taken
  · intro mem f g bin at8
    exact ⟨rfl, geometryFailure_none_iff_relations f, fun n => geometryFailure_eq_some, geometryFailure_none_spans,
      fun n hn => geometryFieldOk_iff f hn⟩

end Sys2Proof.Machine
end

section
/-! SUPPORT. Overrides: the answer, the counts, an accepted one, a grade applied, and REMOTE_OVERRIDE (R103, R110, R111,
R112, R115 to R118, R120, R122, R123). -/

open Sys2Proof

namespace Sys2Proof.Machine

/-! ## The answer and its counts -/

theorem State.answerTag_none {tag : Byte} {kind : OverrideKind} {authority : Bool} {s : State}
    (h : s.dt.pieceByTag tag = none) : s.answerTag tag kind authority = (.notFound, none) := by
  simp [State.answerTag, h]

theorem State.answerTag_some {tag : Byte} {kind : OverrideKind} {authority : Bool} {s : State} {p : Piece}
    (h : s.dt.pieceByTag tag = some p) :
    s.answerTag tag kind authority = (answerFor (s.rs.boundRules p) kind authority p, some p) := by
  simp [State.answerTag, h]

/-- The piece of an answer is the one that the tag's lug carries. -/
theorem State.pieceByTag_of_answerTag {tag : Byte} {kind : OverrideKind} {authority : Bool} {s : State} {p : Piece}
    (h : (s.answerTag tag kind authority).2 = some p) : s.dt.pieceByTag tag = some p := by
  cases hp : s.dt.pieceByTag tag with
  | none => rw [State.answerTag_none hp] at h; cases h
  | some q =>
    rw [State.answerTag_some hp] at h
    exact h

theorem State.resolve_refused {tag : Byte} {kind : OverrideKind} {source : Source} {authority : Bool} {s : State}
    (h : (s.answerTag tag kind authority).1 ≠ .done) :
    s.resolve tag kind source authority = s.countTake source (s.answerTag tag kind authority).1 := by
  unfold State.resolve
  split
  · next hdone => exact absurd (congrArg Prod.fst hdone) h
  · next hanswer => rw [hanswer]

theorem State.resolve_accepted {tag : Byte} {kind : OverrideKind} {source : Source} {authority : Bool} {s : State}
    {p : Piece} (h : s.answerTag tag kind authority = (.done, some p)) :
    s.resolve tag kind source authority = (s.countTake source .done).acceptOverride kind source authority p := by
  unfold State.resolve
  rw [h]

/-- The refusal of a grade by R112: a better grade than the best that the solver gave, without authority. -/
theorem answerFor_eq (rules : Rules) (kind : OverrideKind) (authority : Bool) (p : Piece) :
    answerFor rules kind authority p =
      if p.state = .committed ∨ p.state = .cut then .tooLate
      else if p.state = .admitted ∨ p.state = .scanning then .refusedState
      else
        match kind with
        | .forceGrade g =>
          if g ≠ 13 ∧ ∀ row ∈ rules.grades, row.code ≠ g then .badParam
          else if authority = false ∧ g < solvedGrade p.solverSolution then .noAuthority
          else .done
        | _ => .done := by
  unfold answerFor
  refine if_congr .rfl rfl (if_congr .rfl rfl ?_)
  cases kind with
  | forceGrade g => exact if_congr (and_congr_right fun _ => by simp) rfl rfl
  | accept => rfl
  | trimShorter => rfl
  | cutInTwo => rfl
  | reman => rfl

/-- Every answer counts as taken, and under its own name where R123 has one. -/
theorem TakeCounts.add_eq (c : TakeCounts) (answer : Result) :
    c.add answer =
      { c with
        taken := c.taken + 1
        accepted := c.accepted + if answer = .done then 1 else 0
        notFound := c.notFound + if answer = .notFound then 1 else 0
        tooLate := c.tooLate + if answer = .tooLate then 1 else 0
        refusedState := c.refusedState + if answer = .refusedState then 1 else 0
        badParam := c.badParam + if answer = .badParam then 1 else 0
        noAuthority := c.noAuthority + if answer = .noAuthority then 1 else 0 } := by
  cases answer <;> simp [TakeCounts.add]

/-! ## A grade override on a solution -/

theorem applyGrade_forceGrade {rules : Rules} {size g : Nat} {part : GradePart} (hk : part.kind = .forceGrade g)
    (sol : Solution) :
    applyGrade rules size part sol =
      if sol.products = [] ∨ (part.authority = false ∧ g < solvedGrade (some sol))
          ∨ splitsBins rules size g sol.products = true then
        ({ part with state := .notApplied, solved := none }, sol)
      else
        ({ part with state := .applied, solved := some (sol.products.map (fun x : Product => (x.grade, x.value))) },
         { sol with
           products := sol.products.map (fun x =>
             { x with grade := g, value := if g = 13 then 0 else rules.price g x.lengthClass size })
           totalValue := ((sol.products.map (fun x =>
             ({ x with grade := g, value := if g = 13 then 0 else rules.price g x.lengthClass size } : Product))).map
               (fun x => x.value)).sum }) := by
  have hprice (lengthClass : Nat) :
      rules.price g lengthClass size = if g = 13 then 0 else rules.price g lengthClass size := by
    unfold Rules.price
    split <;> rfl
  unfold applyGrade
  simp only [hk, ← hprice]
  exact if_congr (by simp [or_assoc]) rfl rfl

theorem applyGrade_accept {rules : Rules} {size : Nat} {part : GradePart} (hk : part.kind = .accept) (sol : Solution) :
    applyGrade rules size part sol = ({ part with state := .applied, solved := none }, sol) := by
  unfold applyGrade
  simp only [hk]

/-- An accepted trim override: the part, and what TS does by the piece's state (R103). -/
theorem State.trimAccepted_eq (p : Piece) (s : State) :
    s.trimAccepted p =
      if p.state = .solved then s.joinQueue p.serial
      else if p.state = .solving then
        s.onTs (fun ts =>
          { ts with
            inHand := ts.inHand.map (fun c => if c.serial = p.serial then { c with arrival := true } else c) })
      else s := by
  unfold State.trimAccepted
  cases p.state <;> rfl

/-- Settles O46: the answer's first case, the counts, and what an accepted override writes. -/
theorem overrideIsAnsweredByItsFirstCase : Obligations.OverrideIsAnsweredByItsFirstCase := by
  refine ⟨?_, ?_, ?_, ?_⟩
  · intro tag kind source authority s answer
    refine ⟨State.answerTag_none, ?_, State.resolve_refused, fun p => State.resolve_accepted⟩
    intro p hp rules best
    have hanswer : answer = (answerFor rules kind authority p, some p) := State.answerTag_some hp
    refine ⟨by rw [hanswer], ?_⟩
    rw [hanswer, answerFor_eq]
    have hbest : solvedGrade p.solverSolution = best := rfl
    rw [hbest] <;> cases kind <;> rfl
  · intro source answer s one counted ofStation
    have hadd (c : TakeCounts) : c.add answer = counted c := c.add_eq answer
    cases source <;> simp only [State.countTake, hadd] <;> rfl
  · intro source authority p s rules counted grade sent
    have htrim (kind : OverrideKind) (trim : TrimKind) (h : kind.gradeKind = none) (ht : kind.trimKind = some trim) :
        s.acceptOverride kind source authority p = sent kind trim := by
      unfold State.acceptOverride
      simp only [h, ht]
      exact State.trimAccepted_eq p _
    exact ⟨rfl, fun g => rfl, htrim .trimShorter .shorter rfl rfl, htrim .cutInTwo .cutInTwo rfl rfl,
      htrim .reman .reman rfl rfl⟩
  · intro rules size part sol result
    refine ⟨fun hk => applyGrade_accept hk sol, ?_⟩
    intro g hk splits
    have hsplits : splitsBins rules size g sol.products = splits := rfl
    have hresult : result = _ := applyGrade_forceGrade hk sol
    rw [hsplits] at hresult
    split
    · next h => exact hresult.trans (if_pos h)
    · next h => exact hresult.trans (if_neg h)

/-! ## REMOTE_OVERRIDE -/

theorem Piece.applyGradePart_serial (rules : Rules) (p : Piece) : (p.applyGradePart rules).serial = p.serial := by
  unfold Piece.applyGradePart
  split <;> rfl

theorem State.onPiece_serials (s : State) (n : Word) {f : Piece → Piece} (hf : ∀ p, (f p).serial = p.serial) :
    (s.onPiece n f).dt.pieces.map (fun p => p.serial) = s.dt.pieces.map (fun p => p.serial) :=
  pieces_serial _ f n hf

theorem State.trimAccepted_serials (p : Piece) (s : State) :
    (s.trimAccepted p).dt.pieces.map (fun p => p.serial) = s.dt.pieces.map (fun p => p.serial) := by
  unfold State.trimAccepted
  split
  · exact State.joinQueue_serials _ _
  · rfl
  · rfl

/-- An override changes no serial of the table. -/
theorem State.resolve_serials (tag : Byte) (kind : OverrideKind) (source : Source) (authority : Bool) (s : State) :
    (s.resolve tag kind source authority).dt.pieces.map (fun p => p.serial)
      = s.dt.pieces.map (fun p => p.serial) := by
  have hcount (answer : Result) : (s.countTake source answer).dt = s.dt := by cases source <;> rfl
  unfold State.resolve
  split
  · next p _ =>
    rw [← hcount .done]
    unfold State.acceptOverride
    split
    · exact State.onPiece_serials _ _ (fun q => Piece.applyGradePart_serial _ _)
    · exact (State.trimAccepted_serials _ _).trans (State.onPiece_serials _ _ (fun q => rfl))
    · rfl
  · rw [hcount]

theorem Deck.piece?_isSome_iff (d : Deck) (n : Word) :
    (d.piece? n).isSome = true ↔ n ∈ d.pieces.map (fun p => p.serial) := by
  simp [Deck.piece?]

/-- The piece that an accepted override finds stands in the table after it. -/
theorem State.resolve_piece? {tag : Byte} {kind : OverrideKind} {source : Source} {authority : Bool} {s : State}
    {p : Piece} (h : (s.answerTag tag kind authority).2 = some p) :
    ∃ q, (s.resolve tag kind source authority).dt.piece? p.serial = some q := by
  have htag := State.pieceByTag_of_answerTag h
  have hpiece : (s.dt.piece? p.serial).isSome = true := by
    unfold Deck.pieceByTag Deck.pieceOf at htag
    split at htag
    · cases htag
    · split at htag
      · cases htag
      · rw [Deck.piece?_serial htag, htag]
        rfl
  rw [Deck.piece?_isSome_iff, ← s.resolve_serials tag kind source authority, ← Deck.piece?_isSome_iff] at hpiece
  exact Option.isSome_iff_exists.1 hpiece

theorem remoteKind_eq_none_iff (code grade : Nat) :
    remoteKind code grade = none ↔ 4 < code ∨ (code = 1 ∧ (grade < 1 ∨ 13 < grade)) := by
  unfold remoteKind
  repeat' split
  all_goals simp
  all_goals omega

theorem remoteKind_eq {code grade : Nat} (h : ¬(4 < code ∨ (code = 1 ∧ (grade < 1 ∨ 13 < grade)))) :
    remoteKind code grade = some
      (if code = 0 then .accept else if code = 1 then .forceGrade grade else if code = 2 then .trimShorter
        else if code = 3 then .cutInTwo else .reman) := by
  unfold remoteKind
  repeat' split
  all_goals simp
  all_goals omega

theorem State.serveRemoteOverride_badParam {r : Request} {s : State}
    (h : 255 < r.half 0x10 ∨ remoteKind (r.byte 0x12) (r.byte 0x13) = none) :
    s.serveRemoteOverride r = s.reply r .badParam 0 [] := by
  unfold State.serveRemoteOverride
  cases hk : remoteKind (r.byte 0x12) (r.byte 0x13) with
  | none => rfl
  | some kind => exact if_pos (h.resolve_right (by simp [hk]))

theorem State.serveRemoteOverride_resolves {r : Request} {s : State} {kind : OverrideKind} (h : ¬255 < r.half 0x10)
    (hk : remoteKind (r.byte 0x12) (r.byte 0x13) = some kind) {answer : Result × Option Piece}
    (ha : answer = s.answerTag (BitVec.ofNat 8 (r.half 0x10)) kind true) {serial : Word}
    (hs : serial = (answer.2.map (fun p => p.serial)).getD 0) :
    s.serveRemoteOverride r =
      (s.resolve (BitVec.ofNat 8 (r.half 0x10)) kind .remote true).reply r answer.1 serial
        (if answer.1 = .done then
          remoteArea kind ((s.resolve (BitVec.ofNat 8 (r.half 0x10)) kind .remote true).dt.piece? serial) else []) := by
  unfold State.serveRemoteOverride
  simp only [hk, if_neg h, hs, ha]

/-- The class that an override kind names, by its code (R110). -/
theorem remoteArea_eq {code grade : Nat} (p : Piece) :
    remoteArea (if code = 0 then .accept else if code = 1 then .forceGrade grade else if code = 2 then .trimShorter
        else if code = 3 then .cutInTwo else .reman) (some p) =
      if 2 ≤ code then le8 1 ++ le8 ((p.trimPart.map (fun x => x.state.code)).getD 0)
      else le8 0 ++ le8 ((p.gradePart.map (fun x => x.state.code)).getD 0) := by
  match code with
  | 0 => rfl
  | 1 => rfl
  | 2 => rfl
  | 3 => rfl
  | n + 4 => simp [remoteArea, OverrideKind.gradeKind, Piece.partState]

@[simp] theorem State.trimAccepted_mem (p : Piece) (s : State) : (s.trimAccepted p).mem = s.mem := by
  unfold State.trimAccepted
  split <;> simp

@[simp] theorem State.acceptOverride_mem (kind : OverrideKind) (source : Source) (authority : Bool) (p : Piece)
    (s : State) : (s.acceptOverride kind source authority p).mem = s.mem := by
  cases kind <;> simp [State.acceptOverride, OverrideKind.gradeKind, OverrideKind.trimKind]

@[simp] theorem State.resolve_mem (tag : Byte) (kind : OverrideKind) (source : Source) (authority : Bool) (s : State) :
    (s.resolve tag kind source authority).mem = s.mem := by
  have hcount (answer : Result) : (s.countTake source answer).mem = s.mem := by cases source <;> rfl
  unfold State.resolve
  split <;> simp [hcount]

/-- Settles O45: the parameters' ranges, then the answer. -/
theorem remoteOverrideIsResolvedAtTheTake : Obligations.RemoteOverrideIsResolvedAtTheTake := by
  intro cell host s hw h
  have taken := (s.met host).handed_taken cell
  intro r u code grade
  split
  · next hbad =>
    refine take_answers hw h (State.serveRemoteOverride_badParam ?_) taken
    exact hbad.imp_right (remoteKind_eq_none_iff code grade).2
  · next hgood =>
    intro kind tag answer v area
    obtain ⟨hhalf, hkind⟩ := not_or.1 hgood
    have hk : remoteKind code grade = some kind := remoteKind_eq hkind
    refine take_answers hw h ((State.serveRemoteOverride_resolves hhalf hk rfl rfl).trans ?_) ?_
    · have harea : (if answer.1 = .done then
          remoteArea kind (v.dt.piece? ((answer.2.map (fun p => p.serial)).getD 0)) else []) = area := by
        cases hp : (s.met host).dt.pieceByTag tag with
        | none =>
          have hanswer : answer = _ := State.answerTag_none hp
          simp only [area, hanswer]
          rfl
        | some p =>
          have hanswer : answer = _ := State.answerTag_some hp
          obtain ⟨q, hq⟩ := State.resolve_piece? (tag := tag) (kind := kind) (source := .remote) (authority := true)
            (s := u) (p := p) (congrArg Prod.snd hanswer)
          have hvq : v.dt.piece? p.serial = some q := hq
          cases hdone : answerFor ((s.met host).rs.boundRules p) kind true p
          case done =>
            rw [hdone] at hanswer
            simp only [area, hanswer, Option.map_some, Option.getD_some, hvq, if_true]
            exact remoteArea_eq q
          all_goals
            rw [hdone] at hanswer
            simp only [area, hanswer]
            rfl
      rw [← harea]
      rfl
    · rw [State.resolve_mem]
      exact taken

end Sys2Proof.Machine
end

section
/-! SUPPORT. Saws and bins (R135, R137, R138, R139, R142, R143). -/

open Sys2Proof

namespace Sys2Proof.Machine

/-! ## The reasons of a saw -/

theorem sawNumber_eq_false_iff (k : Nat) : sawNumber k = false ↔ k < 1 ∨ 20 < k := by
  simp [sawNumber]
  omega

/-- A saw is in the lock set while it has a reason (R134). -/
theorem Actuation.has_lockSet {ax : Actuation} {k : Nat} {w : Saw} (hlo : 1 ≤ k) (hhi : k ≤ 20)
    (h : ax.saws[k - 1]? = some w) : has ax.lockSet k = w.locked := by
  have hk : k - 1 < 20 := by omega
  simp [has, lockSet_getLsbD, hlo, hk, h, -BitVec.getLsbD_eq_getElem]

/-- One saw changed. -/
theorem State.onSaw_getElem? {s : State} {k : Nat} {w : Saw} (hlo : 1 ≤ k) (h : s.ax.saws[k - 1]? = some w)
    (f : Saw → Saw) : (s.onSaw k f).ax.saws[k - 1]? = some (f w) := by
  rw [State.onSaw_ax]
  simp [Nat.ne_of_gt hlo, h]

theorem State.onSaw_congr {s : State} {k : Nat} {w : Saw} (hlo : 1 ≤ k) (h : s.ax.saws[k - 1]? = some w)
    {f g : Saw → Saw} (e : f w = g w) : s.onSaw k f = s.onSaw k g := by
  have hk : k ≠ 0 := by omega
  simp only [State.onSaw, State.onAx, if_neg hk, modify_congr h e]

/-- The reasons of a saw as a word (10.4). -/
theorem State.sawDetail_eq {s : State} {k : Nat} {w : Saw} (h : s.ax.saws[k - 1]? = some w) :
    s.sawDetail k = (if w.host then 1 else 0) + (if w.fault then 2 else 0) := by
  unfold State.sawDetail
  rw [h]
  obtain ⟨host, fault, -⟩ := w
  cases host <;> cases fault <;> rfl

/-- A saw gets the reason HOST, and one that had none joins the lock set (R135, R137). -/
theorem State.lockSaw_eq {s : State} {k : Nat} {w : Saw} (hlo : 1 ≤ k) (hhi : k ≤ 20)
    (h : s.ax.saws[k - 1]? = some w) :
    s.lockSaw k =
      if w.host = true ∨ w.fault = true then s.onSaw k (fun w => { w with host := true })
      else (s.onSaw k (fun w => { w with host := true })).joinLock (BitVec.ofNat 20 (2 ^ (k - 1))) := by
  unfold State.lockSaw
  simp only [Actuation.has_lockSet hlo hhi h, single, if_pos hlo, Saw.locked]
  cases w.host <;> cases w.fault <;> rfl

theorem State.lockSaw_getElem? {s : State} {k : Nat} {w : Saw} (hlo : 1 ≤ k) (h : s.ax.saws[k - 1]? = some w) :
    (s.lockSaw k).ax.saws[k - 1]? = some { w with host := true } := by
  unfold State.lockSaw
  dsimp only
  split
  · rw [State.joinLock_ax]
    exact State.onSaw_getElem? hlo h _
  · exact State.onSaw_getElem? hlo h _

@[simp] theorem State.joinLock_mem (saws : SawSet) (s : State) : (s.joinLock saws).mem = s.mem := by
  unfold State.joinLock
  split
  · rfl
  · exact State.each_same (fun s => s.mem) _ State.joinQueue (fun n s => (s.joinQueue_same n).2.2.1) _

@[simp] theorem State.lockSaw_mem (k : Nat) (s : State) : (s.lockSaw k).mem = s.mem := by
  unfold State.lockSaw
  dsimp only
  split <;> simp

/-- HOST leaves a saw's reasons, and FAULT too under the flag (R138). -/
theorem Saw.unlock_eq (flag : Nat) (w : Saw) :
    w.unlock (flag != 0) =
      { w with
        host := false, fault := w.fault && flag == 0
        unlocks :=
          if (w.host = true ∨ w.fault = true) ∧ (w.fault && flag == 0) = false then w.unlocks + 1 else w.unlocks } := by
  have hflag : (!(flag != 0)) = (flag == 0) := Bool.not_not _
  simp only [Saw.unlock, Saw.locked, hflag, Bool.and_eq_true, Bool.or_eq_true, Bool.not_eq_true']

/-! ## Bins -/

/-- One bin changed. -/
theorem State.onBin_getElem? {s : State} {b : Nat} {x : Bin} (hlo : 1 ≤ b) (h : s.ax.bins[b - 1]? = some x)
    (f : Bin → Bin) : (s.onBin b f).ax.bins[b - 1]? = some (f x) := by
  rw [State.onBin_ax]
  simp [Nat.ne_of_gt hlo, h]

/-- The state of a bin as a word (10.4). -/
theorem State.binDetail_eq {s : State} {b : Nat} {x : Bin} (h : s.ax.bins[b - 1]? = some x) :
    s.binDetail b = (if x.closed then 1 else 0) + (if x.isFull then 2 else 0)
      + (if x.available s.dt.state then 4 else 0) := by
  have hbits (closed full available : Bool) :
      BitVec.ofNat 32 (bit closed 0 + bit full 1 + bit available 2) =
        (if closed then 1 else 0) + (if full then 2 else 0) + (if available then 4 else 0) := by
    cases closed <;> cases full <;> cases available <;> rfl
  unfold State.binDetail
  rw [h]
  exact hbits x.closed x.isFull (x.available s.dt.state)

/-- Settles O47: each request by its parameter's range, then what it leaves of the saw or the bin. -/
theorem sawAndBinRequestsAct : Obligations.SawAndBinRequestsAct := by
  refine ⟨?_, ?_, ?_, fun bin level s =>
    ⟨completes_does (exec_gatePulseEnd s bin), completes_does (exec_binFullChange s bin level)⟩⟩
  · intro cell host s hw h
    have taken := (s.met host).handed_taken cell
    intro u k
    split
    · next hbad => exact take_answers hw h (if_pos ((sawNumber_eq_false_iff k).2 hbad)) taken
    · next hgood =>
      intro w hsaw v
      have hlo : 1 ≤ k := by omega
      have hsaw' : u.ax.saws[k - 1]? = some w := hsaw
      have hdetail : (u.lockSaw k).sawDetail k = 1 + if w.fault then 2 else 0 :=
        State.sawDetail_eq (State.lockSaw_getElem? hlo hsaw')
      rw [← State.lockSaw_eq hlo (by omega) hsaw', ← hdetail]
      refine take_answers hw h (if_neg (fun hn => hgood ((sawNumber_eq_false_iff k).1 hn))) ?_
      rw [State.lockSaw_mem]
      exact taken
  · intro cell host s hw h
    have taken := (s.met host).handed_taken cell
    intro u k flag
    split
    · next hbad => exact take_answers hw h (if_pos ((sawNumber_eq_false_iff k).2 hbad)) taken
    · next hgood =>
      intro w hsaw fault
      have hlo : 1 ≤ k := by omega
      have hsaw' : u.ax.saws[k - 1]? = some w := hsaw
      have hunlock : w.unlock (flag != 0) =
          { w with
            host := false, fault := fault
            unlocks := if (w.host = true ∨ w.fault = true) ∧ fault = false then w.unlocks + 1 else w.unlocks } :=
        w.unlock_eq flag
      have hdetail : (u.onSaw k (Saw.unlock (flag != 0))).sawDetail k = if fault then 2 else 0 := by
        rw [State.sawDetail_eq (State.onSaw_getElem? hlo hsaw' _), hunlock]
        exact BitVec.zero_add _
      rw [← hdetail]
      refine take_answers hw h
        ((if_neg (fun hn => hgood ((sawNumber_eq_false_iff k).1 hn))).trans ?_) taken
      have heffect : (u.onSaw k (Saw.unlock (flag != 0))) = u.onSaw k (fun w =>
          { w with
            host := false, fault := fault
            unlocks := if (w.host = true ∨ w.fault = true) ∧ fault = false then w.unlocks + 1 else w.unlocks }) := by
        exact State.onSaw_congr hlo hsaw' (w.unlock_eq flag)
      rw [← heffect]
  · intro cell host s hw h
    have taken := (s.met host).handed_taken cell
    intro u b action
    split
    · next hbad => exact take_answers hw h (if_neg (by omega)) taken
    · next hgood =>
      intro x hbin available
      have hlo : 1 ≤ b := by omega
      have hbin' : u.ax.bins[b - 1]? = some x := hbin
      have hclosed : (fun x : Bin => { x with closed := action == 1 }) = fun x => { x with closed := decide (action = 1) } := rfl
      have hdetail : (u.onBin b (fun x => { x with closed := decide (action = 1) })).binDetail b =
          (if action = 1 then 1 else 0) + (if x.isFull then 2 else 0) + if available then 4 else 0 := by
        rw [State.binDetail_eq (State.onBin_getElem? hlo hbin' _)]
        have hclosed : action = 2 ↔ ¬action = 1 := by omega
        simp [Bin.available, available, u, hclosed, and_assoc]
      rw [← hdetail]
      exact take_answers hw h (if_pos (by omega)) taken

end Sys2Proof.Machine
end

section
/-! SUPPORT. A record written at the fill mark (R172, R175, R177, R179). -/

open Sys2Proof

namespace Sys2Proof.Machine

/-! ## JOURNAL -/

theorem msiFollows_journal (port : Bool) (notice mask : BitVec 6) :
    msiFollows port notice mask (notice ||| NoticeCause.journal.mask) mask = true
      ↔ port = true ∧ notice &&& mask = 0 ∧ mask.getLsbD 0 = true := by
  revert port notice mask
  decide

/-- JOURNAL is raised where the count of records has reached the notify count (R175), with its message (R179). -/
theorem State.testNotify_eq (s : State) :
    let raised := 1 ≤ s.xi.notifyCount ∧ s.xi.notifyCount ≤ s.xi.recordsSince
    s.testNotify =
      { s with
        out := s.out ++ (if raised ∧ s.xi.port = true ∧ s.xi.notice &&& s.xi.noticeMask = 0
          ∧ s.xi.noticeMask.getLsbD 0 = true then [.msi] else [])
        xi :=
          { s.xi with
            recordsSince := if raised then 0 else s.xi.recordsSince
            notice := if raised then s.xi.notice ||| 1 else s.xi.notice
            raises := { s.xi.raises with
              journal := if raised then s.xi.raises.journal + 1 else s.xi.raises.journal } } } := by
  intro raised
  unfold State.testNotify
  by_cases h : raised
  · rw [if_pos h]
    have hmsi := msiFollows_journal s.xi.port s.xi.notice s.xi.noticeMask
    simp only [h, true_and, if_true, ← hmsi]
    rfl
  · rw [if_neg h]
    simp [h]

/-! ## The units of a record -/

/-- Memory with the units of a record, and of the filler before it where one is needed. -/
def recordMemory (kind : RecordKind) (len : Nat) (body : List Byte) (s : State) : Memory :=
  if 49152 - s.xi.fill < len then
    (s.mem.splice (0x40000 + 16 * s.xi.fill) (padTo (16 * (49152 - s.xi.fill))
        (le8 4 ++ le8 (49152 - s.xi.fill) ++ le16 s.xi.sequence.toNat))).splice 0x40000
      (padTo (16 * len) (le8 kind.code ++ le8 len ++ le16 (s.xi.sequence + 1).toNat ++ body))
  else
    s.mem.splice (0x40000 + 16 * s.xi.fill)
      (padTo (16 * len) (le8 kind.code ++ le8 len ++ le16 s.xi.sequence.toNat ++ body))

/-- A record laid and counted, before JOURNAL is tested. -/
def State.recordLaid (kind : RecordKind) (len : Nat) (body : List Byte) (s : State) : State :=
  ((s.layFiller len).layRecord kind len body).onXi (fun xi =>
    { countRecord kind len xi with recordsSince := xi.recordsSince + 1 })

theorem State.writeRecord_eq_recordLaid (kind : RecordKind) (len : Nat) (body : List Byte) (s : State) :
    s.writeRecord kind len body = (s.recordLaid kind len body).testNotify := rfl

theorem countRecord_eq {kind : RecordKind} (hk : kind ≠ .filler) (len : Nat) (xi : Exchange) :
    countRecord kind len xi =
      { xi with
        pieceRecords := xi.pieceRecords + (if kind = .piece then 1 else 0)
        logRecords := xi.logRecords + (if kind = .log then 1 else 0)
        closeRecords := xi.closeRecords + (if kind = .runClose then 1 else 0) } := by
  cases kind <;> simp [countRecord] at hk ⊢

/-- What a record laid leaves, with its filler where its units do not fit before the ring's end (R172). -/
theorem State.recordLaid_eq {kind : RecordKind} (hk : kind ≠ .filler) {len : Nat} (body : List Byte) {s : State}
    (hfill : s.xi.fill < 49152) :
    s.recordLaid kind len body =
      { s with
        mem := recordMemory kind len body s
        xi :=
          { s.xi with
            fill := ((if 49152 - s.xi.fill < len then 0 else s.xi.fill) + len) % 49152
            sequence := (if 49152 - s.xi.fill < len then s.xi.sequence + 1 else s.xi.sequence) + 1
            starts := s.xi.starts ++ (if 49152 - s.xi.fill < len then [s.xi.fill, 0] else [s.xi.fill])
            recordsSince := s.xi.recordsSince + 1
            fillers := s.xi.fillers + (if 49152 - s.xi.fill < len then 1 else 0)
            fillerUnits := s.xi.fillerUnits
              + (if 49152 - s.xi.fill < len then BitVec.ofNat 32 (49152 - s.xi.fill) else 0)
            pieceRecords := s.xi.pieceRecords + (if kind = .piece then 1 else 0)
            logRecords := s.xi.logRecords + (if kind = .log then 1 else 0)
            closeRecords := s.xi.closeRecords + (if kind = .runClose then 1 else 0) } } := by
  unfold State.recordLaid recordMemory
  simp only [countRecord_eq hk]
  by_cases hwraps : 49152 - s.xi.fill < len
  · have hunits : fillerUnits s.xi.fill len = 49152 - s.xi.fill := if_pos hwraps
    have hmark : (s.xi.fill + (49152 - s.xi.fill)) % journalUnits = 0 := by
      rw [Nat.add_sub_cancel' hfill.le]
      rfl
    have hlay : s.layFiller len = (s.layRecord .filler (49152 - s.xi.fill) []).onXi
        (countRecord .filler (49152 - s.xi.fill)) := by
      unfold State.layFiller
      rw [hunits, if_neg (by omega)]
    rw [hlay]
    simp only [hwraps, if_true, State.layRecord, State.onXi, State.store, State.onMem, countRecord, hmark,
      List.append_assoc, List.append_nil]
    rfl
  · rw [State.layFiller_eq_self (if_neg hwraps)]
    simp only [hwraps, if_false, State.layRecord, State.onXi, State.store, State.onMem,
      add_zero (s.xi.fillers : Word), add_zero (s.xi.fillerUnits : Word)]
    rfl

/-! ## The bytes of a record -/

theorem padTo_header (n : Nat) {l : List Byte} (h : l.length ≤ n) : padTo n l = l ++ List.replicate (n - l.length) 0 := by
  rw [padTo, List.take_of_length_le h]

section Units

variable {kind : RecordKind} {len : Nat} {body : List Byte} {s : State}

/-- The units of the record itself, at the ring's start where it has wrapped. -/
theorem recordMemory_record :
    (recordMemory kind len body s).readBytes (0x40000 + 16 * (if 49152 - s.xi.fill < len then 0 else s.xi.fill)) (16 * len)
      = padTo (16 * len) (le8 kind.code ++ le8 len
          ++ le16 (if 49152 - s.xi.fill < len then s.xi.sequence + 1 else s.xi.sequence).toNat ++ body) := by
  have hread (m : Memory) (first : Nat) (l : List Byte) : (m.splice first (padTo (16 * len) l)).readBytes first (16 * len)
      = padTo (16 * len) l := by
    have hat := Memory.readBytes_splice_same m first (padTo (16 * len) l) 0 (16 * len) (by rw [padTo_length]; omega)
    rwa [Nat.add_zero, List.drop_zero, List.take_of_length_le (by rw [padTo_length])] at hat
  unfold recordMemory
  split
  · exact hread _ _ _
  · exact hread _ _ _

/-- The units of the filler, up to the ring's end. -/
theorem recordMemory_filler (hlen : len ≤ 20) (hfill : s.xi.fill < 49152) (hwraps : 49152 - s.xi.fill < len) :
    (recordMemory kind len body s).readBytes (0x40000 + 16 * s.xi.fill) (16 * (49152 - s.xi.fill))
      = [4, BitVec.ofNat 8 (49152 - s.xi.fill)] ++ le16 s.xi.sequence.toNat
          ++ List.replicate (16 * (49152 - s.xi.fill) - 4) 0 := by
  unfold recordMemory
  rw [if_pos hwraps, Memory.readBytes_splice_out _ _ _ _ _ (by rw [padTo_length]; omega)]
  have hat := Memory.readBytes_splice_same s.mem (0x40000 + 16 * s.xi.fill)
    (padTo (16 * (49152 - s.xi.fill)) (le8 4 ++ le8 (49152 - s.xi.fill) ++ le16 s.xi.sequence.toNat)) 0
    (16 * (49152 - s.xi.fill)) (by rw [padTo_length]; omega)
  rw [Nat.add_zero, List.drop_zero, List.take_of_length_le (by rw [padTo_length])] at hat
  rw [hat, padTo_header _ (by simp [le8]; omega)]
  rfl

theorem recordMemory_elsewhere {x : Nat}
    (hrecord : x < 0x40000 + 16 * (if 49152 - s.xi.fill < len then 0 else s.xi.fill)
      ∨ 0x40000 + 16 * ((if 49152 - s.xi.fill < len then 0 else s.xi.fill) + len) ≤ x)
    (hfiller : 49152 - s.xi.fill < len → x < 0x40000 + 16 * s.xi.fill ∨ 0x100000 ≤ x) :
    (recordMemory kind len body s).read x = s.mem.read x := by
  unfold recordMemory
  split
  · next hwraps =>
    rw [if_pos hwraps] at hrecord
    have hout := hfiller hwraps
    rw [Memory.read_splice_out _ _ _ _ (by rw [padTo_length]; omega),
      Memory.read_splice_out _ _ _ _ (by rw [padTo_length]; omega)]
  · next hfits =>
    rw [if_neg hfits] at hrecord
    rw [Memory.read_splice_out _ _ _ _ (by rw [padTo_length]; omega)]

end Units

/-- Settles O36: the record laid, then JOURNAL. -/
theorem recordIsWrittenAtTheFillMark : Obligations.RecordIsWrittenAtTheFillMark := by
  refine ⟨rfl, ?_⟩
  intro kind len body s hone hlen hfill hbody hk t left wraps start sequence
  have ht : t = (s.recordLaid kind len body).testNotify := rfl
  have hlaid := State.recordLaid_eq hk (len := len) body hfill
  have hnotify := State.testNotify_eq (s.recordLaid kind len body)
  rw [← ht, hlaid] at hnotify
  have hmem : t.mem = recordMemory kind len body s := congrArg State.mem hnotify
  have hxi := congrArg State.xi hnotify
  refine ⟨?_, ?_, ?_, ?_, ?_, ?_, ?_, ?_, ?_, ?_, ?_, ?_, ?_⟩
  · rw [hxi]
  · rw [hxi]
  · rw [hxi]
  · rw [hxi]
  · rw [hxi]
  · rw [hmem]
    exact recordMemory_record
  · intro hwraps
    rw [hmem]
    exact recordMemory_filler hlen hfill hwraps
  · intro x hrecord hfiller
    rw [hmem]
    exact recordMemory_elsewhere hrecord hfiller
  · rw [hxi]
    split
    · exact ⟨rfl, rfl⟩
    · exact ⟨rfl, rfl⟩
  · rw [hxi]
  · rw [hxi]
  · rw [hxi]
  · intro raised
    rw [hmem, hxi]
    exact hnotify

end Sys2Proof.Machine
end

section
/-! SUPPORT. Runs and areas (R146 to R151): opening, closing, releasing and clearing. -/

open Sys2Proof

namespace Sys2Proof.Machine

/-! ## Memory below the journal -/

theorem State.layRecord_read32_below {kind : RecordKind} {len : Nat} {body : List Byte} {s : State} {x : Nat}
    (h : x + 4 ≤ journalAddr) : (s.layRecord kind len body).mem.read32 x = s.mem.read32 x :=
  Memory.read32_splice_out _ _ _ _ (by omega)

/-- A record writes nothing below the journal. -/
theorem State.writeRecord_read32_below {kind : RecordKind} {len : Nat} {body : List Byte} {s : State} {x : Nat}
    (h : x + 4 ≤ journalAddr) : (s.writeRecord kind len body).mem.read32 x = s.mem.read32 x := by
  have hfiller : (s.layFiller len).mem.read32 x = s.mem.read32 x := by
    unfold State.layFiller
    split
    · rfl
    · exact State.layRecord_read32_below h
  rw [State.writeRecord, (State.testNotify_same _).2.1]
  exact (State.layRecord_read32_below h).trans hfiller

/-- A cell of the request table stands below the areas and the journal. -/
theorem State.Comes.cell_lt {kind : Option ReqKind} {cell : Nat} {m : State} (h : m.Comes kind cell) : cell < 32 :=
  ((m.sweepReaches_iff cell).1 h.reaches).1

theorem cellState_splice_area {cell : Nat} (hcell : cell < 32) (area : Area) {first : Nat} (h : areaAddr area ≤ first)
    (l : List Byte) (m : Memory) : cellState (m.splice first l) cell = cellState m cell := by
  have hbelow := areaAddr_above_status area
  have hcells := cellAddr_below_status hcell
  exact Memory.read32_splice_out _ _ _ _ (by omega)

theorem State.writeRecord_cellState {cell : Nat} (hcell : cell < 32) (kind : RecordKind) (len : Nat) (body : List Byte)
    (s : State) : cellState (s.writeRecord kind len body).mem cell = cellState s.mem cell :=
  State.writeRecord_read32_below (by simp only [cellAddr, journalAddr]; omega)

theorem State.closeRun_cellState {cell : Nat} (hcell : cell < 32) (area : Area) (s : State) :
    cellState (s.closeRun area).mem cell = cellState s.mem cell :=
  (cellState_splice_area hcell area (Nat.le_refl _) _ _).trans (State.writeRecord_cellState hcell _ _ _ _)

/-! ## A run drains, opens, closes -/

section Runs

variable (area : Area) (s : State)

theorem State.drainRun_eq (reason : CloseReason) :
    s.drainRun area reason =
      (s.onArea area (fun e => { e with run := some .draining, reason := some reason })).store (areaAddr area)
        (le16 ((s.tu.entry area).number.getD 0) ++ le8 2 ++ le8 reason.code) := by
  cases area <;> rfl

theorem State.startRun_eq (number : Nat) (label : Word) :
    s.startRun area number label =
      ((s.onArea area (fun e =>
        { e with
          area := .inUse, number := some number, label := some label, run := some .opened, live := 0
          logPending := 0, reason := none, reservation := 2 })).store (areaAddr area)
          (le16 number ++ le8 1 ++ le8 0)).store (areaAddr area + 4)
          (le32 label ++ le32 s.dt.nextSerial ++ le32 0 ++ le32 0) := by
  cases area <;> rfl

theorem otherArea_eq : otherArea area = if area = .a then .b else .a := by cases area <;> rfl

theorem areaByte_eq : opt8 (areaCode (some area)) = le8 (if area = .a then 0 else 1) := by cases area <;> rfl

end Runs

theorem Tally.target_eq (tu : Tally) : tu.target = if tu.lastOpened = some .a then .b else .a := by
  unfold Tally.target
  cases tu.lastOpened with
  | none => rfl
  | some area => cases area <;> rfl

/-- The state in which the new run stands, before the drained one is tested (R148). -/
def State.switched (target : Area) (label : Word) (s : State) : State :=
  ((match s.tu.openArea with
    | some o => s.drainRun o .switch
    | none => s).startRun target (s.tu.runToGive target) label).onTu (fun tu =>
      { tu with nextRun := runAfter (s.tu.runToGive target), lastOpened := some target })

theorem State.onTu_entry (area : Area) (number : Nat) (last : Option Area) (s : State) :
    (s.onTu (fun tu => { tu with nextRun := number, lastOpened := last })).tu.entry area = s.tu.entry area := by
  cases area <;> rfl

/-- The run that a switch drains, in its own area. -/
theorem State.switched_entry {s : State} {target o : Area} (hopen : s.tu.openArea = some o) (hne : target ≠ o)
    (label : Word) : (s.switched target label).tu.entry o =
      { s.tu.entry o with run := some .draining, reason := some .switch } := by
  unfold State.switched
  simp only [hopen, State.onTu_entry, State.startRun_eq, State.drainRun_eq, State.store_tu, State.onArea_tu_entry,
    if_neg hne, if_true]

/-- OPEN_RUN's OK case: the switch, then the drained run closes where nothing of it is left (R148, R150). -/
theorem State.openRunIn_eq {target : Area} {label : Word} {s : State} (hapart : s.tu.Apart)
    (hfree : (s.tu.entry target).area = .free) :
    s.openRunIn target label =
      match s.tu.openArea with
      | some o =>
        if (s.tu.entry o).live = 0 ∧ (s.tu.entry o).logPending = 0 then (s.switched target label).closeRun o
        else s.switched target label
      | none => s.switched target label := by
  unfold State.openRunIn State.switched
  cases hopen : s.tu.openArea with
  | none => rfl
  | some o =>
    have hrun := (hapart.openArea_iff o).1 hopen
    have hne : target ≠ o := by
      rintro rfl
      have huse := hapart.inUse target (by rw [hrun]; simp)
      rw [hfree] at huse
      cases huse
    have hentry := State.switched_entry hopen hne label
    unfold State.switched at hentry
    rw [hopen] at hentry
    dsimp only at hentry ⊢
    unfold State.closeIfDrained
    rw [hentry]
    exact if_congr (and_iff_right rfl) rfl rfl

theorem State.switched_eq (target : Area) (label : Word) (s : State) :
    s.switched target label =
      ((((match s.tu.openArea with
        | some o =>
          (s.onArea o (fun e => { e with run := some .draining, reason := some .switch })).store (areaAddr o)
            (le16 ((s.tu.entry o).number.getD 0) ++ le8 2 ++ le8 1)
        | none => s).onArea target (fun e =>
        { e with
          area := .inUse, number := some (s.tu.runToGive target), label := some label, run := some .opened, live := 0
          logPending := 0, reason := none, reservation := 2 })).store (areaAddr target)
          (le16 (s.tu.runToGive target) ++ le8 1 ++ le8 0)).store (areaAddr target + 4)
          (le32 label ++ le32 s.dt.nextSerial ++ le32 0 ++ le32 0)).onTu (fun tu =>
            { tu with nextRun := runAfter (s.tu.runToGive target), lastOpened := some target }) := by
  unfold State.switched
  rw [State.startRun_eq]
  cases s.tu.openArea with
  | none => rfl
  | some o =>
    dsimp only
    rw [State.drainRun_eq]
    rfl

theorem State.switched_cellState {cell : Nat} (hcell : cell < 32) (target : Area) (label : Word) (s : State) :
    cellState (s.switched target label).mem cell = cellState s.mem cell := by
  have hstart (u : State) (number : Nat) : cellState (u.startRun target number label).mem cell = cellState u.mem cell := by
    rw [State.startRun_eq, State.store_mem, State.store_mem, State.onArea_mem,
      cellState_splice_area hcell target (Nat.le_add_right _ 4), cellState_splice_area hcell target (Nat.le_refl _)]
  unfold State.switched
  rw [State.onTu_mem, hstart]
  cases s.tu.openArea with
  | none => rfl
  | some o =>
    dsimp only
    rw [State.drainRun_eq, State.store_mem, State.onArea_mem, cellState_splice_area hcell o (Nat.le_refl _)]

theorem State.openRunIn_cellState {cell : Nat} (hcell : cell < 32) {target : Area} {label : Word} {s : State}
    (hapart : s.tu.Apart) (hfree : (s.tu.entry target).area = .free) :
    cellState (s.openRunIn target label).mem cell = cellState s.mem cell := by
  rw [State.openRunIn_eq hapart hfree]
  split
  · split
    · rw [State.closeRun_cellState hcell, State.switched_cellState hcell]
    · exact State.switched_cellState hcell _ _ _
  · exact State.switched_cellState hcell _ _ _

/-- Settles O49: the refusals in order, then the switch. -/
theorem openRunSwitchesAreas : Obligations.OpenRunSwitchesAreas := by
  intro cell host s hw h
  have taken := (s.met host).handed_taken cell
  intro u target other label after number hapart
  have htarget : u.tu.target = target := (s.met host).tu.target_eq
  have hother : other = otherArea target := (otherArea_eq target).symm
  have hnumber : u.tu.runToGive target = number := by
    unfold Tally.runToGive
    rw [← hother]
    rfl
  split
  · next hbusy =>
    refine take_answers hw h (if_pos ?_) taken
    rw [htarget]
    exact hbusy
  · next hfree =>
    have hskip : ¬(u.tu.entry u.tu.target).area ≠ .free := by
      rw [htarget]
      exact hfree
    split
    · next hdraining =>
      exact take_answers hw h ((if_neg hskip).trans (if_pos (Option.isSome_iff_ne_none.2 hdraining))) taken
    · next hnone =>
      have hdrained : ¬u.tu.drainingArea.isSome = true := fun hsome => hnone (Option.isSome_iff_ne_none.1 hsome)
      have hreserve : mayReserve u 2 = decide (¬unreservedUnits (s.met host).dt (s.met host).tu (s.met host).xi < 21) :=
        decide_eq_decide.2 Nat.not_lt.symm
      split
      · next hroom =>
        exact take_answers hw h ((if_neg hskip).trans ((if_neg hdrained).trans
          (if_pos (hreserve.trans (decide_eq_false (not_not_intro hroom)))))) taken
      · next hroom =>
        have hmay : ¬mayReserve u 2 = false := by
          rw [hreserve, decide_eq_true hroom]
          exact Bool.noConfusion
        intro drained opened closed
        have hopened : u.switched target label = opened := by
          rw [State.switched_eq, hnumber] <;> rfl
        have hclosed : u.openRunIn target label = closed := by
          rw [State.openRunIn_eq (s := u) hapart (not_not.1 hfree), hopened] <;> rfl
        have hmem : cellState closed.mem cell = cellState u.mem cell := by
          rw [← hclosed, State.openRunIn_cellState h.cell_lt (s := u) hapart (not_not.1 hfree)]
        refine take_answers hw h ?_ (hmem.trans taken)
        refine (if_neg hskip).trans ((if_neg hdrained).trans ((if_neg hmay).trans ?_))
        rw [htarget, hnumber, areaByte_eq]
        exact congrArg (fun v : State => v.reply _ _ _ _) hclosed

end Sys2Proof.Machine
end

section
/-! SUPPORT. The close of a run, and the clearing of an area (R149, R150, R151). -/

open Sys2Proof

namespace Sys2Proof.Machine

/-! ## CLOSE_RUN -/

/-- A run that drains has its entry say so. -/
theorem State.drainRun_entry (area : Area) (reason : CloseReason) (s : State) :
    (s.drainRun area reason).tu.entry area = { s.tu.entry area with run := some .draining, reason := some reason } := by
  rw [State.drainRun_eq, State.store_tu, State.onArea_tu_entry, if_pos rfl]

theorem State.closeIfDrained_draining {area : Area} {s : State} (h : (s.tu.entry area).run = some .draining) :
    s.closeIfDrained area =
      if (s.tu.entry area).live = 0 ∧ (s.tu.entry area).logPending = 0 then s.closeRun area else s :=
  if_congr (and_iff_right h) rfl rfl

theorem State.serveCloseRun_none {r : Request} {s : State} (h : s.tu.openArea = none) :
    s.serveCloseRun r = s.reply r .refusedState 0 [] := by
  unfold State.serveCloseRun
  rw [h]

theorem State.serveCloseRun_some {r : Request} {s : State} {area : Area} (h : s.tu.openArea = some area) :
    s.serveCloseRun r =
      if s.tu.drainingArea.isSome = true then s.reply r .busy 0 []
      else ((s.drainRun area .close).reply r .done 0 (le16 ((s.tu.entry area).number.getD 0))).closeIfDrained area := by
  unfold State.serveCloseRun
  rw [h]

/-- A closed header, a held area and RUN_CLOSED over the state that the RUN_CLOSE record leaves. -/
theorem State.seal_eq (area : Area) (s : State) :
    ((s.writeHeader area headerClosed).onArea area (fun e => { e with area := .held, run := none })).notify .runClosed =
      { s with
        mem := s.mem.splice (areaAddr area) (le16 ((s.tu.entry area).number.getD 0) ++ le8 3
          ++ le8 (((s.tu.entry area).reason.map CloseReason.code).getD 0))
        tu := (s.onArea area (fun e => { e with area := .held, run := none })).tu
        xi := (s.notify .runClosed).xi
        out := (s.notify .runClosed).out } := rfl

/-- What the close of a run leaves (R150). -/
theorem State.closeRun_eq (area : Area) (s : State) {written : State}
    (hw : written = (s.onArea area (fun e => { e with reservation := 0 })).writeRecord .runClose 2
      (closeBody s.mem area (s.tu.entry area))) :
    s.closeRun area =
      { s with
        mem := written.mem.splice (areaAddr area) (le16 ((s.tu.entry area).number.getD 0) ++ le8 3
          ++ le8 (((s.tu.entry area).reason.map CloseReason.code).getD 0))
        tu := (s.closeRun area).tu
        xi := (written.notify .runClosed).xi
        out := (written.notify .runClosed).out } := by
  have hclose : s.closeRun area =
      ((written.writeHeader area headerClosed).onArea area (fun e => { e with area := .held, run := none })).notify
        .runClosed := by
    rw [hw]
    rfl
  obtain ⟨hpending, hdt, hsa, hda, hrs, hts, hou, hax, htu⟩ := State.writeRecord_same .runClose 2
    (closeBody s.mem area (s.tu.entry area)) (s.onArea area (fun e => { e with reservation := 0 }))
  rw [← hw] at hpending hdt hsa hda hrs hts hou hax htu
  have hentry : written.tu.entry area = { s.tu.entry area with reservation := 0 } := by
    rw [htu, State.onArea_tu_entry, if_pos rfl]
  rw [hclose, State.seal_eq, hpending, hdt, hsa, hda, hrs, hts, hou, hax, hentry]
  rfl

/-- Settles O50: the refusals, the drain and its answer, then the close. -/
theorem closeRunDrainsAndCloses : Obligations.CloseRunDrainsAndCloses := by
  refine ⟨?_, ?_⟩
  case refine_2 =>
    intro area s t written
    have heq := State.closeRun_eq area s (written := written) rfl
    have hmem : t.mem = _ := congrArg State.mem heq
    have hxi : t.xi = _ := congrArg State.xi heq
    refine ⟨?_, ?_, hmem, hxi, ?_⟩
    · rw [State.closeRun_tu]
      simp only [State.onArea_tu_entry, if_true]
    · intro o ho
      rw [State.closeRun_tu]
      simp only [State.onArea_tu_entry, if_neg (Ne.symm ho)]
    · rw [hmem, hxi]
      exact heq
  intro cell host s hw h
  have taken := (s.met host).handed_taken cell
  intro u
  split
  · next hopen => exact take_answers hw h (State.serveCloseRun_none (s := u) hopen) taken
  · next area hopen =>
    have hserve := State.serveCloseRun_some (r := params (s.met host) cell) (s := u) hopen
    split
    · next hdraining =>
      exact take_answers hw h (hserve.trans (if_pos (Option.isSome_iff_ne_none.2 hdraining))) taken
    · next hnone =>
      intro number drained
      have hdrained : u.drainRun area .close = drained := State.drainRun_eq area u .close
      have hskip : ¬u.tu.drainingArea.isSome = true := fun hsome => hnone (Option.isSome_iff_ne_none.1 hsome)
      rw [if_neg hskip, hdrained] at hserve
      obtain ⟨t, hnext, hsettles⟩ := withHost_does (exec_take s (some .closeRun) cell host) hw
      have htaken : cellState drained.mem cell = cellTaken := by
        rw [State.store_mem, cellState_splice_area h.cell_lt area (Nat.le_refl _)]
        exact taken
      refine ⟨_, t, hnext, State.endCell_answers _ _ _ _ _ htaken, ?_⟩
      rw [State.takeRow_of_comes h] at hsettles
      have hv : (drained.endCell cell (cellKind (s.met host).mem cell) ((s.met host).mem.read32 (cellAddr cell + 8))
          .done 0 (le16 number)).tu = drained.tu :=
        (State.endCell_same ..).2.2.2.2.2.2.2.2
      have hentry := State.drainRun_entry area .close u
      rw [hdrained, ← hv] at hentry
      have hclose := State.closeIfDrained_draining (congrArg RunEntry.run hentry)
      have hserved : u.serve (some .closeRun) (params (s.met host) cell) = _ := hserve.trans hclose
      rw [hserved, hentry] at hsettles
      exact hsettles

/-! ## RELEASE_AREA and the clearing -/

theorem State.serveReleaseArea_badParam {r : Request} {s : State} (h : 1 < r.byte 0x10) :
    s.serveReleaseArea r = s.reply r .badParam 0 [] := by
  unfold State.serveReleaseArea
  obtain ⟨n, hn⟩ := Nat.exists_eq_add_of_le' h
  rw [hn]
  rfl

theorem State.serveReleaseArea_area {r : Request} {s : State} (h : ¬1 < r.byte 0x10) {area : Area}
    (ha : area = if r.byte 0x10 = 0 then .a else .b) :
    s.serveReleaseArea r =
      if (s.tu.entry area).area = .held then (s.onArea area (RunEntry.clear r.cell)).keepInHand r
      else s.reply r .refusedState 0 [] := by
  unfold State.serveReleaseArea
  have hcode : r.byte 0x10 = 0 ∨ r.byte 0x10 = 1 := by omega
  rcases hcode with h0 | h1
  · rw [ha, h0]
    rfl
  · rw [ha, h1]
    rfl

/-- A request in hand that a command ends (R168, R169). -/
theorem endsHeld_of_does {c : Instr} {s u : State} {cell : Nat} {held : InHand} {result : Result} {detail : Word}
    {area : List Byte} (hfind : u.xi.inHand.find? (fun h => h.cell == cell) = some held)
    (h : Does c s (u.endInHand cell result detail area)) : EndsHeld c s held u result detail area := by
  have hcell : held.cell = cell := by simpa using List.find?_some hfind
  have hend : u.endInHand cell result detail area = u.endCell held.cell held.kind held.tag result detail area := by
    unfold State.endInHand
    rw [hfind, hcell]
  rw [hend] at h
  unfold EndsHeld
  split
  · next htaken =>
    obtain ⟨t, hnext, hsettles⟩ := h
    exact ⟨_, t, hnext, State.endCell_answers _ _ _ _ _ htaken, hsettles⟩
  · next hnot =>
    rwa [State.endCell_dropped _ _ _ _ _ hnot] at h

theorem State.completeClearing_eq {area : Area} {s : State} (h : (s.tu.entry area).area = .clearing) {cell : Nat}
    (hcell : (s.tu.entry area).clearingCell = some cell) :
    s.completeClearing area =
      ((s.onMem (fun mem => mem.zero (areaAddr area + 4 * (s.tu.entry area).swept)
        (4 * (0x4000 - (s.tu.entry area).swept)))).onArea area (fun e =>
          { e with area := .free, clearingCell := none, swept := 0 })).endInHand cell .done 0
            (le8 (if area = .a then 0 else 1)) := by
  unfold State.completeClearing
  rw [if_pos h, hcell, areaByte_eq]
  rfl

/-- How far a late write sees a clearing come: through the last word of the area that the write reaches. -/
theorem wordsThrough_eq (area : Area) (w : HostWrite) :
    wordsThrough area w =
      if w.bytes ≠ [] ∧ w.addr < areaAddr area + 0x10000 ∧ areaAddr area < w.addr + w.bytes.length then
        (min (w.addr + w.bytes.length) (areaAddr area + 0x10000) - 1 - areaAddr area) / 4 + 1
      else 0 := by
  unfold wordsThrough
  simp only [List.isEmpty_iff, areaBytes]
  by_cases hbytes : w.bytes = []
  · simp [hbytes]
  · simp only [hbytes, false_or, ne_eq, not_false_eq_true, true_and]
    split <;> split <;> omega

section Passed

variable {area : Area} {w : HostWrite} {s : State}

theorem wordsThrough_le (area : Area) (w : HostWrite) : wordsThrough area w ≤ 0x4000 := by
  rw [wordsThrough_eq]
  split <;> omega

/-- A late write passes the words of the area, and of no other. -/
theorem State.passWords_entry (h : (s.tu.entry area).area = .clearing) :
    (s.passWords w).tu.entry area = { s.tu.entry area with swept := max (s.tu.entry area).swept (wordsThrough area w) } := by
  unfold State.passWords
  cases area with
  | a =>
    rw [State.sweepThrough_entry, if_neg (by simp), State.sweepThrough_entry, if_pos ⟨rfl, h⟩]
    rfl
  | b =>
    have hother (u : State) : (u.sweepThrough .a (wordsThrough .a w)).tu.entry .b = u.tu.entry .b := by
      rw [State.sweepThrough_entry, if_neg (by simp)]
    rw [State.sweepThrough_entry, hother, if_pos ⟨rfl, h⟩]
    rfl

theorem State.passWords_read (h : (s.tu.entry area).area = .clearing) {x : Nat} (hlo : areaAddr area ≤ x)
    (hhi : x < areaAddr area + 0x10000) :
    (s.passWords w).mem.read x =
      if areaAddr area + 4 * (s.tu.entry area).swept ≤ x ∧ x < areaAddr area + 4 * wordsThrough area w then 0
      else s.mem.read x := by
  unfold State.passWords
  cases area with
  | a =>
    rw [State.read_sweepThrough, if_neg (by simp only [areaAddr] at hhi ⊢; omega), State.read_sweepThrough]
    exact if_congr (and_iff_right h) rfl rfl
  | b =>
    have hother (u : State) : (u.sweepThrough .a (wordsThrough .a w)).tu.entry .b = u.tu.entry .b := by
      rw [State.sweepThrough_entry, if_neg (by simp)]
    have hbound := wordsThrough_le .a w
    rw [State.read_sweepThrough, hother]
    refine if_congr (and_iff_right h) rfl ?_
    rw [State.read_sweepThrough, if_neg (by simp only [areaAddr] at hlo ⊢; omega)]
    rfl

end Passed

/-- Settles O51: the refusals, the end of the clearing, and what a host write finds of it. -/
theorem areaIsReleasedAndCleared : Obligations.AreaIsReleasedAndCleared := by
  refine ⟨?_, ?_, ?_, ?_⟩
  · intro cell host s hw h
    have taken := (s.met host).handed_taken cell
    intro u code area
    split
    · next hbad => exact take_answers hw h (State.serveReleaseArea_badParam (s := u) hbad) taken
    · next hgood =>
      have hserve := State.serveReleaseArea_area (r := params (s.met host) cell) (s := u) hgood (area := area) rfl
      split
      · next hheld => exact take_keeps hw h (hserve.trans (if_pos hheld))
      · next hnot => exact take_answers hw h (hserve.trans (if_neg hnot)) taken
  · intro area host s hw m
    have hdoes := withHost_does (exec_clearingCompletion s area host) hw
    split
    · next hclearing =>
      intro held cell hcell hfind
      rw [State.completeClearing_eq (s := s.met host) hclearing hcell] at hdoes
      exact endsHeld_of_does (u := State.onArea area _ _) hfind hdoes
    · next hnot =>
      have hsame : (s.met host).completeClearing area = s.met host := if_neg hnot
      rwa [hsame] at hdoes
  · intro area w s hclearing t first last past passed passedNow
    have hpassed (hlate : w.late = true) : passedNow = max passed (wordsThrough area w) := by
      simp only [passedNow, hlate, true_and, wordsThrough_eq]
      split
      · rfl
      · exact (Nat.max_zero _).symm
    have hstill (hlate : ¬w.late = true) : passedNow = passed := if_neg fun h => hlate h.1
    have hread (x : Nat) : t.mem.read x =
        if w.addr ≤ x ∧ x < past then w.bytes.getD (x - w.addr) 0
        else (if w.late = true then s.passWords w else s).mem.read x := by
      exact Memory.read_splice _ _ _ _
    by_cases hlate : w.late = true
    · have ht : t.tu = (s.passWords w).tu := by
        show (if w.late = true then s.passWords w else s).tu = _
        rw [if_pos hlate]
      refine ⟨by rw [ht, State.passWords_entry hclearing, hpassed hlate], ?_⟩
      intro x hlo hhi
      rw [hread x, if_pos hlate, State.passWords_read hclearing hlo hhi, hpassed hlate]
      refine if_congr .rfl rfl (if_congr ?_ rfl rfl)
      omega
    · have ht : t.tu = s.tu := by
        show (if w.late = true then s.passWords w else s).tu = _
        rw [if_neg hlate]
      refine ⟨by rw [ht, hstill hlate], ?_⟩
      intro x hlo hhi
      rw [hread x, if_neg hlate, hstill hlate]
      refine if_congr .rfl rfl ?_
      rw [if_neg (by omega)]
  · intro mem first n x
    rw [Memory.read_zero]
    by_cases hx : first ≤ x ∧ x < first + n
    · rw [if_neg (by omega), if_pos hx]
    · rw [if_pos (by omega), if_neg hx]

end Sys2Proof.Machine
end

section
/-! SUPPORT. The scan-zone entry (R32, R48, R49, R50, R51, R79). -/

open Sys2Proof

namespace Sys2Proof.Machine

/-! ## The heads charged -/

/-- A head READY at the roster decision has its credit moved (R48). -/
def Head.charged (ready : HeadSet) (scan : Option Density) (n : Nat) (hd : Head) : Head :=
  if has ready n then { hd with credit := creditAfter hd.credit scan } else hd

theorem State.chargeHeads_eq (ready : HeadSet) (scan : Option Density) (s : State) (hlen : s.sa.heads.length = 8) :
    s.chargeHeads ready scan =
      { s with sa := { s.sa with heads := s.sa.heads.mapIdx (fun i hd => hd.charged ready scan (i + 1)) } } := by
  have hloop := State.each_heads
    (fun h s => if has ready h then s.onHead h (fun hd => { hd with credit := creditAfter hd.credit scan }) else s)
    (fun n hd => hd.charged ready scan n) (fun _ _ => []) ?_ 8 s (by omega)
  · have hheads : s.sa.heads.mapIdx (fun i hd => if i < 8 then hd.charged ready scan (i + 1) else hd)
        = s.sa.heads.mapIdx (fun i hd => hd.charged ready scan (i + 1)) := by
      refine List.ext_getElem (by simp) fun i h1 h2 => ?_
      have hi : i < 8 := by simpa [hlen] using h2
      simp [hi]
    have hsent : (List.range' 1 8).flatMap (fun h => ((s.sa.heads[h - 1]?).map (fun _ => ([] : List Output))).getD []) = [] :=
      List.flatMap_eq_nil_iff.2 fun h _ => by cases s.sa.heads[h - 1]? <;> rfl
    unfold State.chargeHeads
    rw [hloop, hheads, hsent, List.append_nil]
  · intro n u hd hhd
    dsimp only
    split
    · next hready =>
      rw [modify_congr (f := fun hd => hd.charged ready scan (n + 1))
        (g := fun hd => { hd with credit := creditAfter hd.credit scan }) hhd (if_pos hready)]
      simp [State.onHead, State.onSa]
    · next hready =>
      rw [modify_congr (f := fun hd => hd.charged ready scan (n + 1)) (g := id) hhd (if_neg hready), List.modify_id]
      simp

theorem Scan.has_readySet (sa : Scan) (hlen : sa.heads.length = 8) (n : Nat) :
    has sa.readySet n = decide (sa.headState n = .ready) := by
  rw [Bool.eq_iff_iff, decide_eq_true_iff]
  by_cases hlo : 1 ≤ n
  · by_cases hhi : n ≤ 8
    · rw [Scan.readySet, Scan.headsIn, has_maskOf 8 _ n hlo hhi]
      simp [List.mem_range'_1, hlo, Nat.lt_succ_of_le hhi, Nat.add_comm 1 8]
    · have hout : sa.headState n = .offline := by
        have hnone : sa.heads[n - 1]? = none := List.getElem?_eq_none (by omega)
        simp [Scan.headState, Scan.head?, hnone]
      simp [has, BitVec.getLsbD_of_ge _ (n - 1) (by omega : 8 ≤ n - 1), hout]
  · have hzero : n = 0 := by omega
    simp [has, hzero, Scan.headState, Scan.head?]

/-! ## The density -/

theorem affordable_iff (heads : List Head) (roster : HeadSet) (d : Density) :
    affordable heads roster d = true
      ↔ ∀ (i : Nat) (hd : Head), heads[i]? = some hd → has roster (i + 1) = true → d.cost ≤ hd.credit := by
  have key (n : Nat) : (numbered n heads).all (fun x => !(has roster x.1) || decide (d.cost ≤ x.2.credit)) = true
      ↔ ∀ (i : Nat) (hd : Head), heads[i]? = some hd → has roster (n + i) = true → d.cost ≤ hd.credit := by
    induction heads generalizing n with
    | nil => simp [numbered]
    | cons first rest ih =>
      have hfirst : (!has roster n || decide (d.cost ≤ first.credit)) = true
          ↔ (has roster n = true → d.cost ≤ first.credit) := by
        cases has roster n <;> simp
      rw [numbered, List.all_cons, Bool.and_eq_true, hfirst, ih (n + 1)]
      constructor
      · rintro ⟨h0, hrest⟩ i hd hi hroster
        cases i with
        | zero =>
          cases hi
          exact h0 hroster
        | succ i => exact hrest i hd hi (by rwa [Nat.add_assoc, Nat.add_comm 1 i])
      · intro h
        exact ⟨h 0 first rfl, fun i hd hi hroster => h (i + 1) hd hi (by rwa [Nat.add_comm i 1, ← Nat.add_assoc])⟩
  have hone := key 1
  simp only [Nat.add_comm 1] at hone
  exact hone

/-- The density fixed is the highest not above the target that the credits cover (R50). -/
theorem densityFor_eq (heads : List Head) (roster : HeadSet) (target : Density) :
    densityFor heads roster target =
      if target = .x4 ∧ affordable heads roster .x4 = true then .x4
      else if target ≠ .x1 ∧ affordable heads roster .x2 = true then .x2
      else .x1 := by
  have hone : affordable heads roster .x1 = true := (affordable_iff _ _ _).2 fun i hd _ _ => Nat.zero_le _
  unfold densityFor
  cases target <;> cases h2 : affordable heads roster .x2 <;> cases h4 : affordable heads roster .x4 <;>
    simp [densitiesFrom, hone, h2, h4]

theorem affordable_densityFor (heads : List Head) (roster : HeadSet) (target : Density) :
    affordable heads roster (densityFor heads roster target) = true := by
  rw [densityFor_eq]
  split
  · next h => exact h.2
  · split
    · next h => exact h.2
    · exact (affordable_iff _ _ _).2 fun i hd _ _ => Nat.zero_le _

theorem densityFor_le (heads : List Head) (roster : HeadSet) (target : Density) :
    (densityFor heads roster target).code ≤ target.code := by
  rw [densityFor_eq]
  split
  · next h => rw [h.1]
  · split
    · next h => cases target <;> simp [Density.code] at h ⊢
    · cases target <;> simp [Density.code]

theorem Density.one_le_code (d : Density) : 1 ≤ d.code := by cases d <;> decide

theorem not_affordable_above {heads : List Head} {roster : HeadSet} {target e : Density}
    (hlow : (densityFor heads roster target).code < e.code) (hhigh : e.code ≤ target.code) :
    ¬affordable heads roster e = true := by
  intro he
  rw [densityFor_eq] at hlow
  cases e with
  | x1 => exact absurd hlow (Nat.not_lt.2 (Density.one_le_code _))
  | x2 =>
    have htarget : target ≠ .x1 := by rintro rfl; simp [Density.code] at hhigh
    rw [if_pos (c := target ≠ .x1 ∧ _) ⟨htarget, he⟩] at hlow
    split at hlow <;> simp [Density.code] at hlow
  | x4 =>
    have htarget : target = .x4 := by cases target <;> simp [Density.code] at hhigh ⊢
    rw [if_pos ⟨htarget, he⟩] at hlow
    simp [Density.code] at hlow

theorem Policy.targetDensity_code (p : Policy) :
    p.targetDensity.code
      = if p.density = 2 ∨ p.density = 4 then 2 else if p.density = 3 ∨ p.density = 5 then 4 else 1 := by
  unfold Policy.targetDensity
  split
  · rfl
  · split <;> rfl

theorem Density.code_lt_iff {d e : Density} (h : d.code ≤ e.code) : d.code < e.code ↔ d ≠ e := by
  cases d <;> cases e <;> simp [Density.code] at h ⊢

/-! ## The entry -/

theorem Deck.entering_iff (d : Deck) (g : Geometry) (p : Piece) :
    d.entering g = some p ↔ d.pieceAt g.ss = some p ∧ p.state = .admitted := by
  unfold Deck.entering
  cases h : d.pieceAt g.ss with
  | none => simp
  | some q =>
    dsimp only
    constructor
    · intro hq
      split at hq
      · next hs =>
        cases hq
        exact ⟨rfl, hs⟩
      · cases hq
    · rintro ⟨hq, hs⟩
      cases hq
      exact if_pos hs

/-- A piece as the start of its scan leaves it (R32, R51, R79). -/
def Piece.enterScan (generation : Option (Nat × Nat)) (d : Density) (ready : HeadSet) (down : Bool) (p : Piece) : Piece :=
  { p with
    generation, state := .scanning, density := some d, roster := some ready
    assembly := some { received := [], dropped := 0, downgraded := down, stale := false } }

/-- The start of a scan: the piece, the slot's bound count and DA's count (R32, R50, R51, R79). -/
theorem State.startScan_eq {s : State} {slot : Nat} {sl : Slot} (hslot : s.rs.activeSlot = some slot)
    (hsl : s.rs.slots[slot]? = some sl) (serial : Word) (ready : HeadSet) :
    s.startScan serial ready =
      ((s.onPiece serial (Piece.enterScan (sl.number.map (fun n => (n, slot))) (s.fixedDensity ready) ready
        (s.isDowngrade ready))).onSlot slot (fun sl => { sl with bound := sl.bound + 1 })).onDa (fun da =>
          { da with downgrades := if s.isDowngrade ready then da.downgrades + 1 else da.downgrades }) := by
  have hpieces (l : List Piece) (f h : Piece → Piece) (hf : ∀ p, (f p).serial = p.serial) :
      (l.map (fun p => if p.serial = serial then f p else p)).map (fun p => if p.serial = serial then h p else p)
        = l.map (fun p => if p.serial = serial then h (f p) else p) := by
    rw [List.map_map]
    refine List.map_congr_left fun p _ => ?_
    by_cases hp : p.serial = serial
    · simp [hp, hf]
    · simp [hp]
  unfold State.startScan State.bindGeneration
  simp only [hslot, hsl, State.onPiece, State.onSlot, State.onRs, State.onDt, State.onDa]
  rw [hpieces _ _ _ (by intro p; rfl)]
  rfl

/-- The part of DOWNGRADED that a FIXED policy marks (R51). -/
theorem State.isDowngrade_eq {s : State} {slot : Nat} {sl : Slot} (hslot : s.rs.activeSlot = some slot)
    (hsl : s.rs.slots[slot]? = some sl) (ready : HeadSet) :
    s.isDowngrade ready = decide ((sl.rules.policy.density = 2 ∨ sl.rules.policy.density = 3)
      ∧ (s.fixedDensity ready).code < sl.rules.policy.targetDensity.code) := by
  have hrules : s.rs.rulesOf (s.rs.activeSlot.getD 0) = sl.rules := by simp [RuleStore.rulesOf, hslot, hsl]
  have hle : (s.fixedDensity ready).code ≤ sl.rules.policy.targetDensity.code := by
    unfold State.fixedDensity
    rw [hrules]
    exact densityFor_le _ _ _
  rw [Bool.eq_iff_iff, decide_eq_true_iff, Density.code_lt_iff hle]
  simp [State.isDowngrade, hrules, Policy.marksDowngrade]

theorem Head.charged_getElem? {ready : HeadSet} {scan : Option Density} {heads : List Head} {i : Nat} {hd : Head}
    (h : heads[i]? = some hd) :
    (heads.mapIdx (fun i hd => Head.charged ready scan (i + 1) hd))[i]? = some (hd.charged ready scan (i + 1)) := by
  simp [h]

theorem Deck.piece?_of_pieceOf {d : Deck} {lug : Lug} {p : Piece} (h : d.pieceOf lug = some p) :
    d.piece? p.serial = some p := by
  unfold Deck.pieceOf at h
  split at h
  · cases h
  · rw [Deck.piece?_serial h, h]

theorem Deck.piece?_of_pieceAt {d : Deck} {station : Nat} {p : Piece} (h : d.pieceAt station = some p) :
    d.piece? p.serial = some p := by
  unfold Deck.pieceAt at h
  split at h
  · cases h
  · exact Deck.piece?_of_pieceOf h

theorem State.zoneEntry_none {g : Geometry} {s : State} (h : s.dt.entering g = none) (ready : HeadSet) :
    s.zoneEntry g ready = s.chargeHeads ready none := by
  unfold State.zoneEntry
  rw [h]

theorem State.zoneEntry_some {g : Geometry} {s : State} {p : Piece} (h : s.dt.entering g = some p) (ready : HeadSet) :
    s.zoneEntry g ready = (s.startScan p.serial ready).chargeHeads ready (some (s.fixedDensity ready)) := by
  unfold State.zoneEntry
  rw [h]

/-- Settles O32: the entering piece, the density's three properties, the scan's start and the charge. -/
theorem zoneEntryFixesScanTermsAndCredits : Obligations.ZoneEntryFixesScanTermsAndCredits := by
  intro g ready s hlen t credit charged covers
  have hcharged (scan : Option Density)
      (h : t.sa.heads = s.sa.heads.mapIdx (fun i hd => Head.charged ready scan (i + 1) hd)) : charged scan := by
    intro i hd hhd
    rw [h, Head.charged_getElem? hhd]
    refine congrArg some (if_congr .rfl (congrArg (fun c => { hd with credit := c }) ?_) rfl)
    cases scan with
    | none => rfl
    | some d => cases d <;> rfl
  have hcovers (d : Density) : covers d ↔ affordable s.sa.heads ready d = true := by
    rw [affordable_iff]
    cases d <;> exact Iff.rfl
  refine ⟨s.dt.entering_iff g, s.sa.has_readySet hlen, ?_⟩
  split
  · next hnone =>
    have ht : t = _ := (State.zoneEntry_none hnone ready).trans (State.chargeHeads_eq ready none s hlen)
    refine ⟨hcharged none (by rw [ht]), ?_, ?_⟩
    · rw [ht]
    · rw [ht]
  · next p hp =>
    intro slot sl hslot hsl
    have hpiece := Deck.piece?_of_pieceAt ((s.dt.entering_iff g p).1 hp).1
    have hrules : s.rs.rulesOf (s.rs.activeSlot.getD 0) = sl.rules := by simp [RuleStore.rulesOf, hslot, hsl]
    have hdensity : s.fixedDensity ready = densityFor s.sa.heads ready sl.rules.policy.targetDensity := by
      unfold State.fixedDensity
      rw [hrules]
    have ht : t = (s.startScan p.serial ready).chargeHeads ready (some (s.fixedDensity ready)) :=
      State.zoneEntry_some hp ready
    rw [State.startScan_eq hslot hsl, State.chargeHeads_eq] at ht
    case hlen => exact hlen
    refine ⟨s.fixedDensity ready, s.isDowngrade ready, hcharged _ (by rw [ht]; rfl), ?_, rfl, ?_, ?_, ?_, ?_, ?_, ?_, ?_,
      ?_, ?_⟩
    · rw [hcovers, hdensity]
      exact affordable_densityFor _ _ _
    · intro policy target
      have htarget : sl.rules.policy.targetDensity.code = target := sl.rules.policy.targetDensity_code
      refine ⟨?_, ?_, ?_⟩
      · rw [← htarget, hdensity]
        exact densityFor_le _ _ _
      · intro e hlow hhigh
        rw [hcovers]
        rw [hdensity] at hlow
        exact not_affordable_above hlow (htarget ▸ hhigh)
      · rw [← htarget]
        exact State.isDowngrade_eq hslot hsl ready
    · refine ⟨_, ?_, rfl⟩
      rw [ht]
      refine (State.onPiece_piece? s p.serial (f := Piece.enterScan _ _ ready _) (fun _ => rfl)).trans ?_
      rw [hpiece]
      rfl
    · rw [ht]
      simp [State.onSlot, State.onRs, State.onDa, State.onPiece, State.onDt, hsl]
    · rw [ht]
      rfl
    · rw [ht]
      exact State.onPiece_serials s p.serial (fun _ => rfl)
    · intro n hn
      rw [ht]
      exact State.onPiece_piece?_other s hn (f := Piece.enterScan _ _ ready _) (fun _ => rfl)
    · intro k hk
      rw [ht]
      simp [State.onSlot, State.onRs, State.onDa, State.onPiece, State.onDt, Ne.symm hk]
    · rw [ht]
      simp [State.onSlot, State.onRs, State.onDa, State.onPiece, State.onDt, hlen]
    · rw [ht]
      rfl

end Sys2Proof.Machine
end

section
/-! SUPPORT. The solve: its end, its result and its choice (R83 to R105), and the keys of the stations (R107, R108,
R109). -/

open Sys2Proof

namespace Sys2Proof.Machine

/-! ## The choice (R97) -/

/-- The five tests of R97 in one formula. -/
theorem Candidate.over_iff (c d : Candidate) : c.over d = true ↔
    d.value < c.value ∨ (d.value = c.value ∧ (d.length < c.length
      ∨ (d.length = c.length ∧ (c.products.length < d.products.length
        ∨ (c.products.length = d.products.length ∧ (c.saws.getD 0 0 < d.saws.getD 0 0
          ∨ (c.saws.getD 0 0 = d.saws.getD 0 0 ∧ c.saws.getD 1 0 < d.saws.getD 1 0))))))) := by
  unfold Candidate.over
  repeat' split
  all_goals simp only [decide_eq_true_eq]
  all_goals omega

theorem Candidate.over_trans {c d e : Candidate} (hcd : c.over d = true) (hde : d.over e = true) : c.over e = true := by
  rw [Candidate.over_iff] at *
  omega

theorem Candidate.over_cases {c e : Candidate} (d : Candidate) (hce : c.over e = true) :
    c.over d = true ∨ d.over e = true := by
  rw [Candidate.over_iff] at *
  rw [Candidate.over_iff]
  omega

theorem Candidate.not_over_self (c : Candidate) : ¬c.over c = true := by
  rw [Candidate.over_iff]
  omega

/-- The best of a list, from a candidate in hand on. -/
def bestFrom (first : Candidate) (l : List Candidate) : Candidate :=
  l.foldl (fun best d => if d.over best then d else best) first

theorem bestFrom_spec (first : Candidate) (l : List Candidate) :
    bestFrom first l ∈ first :: l ∧ ∀ d ∈ first :: l, ¬d.over (bestFrom first l) = true := by
  induction l generalizing first with
  | nil => simpa [bestFrom] using first.not_over_self
  | cons e rest ih =>
    have hstep : bestFrom first (e :: rest) = bestFrom (if e.over first then e else first) rest := rfl
    obtain ⟨hmem, hnone⟩ := ih (if e.over first then e else first)
    rw [hstep]
    by_cases he : e.over first = true
    · rw [if_pos he] at hmem hnone ⊢
      refine ⟨List.mem_cons_of_mem _ hmem, fun d hd => ?_⟩
      rcases List.mem_cons.1 hd with rfl | hd
      · exact fun hover => hnone e List.mem_cons_self (Candidate.over_trans he hover)
      · exact hnone d hd
    · rw [if_neg he] at hmem hnone ⊢
      refine ⟨?_, fun d hd => ?_⟩
      · rcases List.mem_cons.1 hmem with h | h
        · rw [h]
          exact List.mem_cons_self
        · exact List.mem_cons_of_mem _ (List.mem_cons_of_mem _ h)
      · rcases List.mem_cons.1 hd with rfl | hd
        · exact hnone d List.mem_cons_self
        · rcases List.mem_cons.1 hd with rfl | hd
          · intro hover
            rcases Candidate.over_cases first hover with h | h
            · exact he h
            · exact hnone first List.mem_cons_self h
          · exact hnone d (List.mem_cons_of_mem _ hd)

theorem chooseFrom_eq_none_iff (l : List Candidate) : chooseFrom l = none ↔ l = [] := by
  cases l <;> simp [chooseFrom]

theorem chooseFrom_spec {l : List Candidate} {c : Candidate} (h : chooseFrom l = some c) :
    c ∈ l ∧ ∀ d ∈ l, ¬d.over c = true := by
  cases l with
  | nil => cases h
  | cons first rest =>
    cases h
    exact bestFrom_spec first rest

/-! ## The result (R87 to R101) -/

theorem SolveInput.solveTrim_shorter (x : SolveInput) (reference : Option Nat) (last : Option Solution) {held : Option Nat}
    (hheld : held = reference.or ((chooseFrom x.candidates).map Candidate.length)) :
    x.solveTrim (some (.shorter, reference)) last =
      match chooseFrom (x.candidates.filter (fun c => decide (c.length < held.getD 0))) with
      | some c => { size := x.size, solution := x.normal c .shorter, applied := true, reference := held }
      | none => { size := x.size, solution := x.orLast last, applied := false, reference := held } := by
  subst hheld
  cases reference <;> rfl

theorem SolveInput.solveTrim_cutInTwo (x : SolveInput) (reference : Option Nat) (last : Option Solution) :
    x.solveTrim (some (.cutInTwo, reference)) last =
      match chooseFrom x.doubles with
      | some c => { size := x.size, solution := x.normal c .twoOnly, applied := true, reference := none }
      | none => { size := x.size, solution := x.orLast last, applied := false, reference := none } := rfl

theorem SolveInput.solveTrim_size (x : SolveInput) (trim : Option (TrimKind × Option Nat)) (last : Option Solution) :
    (x.solveTrim trim last).size = x.size := by
  unfold SolveInput.solveTrim
  split
  · dsimp only
    split <;> rfl
  · split <;> rfl
  · rfl

section Solve

variable {g : Geometry} {rules : Rules} {scan : ScanRecord} {density : Nat} {view : SawSet}
  {trim : Option (TrimKind × Option Nat)} {last : Option Solution}

theorem solve_size : (solve g rules scan density view trim last).size = sizeClassOf rules scan := by
  unfold solve
  dsimp only
  split
  · rfl
  · split
    · rfl
    · split
      · rfl
      · exact SolveInput.solveTrim_size _ _ _

theorem solve_reman (h : trim.map Prod.fst = some .reman) :
    solve g rules scan density view trim last =
      { size := sizeClassOf rules scan, solution := fallbackSolution .override rules.policy.remanBin .reman false 0
        applied := true, reference := none } := if_pos h

theorem solve_fallback (h : ¬trim.map Prod.fst = some .reman) (hscan : scan.incomplete = true ∨ scan.gap = true) :
    solve g rules scan density view trim last =
      { size := sizeClassOf rules scan, solution := fallbackSolution .scan rules.policy.fallbackBin .free false 0
        applied := false, reference := none } :=
  (if_neg h).trans (if_pos (by simpa using hscan))

theorem solve_noWood (h : ¬trim.map Prod.fst = some .reman) (hscan : ¬(scan.incomplete = true ∨ scan.gap = true))
    (hends : scan.ends = none) :
    solve g rules scan density view trim last =
      { size := sizeClassOf rules scan, solution := noneSolution .noWood, applied := false, reference := none } := by
  unfold solve
  dsimp only
  rw [if_neg h, if_neg (by simpa using hscan), hends]

theorem solve_wood (h : ¬trim.map Prod.fst = some .reman) (hscan : ¬(scan.incomplete = true ∨ scan.gap = true))
    {left right : Nat} (hends : scan.ends = some (left, right)) {x : SolveInput}
    (hx : x = { g, rules, scan, density, size := sizeClassOf rules scan, view, left, right }) :
    solve g rules scan density view trim last = x.solveTrim trim last := by
  unfold solve
  dsimp only
  rw [if_neg h, if_neg (by simpa using hscan), hends, hx]

end Solve

/-- Settles O59: the ways of a solve in the order of R87, then the choice. -/
theorem solveFallsBackOrChooses : Obligations.SolveFallsBackOrChooses := by
  refine ⟨?_, ?_⟩
  · intro g rules scan density view trim last r bare reman fallback
    refine ⟨solve_size, ?_, ?_, ?_, ?_⟩
    · intro h
      have hr : r = _ := solve_reman h
      rw [hr]
      exact ⟨rfl, rfl⟩
    · intro h hscan
      have hr : r = _ := solve_fallback h hscan
      rw [hr]
      exact ⟨rfl, rfl⟩
    · intro h hscan hends
      have hr : r = _ := solve_noWood h hscan hends
      rw [hr]
      exact ⟨rfl, rfl⟩
    · intro h hscan left right hends x free unconstrained back
      have hsize : r.size = sizeClassOf rules scan := solve_size
      have hr : r = x.solveTrim trim last := solve_wood h hscan hends (by rw [← hsize])
      have hun : x.result free .free = unconstrained := by
        unfold SolveInput.result
        cases hfree : free <;> simp only [unconstrained, hfree]
        rfl
      have hback : x.orLast last = back := by
        unfold SolveInput.orLast
        cases last with
        | none => exact hun
        | some sol =>
          by_cases hmeets : sol.sawSet &&& view = 0
          · have hno : meets sol.sawSet x.view = false := bne_eq_false_iff_eq.2 hmeets
            simp only [back, hno, if_pos hmeets]
            rfl
          · have hyes : meets sol.sawSet x.view = true := bne_iff_ne.2 hmeets
            simp only [back, hyes, if_neg hmeets]
            exact hun
      refine ⟨?_, ?_, ?_⟩
      · rintro rfl
        rw [hr]
        exact ⟨rfl, hun⟩
      · rintro reference rfl held
        have hheld : held = reference.or (free.map Candidate.length) := by
          cases reference <;> rfl
        have htrim := hr.trans (x.solveTrim_shorter reference last hheld)
        cases hchoice : chooseFrom (x.candidates.filter (fun c => decide (c.length < held.getD 0))) with
        | some c =>
          rw [hchoice] at htrim
          rw [htrim]
          exact ⟨rfl, rfl, rfl⟩
        | none =>
          rw [hchoice] at htrim
          rw [htrim]
          exact ⟨rfl, rfl, hback⟩
      · rintro reference rfl
        have htrim := hr.trans (x.solveTrim_cutInTwo reference last)
        cases hchoice : chooseFrom x.doubles with
        | some c =>
          rw [hchoice] at htrim
          rw [htrim]
          exact ⟨rfl, rfl⟩
        | none =>
          rw [hchoice] at htrim
          rw [htrim]
          exact ⟨rfl, hback⟩
  · intro l
    refine ⟨chooseFrom_eq_none_iff l, fun c hc => ?_⟩
    obtain ⟨hmem, hnone⟩ := chooseFrom_spec hc
    refine ⟨hmem, fun d hd _ => ?_⟩
    have hnot := hnone d hd
    rw [Candidate.over_iff] at hnot
    omega

/-! ## The end of a solve (R85) -/

theorem TrimPart.settle_eq (part : TrimPart) (applied : Bool) (reference : Option Nat) :
    part.settle applied reference =
      { part with
        state := if applied then .applied else .notApplied
        reference := if part.kind = .shorter then part.reference.or reference else part.reference } := by
  unfold TrimPart.settle
  cases part.reference <;> rfl

/-- With the arrival mark set, the piece kept joins the queue again (R85 step 5). -/
theorem State.keepResult_eq (c : Solve) (r : SolveResult) (s : State) :
    s.keepResult c r =
      if c.arrival = true then
        (((s.onPiece c.serial (Piece.keepSolve (s.rs.rulesOf c.slot) r (c.trim.isSome && !c.arrival))).onTs
          (fun ts => ts.countKept r.solution)).onTs Solver.close).joinQueue c.serial
      else
        (((s.onPiece c.serial (Piece.keepSolve (s.rs.rulesOf c.slot) r (c.trim.isSome && !c.arrival))).onTs
          (fun ts => ts.countKept r.solution)).onTs Solver.close).takeNext := by
  unfold State.keepResult State.joinQueue
  dsimp only
  split <;> rfl

theorem State.completeSolve_none {s : State} (h : s.ts.inHand = none) : s.completeSolve = s := by
  unfold State.completeSolve
  rw [h]

theorem State.completeSolve_some {s : State} {c : Solve} {p : Piece} {r : SolveResult} (hc : s.ts.inHand = some c)
    (hp : s.dt.piece? c.serial = some p) (hr : s.solveResult c p = some r) :
    s.completeSolve =
      if r.solution.sawSet &&& s.ax.lockSet ≠ 0 then s.discardSolve c.serial else s.keepResult c r := by
  unfold State.completeSolve
  simp only [hc, hp, hr]
  exact if_congr bne_iff_ne rfl rfl

/-- Settles O58: the result discarded or kept, and what a solve works on. -/
theorem solveCompletionKeepsOrDiscards : Obligations.SolveCompletionKeepsOrDiscards := by
  intro s m
  have hdoes := completes_does (exec_solveCompletion s)
  refine ⟨?_, ?_, ?_⟩
  · intro hnone
    rwa [State.completeSolve_none (s := s.clearOut) hnone] at hdoes
  · intro c p r hc hp hr
    rw [State.completeSolve_some (s := s.clearOut) hc hp hr] at hdoes
    split
    · next hlocked =>
      rw [State.clearOut_ax, if_pos hlocked] at hdoes
      exact hdoes
    · next hfree =>
      intro settled kept u
      rw [State.clearOut_ax, if_neg hfree, State.keepResult_eq] at hdoes
      have hkept : Piece.keepSolve (m.rs.rulesOf c.slot) r (c.trim.isSome && !c.arrival) = kept := by
        have hsettled : (fun t : TrimPart => t.settle r.applied r.reference) = settled :=
          funext fun t => t.settle_eq r.applied r.reference
        funext p
        unfold Piece.keepSolve
        rw [hsettled]
        rfl
      rw [hkept] at hdoes
      exact hdoes
  · intro c p g scan slot hg hscan hslot last
    have hlast : p.solverSolution = last := by
      unfold Piece.solverSolution
      refine Option.map_congr fun sol _ => ?_
      cases p.gradePart with
      | none => rfl
      | some part =>
        obtain ⟨kind, source, authority, state, solved⟩ := part
        cases state <;> cases solved <;> rfl
    have hrules : s.rs.rulesOf c.slot = slot.rules := by simp [RuleStore.rulesOf, hslot]
    unfold State.solveResult
    simp only [hg, hscan, hrules, hlast]

/-! ## The keys of a station (R107, R108, R109) -/

section Keys

variable {n : Nat} {s : State} {st : Station}

theorem Overrides.station?_pos {ou : Overrides} (h : ou.station? n = some st) : n ≠ 0 := by
  rintro rfl
  cases h

/-- Two changes of one station are one. -/
theorem State.onStation_onStation (n : Nat) (f h : Station → Station) (s : State) :
    (s.onStation n f).onStation n h = s.onStation n (fun st => h (f st)) := by
  unfold State.onStation State.onOu
  by_cases hn : n = 0
  · simp [hn]
  · simp only [if_neg hn, List.modify_modify_eq]
    rfl

theorem lampsFor_eq (answer : Result) :
    lampsFor answer = { ok := answer == .done || answer == .noAuthority, refuse := answer != .done } := by
  cases answer <;> rfl

theorem State.refusePress_eq (n : Nat) (key : BitVec 4) (tag : Option Byte) {answer : Result}
    (h : lampsFor answer = { ok := false, refuse := true }) (s : State) :
    s.refusePress n key tag answer =
      s.onStation n (fun st =>
        { st with
          refusedAtPress := st.refusedAtPress + 1
          showing := some { ok := false, refuse := true }
          last := some { key, tag, answer, serial := none } }) := by
  unfold State.refusePress State.light
  rw [State.onStation_onStation, h]

theorem State.takeKey_still (h : s.ou.station? n = some st) (hs : st.showing ≠ none ∨ st.queue = []) :
    s.takeKey n = s := by
  unfold State.takeKey
  rw [h]
  dsimp only
  split
  · next e rest hshow hqueue =>
    rcases hs with hs | hs
    · exact absurd hshow hs
    · rw [hqueue] at hs
      cases hs
  · rfl

theorem State.takeKey_takes (h : s.ou.station? n = some st) {e : KeyEntry} {rest : List KeyEntry}
    (hshow : st.showing = none) (hqueue : st.queue = e :: rest) :
    s.takeKey n =
      ((s.onStation n (fun st => { st with queue := rest })).resolve e.tag (keyKind e.key) (stationSource n)
        e.authority).light n e.key (some e.tag) (s.answerTag e.tag (keyKind e.key) e.authority).1
          ((s.answerTag e.tag (keyKind e.key) e.authority).2.map (fun p => p.serial)) := by
  unfold State.takeKey
  simp only [h, hshow, hqueue]

theorem State.pressKey_noGeometry (h : s.ou.station? n = some st) (hg : s.dt.geometry = none) (key : BitVec 4)
    (authority : Bool) :
    s.pressKey n key authority =
      (s.onStation n (fun st => { st with presses := st.presses + 1 })).refusePress n key none .refusedState := by
  unfold State.pressKey
  simp only [h, State.onStation_dt, hg]

theorem State.pressKey_queues (h : s.ou.station? n = some st) {g : Geometry} (hg : s.dt.geometry = some g) {lug : Lug}
    (hlug : s.dt.lugAt (g.aim n) = some lug) (key : BitVec 4) (authority : Bool) :
    s.pressKey n key authority =
      if 4 ≤ st.queue.length then
        (s.onStation n (fun st => { st with presses := st.presses + 1 })).refusePress n key (some lug.tag) .queueFull
      else
        ((s.onStation n (fun st => { st with presses := st.presses + 1 })).onStation n (fun st =>
          { st with queue := st.queue ++ [{ key, tag := lug.tag, authority }] })).takeKey n := by
  unfold State.pressKey
  simp only [h, State.onStation_dt, hg, hlug]
  rfl

theorem State.endPulse_eq (h : s.ou.station? n = some st) :
    s.endPulse n =
      if st.showing = none then s else (s.onStation n (fun st => { st with showing := none })).takeKey n := by
  unfold State.endPulse
  rw [h]
  cases hshow : st.showing <;> simp [hshow]

end Keys

/-- Settles O60: the press, the pulse's end, and the taking of the head entry. -/
theorem keyIsQueuedTakenAndShown : Obligations.KeyIsQueuedTakenAndShown := by
  intro n s st hst m refuse
  refine ⟨?_, ?_, State.takeKey_still hst, ?_⟩
  · intro key authority u
    have hdoes := completes_does (exec_keyPress s n key authority)
    refine ⟨fun hg => ?_, fun g lug hg hlug => ?_⟩
    · rw [State.pressKey_noGeometry (s := s.clearOut) hst hg, State.refusePress_eq n key none rfl] at hdoes
      exact hdoes
    · rw [State.pressKey_queues (s := s.clearOut) hst hg hlug, State.refusePress_eq n key (some lug.tag) rfl] at hdoes
      exact hdoes
  · have hdoes := completes_does (exec_lampPulseEnd s n)
    rwa [State.endPulse_eq (s := s.clearOut) hst] at hdoes
  · intro e rest hshow hqueue kind answer
    rw [State.takeKey_takes hst hshow hqueue, State.light, lampsFor_eq]
    rfl

end Sys2Proof.Machine
end

section
/-! SUPPORT. Reports of the heads (R25, R27, R33, R34, R35). -/

open Sys2Proof

namespace Sys2Proof.Machine

/-! ## A find word -/

theorem FindKind.ofCode_eq {code : Nat} (h : code < 2 ^ 4) :
    FindKind.ofCode code = [FindKind.knotSound, .knotLoose, .hole, .split, .shake, .wane, .stain, .pitchPocket, .skip,
      .check].getD code .other := by
  revert code
  decide

theorem toNat_extractLsb' (w : Word) (first n : Nat) :
    (w.extractLsb' first n).toNat = w.toNat / 2 ^ first % 2 ^ n := by
  rw [BitVec.extractLsb'_toNat, Nat.shiftRight_eq_div_pow]

theorem Find.ofWord_eq (w : Word) :
    Find.ofWord w =
      { along := w.toNat % 2 ^ 14, across := w.toNat / 2 ^ 14 % 2 ^ 8, size := w.toNat / 2 ^ 26 % 2 ^ 4
        face := w.toNat / 2 ^ 30
        kind := [FindKind.knotSound, .knotLoose, .hole, .split, .shake, .wane, .stain, .pitchPocket, .skip,
          .check].getD (w.toNat / 2 ^ 22 % 2 ^ 4) .other } := by
  have hface : w.toNat / 2 ^ 30 % 2 ^ 2 = w.toNat / 2 ^ 30 := Nat.mod_eq_of_lt (by have := w.isLt; omega)
  simp only [Find.ofWord, toNat_extractLsb', Nat.pow_zero, Nat.div_one, hface]
  rw [FindKind.ofCode_eq (Nat.mod_lt _ (by decide))]

/-! ## The limits of a report -/

theorem findWordFace_ne_three (w : Word) : findWordFace w ≠ 3 ↔ w.extractLsb' 30 2 ≠ 3 :=
  not_congr (BitVec.toNat_inj (y := (3 : BitVec 2)))

theorem reportGood_iff (r : HeadReport) :
    reportGood r = true ↔
      (r.density = 1 ∨ r.density = 2 ∨ r.density = 4) ∧ r.finds.length ≤ 32
      ∧ (∀ w ∈ r.finds, w.extractLsb' 30 2 ≠ 3) ∧ (∀ first last, r.extent = some (first, last) → first ≤ last)
      ∧ r.widthMin ≤ r.widthMax ∧ r.thickMin ≤ r.thickMax := by
  have hfaces : (∀ w ∈ r.finds, findWordFace w ≠ 3) ↔ ∀ w ∈ r.finds, w.extractLsb' 30 2 ≠ 3 :=
    forall₂_congr fun w _ => findWordFace_ne_three w
  rw [← hfaces]
  obtain ⟨tag, density, extent, widthMin, widthMax, thickMin, thickMax, finds⟩ := r
  cases extent with
  | none => simp [reportGood, BitVec.le_def, and_assoc, or_assoc]
  | some ends =>
    obtain ⟨first, last⟩ := ends
    simp [reportGood, BitVec.le_def, and_assoc, or_assoc]

/-! ## What a report does -/

theorem State.takeReport_good {h : Nat} {r : HeadReport} {s : State} (good : reportGood r = true) :
    s.takeReport h r =
      let u := s.onHead h Head.countGood
      match s.sa.headState h with
      | .offline => s
      | .absent => u.headFault h
      | .linkFault => u
      | .ready | .standby | .waking | .aligning => u.offerReport h r := by
  unfold State.takeReport State.takeGoodReport
  rw [State.ite_linkRead, if_pos good]
  dsimp only
  rw [State.countGood_headState]
  cases s.sa.headState h <;> rfl

/-- A report outside the limits is a bad frame (R25). -/
theorem State.takeReport_bad {h : Nat} {r : HeadReport} {s : State} (bad : reportGood r = false) :
    s.takeReport h r = s.takeBad h := by
  unfold State.takeReport State.takeBad
  rw [bad]
  split <;> rfl

/-! ## Acceptance -/

theorem Deck.scanningPiece_of {d : Deck} {g : Geometry} {tag : Byte} {station : Int} {lug : Lug} {p : Piece}
    {assembly : Assembly} (hlug : d.lugByTag tag = some (station, lug)) (hlo : (g.ss : Int) ≤ station)
    (hhi : station ≤ (g.se : Int)) (hp : d.pieceOf lug = some p) (hscan : p.state = .scanning)
    (ha : p.assembly = some assembly) : d.scanningPiece g tag = some (p, assembly) := by
  simp [Deck.scanningPiece, hlug, hlo, hhi, hp, hscan, ha]

theorem Deck.scanningPiece_none {d : Deck} {g : Geometry} {tag : Byte}
    (h : ∀ station lug p, d.lugByTag tag = some (station, lug) → d.pieceOf lug = some p →
      station < (g.ss : Int) ∨ (g.se : Int) < station ∨ p.state ≠ .scanning) : d.scanningPiece g tag = none := by
  unfold Deck.scanningPiece
  split
  · rfl
  · next station lug hlug =>
    split
    · next hin =>
      split
      · rfl
      · next p hp =>
        refine if_neg fun hscan => ?_
        rcases h station lug p hlug hp with hlow | hhigh | hstate
        · omega
        · omega
        · exact hstate hscan
    · rfl

theorem State.offerReport_stray {h : Nat} {r : HeadReport} {s : State}
    (none' : ∀ g, s.dt.geometry = some g → s.dt.scanningPiece g r.tag = none) :
    s.offerReport h r = s.onHead h (fun hd => { hd with stray := hd.stray + 1 }) := by
  unfold State.offerReport
  split
  · rfl
  · next g hg =>
    rw [none' g hg]
    rfl

theorem partialOf_eq (g : Geometry) (h : Nat) (r : HeadReport) :
    partialOf g h r =
      (let lo := min ((h - 1) * g.segmentLength) 16383
      let hi := min (h * g.segmentLength - 1) 16383
      { head := h, density := r.density.toNat
        extent := match r.extent with
          | some (x, y) =>
            if max x.toNat lo ≤ min y.toNat hi then some (max x.toNat lo, min y.toNat hi) else none
          | none => none
        widthMin := r.widthMin.toNat, widthMax := r.widthMax.toNat
        thickMin := r.thickMin.toNat, thickMax := r.thickMax.toNat
        finds := (r.finds.map Find.ofWord).filter (fun f => decide (lo ≤ f.along ∧ f.along ≤ hi)) }) := by
  have hextent : (r.extent.bind fun x => clipExtent (g.segment h) (x.1.toNat, x.2.toNat)) = (match r.extent with
      | some (x, y) =>
        if max x.toNat (g.segment h).1 ≤ min y.toNat (g.segment h).2
        then some (max x.toNat (g.segment h).1, min y.toNat (g.segment h).2) else none
      | none => none) := by
    cases r.extent <;> rfl
  simp only [partialOf, hextent, Bool.decide_and]
  rfl

/-- The reasons of R35 in their order, and acceptance where none holds. -/
theorem State.offerReport_scanning {h : Nat} {r : HeadReport} {s : State} {g : Geometry} {p : Piece} {assembly : Assembly}
    (hlo : 1 ≤ h) (hhi : h ≤ 8) (hg : s.dt.geometry = some g) (hp : s.dt.scanningPiece g r.tag = some (p, assembly)) :
    s.offerReport h r =
      if has (p.roster.getD 0) h = false then s.onHead h (fun hd => { hd with notRoster := hd.notRoster + 1 })
      else if has assembly.dropped h = true then s.onHead h (fun hd => { hd with stale := hd.stale + 1 })
      else if (assembly.received.any fun q => q.head == h) = true then
        s.onHead h (fun hd => { hd with duplicate := hd.duplicate + 1 })
      else if r.density.toNat ≠ (p.density.map Density.code).getD 0 then
        s.onHead h (fun hd => { hd with mismatch := hd.mismatch + 1 })
      else
        (s.onPiece p.serial (fun p =>
          { p with
            assembly := p.assembly.map (fun a => { a with received := a.received ++ [partialOf g h r] }) })).onHead h
          (fun hd => { hd with accepted := hd.accepted + 1 }) := by
  unfold State.offerReport discardReason
  rw [hg]
  dsimp only
  rw [hp, ← assembly.has_receivedSet h hlo hhi]
  dsimp only
  split_ifs <;> rfl

/-- Settles O53. -/
theorem headReportIsAcceptedOrCounted : Obligations.HeadReportIsAcceptedOrCounted := by
  refine ⟨Find.ofWord_eq, fun h r s hlo hhi => ⟨reportGood_iff r, fun bad => ?_, fun good => ?_,
    fun g station lug p assembly hg hlug hss hse hp hscan ha => ?_, fun hout => ?_⟩⟩
  · have hsame : State.takeReport h r = State.takeBad h := funext fun _ => State.takeReport_bad bad
    rw [exec_headReport, exec_badFrame, hsame]
  · intro m u
    have hdoes := completes_does (exec_headReport s h r)
    rw [State.takeReport_good good] at hdoes
    refine Eq.mp (congrArg (Does (.headReport h r) s) ?_) hdoes
    dsimp only
    rw [State.clearOut_sa]
    cases s.sa.headState h <;> rfl
  · rw [State.offerReport_scanning hlo hhi hg (Deck.scanningPiece_of hlug hss hse hp hscan ha), partialOf_eq] <;> rfl
  · exact State.offerReport_stray fun g hg => Deck.scanningPiece_none fun station lug p => hout g station lug p hg

end Sys2Proof.Machine
end

section
/-! SUPPORT. Logs (R45, R46, R156, R157). -/

open Sys2Proof

namespace Sys2Proof.Machine

theorem logGood_iff (r : LogReport) :
    logGood r = true ↔ 1 ≤ r.length.toNat ∧ r.length.toNat ≤ 16383 ∧ 1 ≤ r.smallEnd.toNat
      ∧ r.smallEnd.toNat ≤ r.largeEnd.toNat ∧ r.largeEnd.toNat ≤ 1023 := by
  simp only [logGood, Bool.and_eq_true, decide_eq_true_eq]
  omega

/-! ## A bad frame on the log link -/

/-- The count reaches 3 from 2, and stays there (R45). -/
theorem LogLink.bad_eq (l : LogLink) :
    l.bad =
      { l with
        state := if 2 ≤ l.badRun then .linkFault else l.state
        badRun := min 3 (l.badRun + 1)
        badFrames := l.badFrames + 1 } := by
  have hthree : min 3 (l.badRun + 1) = 3 ↔ 2 ≤ l.badRun := by omega
  simp only [LogLink.bad, hthree]

/-- FAULT is raised by the frame that brings the link to LINK_FAULT (R178). -/
theorem State.takeLogBad_eq (s : State) :
    s.takeLogBad =
      let u := s.onSa (fun sa =>
        { sa with
          logLink := { sa.logLink with
            state := if 2 ≤ sa.logLink.badRun then .linkFault else sa.logLink.state
            badRun := min 3 (sa.logLink.badRun + 1)
            badFrames := sa.logLink.badFrames + 1 } })
      if s.sa.logLink.state ≠ .linkFault ∧ 2 ≤ s.sa.logLink.badRun then u.notify .fault else u := by
  have hfault : s.sa.logLink.bad.state = .linkFault ∧ s.sa.logLink.state ≠ .linkFault
      ↔ s.sa.logLink.state ≠ .linkFault ∧ 2 ≤ s.sa.logLink.badRun := by
    rw [LogLink.bad_eq]
    by_cases hrun : 2 ≤ s.sa.logLink.badRun <;> simp [hrun]
  have hstep : s.onLogLink LogLink.bad = s.onSa (fun sa =>
      { sa with
        logLink := { sa.logLink with
          state := if 2 ≤ sa.logLink.badRun then .linkFault else sa.logLink.state
          badRun := min 3 (sa.logLink.badRun + 1)
          badFrames := sa.logLink.badFrames + 1 } }) := by
    simp only [State.onLogLink, LogLink.bad_eq]
  refine (if_congr hfault rfl rfl).trans ?_
  rw [hstep]

/-! ## Tally and record -/

theorem RuleStore.logClass_eq (rs : RuleStore) (r : LogReport) :
    rs.logClass r = (rs.activeSlot).bind (fun i => (rs.rulesOf i).logs.findIdx? (fun b =>
      decide (b.1 ≤ r.smallEnd.toNat ∧ r.smallEnd.toNat ≤ b.2))) := by
  unfold RuleStore.logClass
  cases rs.activeSlot with
  | none => rfl
  | some i => simp only [logClassOf, Option.bind_some, Bool.decide_and]

/-- The record is written, queued, or counted as unjournaled, by the first case (R157). -/
theorem State.queueLog_eq (area : Area) (r : LogRecord) (s : State) :
    s.queueLog area r =
      if s.tu.pendingLogs = [] ∧ s.xi.waiting = [] ∧ mayWriteLog s = true then
        (s.writeRecord .log 2 (logBody r)).syncHolds
      else if s.tu.pendingLogs.length < 8 then
        ((s.onTu (fun tu => { tu with pendingLogs := tu.pendingLogs ++ [r] })).onXi (fun xi =>
          { xi with waiting := xi.waiting ++ [.log] })).onArea area (fun e => { e with logPending := e.logPending + 1 })
      else
        (s.addTo (areaAddr area + 0xD188 + 4 * 10) 1).onTu (fun tu =>
          { tu with unjournaledLogs := tu.unjournaledLogs + 1 }) :=
  if_congr (by simp [and_assoc]) rfl rfl

theorem State.tallyLog_keeps (area : Area) (r : LogRecord) (s : State) :
    (s.tallyLog area r).tu.pendingLogs = s.tu.pendingLogs ∧ (s.tallyLog area r).xi = s.xi := by
  unfold State.tallyLog
  split <;> exact ⟨rfl, rfl⟩

/-- Settles O56. -/
theorem logIsTalliedAndRecorded : Obligations.LogIsTalliedAndRecorded := by
  refine ⟨fun r s => ?_, fun s => ?_⟩
  · intro inRanges
    refine ⟨fun bad => ?_, fun good => ?_⟩
    · have hsame : State.takeLogReport r = State.takeLogBad :=
        funext fun s => if_neg (mt (logGood_iff r).1 bad)
      rw [exec_logReport, exec_logBadFrame, hsame]
    · intro u
      have hdoes := completes_does (exec_logReport s r)
      have htake : s.clearOut.takeLogReport r = u.takeLog r := if_pos ((logGood_iff r).2 good)
      rw [htake] at hdoes
      unfold State.takeLog at hdoes
      refine Eq.mp (congrArg (Does (.logReport r) s) ?_) hdoes
      rw [show u.tu.openArea = s.tu.openArea from rfl]
      cases s.tu.openArea with
      | none => rfl
      | some area =>
        dsimp only
        have hrecord : u.logRecord area r =
            { report := r, logClass := (s.rs.activeSlot).bind (fun i => (s.rs.rulesOf i).logs.findIdx? (fun b =>
                decide (b.1 ≤ r.smallEnd.toNat ∧ r.smallEnd.toNat ≤ b.2)))
              volume := logVolume r, run := (s.tu.entry area).number.getD 0, generation := s.rs.activeNumber } := by
          rw [← RuleStore.logClass_eq]
          rfl
        obtain ⟨hpending, hxi⟩ := State.tallyLog_keeps area (u.logRecord area r) u
        rw [State.queueLog_eq, hpending, hxi, hrecord]
        rfl
  · intro u
    have hdoes := completes_does (exec_logBadFrame s)
    rw [State.takeLogBad_eq] at hdoes
    exact hdoes

end Sys2Proof.Machine
end

section
/-! SUPPORT. The bytes of the links (R25, R45, R185, 10.9). -/

open Sys2Proof

namespace Sys2Proof.Machine

/-! ## The first frame of a stream -/

theorem takeFrame_of_short {bytes : List Byte} (h : bytes.length < 2) : takeFrame bytes = none := by
  match bytes, h with
  | [], _ => rfl
  | [_], _ => rfl

section First

variable {b c : Byte} {rest : List Byte}

theorem takeFrame_bad
    (h : 145 < b.toNat + 256 * c.toNat
      ∨ (b.toNat + 256 * c.toNat + 2 ≤ rest.length
        ∧ (rest.drop (b.toNat + 256 * c.toNat)).take 2 ≠ [0x5A, 0xC3])) :
    takeFrame (b :: c :: rest) = (afterDelimiter (b :: c :: rest)).map (fun after => (Received.bad, after)) := by
  unfold takeFrame
  by_cases hlong : 145 < b.toNat + 256 * c.toNat
  · exact if_pos hlong
  · obtain ⟨hwhole, hopen⟩ := h.resolve_left hlong
    exact (if_neg hlong).trans ((if_neg (by omega)).trans (if_neg hopen))

theorem takeFrame_unfinished (hlen : b.toNat + 256 * c.toNat ≤ 145)
    (h : rest.length < b.toNat + 256 * c.toNat + 2) : takeFrame (b :: c :: rest) = none :=
  (if_neg (by omega)).trans (if_pos h)

theorem takeFrame_closed (hlen : b.toNat + 256 * c.toNat ≤ 145)
    (h : (rest.drop (b.toNat + 256 * c.toNat)).take 2 = [0x5A, 0xC3]) :
    takeFrame (b :: c :: rest)
      = some (.payload (rest.take (b.toNat + 256 * c.toNat)), rest.drop (b.toNat + 256 * c.toNat + 2)) := by
  have hwhole : b.toNat + 256 * c.toNat + 2 ≤ rest.length := by
    have hpair := congrArg List.length h
    simp at hpair
    omega
  exact (if_neg (by omega)).trans ((if_neg (by omega)).trans (if_pos h))

end First

/-- What is looked for is the first delimiter pair. -/
theorem afterDelimiter_iff (bytes after : List Byte) :
    afterDelimiter bytes = some after ↔ ∃ before, bytes = before ++ [0x5A, 0xC3] ++ after
      ∧ ∀ k, k < before.length → (bytes.drop k).take 2 ≠ [0x5A, 0xC3] := by
  induction bytes with
  | nil => simp [afterDelimiter]
  | cons b tail ih =>
    cases tail with
    | nil =>
      refine iff_of_false (by simp [afterDelimiter]) ?_
      rintro ⟨before, hbytes, -⟩
      have hlen := congrArg List.length hbytes
      simp at hlen
      omega
    | cons c rest =>
      unfold afterDelimiter
      split
      · next hpair =>
        obtain ⟨rfl, rfl⟩ := hpair
        constructor
        · rintro ⟨⟩
          exact ⟨[], rfl, fun k hk => absurd hk (Nat.not_lt_zero k)⟩
        · rintro ⟨before, hbytes, hfirst⟩
          cases before with
          | nil => simpa using hbytes
          | cons x xs => exact absurd rfl (hfirst 0 (Nat.succ_pos _))
      · next hpair =>
        rw [ih]
        constructor
        · rintro ⟨before, hbytes, hfirst⟩
          refine ⟨b :: before, by rw [hbytes]; rfl, fun k hk => ?_⟩
          cases k with
          | zero => simpa using hpair
          | succ k => exact hfirst k (Nat.lt_of_succ_lt_succ hk)
        · rintro ⟨before, hbytes, hfirst⟩
          cases before with
          | nil =>
            simp at hbytes
            exact absurd ⟨hbytes.1, hbytes.2.1⟩ hpair
          | cons x xs =>
            injection hbytes with _ hbytes
            exact ⟨xs, hbytes, fun k hk => hfirst (k + 1) (Nat.succ_lt_succ hk)⟩

/-! ## The frames of a stream -/

theorem takeFrames_none {bytes : List Byte} (n : Nat) (h : takeFrame bytes = none) :
    takeFrames n bytes = ([], bytes) := by
  cases n with
  | zero => rfl
  | succ n => rw [takeFrames, h]

theorem takeFrames_some {bytes rest : List Byte} {f : Received} (h : takeFrame bytes = some (f, rest)) :
    takeFrames bytes.length bytes
      = (f :: (takeFrames rest.length rest).1, (takeFrames rest.length rest).2) := by
  have hshort := takeFrame_shorter h
  obtain ⟨n, hn⟩ : ∃ n, bytes.length = n + 1 := ⟨bytes.length - 1, by omega⟩
  rw [hn, takeFrames, h]
  dsimp only
  rw [takeFrames_bound (n := n) (m := rest.length) (by omega) (Nat.le_refl _)]

/-! ## Fields of a payload -/

theorem ofNat_half (p : List Byte) (i : Nat) :
    BitVec.ofNat 16 (half p i) = (byteAt p (i + 1) ++ byteAt p i : Half) := by
  refine BitVec.eq_of_toNat_eq ?_
  have hlow := (byteAt p i).isLt
  have hhigh := (byteAt p (i + 1)).isLt
  rw [BitVec.toNat_append, Nat.shiftLeft_eq, ← Nat.mul_comm, ← Nat.two_pow_add_eq_or_of_lt hlow, BitVec.toNat_ofNat,
    half]
  omega

theorem half_eq_zero (p : List Byte) (i : Nat) : half p i = 0 ↔ (byteAt p (i + 1) ++ byteAt p i : Half) = 0 := by
  rw [← ofNat_half, ← BitVec.toNat_inj]
  have hlow := (byteAt p i).isLt
  have hhigh := (byteAt p (i + 1)).isLt
  simp only [BitVec.toNat_ofNat, half, BitVec.ofNat_eq_ofNat]
  omega

theorem findWords_eq (p : List Byte) (i n : Nat) :
    findWords p i n = (List.range n).map (fun k => word p (i + 4 * k)) := by
  induction n generalizing i with
  | zero => rfl
  | succ n ih =>
    rw [findWords, ih, List.range_succ_eq_map, List.map_cons, List.map_map]
    refine congrArg (word p i :: ·) (List.map_congr_left fun k _ => ?_)
    exact congrArg (word p) (by simp only [Nat.succ_eq_add_one]; omega)

/-! ## Commands of the head's link -/

/-- The report that a payload's bytes lay out (10.9). -/
def reportIn (p : List Byte) : HeadReport :=
  let at8 := byteAt p
  let at16 := fun i : Nat => (at8 (i + 1) ++ at8 i : Half)
  { tag := at8 1, density := at8 2, extent := if at8 3 = 1 then some (at16 5, at16 7) else none
    widthMin := at16 9, widthMax := at16 11, thickMin := at16 13, thickMax := at16 15
    finds := (List.range (at8 4).toNat).map (fun i => word p (17 + 4 * i)) }

theorem parseReport_eq (p : List Byte) :
    parseReport p =
      if p.length = 17 + 4 * (byteAt p 4).toNat ∧ (byteAt p 4).toNat ≤ 32
        ∧ (byteAt p 3 = 1 ∨ (byteAt p 3 = 0 ∧ (byteAt p 6 ++ byteAt p 5 : Half) = 0
          ∧ (byteAt p 8 ++ byteAt p 7 : Half) = 0)) ∧ reportGood (reportIn p) = true
      then some (reportIn p) else none := by
  have hextent : (byteAt p 3 == 1 || (byteAt p 3 == 0 && half p 5 == 0 && half p 7 == 0)) = true
      ↔ byteAt p 3 = 1 ∨ (byteAt p 3 = 0 ∧ (byteAt p 6 ++ byteAt p 5 : Half) = 0
        ∧ (byteAt p 8 ++ byteAt p 7 : Half) = 0) := by
    rw [← half_eq_zero, ← half_eq_zero]
    simp [and_assoc]
  have hshape : parseReport p =
      if p.length = 17 + 4 * (byteAt p 4).toNat ∧ (byteAt p 4).toNat ≤ 32
        ∧ (byteAt p 3 = 1 ∨ (byteAt p 3 = 0 ∧ (byteAt p 6 ++ byteAt p 5 : Half) = 0
          ∧ (byteAt p 8 ++ byteAt p 7 : Half) = 0))
      then if reportGood (reportIn p) = true then some (reportIn p) else none else none := by
    simp only [parseReport, hextent, ofNat_half, findWords_eq]
    rfl
  rw [hshape, ← ite_and]
  exact if_congr (by simp only [and_assoc]) rfl rfl

/-- A payload of two bytes, by its fields. -/
theorem eq_pair_iff (p : List Byte) (x y : Byte) : p = [x, y] ↔ byteAt p 0 = x ∧ p.length = 2 ∧ byteAt p 1 = y := by
  match p with
  | [] => simp
  | [_] => simp
  | [_, _] => simp [byteAt]
  | _ :: _ :: _ :: _ => simp

theorem headLinkCommand_payload (h : Nat) (clock : Word) (p : List Byte) :
    headLinkCommand h clock (.payload p) =
      if byteAt p 0 = 0x11 ∧ p.length = 17 + 4 * (byteAt p 4).toNat ∧ (byteAt p 4).toNat ≤ 32
        ∧ (byteAt p 3 = 1 ∨ (byteAt p 3 = 0 ∧ (byteAt p 6 ++ byteAt p 5 : Half) = 0
          ∧ (byteAt p 8 ++ byteAt p 7 : Half) = 0)) ∧ reportGood (reportIn p) = true
      then .headReport h (reportIn p)
      else if p = [0x12, 0] then .alignEcho h false
      else if p = [0x12, 1] then .alignEcho h true
      else if byteAt p 0 = 0x13 ∧ p.length = 9 then .headStatus h (word p 1) (word p 5) clock
      else .badFrame h := by
  simp only [headLinkCommand, parseReport_eq, eq_pair_iff]
  by_cases hreport : byteAt p 0 = 0x11
  · simp only [hreport, true_and, if_true]
    split_ifs <;> simp_all
  · simp only [hreport, false_and, if_false]
    by_cases hecho : byteAt p 0 = 0x12 ∧ p.length = 2
    · obtain ⟨hkind, hlen⟩ := hecho
      by_cases hunseen : byteAt p 1 = 0#8
      · simp [hkind, hlen, hunseen]
      · by_cases hseen : byteAt p 1 = 1#8 <;> simp [hkind, hlen, hunseen, hseen]
    · have hnot : ∀ q : Prop, ¬(byteAt p 0 = 0x12 ∧ p.length = 2 ∧ q) := fun q hq => hecho ⟨hq.1, hq.2.1⟩
      simp only [hnot, if_false]

/-! ## Commands of the log link -/

theorem parseLog_eq (p : List Byte) :
    parseLog p =
      { tag := byteAt p 2 ++ byteAt p 1, length := byteAt p 4 ++ byteAt p 3, smallEnd := byteAt p 6 ++ byteAt p 5
        largeEnd := byteAt p 8 ++ byteAt p 7, sweep := byteAt p 9 } := by
  simp only [parseLog, ofNat_half]

theorem logLinkCommand_payload (p : List Byte) :
    logLinkCommand (.payload p) =
      if byteAt p 0 = 0x21 ∧ p.length = 11 ∧ 1 ≤ (parseLog p).length.toNat ∧ (parseLog p).length.toNat ≤ 16383
        ∧ 1 ≤ (parseLog p).smallEnd.toNat ∧ (parseLog p).smallEnd.toNat ≤ (parseLog p).largeEnd.toNat
        ∧ (parseLog p).largeEnd.toNat ≤ 1023 then .logReport (parseLog p)
      else .logBadFrame :=
  if_congr (by rw [logGood_iff]) rfl rfl

/-- Settles O48. -/
theorem linkBytesBecomeFrameCommands : Obligations.LinkBytesBecomeFrameCommands := by
  refine ⟨fun bytes => ⟨takeFrame_of_short, ?_, afterDelimiter_iff bytes, takeFrames_none _, fun f rest h =>
    ⟨takeFrame_shorter h, takeFrames_some h⟩⟩, fun h clock p => ?_, fun h clock bytes s hd hhd => ?_, fun bytes s => rfl⟩
  · rintro b c rest rfl
    exact ⟨takeFrame_bad, takeFrame_unfinished, takeFrame_closed⟩
  · refine ⟨rfl, rfl, headLinkCommand_payload h clock p, ?_⟩
    rw [logLinkCommand_payload, parseLog_eq]
    rfl
  · simp only [State.receiveHead, hhd]

end Sys2Proof.Machine
end

section
/-! SUPPORT. Saws that join the lock set: the pieces they are taken from (R102, R135, R136). -/

open Sys2Proof

namespace Sys2Proof.Machine

/-! ## A piece joins the queue -/

theorem mem_insertByAge {age : Word → Nat} {x y : Word} {l : List Word} :
    y ∈ insertByAge age x l ↔ y = x ∨ y ∈ l := by
  rw [(insertByAge_perm age x l).mem_iff, List.mem_cons]

/-- The state that `joinQueue` gives to TS: the piece SCANNED and in the queue. -/
def State.queued (n : Word) (s : State) : State :=
  (s.onPiece n (fun p => { p with state := .scanned })).onTs (fun ts =>
    { ts with queue := insertByAge s.dt.age n ts.queue })

theorem State.joinQueue_eq (n : Word) (s : State) : s.joinQueue n = (s.queued n).takeNext := rfl

theorem State.queued_piece?_other {n m : Word} (s : State) (h : n ≠ m) :
    (s.queued m).dt.piece? n = s.dt.piece? n := s.onPiece_piece?_other h (fun _ => rfl)

theorem State.queued_piece? (n : Word) (s : State) :
    (s.queued n).dt.piece? n = (s.dt.piece? n).map (fun p => { p with state := .scanned }) :=
  s.onPiece_piece? n (fun _ => rfl)

/-- What joining the queue can do to another piece: SOLVING, for the one taken. -/
theorem State.joinQueue_piece_other {n m : Word} {s : State} {x : Piece} (hne : n ≠ m) (h : s.dt.piece? n = some x) :
    ∃ y, (s.joinQueue m).dt.piece? n = some y ∧ { y with state := x.state } = x
      ∧ (y.state = x.state
        ∨ (s.ts.inHand = none ∧ n ∈ s.ts.queue ∧ y.state = .solving ∧ (s.joinQueue m).ts.solves n = true)) := by
  obtain ⟨y, hy, hsame, hstate⟩ := (s.queued m).takeNext_piece n x ((s.queued_piece?_other hne).trans h)
  refine ⟨y, hy, hsame, hstate.imp_right ?_⟩
  rintro ⟨hhand, hin, hsolving, hsolves⟩
  exact ⟨hhand, (mem_insertByAge.1 hin).resolve_left hne, hsolving, hsolves⟩

/-- The piece that joins is SCANNED, or SOLVING where it is taken. -/
theorem State.joinQueue_piece_self {n : Word} {s : State} {x : Piece} (h : s.dt.piece? n = some x) :
    ∃ y, (s.joinQueue n).dt.piece? n = some y ∧ { y with state := x.state } = x
      ∧ (y.state = .scanned ∨ y.state = .solving) := by
  obtain ⟨y, hy, hsame, hstate⟩ := (s.queued n).takeNext_piece n { x with state := .scanned }
    (by rw [s.queued_piece?, h]; rfl)
  refine ⟨y, hy, ?_, ?_⟩
  · have hback := congrArg (fun p : Piece => { p with state := x.state }) hsame
    exact hback
  · exact hstate.imp_right fun taken => taken.2.2.1

/-- Joining the queue changes no more of a piece than its state. -/
theorem State.joinQueue_piece {n m : Word} {s : State} {x : Piece} (h : s.dt.piece? n = some x) :
    ∃ y, (s.joinQueue m).dt.piece? n = some y ∧ { y with state := x.state } = x := by
  by_cases hn : n = m
  · subst hn
    obtain ⟨y, hy, hsame, -⟩ := State.joinQueue_piece_self h
    exact ⟨y, hy, hsame⟩
  · obtain ⟨y, hy, hsame, -⟩ := State.joinQueue_piece_other hn h
    exact ⟨y, hy, hsame⟩

theorem State.each_joinQueue_piece (l : List Word) {n : Word} {s : State} {x : Piece} (h : s.dt.piece? n = some x) :
    ∃ y, (s.each l State.joinQueue).dt.piece? n = some y ∧ { y with state := x.state } = x := by
  induction l generalizing s x with
  | nil => exact ⟨x, h, rfl⟩
  | cons m rest ih =>
    obtain ⟨y, hy, hsame⟩ := State.joinQueue_piece (m := m) h
    obtain ⟨z, hz, hsame'⟩ := ih hy
    refine ⟨z, hz, ?_⟩
    rw [← hsame] at *
    exact congrArg (fun p : Piece => { p with state := x.state }) hsame'

/-! ## With a solve in hand -/

theorem Solver.solves_congr (n : Word) {ts ts' : Solver} (h : ts.inHand = ts'.inHand) : ts.solves n = ts'.solves n := by
  unfold Solver.solves
  rw [h]

theorem State.each_joinQueue_busy (l : List Word) {s : State} (h : s.ts.inHand ≠ none) :
    (s.each l State.joinQueue).ts.inHand = s.ts.inHand := by
  induction l generalizing s with
  | nil => rfl
  | cons m rest ih =>
    have hstep : (s.joinQueue m).ts.inHand = s.ts.inHand := by rw [State.joinQueue_busy m s h]; rfl
    exact (ih (by rw [hstep]; exact h)).trans hstep

theorem State.each_joinQueue_serials (l : List Word) (s : State) :
    (s.each l State.joinQueue).dt.pieces.map (fun p => p.serial) = s.dt.pieces.map (fun p => p.serial) :=
  State.each_same (fun s => s.dt.pieces.map (fun p => p.serial)) l State.joinQueue State.joinQueue_serials s

theorem State.each_joinQueue_queue (l : List Word) {s : State} (h : s.ts.inHand ≠ none) :
    (s.each l State.joinQueue).ts.queue.Perm (l ++ s.ts.queue) := by
  induction l generalizing s with
  | nil => exact .refl _
  | cons m rest ih =>
    have hstep : (s.joinQueue m).ts.queue = insertByAge s.dt.age m s.ts.queue := by
      rw [State.joinQueue_busy m s h]; rfl
    have hhand : (s.joinQueue m).ts.inHand ≠ none := by rw [State.joinQueue_busy m s h]; exact h
    have hrest := ih hhand
    rw [hstep] at hrest
    refine hrest.trans (((insertByAge_perm _ m _).append_left rest).trans ?_)
    exact List.perm_middle

theorem State.each_joinQueue_sorted (l : List Word) {s : State} (h : s.ts.inHand ≠ none)
    (sorted : s.ts.queue.Pairwise (fun x y => s.dt.age x ≤ s.dt.age y)) :
    (s.each l State.joinQueue).ts.queue.Pairwise (fun x y => s.dt.age x ≤ s.dt.age y) := by
  induction l generalizing s with
  | nil => exact sorted
  | cons m rest ih =>
    have hhand : (s.joinQueue m).ts.inHand ≠ none := by rw [State.joinQueue_busy m s h]; exact h
    have hage : (s.joinQueue m).dt.age = s.dt.age := Deck.age_eq _ _ (s.joinQueue_serials m)
    have hstep : (s.joinQueue m).ts.queue = insertByAge s.dt.age m s.ts.queue := by
      rw [State.joinQueue_busy m s h]; rfl
    have hrest := ih hhand
    rw [hage, hstep] at hrest
    exact hrest (insertByAge_sorted _ _ _ sorted)

/-- A piece that is SCANNED stays so while pieces join and none is taken. -/
theorem State.each_joinQueue_scanned (l : List Word) {n : Word} {s : State} (h : s.ts.inHand ≠ none)
    (hscanned : ∃ q, s.dt.piece? n = some q ∧ q.state = .scanned) :
    ∃ q, (s.each l State.joinQueue).dt.piece? n = some q ∧ q.state = .scanned := by
  induction l generalizing s with
  | nil => exact hscanned
  | cons m rest ih =>
    obtain ⟨q, hq, hstate⟩ := hscanned
    have hqueued : s.joinQueue m = s.queued m := State.takeNext_busy _ h
    refine ih (s := s.joinQueue m) (by rw [hqueued]; exact h) ?_
    rw [hqueued]
    by_cases hn : n = m
    · subst hn
      exact ⟨{ q with state := .scanned }, by rw [s.queued_piece?, hq]; rfl, rfl⟩
    · exact ⟨q, (s.queued_piece?_other hn).trans hq, hstate⟩

/-- Each piece that joins is SCANNED. -/
theorem State.each_joinQueue_all_scanned (l : List Word) {s : State} (h : s.ts.inHand ≠ none)
    (hpieces : ∀ n ∈ l, (s.dt.piece? n).isSome = true) :
    ∀ n ∈ l, ∃ q, (s.each l State.joinQueue).dt.piece? n = some q ∧ q.state = .scanned := by
  induction l generalizing s with
  | nil => simp
  | cons m rest ih =>
    have hqueued : s.joinQueue m = s.queued m := State.takeNext_busy _ h
    have hhand : (s.joinQueue m).ts.inHand ≠ none := by rw [hqueued]; exact h
    intro n hn
    rcases List.mem_cons.1 hn with rfl | hn
    · obtain ⟨q, hq⟩ := Option.isSome_iff_exists.1 (hpieces n List.mem_cons_self)
      refine State.each_joinQueue_scanned rest (s := s.joinQueue n) hhand ?_
      rw [hqueued]
      exact ⟨{ q with state := .scanned }, by rw [s.queued_piece?, hq]; rfl, rfl⟩
    · refine ih hhand (fun k hk => ?_) n hn
      obtain ⟨q, hq⟩ := Option.isSome_iff_exists.1 (hpieces k (List.mem_cons_of_mem _ hk))
      obtain ⟨y, hy, -⟩ := State.joinQueue_piece (m := m) hq
      rw [hy]
      rfl

/-! ## A piece that waits for its solve -/

/-- A piece stands in the queue or is the solve in hand, SCANNED or SOLVING. -/
def State.Awaits (n : Word) (s : State) : Prop :=
  (n ∈ s.ts.queue ∨ s.ts.solves n = true)
    ∧ ∃ q, s.dt.piece? n = some q ∧ (q.state = .scanned ∨ q.state = .solving)

theorem State.Awaits.takeNext {n : Word} {s : State} (h : s.Awaits n) : s.takeNext.Awaits n := by
  obtain ⟨hplace, q, hq, hstate⟩ := h
  refine ⟨?_, ?_⟩
  · unfold State.takeNext
    split
    · next serial rest hhand hqueue =>
      have hin : n = serial ∨ n ∈ rest := by
        rcases hplace with hin | hsolves
        · simpa [hqueue] using hin
        · simp [Solver.solves, hhand] at hsolves
      split
      · exact hin.symm.imp id (fun e => by simp [Solver.solves, e])
      · next hnone =>
        refine .inl (hin.resolve_left fun e => ?_)
        rw [← e, hq] at hnone
        cases hnone
    · exact hplace
  · obtain ⟨y, hy, -, hsame | ⟨-, -, hsolving, -⟩⟩ := s.takeNext_piece n q hq
    · exact ⟨y, hy, hsame ▸ hstate⟩
    · exact ⟨y, hy, .inr hsolving⟩

theorem State.Awaits.joinQueue {n : Word} (m : Word) {s : State} (h : s.Awaits n) : (s.joinQueue m).Awaits n := by
  refine State.Awaits.takeNext (s := s.queued m) ?_
  obtain ⟨hplace, q, hq, hstate⟩ := h
  refine ⟨hplace.imp_left fun hin => mem_insertByAge.2 (.inr hin), ?_⟩
  by_cases hn : n = m
  · subst hn
    exact ⟨{ q with state := .scanned }, by rw [s.queued_piece?, hq]; rfl, .inl rfl⟩
  · exact ⟨q, (s.queued_piece?_other hn).trans hq, hstate⟩

theorem State.joinQueue_awaits {n : Word} {s : State} (h : (s.dt.piece? n).isSome = true) :
    (s.joinQueue n).Awaits n := by
  obtain ⟨q, hq⟩ := Option.isSome_iff_exists.1 h
  refine State.Awaits.takeNext (s := s.queued n) ⟨.inl (mem_insertByAge.2 (.inl rfl)), ?_⟩
  exact ⟨{ q with state := .scanned }, by rw [s.queued_piece?, hq]; rfl, .inl rfl⟩

theorem State.Awaits.each {n : Word} (l : List Word) {s : State} (h : s.Awaits n) :
    (s.each l State.joinQueue).Awaits n := by
  induction l generalizing s with
  | nil => exact h
  | cons m rest ih => exact ih (h.joinQueue m)

theorem State.each_joinQueue_awaits (l : List Word) {n : Word} {s : State} (hn : n ∈ l)
    (h : (s.dt.piece? n).isSome = true) : (s.each l State.joinQueue).Awaits n := by
  induction l generalizing s with
  | nil => cases hn
  | cons m rest ih =>
    rcases List.mem_cons.1 hn with rfl | hn
    · exact (State.joinQueue_awaits h).each rest
    · obtain ⟨q, hq⟩ := Option.isSome_iff_exists.1 h
      obtain ⟨y, hy, -⟩ := State.joinQueue_piece (m := m) hq
      exact ih hn (by rw [hy]; rfl)

/-! ## A piece that does not join -/

theorem State.joinQueue_inHand_of_none {n : Word} {s : State} (h : (s.joinQueue n).ts.inHand = none) :
    s.ts.inHand = none := by
  by_contra hbusy
  rw [State.joinQueue_busy n s hbusy] at h
  exact hbusy h

theorem State.joinQueue_mem_queue {n m : Word} {s : State} (hne : n ≠ m) (h : n ∈ (s.joinQueue m).ts.queue) :
    n ∈ s.ts.queue :=
  (mem_insertByAge.1 ((s.queued m).takeNext_queue_sublist.subset h)).resolve_left hne

/-- It keeps its state, but where it stood in the queue and TS, with no solve in hand, takes it. -/
theorem State.each_joinQueue_other (l : List Word) {n : Word} {s : State} {x : Piece} (hn : n ∉ l)
    (h : s.dt.piece? n = some x) :
    ∃ y, (s.each l State.joinQueue).dt.piece? n = some y
      ∧ (y.state = x.state ∨ (s.ts.inHand = none ∧ n ∈ s.ts.queue ∧ y.state = .solving
        ∧ (s.each l State.joinQueue).ts.solves n = true)) := by
  induction l generalizing s x with
  | nil => exact ⟨x, h, .inl rfl⟩
  | cons m rest ih =>
    obtain ⟨hne, hrest⟩ : n ≠ m ∧ n ∉ rest := by simpa using hn
    obtain ⟨y, hy, -, hstate⟩ := State.joinQueue_piece_other hne h
    obtain ⟨z, hz, hlater⟩ := ih hrest hy
    refine ⟨z, hz, ?_⟩
    rcases hstate with hsame | ⟨hhand, hin, hsolving, hsolves⟩
    · rcases hlater with hsame' | ⟨hhand, hin, hsolving, hsolves⟩
      · exact .inl (hsame'.trans hsame)
      · exact .inr ⟨State.joinQueue_inHand_of_none hhand, State.joinQueue_mem_queue hne hin, hsolving, hsolves⟩
    · have hbusy : (s.joinQueue m).ts.inHand ≠ none := fun hnone => by simp [Solver.solves, hnone] at hsolves
      rcases hlater with hsame' | ⟨hnone, -⟩
      · exact .inr ⟨hhand, hin, hsame'.trans hsolving,
          (Solver.solves_congr n (State.each_joinQueue_busy rest hbusy)).trans hsolves⟩
      · exact absurd hnone hbusy

/-! ## The lock set -/

theorem Piece.losesSaws_eq (saws : SawSet) (p : Piece) :
    p.losesSaws saws =
      if p.state = .committed then ((p.commit.map (fun c => c.dropSet)).getD 0) &&& saws else 0 := by
  unfold Piece.losesSaws
  cases p.commit with
  | none => simp
  | some c => rfl

theorem Deck.solvedWith_eq (d : Deck) (saws : SawSet) :
    d.solvedWith saws = (d.pieces.filter (fun p => p.state == .solved
      && (p.solution.map (fun sol => sol.sawSet &&& saws != 0)).getD false)).map (fun p => p.serial) := by
  refine congrArg (List.map _) (List.filter_congr fun p _ => ?_)
  cases p.solution <;> rfl

/-- Losing saws of a drop set changes nothing that brings a SOLVED piece back. -/
theorem Deck.solvedWith_recutBy (d : Deck) (saws : SawSet) (bin : Piece → Nat) :
    ({ d with pieces := d.pieces.map (fun p => p.recutBy saws (bin p)) } : Deck).solvedWith saws = d.solvedWith saws := by
  unfold Deck.solvedWith
  simp only [List.filter_map, List.map_map, Function.comp_def, Kept.recutBy_state, Kept.recutBy_solution,
    Kept.recutBy_serial]

theorem Deck.solvedWith_zero (d : Deck) : d.solvedWith 0 = [] := by
  rw [Deck.solvedWith_eq, List.map_eq_nil_iff, List.filter_eq_nil_iff]
  intro p _
  cases p.solution <;> simp

theorem Deck.mem_solvedWith_isSome {d : Deck} {saws : SawSet} {n : Word} (h : n ∈ d.solvedWith saws) :
    (d.piece? n).isSome = true := by
  obtain ⟨p, hp, rfl⟩ := List.mem_map.1 h
  exact List.find?_isSome.2 ⟨p, (List.mem_filter.1 hp).1, by simp⟩

/-- The table with the saws taken out of its drop sets. -/
def State.recutPieces (saws : SawSet) (s : State) : List Piece :=
  s.dt.pieces.map (fun p => p.recutBy saws (s.rs.boundRules p).policy.recutBin)

/-- The state before the SOLVED pieces that used the saws are back in the queue (R135). -/
def State.sawsOut (saws : SawSet) (s : State) : State :=
  { s with
    dt := { s.dt with pieces := s.recutPieces saws }
    ax := { s.ax with
            sawOut := s.ax.sawOut &&& ~~~saws
            window := s.ax.window.map (WindowEntry.without saws)
            recuts := s.ax.recuts + BitVec.ofNat 32 (s.dt.newRecuts saws) } }

theorem Piece.recutBy_zero (bin : Nat) (p : Piece) : p.recutBy 0 bin = p := by
  have hloses : p.losesSaws 0 = 0 := by
    rw [Piece.losesSaws_eq]
    split
    · exact BitVec.and_zero
    · rfl
  exact if_pos hloses

theorem State.sawsOut_zero (s : State) : s.sawsOut 0 = s := by
  have hwindow : s.ax.window.map (WindowEntry.without 0) = s.ax.window :=
    (List.map_congr_left (fun w _ => w.without_zero)).trans (List.map_id _)
  have hout : s.ax.sawOut &&& ~~~(0 : SawSet) = s.ax.sawOut := BitVec.and_allOnes
  have hpieces : s.recutPieces 0 = s.dt.pieces :=
    (List.map_congr_left (fun p _ => p.recutBy_zero _)).trans (List.map_id _)
  unfold State.sawsOut
  rw [hwindow, hout, hpieces, Deck.newRecuts_zero]
  simp

theorem State.joinLock_eq (saws : SawSet) (s : State) :
    s.joinLock saws = (s.sawsOut saws).each (s.dt.solvedWith saws) State.joinQueue := by
  by_cases hzero : saws = 0
  · subst hzero
    rw [Deck.solvedWith_zero, State.sawsOut_zero]
    rfl
  · have hback : (s.sawsOut saws).dt.solvedWith saws = s.dt.solvedWith saws := s.dt.solvedWith_recutBy saws _
    rw [← hback]
    exact if_neg hzero

theorem State.sawsOut_piece? (saws : SawSet) (s : State) (n : Word) :
    (s.sawsOut saws).dt.piece? n
      = (s.dt.piece? n).map (fun p => p.recutBy saws (s.rs.boundRules p).policy.recutBin) :=
  find_onPieces _ _ _ (fun _ => Kept.recutBy_serial _ _ _)

theorem State.recutPieces_serials (saws : SawSet) (s : State) :
    (s.recutPieces saws).map (fun p => p.serial) = s.dt.pieces.map (fun p => p.serial) :=
  serials_map _ _ (fun _ => Kept.recutBy_serial _ _ _)

/-- A piece after the saws have joined, up to its state. -/
theorem State.joinLock_piece (saws : SawSet) {s : State} {n : Word} {p : Piece} (h : s.dt.piece? n = some p) :
    ∃ q, (s.joinLock saws).dt.piece? n = some q
      ∧ { q with state := p.state } = p.recutBy saws (s.rs.boundRules p).policy.recutBin := by
  rw [State.joinLock_eq]
  obtain ⟨q, hq, hsame⟩ := State.each_joinQueue_piece (s.dt.solvedWith saws) (s := s.sawsOut saws)
    (by rw [s.sawsOut_piece?, h]; rfl)
  rw [Kept.recutBy_state] at hsame
  exact ⟨q, hq, hsame⟩

/-- Settles O28. -/
theorem joiningTheLockSetReleasesTheSaws : Obligations.JoiningTheLockSetReleasesTheSaws := by
  intro saws s t loses
  have hloses (p : Piece) : loses p = p.losesSaws saws := (p.losesSaws_eq saws).symm
  have hsome {n : Word} (hn : n ∈ s.dt.solvedWith saws) : ((s.sawsOut saws).dt.piece? n).isSome = true := by
    rw [s.sawsOut_piece?, Option.isSome_map]
    exact Deck.mem_solvedWith_isSome hn
  have hrecuts : t.ax.recuts = s.ax.recuts
      + BitVec.ofNat 32 (s.dt.pieces.filter (fun p => loses p != 0 && !p.recut)).length := by
    simp only [hloses]
    rw [State.joinLock_ax]
    rfl
  have hax := State.joinLock_ax saws s
  refine ⟨by rw [hax], by rw [hax]; rfl, by rw [hax], by rw [hax], by rw [hax], hrecuts, fun n p hp => ?_,
    fun n p sol hp hsolved hsol hmeets => ?_, ?_⟩
  · obtain ⟨q, hq, hsame⟩ := State.joinLock_piece saws hp
    refine ⟨q, hq, ?_⟩
    rw [hsame, hloses, Piece.recutBy]
    split
    · rfl
    · rfl
  · have hback : n ∈ s.dt.solvedWith saws := by
      rw [Deck.solvedWith_eq, ← Deck.piece?_serial hp]
      exact List.mem_map.2 ⟨p, List.mem_filter.2 ⟨List.mem_of_find?_eq_some hp, by simpa [hsolved, hsol] using hmeets⟩, rfl⟩
    have hawaits := State.each_joinQueue_awaits (s.dt.solvedWith saws) hback (hsome hback)
    rw [← State.joinLock_eq] at hawaits
    exact hawaits
  · rw [← Deck.solvedWith_eq]
    intro back
    have ht : t = (s.sawsOut saws).each back State.joinQueue := State.joinLock_eq saws s
    refine ⟨⟨s.recutPieces saws, s.recutPieces_serials saws, ?_⟩, fun n p q hp hq hn => ?_, fun hbusy => ?_⟩
    · rw [hax]
      exact ht
    · obtain ⟨y, hy, hstate⟩ := State.each_joinQueue_other back (s := s.sawsOut saws) hn
        (by rw [s.sawsOut_piece?, hp]; rfl)
      rw [← ht] at hy hstate
      obtain rfl : q = y := Option.some.inj (hq.symm.trans hy)
      rw [Kept.recutBy_state] at hstate
      exact hstate
    · have hage : (s.sawsOut saws).dt.age = s.dt.age := Deck.age_eq _ _ (s.recutPieces_serials saws)
      rw [ht]
      refine ⟨State.each_joinQueue_busy back (s := s.sawsOut saws) hbusy,
        State.each_joinQueue_queue back (s := s.sawsOut saws) hbusy, fun sorted => ?_,
        State.each_joinQueue_all_scanned back (s := s.sawsOut saws) hbusy fun n hn => hsome hn⟩
      have hsorted := State.each_joinQueue_sorted back (s := s.sawsOut saws) hbusy
      rw [hage] at hsorted
      exact hsorted sorted

end Sys2Proof.Machine
end

section
/-! SUPPORT. The commit at C (R104, R119, R121, R122, R125, R126, R127, R128). -/

open Sys2Proof

namespace Sys2Proof.Machine

/-! ## The override tally goes to the run -/

/-- A loop of counts leaves everything but memory. -/
theorem State.each_addTo (skip : Nat → Bool) (addr count : Nat → Nat) (l : List Nat) (s : State) :
    s.each l (fun i s => if skip i = true then s else s.addTo (addr i) (count i)) =
      { s with
        mem := l.foldl (fun m i =>
          if skip i = true then m else m.splice (addr i) (le32 (m.read32 (addr i) + BitVec.ofNat 32 (count i)))) s.mem } := by
  induction l generalizing s with
  | nil => rfl
  | cons i rest ih =>
    refine (ih (if skip i = true then s else s.addTo (addr i) (count i))).trans ?_
    rw [List.foldl_cons]
    split <;> rfl

/-- Memory with a piece's override tally added to the counts of its run (R122). -/
def State.tallied (p : Piece) (s : State) : Memory :=
  match s.tu.areaOfRun p.run with
  | none => s.mem
  | some x => (List.range 15).foldl (fun m i =>
      if p.overrides.getD i 0 = 0 then m
      else
        m.splice (areaAddr x + 0xD1B4 + 4 * i)
          (le32 (m.read32 (areaAddr x + 0xD1B4 + 4 * i) + BitVec.ofNat 32 (p.overrides.getD i 0)))) s.mem

theorem State.handOver_eq (p : Piece) (s : State) : s.handOver p = { s with mem := s.tallied p } := by
  unfold State.handOver State.tallied
  cases s.tu.areaOfRun p.run with
  | none => rfl
  | some area =>
    have hloop := State.each_addTo (fun i => p.overrides.getD i 0 == 0) (overrideAddr area) (fun i => p.overrides.getD i 0)
      (List.range 15) s
    simp only [beq_iff_eq] at hloop
    exact hloop

/-! ## No solve and no place in the queue is left -/

/-- The state without a piece in the queue and without a solve in hand for it (R86, R104). -/
def State.freed (n : Word) (s : State) : State := (s.leaveQueue n).abandonSolve n

section Freed

variable (n : Word) (s : State)

theorem State.freed_eq :
    s.freed n =
      let left := s.onTs (fun ts => { ts with queue := ts.queue.filter (fun m => m != n) })
      if s.ts.solves n then
        (left.onTs (fun ts => { ts with inHand := none, abandoned := ts.abandoned + 1 })).takeNext
      else left := rfl

theorem State.freed_shape :
    s.freed n = { s with dt := { s.dt with pieces := (s.freed n).dt.pieces }, ts := (s.freed n).ts }
      ∧ (s.freed n).dt.pieces.map (fun p => p.serial) = s.dt.pieces.map (fun p => p.serial) := by
  obtain ⟨⟨pieces, ts, hshape, hserials⟩, -⟩ := Requeue.abandonSolve (s.leaveQueue n) n
  have hfreed : s.freed n = { s with dt := { s.dt with pieces := pieces }, ts := ts } := hshape
  rw [hfreed]
  exact ⟨rfl, hserials⟩

theorem State.takeNext_counts :
    s.takeNext.ts.deadlines = s.ts.deadlines ∧ s.takeNext.ts.deadlineFallbacks = s.ts.deadlineFallbacks
      ∧ s.takeNext.ts.abandoned = s.ts.abandoned := by
  unfold State.takeNext
  split
  · split <;> exact ⟨rfl, rfl, rfl⟩
  · exact ⟨rfl, rfl, rfl⟩

theorem State.freed_counts :
    (s.freed n).ts.deadlines = s.ts.deadlines ∧ (s.freed n).ts.deadlineFallbacks = s.ts.deadlineFallbacks
      ∧ (s.freed n).ts.abandoned = s.ts.abandoned + (if s.ts.solves n then 1 else 0) := by
  rw [State.freed_eq]
  dsimp only
  split
  · exact State.takeNext_counts _
  · exact ⟨rfl, rfl, (BitVec.add_zero _).symm⟩

/-- What the freeing can do to a piece: SOLVING, for the one that TS takes. -/
theorem State.freed_piece {m : Word} {x : Piece} (h : s.dt.piece? m = some x) :
    ∃ y, (s.freed n).dt.piece? m = some y ∧ { y with state := x.state } = x
      ∧ (y.state = x.state ∨ (s.ts.solves n = true ∧ y.state = .solving ∧ (s.freed n).ts.solves m = true)) := by
  rw [State.freed_eq]
  dsimp only
  split
  · next hsolves =>
    obtain ⟨y, hy, hsame, hstate⟩ := State.takeNext_piece
      ((s.onTs (fun ts => { ts with queue := ts.queue.filter (fun m => m != n) })).onTs (fun ts =>
        { ts with inHand := none, abandoned := ts.abandoned + 1 })) m x h
    exact ⟨y, hy, hsame, hstate.imp_right fun taken => ⟨hsolves, taken.2.2.1, taken.2.2.2⟩⟩
  · exact ⟨x, h, rfl, .inl rfl⟩

end Freed

/-! ## The piece that is committed -/

theorem Piece.deadlineWrites_eq (lockSet : SawSet) (p : Piece) :
    p.deadlineWrites lockSet = (p.state != .solved && (match p.solution with
      | some sol => sol.sawSet &&& lockSet != 0
      | none => true)) := by
  unfold Piece.deadlineWrites Piece.holdsSafe
  cases p.solution with
  | none => rfl
  | some sol => simp only [Bool.not_not]; rfl

theorem Piece.gradeAtCommit_eq (rules : Rules) (write : Bool) (held : Piece) :
    held.gradeAtCommit rules write = (match held.gradePart with
      | some part => if write = true ∨ part.state = .pending then held.applyGradePart rules else held
      | none => held) := by
  unfold Piece.gradeAtCommit
  cases held.gradePart with
  | none => rfl
  | some part => simp only [Bool.or_eq_true, beq_iff_eq]

/-- The piece under its FALLBACK, where the deadline writes one. -/
def Piece.heldAtDeadline (rules : Rules) (write : Bool) (p : Piece) : Piece :=
  if write then p.writeDeadline rules.policy.fallbackBin else p

theorem Piece.heldAtDeadline_gradePart (rules : Rules) (write : Bool) (p : Piece) :
    (p.heldAtDeadline rules write).gradePart = p.gradePart := by
  unfold Piece.heldAtDeadline
  split <;> rfl

theorem Piece.gradeAtCommit_serial (rules : Rules) (write : Bool) (p : Piece) :
    (p.gradeAtCommit rules write).serial = p.serial := by
  unfold Piece.gradeAtCommit
  split
  · split
    · exact Piece.applyGradePart_serial rules p
    · rfl
  · rfl

theorem Piece.applyGradePart_trimPart (rules : Rules) (p : Piece) :
    (p.applyGradePart rules).trimPart = p.trimPart := by
  unfold Piece.applyGradePart
  split <;> rfl

theorem Piece.gradeAtCommit_trimPart (rules : Rules) (write : Bool) (p : Piece) :
    (p.gradeAtCommit rules write).trimPart = p.trimPart := by
  unfold Piece.gradeAtCommit
  split
  · split
    · exact Piece.applyGradePart_trimPart rules p
    · rfl
  · rfl

theorem Piece.heldAtDeadline_keeps (rules : Rules) (write : Bool) (p : Piece) :
    (p.heldAtDeadline rules write).serial = p.serial ∧ (p.heldAtDeadline rules write).trimPart = p.trimPart := by
  unfold Piece.heldAtDeadline
  split <;> exact ⟨rfl, rfl⟩

theorem Piece.settle_serial (rules : Rules) (write : Bool) (p : Piece) : (p.settle rules write).serial = p.serial :=
  ((p.heldAtDeadline rules write).gradeAtCommit_serial rules write).trans (p.heldAtDeadline_keeps rules write).1

/-- The piece as the commit leaves it (R104, R119, R121, R125). -/
def Piece.atCommit (g : Geometry) (rules : Rules) (lockSet : SawSet) (write : Bool) (p : Piece) : Piece :=
  (p.settle rules write).commitWith g rules lockSet

theorem Piece.atCommit_serial (g : Geometry) (rules : Rules) (lockSet : SawSet) (write : Bool) (p : Piece) :
    (p.atCommit g rules lockSet write).serial = p.serial := p.settle_serial rules write

theorem Piece.atCommit_eq (g : Geometry) (rules : Rules) (lockSet : SawSet) (write : Bool) (p : Piece) :
    p.atCommit g rules lockSet write =
      (let r := (p.heldAtDeadline rules write).gradeAtCommit rules write
      { r with
        state := .committed
        trimPart := p.trimPart.map (fun x => if x.state = .pending then { x with state := .notApplied } else x)
        commit := r.solution.map (commitPartOf g rules lockSet r) }) := by
  have htrim : ((p.heldAtDeadline rules write).gradeAtCommit rules write).trimPart = p.trimPart :=
    (Piece.gradeAtCommit_trimPart rules write _).trans (p.heldAtDeadline_keeps rules write).2
  rw [← htrim]
  rfl

/-! ## The state that the commit leaves -/

theorem PieceState.committable_iff (st : PieceState) :
    st.committable = true ↔ st = .scanned ∨ st = .solving ∨ st = .solved := by cases st <;> decide

section Commit

variable {g : Geometry} {s : State} {p : Piece}

theorem State.commitAt_none
    (h : ∀ p, s.dt.pieceAt g.c = some p → p.state ≠ .scanned ∧ p.state ≠ .solving ∧ p.state ≠ .solved) :
    s.commitAt g = s := by
  unfold State.commitAt
  split
  · rfl
  · next p hp =>
    obtain ⟨hscanned, hsolving, hsolved⟩ := h p hp
    refine if_neg fun hcan => ?_
    rcases (PieceState.committable_iff _).1 hcan with hst | hst | hst
    · exact hscanned hst
    · exact hsolving hst
    · exact hsolved hst

/-- The piece table with its piece at C committed. -/
def State.committedPieces (g : Geometry) (p : Piece) (s : State) : List Piece :=
  (((s.freed p.serial).onPiece p.serial (Piece.settle (s.rs.boundRules p) (p.deadlineWrites s.ax.lockSet))).onPiece
    p.serial (Piece.commitWith g (s.rs.boundRules p) s.ax.lockSet)).dt.pieces

theorem State.commitAt_eq (hp : s.dt.pieceAt g.c = some p) (hcan : p.state.committable = true) :
    s.commitAt g =
      { s with
        mem := s.tallied p
        dt := { s.dt with pieces := s.committedPieces g p }
        ax := { s.ax with commits := s.ax.commits + 1 }
        ts := (s.freed p.serial).ts.countDeadline (p.state != .solved) (p.deadlineWrites s.ax.lockSet) } := by
  obtain ⟨hshape, -⟩ := s.freed_shape p.serial
  have hcommit : s.commitAt g =
      (((((s.freed p.serial).onPiece p.serial
        (Piece.settle (s.rs.boundRules p) (p.deadlineWrites s.ax.lockSet))).onTs
          (Solver.countDeadline (p.state != .solved) (p.deadlineWrites s.ax.lockSet))).onPiece p.serial
            (Piece.commitWith g ((s.freed p.serial).rs.boundRules p) (s.freed p.serial).ax.lockSet)).handOver p).onAx
              (fun ax => { ax with commits := ax.commits + 1 }) := by
    unfold State.commitAt
    rw [hp]
    exact if_pos hcan
  rw [hcommit, State.handOver_eq]
  unfold State.committedPieces
  rw [hshape]
  rfl

theorem State.committedPieces_piece? {n : Word} (hne : n ≠ p.serial) :
    ({ s.dt with pieces := s.committedPieces g p } : Deck).piece? n = (s.freed p.serial).dt.piece? n :=
  (State.onPiece_piece?_other _ hne (f := Piece.commitWith g (s.rs.boundRules p) s.ax.lockSet) (fun _ => rfl)).trans
    (State.onPiece_piece?_other _ hne (Piece.settle_serial (s.rs.boundRules p) (p.deadlineWrites s.ax.lockSet)))

theorem State.committedPieces_same (hp : s.dt.piece? p.serial = some p) :
    ({ s.dt with pieces := s.committedPieces g p } : Deck).piece? p.serial
      = some (p.atCommit g (s.rs.boundRules p) s.ax.lockSet (p.deadlineWrites s.ax.lockSet)) := by
  have hfreed : (s.freed p.serial).dt.piece? p.serial = some p :=
    State.abandonSolve_piece? hp (State.leaveQueue_notin p.serial s)
  refine (State.onPiece_piece? _ _ (f := Piece.commitWith g (s.rs.boundRules p) s.ax.lockSet) (fun _ => rfl)).trans ?_
  rw [State.onPiece_piece? _ _ (Piece.settle_serial (s.rs.boundRules p) (p.deadlineWrites s.ax.lockSet)), hfreed]
  rfl

theorem State.committedPieces_serials :
    (s.committedPieces g p).map (fun x => x.serial) = s.dt.pieces.map (fun x => x.serial) :=
  (pieces_serial _ (Piece.commitWith g (s.rs.boundRules p) s.ax.lockSet) _ (fun _ => rfl)).trans
    ((pieces_serial _ _ _ (Piece.settle_serial (s.rs.boundRules p) (p.deadlineWrites s.ax.lockSet))).trans
      (s.freed_shape p.serial).2)

end Commit

/-! ## Drop set and bins -/

theorem mem_chopSaws {g : Geometry} {lockSet : SawSet} {left right low high k : Nat} :
    k ∈ chopSaws g lockSet left right low high ↔ 1 ≤ k ∧ k ≤ g.sawCount ∧ has lockSet k = false
      ∧ left < g.sawPos k ∧ g.sawPos k < right ∧ (g.sawPos k < low ∨ high < g.sawPos k) := by
  have hcount : k < 1 + g.sawCount ↔ k ≤ g.sawCount := by omega
  simp only [chopSaws, List.mem_filter, List.mem_range'_1, Bool.and_eq_true, Bool.or_eq_true, Bool.not_eq_true',
    decide_eq_true_eq, hcount, and_assoc]

theorem commitPartOf_spec (g : Geometry) (rules : Rules) (lockSet : SawSet) (p : Piece) (sol : Solution) :
    let c := commitPartOf g rules lockSet p sol
    let size := p.sizeClass.getD 0
    c.target = c.primary ∧ c.lastStation = none
    ∧ (sol.kind = .fallback →
      c.dropSet = 0 ∧ c.primary = sol.target.getD 0 ∧ c.alternate = none ∧ c.cause = .solution)
    ∧ (sol.kind = .noSolution → c.dropSet = 0 ∧ c.primary = 0 ∧ c.alternate = none ∧ c.cause = .solution)
    ∧ (sol.kind = .normal → ∀ x, sol.products = [x] →
      c.primary = rules.primary size x.grade x.lengthClass
      ∧ c.alternate = some (rules.alternate size x.grade x.lengthClass) ∧ c.cause = .sortPrimary)
    ∧ (sol.kind = .normal → ∀ x y, sol.products = [x, y] →
      c.primary = rules.primary size x.grade x.lengthClass ∧ c.cause = .sortPrimary
      ∧ c.alternate = some
        (if rules.alternate size x.grade x.lengthClass = rules.alternate size y.grade y.lengthClass then
          rules.alternate size x.grade x.lengthClass else 0))
    ∧ (sol.kind = .normal → ∀ r left right, p.scan = some r → r.ends = some (left, right) →
      ∀ k, 1 ≤ k → k ≤ 20 → (has c.dropSet k = true ↔ k ∈ sol.saws
        ∨ (k ≤ g.sawCount ∧ has lockSet k = false ∧ left < g.sawPos k ∧ g.sawPos k < right
          ∧ (g.sawPos k < g.sawPos (sol.saws.getD 0 0) ∨ g.sawPos (sol.saws.getLastD 0) < g.sawPos k)))) := by
  intro c size
  refine ⟨rfl, rfl, fun hkind => ?_, fun hkind => ?_, fun hkind x hx => ?_, fun hkind x y hxy => ?_,
    fun hkind r left right hscan hends k hlo hhi => ?_⟩
  · simp [c, commitPartOf, binsOf, dropSetOf, hkind]
  · simp [c, commitPartOf, binsOf, dropSetOf, hkind]
  · simp [c, commitPartOf, binsOf, hkind, hx, size]
  · simp [c, commitPartOf, binsOf, hkind, hxy, size]
  · have hdrop : c.dropSet = maskOf 20 (sol.saws ++ chopSaws g lockSet left right (g.sawPos (sol.saws.getD 0 0))
        (g.sawPos (sol.saws.getLastD 0))) := by
      simp only [c, commitPartOf, dropSetOf, hkind, if_true, hscan, Option.bind_some, hends]
    rw [hdrop, has_maskOf 20 _ k hlo hhi, List.mem_append, mem_chopSaws]
    simp only [hlo, true_and]

/-- Settles O30. -/
theorem commitFixesDropSetAndBins : Obligations.CommitFixesDropSetAndBins := by
  refine ⟨fun g s => State.commitAt_none, fun g s p hat hstate => ?_, commitPartOf_spec⟩
  intro t rules write fallback
  have hp := Deck.piece?_of_pieceAt hat
  have hwrite : p.deadlineWrites s.ax.lockSet = write := p.deadlineWrites_eq s.ax.lockSet
  have ht : t = _ := State.commitAt_eq hat ((PieceState.committable_iff _).2 hstate)
  obtain ⟨hshape, hserials⟩ := s.freed_shape p.serial
  obtain ⟨hdeadlines, hfallbacks, habandoned⟩ := s.freed_counts p.serial
  have hnotin : p.serial ∉ (s.freed p.serial).ts.queue :=
    State.abandonSolve_notin (State.leaveQueue_notin p.serial s)
  have hsolves : (s.freed p.serial).ts.solves p.serial = false :=
    State.abandonSolve_solves (State.leaveQueue_notin p.serial s)
  rw [ht]
  refine ⟨rfl, rfl, ?_, ?_, habandoned, rfl, hnotin, hsolves, ?_, ?_⟩
  · show (if (p.state != .solved) = true then (s.freed p.serial).ts.deadlines + 1 else _) = _
    rw [hdeadlines]
    by_cases hsolved : p.state = .solved <;> simp [hsolved]
  · show (if p.deadlineWrites s.ax.lockSet = true then (s.freed p.serial).ts.deadlineFallbacks + 1 else _) = _
    rw [hfallbacks, hwrite]
    split
    · rfl
    · exact (BitVec.add_zero _).symm
  · intro left freed
    refine ⟨State.committedPieces_serials, fun n hne => State.committedPieces_piece? hne, fun n x hne hx => ?_, ?_⟩
    · obtain ⟨y, hy, hsame, hstate⟩ := s.freed_piece p.serial hx
      exact ⟨y, (State.committedPieces_piece? hne).trans hy, hsame, hstate⟩
    · rfl
  · refine ⟨p.heldAtDeadline rules write, _, State.committedPieces_same hp, rfl, ?_⟩
    rw [hwrite, Piece.atCommit_eq, Piece.gradeAtCommit_eq, Piece.heldAtDeadline_gradePart] <;> rfl

end Sys2Proof.Machine
end

section
/-! SUPPORT. The copy of a bank: the number given, the bytes kept, what a host write leaves (R64, R74, R77, R78,
log 2, log 21). -/

open Sys2Proof

namespace Sys2Proof.Machine

/-! ## The number given (R78) -/

/-- The number that stands `k` after `n`, 1 following 65535. -/
def numberPast (n k : Nat) : Nat := (n - 1 + k) % 65535 + 1

theorem numberPast_bounds (n k : Nat) : 1 ≤ numberPast n k ∧ numberPast n k ≤ 65535 := by
  unfold numberPast
  omega

theorem numberAfter_eq {n : Nat} (hlo : 1 ≤ n) (hhi : n ≤ 65535) : numberAfter n = numberPast n 1 := by
  unfold numberAfter numberPast
  split <;> omega

theorem numberPast_zero {n : Nat} (hlo : 1 ≤ n) (hhi : n ≤ 65535) : numberPast n 0 = n := by
  unfold numberPast
  omega

theorem numberPast_numberPast (n j k : Nat) : numberPast (numberPast n j) k = numberPast n (j + k) := by
  unfold numberPast
  omega

theorem RuleStore.holdsNumber_iff (rs : RuleStore) (n : Nat) :
    rs.holdsNumber n = true ↔ ∃ sl ∈ rs.slots, sl.state ≠ .free ∧ sl.number = some n := by
  simp [RuleStore.holdsNumber]

/-- The first number that is not held, or the one that stands `fuel` after where all before it are. -/
theorem RuleStore.numberToGive_spec (rs : RuleStore) (fuel : Nat) {n : Nat} (hlo : 1 ≤ n) (hhi : n ≤ 65535) :
    ∃ k ≤ fuel, rs.numberToGive fuel n = numberPast n k ∧ (∀ j < k, rs.holdsNumber (numberPast n j) = true)
      ∧ (k < fuel → rs.holdsNumber (numberPast n k) = false) := by
  induction fuel generalizing n with
  | zero => exact ⟨0, Nat.le_refl _, (numberPast_zero hlo hhi).symm, fun j hj => absurd hj (Nat.not_lt_zero j),
      fun h => absurd h (Nat.lt_irrefl 0)⟩
  | succ fuel ih =>
    unfold RuleStore.numberToGive
    split
    · next hheld =>
      obtain ⟨hlo', hhi'⟩ := numberPast_bounds n 1
      obtain ⟨k, hk, hgive, hbefore, hfree⟩ := ih hlo' hhi'
      refine ⟨1 + k, by omega, ?_, fun j hj => ?_, fun hlt => ?_⟩
      · rw [numberAfter_eq hlo hhi, hgive, numberPast_numberPast]
      · cases j with
        | zero => rwa [numberPast_zero hlo hhi]
        | succ j =>
          have hj' := hbefore j (by omega)
          rwa [numberPast_numberPast, Nat.add_comm 1 j] at hj'
      · have hk' := hfree (by omega)
        rwa [numberPast_numberPast] at hk'
    · next hfree =>
      refine ⟨0, Nat.zero_le _, (numberPast_zero hlo hhi).symm, fun j hj => absurd hj (Nat.not_lt_zero j), fun _ => ?_⟩
      rw [numberPast_zero hlo hhi]
      exact Bool.eq_false_of_not_eq_true hfree

/-- Each slot holds one number at most. -/
theorem RuleStore.length_of_held (rs : RuleStore) {l : List Nat} (hnodup : l.Nodup)
    (hheld : ∀ k ∈ l, rs.holdsNumber k = true) : l.length ≤ rs.slots.length := by
  have hsub : l ⊆ rs.slots.filterMap (fun sl => sl.number) := by
    intro k hk
    obtain ⟨sl, hsl, -, hnumber⟩ := (rs.holdsNumber_iff k).1 (hheld k hk)
    exact List.mem_filterMap.2 ⟨sl, hsl, hnumber⟩
  exact (hnodup.subperm hsub).length_le.trans (List.length_filterMap_le _ _)

theorem numberPast_inj {n j k : Nat} (hj : j < 65535) (hk : k < 65535) (h : numberPast n j = numberPast n k) :
    j = k := by
  unfold numberPast at h
  omega

/-- Three slots do not hold four numbers. -/
theorem RuleStore.numberToGive_free (rs : RuleStore) (hlen : rs.slots.length = 3) {n : Nat} (hlo : 1 ≤ n)
    (hhi : n ≤ 65535) : rs.holdsNumber (rs.numberToGive 3 n) = false := by
  obtain ⟨k, hk, hgive, hbefore, hfree⟩ := rs.numberToGive_spec 3 hlo hhi
  rw [hgive]
  rcases Nat.lt_or_eq_of_le hk with hlt | rfl
  · exact hfree hlt
  · refine Bool.eq_false_of_not_eq_true fun hheld => ?_
    have hnodup : ((List.range 4).map (numberPast n)).Nodup :=
      List.nodup_range.map_on fun i hi j hj h =>
        numberPast_inj (by have := List.mem_range.1 hi; omega) (by have := List.mem_range.1 hj; omega) h
    have hcount := rs.length_of_held hnodup fun m hm => by
      obtain ⟨j, hj, rfl⟩ := List.mem_map.1 hm
      rcases Nat.lt_or_eq_of_le (Nat.le_of_lt_succ (List.mem_range.1 hj)) with hj | rfl
      · exact hbefore j hj
      · exact hheld
    simp [hlen] at hcount

/-! ## The copy's memory (R74) -/

theorem Memory.read_splice_byte (m : Memory) (addr x : Nat) (b : Byte) :
    (m.splice addr [b]).read x = if x = addr then b else m.read x := by
  rw [Memory.read_splice]
  by_cases hx : x = addr
  · simp [hx]
  · rw [if_neg hx, if_neg (by simp only [List.length_singleton]; omega)]

theorem stagedMemory_keeps (kept : Memory) (mem : Memory) {address : Nat} (h : ∀ c ∈ kept, c.1 ≠ address) :
    (kept.foldl (fun m c => m.splice c.1 [c.2]) mem).read address = mem.read address := by
  induction kept generalizing mem with
  | nil => rfl
  | cons c rest ih =>
    rw [List.foldl_cons, ih _ fun d hd => h d (List.mem_cons_of_mem _ hd), Memory.read_splice_byte,
      if_neg (h c List.mem_cons_self).symm]

theorem stagedMemory_kept (kept : Memory) (mem : Memory) {c : Host.Cell} (hc : c ∈ kept)
    (hone : ∀ d ∈ kept, d.1 = c.1 → d = c) :
    (kept.foldl (fun m c => m.splice c.1 [c.2]) mem).read c.1 = c.2 := by
  induction kept generalizing mem with
  | nil => cases hc
  | cons d rest ih =>
    rw [List.foldl_cons]
    by_cases hrest : c ∈ rest
    · exact ih _ hrest fun e he => hone e (List.mem_cons_of_mem _ he)
    · have hd : d = c := ((List.mem_cons.1 hc).resolve_right hrest).symm
      rw [stagedMemory_keeps rest _ fun e he hsame => hrest ((hone e (List.mem_cons_of_mem _ he) hsame) ▸ he), hd,
        Memory.read_splice_byte, if_pos rfl]

theorem stagedMemory_wf {mem : Memory} (st : Staging) (h : mem.wf = true) : (stagedMemory mem st).wf = true := by
  unfold stagedMemory
  induction st.kept generalizing mem with
  | nil => exact h
  | cons c rest ih => exact ih (Memory.wf_splice _ _ h)

/-! ## A part of memory moved down -/

theorem Memory.read_shift (base : Nat) (l : Memory) (h : ∀ c ∈ l, base ≤ c.1) (i : Nat) :
    Memory.read (l.map (fun c => (c.1 - base, c.2))) i = Memory.read l (base + i) := by
  induction l with
  | nil => rfl
  | cons c rest ih =>
    have hc := h c List.mem_cons_self
    have hsame : c.1 - base = i ↔ c.1 = base + i := by omega
    simp only [List.map_cons, Memory.read, hsame, ih fun d hd => h d (List.mem_cons_of_mem _ hd)]

theorem Memory.read_window (m : Memory) {base len i : Nat} (h : i < len) :
    (m.window base len).read i = m.read (base + i) := by
  unfold Memory.window
  rw [Memory.read_shift base _ fun c hc => (of_decide_eq_true (List.mem_filter.1 hc).2).1,
    Memory.read_filter m (fun x => decide (base ≤ x ∧ x < base + len)), if_pos (by simp [h])]

/-! ## A host write (log 2, log 21) -/

section HostWrite

variable (w : HostWrite) (s : State)

variable {s}

theorem State.passWords_entry_other {area : Area} (h : (s.tu.entry area).area ≠ .clearing) :
    (s.passWords w).tu.entry area = s.tu.entry area := by
  unfold State.passWords
  have hno : ¬(area = .a ∧ (s.tu.entry .a).area = .clearing) := fun ⟨he, hc⟩ => h (he ▸ hc)
  have hfirst : (State.sweepThrough .a (wordsThrough .a w) (s.onRs (fun rs =>
      { rs with staging := rs.staging.map (fun st => st.keep s.mem (touchedWords w)) }))).tu.entry area
      = s.tu.entry area := by
    rw [State.sweepThrough_entry]
    exact if_neg hno
  rw [State.sweepThrough_entry, hfirst, if_neg]
  rintro ⟨rfl, hc⟩
  rw [hfirst] at hc
  exact h hc

/-- A byte outside the areas that are being cleared is not zeroed. -/
theorem State.passWords_read_outside {x : Nat}
    (h : ∀ area, (s.tu.entry area).area = .clearing → x < areaAddr area ∨ areaAddr area + 0x10000 ≤ x) :
    (s.passWords w).mem.read x = s.mem.read x := by
  unfold State.passWords
  rw [State.read_sweepThrough, if_neg, State.read_sweepThrough, if_neg]
  · rfl
  · rintro ⟨hc, hlo, hhi⟩
    have hwords := wordsThrough_le .a w
    have hout := h .a hc
    omega
  · rintro ⟨hc, hlo, hhi⟩
    have hwords := wordsThrough_le .b w
    rw [State.sweepThrough_entry, if_neg (by simp)] at hc
    have hout := h .b hc
    omega

theorem State.hostWrite_read (x : Nat) :
    (s.hostWrite w).mem.read x = if w.addr ≤ x ∧ x < w.addr + w.bytes.length then w.bytes.getD (x - w.addr) 0
      else (if w.late = true then s.passWords w else s).mem.read x := Memory.read_splice _ _ _ _

theorem State.hostWrite_staging :
    (s.hostWrite w).rs.staging =
      if w.late then s.rs.staging.map (fun st => st.keep s.mem (touchedWords w)) else s.rs.staging := by
  rw [State.hostWrite_same]

theorem State.hostWrite_entry_other {area : Area} (h : (s.tu.entry area).area ≠ .clearing) :
    (s.hostWrite w).tu.entry area = s.tu.entry area := by
  show (if w.late = true then s.passWords w else s).tu.entry area = _
  split
  · exact State.passWords_entry_other w h
  · rfl

/-- What the copy keeps of the words that a late write is about to reach. -/
theorem State.hostWrite_kept {st : Staging} (hst : s.rs.staging = some st) :
    ∃ kept, (s.hostWrite w).rs.staging = some { st with kept }
      ∧ (w.late = false → kept = st.kept)
      ∧ (w.late = true → ∀ c, c ∈ kept ↔ c ∈ st.kept ∨ ∃ word, word % 4 = 0 ∧ w.bytes ≠ []
        ∧ w.addr / 4 ≤ word / 4 ∧ word / 4 ≤ (w.addr + w.bytes.length - 1) / 4 ∧ 0x10000 + 0x8000 * st.bank ≤ word
        ∧ word < 0x10000 + 0x8000 * st.bank + 0x8000 ∧ (∀ d ∈ st.kept, d.1 ≠ word)
        ∧ word ≤ c.1 ∧ c.1 < word + 4 ∧ c.2 = s.mem.read c.1) := by
  rw [State.hostWrite_staging, hst]
  by_cases hlate : w.late = true
  · obtain ⟨kept, hkeep, hmem⟩ := Staging.keep_kept s.mem (touchedWords w)
      (fun word hword => ((mem_touchedWords w word).1 hword).1) st
    refine ⟨kept, by rw [if_pos hlate, Option.map_some, hkeep], fun hno => by simp [hlate] at hno, fun _ c => ?_⟩
    rw [hmem c]
    refine or_congr_right (exists_congr fun word => ?_)
    rw [mem_touchedWords]
    simp only [bankAddr, bankBytes, and_assoc]
  · exact ⟨st.kept, by rw [if_neg hlate], fun _ => rfl, fun h => absurd h hlate⟩

end HostWrite

end Sys2Proof.Machine
end

section
/-! SUPPORT. The staging's completion: the copy's layout, its tests and its end (R64, R74, R75, R76, R77, 10.6). -/

open Sys2Proof

namespace Sys2Proof.Machine

/-! ## Lists of tests -/

/-- What the first test of a list that fails says. -/
def firstFailed {α : Type} (tests : List (Bool × α)) : Option α := (tests.find? (fun t => !t.1)).map (fun t => t.2)

theorem firstFailed_append {α : Type} (l m : List (Bool × α)) :
    firstFailed (l ++ m) = (firstFailed l).or (firstFailed m) := by
  rw [firstFailed, List.find?_append, Option.map_or]
  rfl

/-- The codes of a failed test (10.4). -/
def BankFailure.codes (f : BankFailure) : Nat × Nat × Nat := (f.table, f.index, f.check.code)

/-- The tests with the codes of their failures. -/
def coded (tests : List (Bool × BankFailure)) : List (Bool × Nat × Nat × Nat) :=
  tests.map (fun t => (t.1, t.2.codes))

theorem firstFailure_codes (tests : List (Bool × BankFailure)) :
    (firstFailure tests).map BankFailure.codes = firstFailed (coded tests) := by
  unfold firstFailure firstFailed coded
  rw [List.find?_map, Option.map_map, Option.map_map]
  rfl

theorem coded_append (l m : List (Bool × BankFailure)) : coded (l ++ m) = coded l ++ coded m := List.map_append

theorem inRange_eq (lo hi n : Nat) : inRange lo hi n = decide (lo ≤ n ∧ n ≤ hi) := (Bool.decide_and _ _).symm

/-! ## The tests of a table's entries -/

/-- The tests of a table entry by entry, each with its index and the key of the entry before. -/
def entryTests {α : Type} (key : α → Nat) (tests : Nat → Nat → α → List (Bool × BankFailure)) :
    Nat → Nat → List α → List (Bool × BankFailure)
  | _, _, [] => []
  | i, last, x :: rest => tests i last x ++ entryTests key tests (i + 1) (key x) rest

theorem entryTests_eq {α : Type} (d : α) (key : α → Nat) (tests : Nat → Nat → α → List (Bool × BankFailure))
    (i last : Nat) (l : List α) :
    entryTests key tests i last l = (List.range l.length).flatMap (fun k =>
      tests (i + k) (if k = 0 then last else key ((l[k - 1]?).getD d)) ((l[k]?).getD d)) := by
  induction l generalizing i last with
  | nil => rfl
  | cons x rest ih =>
    rw [entryTests, ih, List.length_cons, List.range_succ_eq_map, List.flatMap_cons, List.flatMap_map]
    refine congrArg (tests i last x ++ ·) (List.flatMap_congr fun k _ => ?_)
    cases k with
    | zero => rfl
    | succ k => simp [Nat.add_assoc, Nat.add_comm 1]

/-- The tests of one grade table entry. -/
def gradeEntry (i last : Nat) (g : GradeRow) : List (Bool × BankFailure) :=
  [(inRange 1 12 g.code, { table := 1, index := i, check := .range }),
   (decide (last < g.code), { table := 1, index := i, check := .order }),
   (g.minDensity == 1 || g.minDensity == 2 || g.minDensity == 4, { table := 1, index := i, check := .density }),
   (g.limits.all (fun l => decide (l.2 ≤ 15)), { table := 1, index := i, check := .range })]

theorem gradeTests_eq (i last : Nat) (l : List GradeRow) :
    gradeTests i last l = entryTests (fun g => g.code) gradeEntry i last l := by
  induction l generalizing i last with
  | nil => rfl
  | cons g rest ih =>
    rw [gradeTests, ih]
    rfl

/-- The tests of one size table entry. -/
def sizeEntry (i _last : Nat) (z : SizeRow) : List (Bool × BankFailure) :=
  [(decide (z.widthMin ≤ 4095 ∧ z.widthMax ≤ 4095 ∧ z.thickMin ≤ 4095 ∧ z.thickMax ≤ 4095
      ∧ z.widthMin ≤ z.widthMax ∧ z.thickMin ≤ z.thickMax), { table := 2, index := i, check := .range }),
   (inRange 1 1023 z.nominalWidth && inRange 1 1023 z.nominalThick, { table := 2, index := i, check := .range })]

theorem sizeTests_eq (i last : Nat) (l : List SizeRow) : sizeTests i l = entryTests (fun _ => 0) sizeEntry i last l := by
  induction l generalizing i last with
  | nil => rfl
  | cons z rest ih =>
    rw [sizeTests, ih _ 0]
    rfl

/-- The tests of one length class. -/
def lengthEntry (saws i last span : Nat) : List (Bool × BankFailure) :=
  [(inRange 1 19 span && decide (span + 1 ≤ saws), { table := 3, index := i, check := .span }),
   (decide (last < span), { table := 3, index := i, check := .order })]

theorem lengthTests_eq (saws i last : Nat) (l : List Nat) :
    lengthTests saws i last l = entryTests id (lengthEntry saws) i last l := by
  induction l generalizing i last with
  | nil => rfl
  | cons span rest ih =>
    rw [lengthTests, ih]
    rfl

/-- The test of one log class. -/
def logEntry (i _last : Nat) (l : Nat × Nat) : List (Bool × BankFailure) :=
  [(inRange 1 1023 l.1 && inRange 1 1023 l.2 && decide (l.1 ≤ l.2), { table := 4, index := i, check := .range })]

theorem logTests_eq (i last : Nat) (l : List (Nat × Nat)) :
    logTests i l = entryTests (fun _ => 0) logEntry i last l := by
  induction l generalizing i last with
  | nil => rfl
  | cons x rest ih =>
    rw [logTests, ih _ 0]
    rfl

/-! ## The tests of the sort table -/

/-- The addresses of the listed bytes rise. -/
def Memory.Rises (m : Memory) : Prop := m.Pairwise (fun c d => c.1 < d.1)

theorem Memory.lo_le_of_wfFrom {lo : Nat} {m : Memory} (h : Memory.wfFrom lo m = true) : ∀ c ∈ m, lo ≤ c.1 := by
  induction m generalizing lo with
  | nil => simp
  | cons c rest ih =>
    simp only [Memory.wfFrom, Bool.and_eq_true, decide_eq_true_eq] at h
    obtain ⟨⟨hlo, -⟩, hrest⟩ := h
    intro d hd
    rcases List.mem_cons.1 hd with rfl | hd
    · exact hlo
    · exact Nat.le_trans hlo (Nat.le_of_succ_le (ih hrest d hd))

theorem Memory.rises_of_wfFrom {lo : Nat} {m : Memory} (h : Memory.wfFrom lo m = true) : m.Rises := by
  induction m generalizing lo with
  | nil => exact List.Pairwise.nil
  | cons c rest ih =>
    simp only [Memory.wfFrom, Bool.and_eq_true] at h
    exact List.Pairwise.cons (fun d hd => Memory.lo_le_of_wfFrom h.2 d hd) (ih h.2)

theorem Memory.rises_window {m : Memory} (h : m.Rises) (base len : Nat) : (m.window base len).Rises := by
  refine List.pairwise_map.2 ((List.Pairwise.filter _ h).imp_of_mem fun {c d} hc _ hlt => ?_)
  have hbase := (of_decide_eq_true (List.mem_filter.1 hc).2).1
  dsimp only
  omega

theorem Memory.window_lt {m : Memory} {base len : Nat} : ∀ c ∈ m.window base len, c.1 < len := by
  intro c hc
  obtain ⟨d, hd, rfl⟩ := List.mem_map.1 hc
  have hin := of_decide_eq_true (List.mem_filter.1 hd).2
  dsimp only
  omega

/-- What an address reads is listed, or zero. -/
theorem Memory.read_listed (m : Memory) (x : Nat) : m.read x = 0 ∨ (x, m.read x) ∈ m := by
  induction m with
  | nil => exact .inl rfl
  | cons c rest ih =>
    by_cases hx : c.1 = x
    · right
      simp [Memory.read, ← hx]
    · simp only [Memory.read, if_neg hx]
      exact ih.imp_right (List.mem_cons_of_mem _)

theorem Memory.read_of_mem {m : Memory} (h : m.Rises) {c : Host.Cell} (hc : c ∈ m) : m.read c.1 = c.2 := by
  induction m with
  | nil => cases hc
  | cons d rest ih =>
    obtain ⟨hd, hrest⟩ := List.pairwise_cons.1 h
    rcases List.mem_cons.1 hc with rfl | hc
    · exact if_pos rfl
    · exact (if_neg (Nat.ne_of_lt (hd c hc))).trans (ih hrest hc)

/-- A byte of the sort table that is no bin (R70, R75). -/
def noBin (b : Byte) : Bool := !decide (b.toNat ≤ 24)

/-- Both bytes of a sort table entry are bins. -/
def binEntry (m : Memory) (i : Nat) : Bool :=
  decide ((m.read (2 * i)).toNat ≤ 24 ∧ (m.read (2 * i + 1)).toNat ≤ 24)

/-- The first entry that holds no bin is that of the first listed byte that is none. -/
theorem find_binEntry {m : Memory} (h : m.Rises) {n : Nat} (hn : ∀ c ∈ m, c.1 < 2 * n) :
    (List.range n).find? (fun i => !binEntry m i) = (m.find? (fun c => noBin c.2)).map (fun c => c.1 / 2) := by
  cases hfind : m.find? (fun c => noBin c.2) with
  | none =>
    have hgood (x : Nat) : (m.read x).toNat ≤ 24 := by
      rcases m.read_listed x with hzero | hlisted
      · rw [hzero]
        decide
      · simpa [noBin] using List.find?_eq_none.1 hfind _ hlisted
    simp [binEntry, hgood]
  | some c =>
    obtain ⟨hbad, pre, post, rfl, hpre⟩ := List.find?_eq_some_iff_append.1 hfind
    have hc : c ∈ pre ++ c :: post := by simp
    obtain ⟨-, htail, -⟩ := List.pairwise_append.1 h
    obtain ⟨hpost, -⟩ := List.pairwise_cons.1 htail
    have hgood (x : Nat) (hx : x < c.1) : (Memory.read (pre ++ c :: post) x).toNat ≤ 24 := by
      rcases Memory.read_listed (pre ++ c :: post) x with hzero | hlisted
      · rw [hzero]
        decide
      · rcases List.mem_append.1 hlisted with hin | hin
        · simpa [noBin] using hpre _ hin
        · rcases List.mem_cons.1 hin with he | hin
          · exact absurd (congrArg Prod.fst he) (Nat.ne_of_lt hx)
          · exact absurd (hpost _ hin) (Nat.lt_asymm hx)
    have hread : (24 < (Memory.read (pre ++ c :: post) c.1).toNat) := by
      rw [Memory.read_of_mem h hc]
      simpa [noBin] using hbad
    rw [Option.map_some, List.find?_range_eq_some]
    refine ⟨?_, by have := hn c hc; rw [List.mem_range]; omega, fun j hj => ?_⟩
    · have hplace : c.1 = 2 * (c.1 / 2) ∨ c.1 = 2 * (c.1 / 2) + 1 := by omega
      rcases hplace with he | he <;> rw [he] at hread <;> simp [binEntry] <;> omega
    · simp [binEntry, hgood (2 * j) (by omega), hgood (2 * j + 1) (by omega)]

theorem sortTests_eq (m : Memory) :
    sortTests m = m.map (fun c => (decide (c.2.toNat ≤ 24), { table := 6, index := c.1 / 2, check := .bin })) := by
  induction m with
  | nil => rfl
  | cons c rest ih =>
    rw [sortTests, ih]
    rfl

theorem firstFailed_sortTests {m : Memory} (h : m.Rises) {n : Nat} (hn : ∀ c ∈ m, c.1 < 2 * n) :
    firstFailed (coded (sortTests m)) = firstFailed ((List.range n).map (fun i => (binEntry m i, 6, i, 6))) := by
  have hlisted : firstFailed (coded (sortTests m))
      = (m.find? (fun c => noBin c.2)).map (fun c => (6, c.1 / 2, 6)) := by
    rw [sortTests_eq]
    unfold firstFailed coded
    rw [List.find?_map, List.find?_map, Option.map_map, Option.map_map]
    rfl
  have hsame := congrArg (Option.map (fun i => (6, i, 6))) (find_binEntry h hn)
  rw [Option.map_map] at hsame
  rw [hlisted, firstFailed, List.find?_map, Option.map_map]
  exact hsame.symm

end Sys2Proof.Machine
end

section
/-! SUPPORT. The staging's completion: the copy's layout, its checks and its end (R64, R74, R75, R76, R77, 10.6). -/

open Sys2Proof

namespace Sys2Proof.Machine

/-! ## The completion -/

section Completion

variable {s : State} {st : Staging}

theorem State.completeStaging_none (h : s.rs.staging = none) : s.completeStaging = s := by
  unfold State.completeStaging
  rw [h]

theorem State.completeStaging_bad (h : s.rs.staging = some st) {f : BankFailure}
    (hbad : bankFailure st.saws (stagedRules s.mem st) = some f) :
    s.completeStaging =
      (s.onRs (fun rs =>
        { rs with
          slots := rs.slots.modify st.slot (fun sl => { sl with state := .free, bank := none })
          staging := none
          last := some (.badRules f.table f.index f.check.code) })).endInHand st.cell .badRules
            (BitVec.ofNat 32 (f.table + 256 * f.check.code + 65536 * f.index)) [] := by
  simp only [State.completeStaging, h, hbad]
  rfl

theorem State.completeStaging_good (h : s.rs.staging = some st)
    (hgood : bankFailure st.saws (stagedRules s.mem st) = none) :
    s.completeStaging =
      (let number := s.rs.numberToGive 3 s.rs.nextNumber
      (s.onRs (fun rs =>
        { rs with
          slots := (rs.slots.map (fun sl =>
            if sl.state = .active then
              if 0 < sl.bound then { sl with state := .retiring }
              else { sl with state := .free, bank := none, number := none, label := none }
            else sl)).modify st.slot (fun sl =>
              { sl with
                state := .active, number := some number, label := some (stagedRules s.mem st).label, bound := 0
                rules := stagedRules s.mem st })
          staging := none
          nextNumber := if number = 65535 then 1 else number + 1
          last := some (.activated st.slot number (stagedRules s.mem st).label) })).endInHand st.cell .done 0
            (le8 st.slot ++ le8 0 ++ le16 number ++ le32 (stagedRules s.mem st).label)) := by
  simp only [State.completeStaging, h, hgood]
  rfl

end Completion

/-! ## The layout of the copy (10.6) -/

theorem stagedRules_layout (mem : Memory) (st : Staging) :
    let r := stagedRules mem st
    let m := stagedMemory mem st
    let base := 0x10000 + 0x8000 * st.bank
    let at8 := fun offset => (m.read (base + offset)).toNat
    let at16 := fun offset => m.read16 (base + offset)
    r.label = m.read32 base ∧ r.gradeCount = at8 4 ∧ r.sizeCount = at8 5 ∧ r.lengthCount = at8 6 ∧ r.logCount = at8 7
    ∧ r.grades = (List.range (min (at8 4) 12)).map (fun i =>
      { code := at8 (0x10 + 24 * i), minDensity := at8 (0x10 + 24 * i + 1)
        limits := (List.range 11).map (fun k =>
          (at8 (0x10 + 24 * i + (2 + 2 * k)), at8 (0x10 + 24 * i + (3 + 2 * k)))) })
    ∧ r.sizes = (List.range (min (at8 5) 31)).map (fun i =>
      { widthMin := at16 (0x130 + 16 * i), widthMax := at16 (0x130 + 16 * i + 2)
        thickMin := at16 (0x130 + 16 * i + 4), thickMax := at16 (0x130 + 16 * i + 6)
        nominalWidth := at16 (0x130 + 16 * i + 8), nominalThick := at16 (0x130 + 16 * i + 10) })
    ∧ r.lengths = (List.range (min (at8 6) 16)).map (fun i => at8 (0x320 + 4 * i))
    ∧ r.logs = (List.range (min (at8 7) 16)).map (fun i => (at16 (0x360 + 4 * i), at16 (0x362 + 4 * i)))
    ∧ r.policy =
      { density := at8 0x3A0, cutInTwo := at8 0x3A1, fallback := at8 0x3A2, remanBin := at8 0x3A3
        recutBin := at8 0x3A4, offSizeGrade := at8 0x3A5, overflowGrade := at8 0x3A6, offSizeWidth := at16 0x3A8
        offSizeThick := at16 0x3AA }
    ∧ (∀ i, i < 0x3000 → r.prices.read i = m.read (base + 0x400 + i))
    ∧ ∀ i, i < 0x3400 → r.sort.read i = m.read (base + 0x3400 + i) := by
  intro r m base at8 at16
  refine ⟨rfl, rfl, rfl, rfl, rfl, ?_, ?_, ?_, ?_, rfl, fun i hi => Memory.read_window m hi,
    fun i hi => Memory.read_window m hi⟩
  · refine List.map_congr_left fun i _ => ?_
    simp only [parseGrade, at8, Nat.add_assoc]
    rfl
  · refine List.map_congr_left fun i _ => ?_
    simp only [parseSize, at16, Nat.add_assoc]
    rfl
  · refine List.map_congr_left fun i _ => ?_
    simp only [at8, Nat.add_assoc]
    rfl
  · refine List.map_congr_left fun i _ => ?_
    simp only [at16, Nat.add_assoc]
    rfl

/-! ## The checks in their order (R75) -/

theorem stagedRules_sort_rises {mem : Memory} (st : Staging) (h : mem.wf = true) : (stagedRules mem st).sort.Rises :=
  Memory.rises_window (Memory.rises_of_wfFrom (stagedMemory_wf st h)) _ _

/-- The first failing test of a copy, table by table. -/
theorem bankFailure_codes (saws : Nat) (r : Rules) :
    (bankFailure saws r).map BankFailure.codes =
      ((((((firstFailed (coded (headerTests r))).or (firstFailed (coded (gradeTests 0 0 r.grades)))).or
        (firstFailed (coded (sizeTests 0 r.sizes)))).or (firstFailed (coded (lengthTests saws 0 0 r.lengths)))).or
          (firstFailed (coded (logTests 0 r.logs)))).or (firstFailed (coded (sortTests r.sort)))).or
            (firstFailed (coded (policyTests r))) := by
  unfold bankFailure
  rw [firstFailure_codes]
  simp only [coded_append, firstFailed_append]

section Coded

theorem coded_gradeTests (l : List GradeRow) (d : GradeRow) :
    coded (gradeTests 0 0 l) = (List.range l.length).flatMap (fun i =>
      let g := (l[i]?).getD d
      [(decide (1 ≤ g.code ∧ g.code ≤ 12), 1, i, 2),
       (decide ((if i = 0 then 0 else ((l[i - 1]?).getD d).code) < g.code), 1, i, 3),
       (g.minDensity == 1 || g.minDensity == 2 || g.minDensity == 4, 1, i, 4),
       (g.limits.all (fun x => decide (x.2 ≤ 15)), 1, i, 2)]) := by
  rw [gradeTests_eq, entryTests_eq d, coded, List.map_flatMap]
  refine List.flatMap_congr fun i _ => ?_
  simp only [gradeEntry, inRange_eq, Nat.zero_add]
  rfl

theorem coded_sizeTests (l : List SizeRow) (d : SizeRow) :
    coded (sizeTests 0 l) = (List.range l.length).flatMap (fun i =>
      let z := (l[i]?).getD d
      [(decide (z.widthMin ≤ 4095 ∧ z.widthMax ≤ 4095 ∧ z.thickMin ≤ 4095 ∧ z.thickMax ≤ 4095
          ∧ z.widthMin ≤ z.widthMax ∧ z.thickMin ≤ z.thickMax), 2, i, 2),
       (decide (1 ≤ z.nominalWidth ∧ z.nominalWidth ≤ 1023) && decide (1 ≤ z.nominalThick ∧ z.nominalThick ≤ 1023),
         2, i, 2)]) := by
  rw [sizeTests_eq 0 0, entryTests_eq d, coded, List.map_flatMap]
  refine List.flatMap_congr fun i _ => ?_
  simp only [sizeEntry, inRange_eq, Nat.zero_add]
  rfl

theorem coded_lengthTests (saws : Nat) (l : List Nat) :
    coded (lengthTests saws 0 0 l) = (List.range l.length).flatMap (fun i =>
      let span := (l[i]?).getD 0
      [(decide (1 ≤ span ∧ span ≤ 19) && decide (span + 1 ≤ saws), 3, i, 5),
       (decide ((if i = 0 then 0 else (l[i - 1]?).getD 0) < span), 3, i, 3)]) := by
  rw [lengthTests_eq, entryTests_eq 0, coded, List.map_flatMap]
  refine List.flatMap_congr fun i _ => ?_
  simp only [lengthEntry, inRange_eq, Nat.zero_add]
  rfl

theorem coded_logTests (l : List (Nat × Nat)) :
    coded (logTests 0 l) = (List.range l.length).map (fun i =>
      let x := (l[i]?).getD (0, 0)
      (decide (1 ≤ x.1 ∧ x.1 ≤ 1023) && decide (1 ≤ x.2 ∧ x.2 ≤ 1023) && decide (x.1 ≤ x.2), 4, i, 2)) := by
  rw [logTests_eq 0 0, entryTests_eq (0, 0), coded, List.map_flatMap, List.map_eq_flatMap]
  refine List.flatMap_congr fun i _ => ?_
  simp only [logEntry, inRange_eq, Nat.zero_add]
  rfl

theorem coded_headerTests (r : Rules) :
    coded (headerTests r) =
      [(decide (1 ≤ r.gradeCount ∧ r.gradeCount ≤ 12), 0, 1, 1), (decide (1 ≤ r.sizeCount ∧ r.sizeCount ≤ 31), 0, 2, 1),
       (decide (1 ≤ r.lengthCount ∧ r.lengthCount ≤ 16), 0, 3, 1), (decide (1 ≤ r.logCount ∧ r.logCount ≤ 16), 0, 4, 1)] := by
  simp only [headerTests, inRange_eq]
  rfl

theorem coded_policyTests (r : Rules) :
    coded (policyTests r) =
      [(decide (1 ≤ r.policy.density ∧ r.policy.density ≤ 5), 7, 0, 7),
       (decide (1 ≤ r.policy.fallback ∧ r.policy.fallback ≤ 2), 7, 2, 7),
       (decide (0 ≤ r.policy.cutInTwo ∧ r.policy.cutInTwo ≤ 1), 7, 1, 7),
       (decide (0 ≤ r.policy.remanBin ∧ r.policy.remanBin ≤ 24), 7, 3, 6),
       (decide (0 ≤ r.policy.recutBin ∧ r.policy.recutBin ≤ 24), 7, 4, 6),
       (gradeKnown r r.policy.offSizeGrade, 7, 5, 8), (gradeKnown r r.policy.overflowGrade, 7, 6, 8),
       (decide (1 ≤ r.policy.offSizeWidth ∧ r.policy.offSizeWidth ≤ 1023), 7, 7, 2),
       (decide (1 ≤ r.policy.offSizeThick ∧ r.policy.offSizeThick ≤ 1023), 7, 8, 2)] := by
  simp only [policyTests, inRange_eq]
  rfl

end Coded

/-- Settles O57. -/
theorem stagingCompletes : Obligations.StagingCompletes := by
  refine ⟨fun host s hw => ?_, fun rs n hlen hlo hhi => ?_, fun mem st address => ⟨fun h => stagedMemory_keeps _ _ h,
    fun c hc hone => stagedMemory_kept _ _ hc hone⟩, fun s => ⟨rfl, fun _ _ => rfl⟩, fun w s => ?_,
    stagedRules_layout, fun mem st hwf => ?_⟩
  · intro m
    have hdoes := withHost_does (exec_stagingCompletion s host) hw
    refine ⟨fun hnone => ?_, fun st held hst hfind => ?_⟩
    · rwa [State.completeStaging_none (s := s.met host) hnone] at hdoes
    · intro rules
      cases hfail : bankFailure st.saws rules with
      | some f =>
        rw [State.completeStaging_bad (s := s.met host) hst hfail] at hdoes
        exact endsHeld_of_does (u := State.onRs _ _) hfind hdoes
      | none =>
        rw [State.completeStaging_good (s := s.met host) hst hfail] at hdoes
        exact endsHeld_of_does (u := State.onRs _ _) hfind hdoes
  · intro given taken after
    have htaken (k : Nat) : taken k ↔ rs.holdsNumber k = true := (rs.holdsNumber_iff k).symm
    obtain ⟨k, -, hgive, hbefore, -⟩ := rs.numberToGive_spec 3 hlo hhi
    have hfree := rs.numberToGive_free hlen hlo hhi
    have hbounds := numberPast_bounds n k
    rw [← hgive] at hbounds
    refine ⟨hbounds.1, hbounds.2, fun h => ?_, fun h => ?_, k, hgive, fun j hj => (htaken _).2 (hbefore j hj)⟩
    · exact Bool.false_ne_true (hfree.symm.trans ((htaken _).1 h))
    · exact if_neg fun hheld => h ((htaken n).2 hheld)
  · intro t past
    refine ⟨?_, fun area harea => State.hostWrite_entry_other w harea, fun x hx => ?_, fun hnone => ?_,
      fun st hst => State.hostWrite_kept w hst⟩
    · exact (State.hostWrite_same w s).trans (by rw [← State.hostWrite_staging])
    · rw [State.hostWrite_read]
      split
      · rfl
      · split
        · exact State.passWords_read_outside w hx
        · rfl
    · rw [State.hostWrite_staging, hnone]
      split <;> rfl
  · intro r inside grade size span log known tests
    have hsort := firstFailed_sortTests (stagedRules_sort_rises st hwf) (n := 6656) Memory.window_lt
    refine (bankFailure_codes st.saws r).trans ?_
    rw [hsort, coded_headerTests, coded_gradeTests r.grades { code := 0, minDensity := 0, limits := [] },
      coded_sizeTests r.sizes
        { widthMin := 0, widthMax := 0, thickMin := 0, thickMax := 0, nominalWidth := 0, nominalThick := 0 },
      coded_lengthTests, coded_logTests, coded_policyTests]
    simp only [← firstFailed_append]
    rfl

end Sys2Proof.Machine
end

section
/-! SUPPORT. The image of a piece whose override tally is not fifteen counts long (10.4.1). -/

open Sys2Proof

namespace Sys2Proof.Machine

/-- A piece with an empty override tally: a state of the type that no admission makes. -/
def Piece.untallied : Piece := { Piece.fresh 1 0 1 false with overrides := [] }

/-- The image's length goes with the tally's: 49 bytes to offset 0x10 and from there, not 64. -/
theorem queryImage_untallied_length :
    ((List.replicate 16 0 : List Byte) ++ queryImage none (some Piece.untallied)).length = 49 := by decide

/-- Refutes O22: the length of the image of QUERY_LUG is stated of every piece, and the image of a piece without the
fifteen counts of the override tally is shorter than 64 bytes. -/
theorem not_recordsAndImagesHoldTheirFields : ¬ Obligations.RecordsAndImagesHoldTheirFields := by
  intro h
  obtain ⟨-, -, -, himage, -⟩ := h
  obtain ⟨hlength, -⟩ := himage none (some Piece.untallied)
  exact absurd (queryImage_untallied_length.symm.trans hlength) (by decide)

end Sys2Proof.Machine
end

section
/-! SUPPORT. The Status Block as bytes (R28, R31, R72, R105, R109, R123, R139, R144, R146, R170, R176, R183, 9.5,
10.8). -/

open Sys2Proof

namespace Sys2Proof.Machine

/-! ## Sets as masks -/

theorem has_filter_range (w : Nat) (p : Nat → Bool) {k : Nat} (hlo : 1 ≤ k) (hhi : k ≤ w) :
    has (maskOf w ((List.range' 1 w).filter p)) k = p k := by
  rw [Bool.eq_iff_iff, has_maskOf w _ k hlo hhi, List.mem_filter, List.mem_range'_1]
  exact and_iff_right ⟨hlo, by omega⟩

theorem Scan.has_headsIn (sa : Scan) (p : HeadState → Bool) {h : Nat} (hlo : 1 ≤ h) (hhi : h ≤ 8) :
    has (sa.headsIn p) h = p (sa.headState h) := has_filter_range 8 _ hlo hhi

theorem Actuation.has_lockSet_any (ax : Actuation) {k : Nat} (hlo : 1 ≤ k) (hhi : k ≤ 20) :
    has ax.lockSet k = (ax.saws[k - 1]?).any (fun w => w.host || w.fault) := by
  refine (has_filter_range 20 _ hlo hhi).trans ?_
  cases ax.saws[k - 1]? <;> rfl

/-- The heads that the Status Block shows as unwatched (9.5). -/
def Scan.unwatched (sa : Scan) : HeadSet := sa.headsIn (fun st => st == .linkFault || st == .absent)

theorem Scan.has_unwatched (sa : Scan) {h : Nat} (hlo : 1 ≤ h) (hhi : h ≤ 8) :
    has sa.unwatched h = decide (sa.headState h = .linkFault ∨ sa.headState h = .absent) := by
  rw [Scan.unwatched, sa.has_headsIn _ hlo hhi, Bool.decide_or]
  rfl

/-- The mask of a list of cells. -/
def cellMask (l : List InHand) : Word := l.foldl (fun m h => m ||| BitVec.ofNat 32 (2 ^ h.cell)) 0

theorem cellMask_getLsbD (l : List InHand) {c : Nat} (hc : c < 32) :
    (cellMask l).getLsbD c = l.any (fun x => x.cell == c) := by
  have hfold (m : Word) : (l.foldl (fun m h => m ||| BitVec.ofNat 32 (2 ^ h.cell)) m).getLsbD c
      = (m.getLsbD c || l.any (fun x => x.cell == c)) := by
    induction l generalizing m with
    | nil => simp
    | cons x rest ih =>
      have hbit : (BitVec.ofNat 32 (2 ^ x.cell)).getLsbD c = (x.cell == c) := by
        rw [BitVec.getLsbD_ofNat, Nat.testBit_two_pow]
        simp only [hc, decide_true, Bool.true_and]
        exact (beq_eq_decide _ _).symm
      rw [List.foldl_cons, ih, BitVec.getLsbD_or, hbit, List.any_cons, Bool.or_assoc]
  rw [cellMask, hfold]
  simp

/-! ## Bytes of items -/

theorem le8_toNat (b : Byte) : le8 b.toNat = [b] := by
  rw [le8, BitVec.ofNat_toNat, BitVec.setWidth_eq]

theorem opt8_tag (tag : Option Byte) : opt8 (tag.map (fun t => t.toNat)) = [tag.getD 0xFF] := by
  cases tag with
  | none => rfl
  | some t => exact le8_toNat t

theorem nat32_depth (d : Deck) : nat32 d.depth = le32 (d.highWater - d.position) := by
  rw [nat32, Deck.depth, BitVec.ofNat_toNat, BitVec.setWidth_eq]

/-! ## The groups -/

theorem numbered_eq (n : Nat) (l : List Head) : numbered n l = (l.zipIdx n).map (fun x => (x.2, x.1)) := by
  induction l generalizing n with
  | nil => rfl
  | cons hd rest ih => rw [numbered, ih, List.zipIdx_cons, List.map_cons]

theorem statusBins_eq (deck : DeckState) (g : Option Geometry) (n : Nat) (l : List Bin) :
    statusBins deck g n l = (l.zipIdx n).flatMap (fun x => statusBin deck (g.bind (fun g => g.binStation x.2)) x.1) := by
  induction l generalizing n with
  | nil => rfl
  | cons b rest ih => rw [statusBins, ih, List.zipIdx_cons, List.flatMap_cons]

theorem absentSegment_eq : opt16 none ++ le16 0 = [0xFF, 0xFF, 0, 0] := by decide

theorem segmentBytes_eq (g : Option Geometry) (h : Nat) :
    opt16 (g.map (fun g => (g.segment h).1)) ++ le16 ((g.map (fun g => (g.segment h).2)).getD 0)
      = (match g with
        | none => [0xFF, 0xFF, 0, 0]
        | some g => le16 (min ((h - 1) * g.segmentLength) 16383) ++ le16 (min (h * g.segmentLength - 1) 16383)) := by
  cases g with
  | none => exact absentSegment_eq
  | some g => rfl

theorem statusHead_eq (g : Option Geometry) (h : Nat) (hd : Head) :
    statusHead g h hd =
      le8 hd.state.code
      ++ (match g with
        | none => [0xFF, 0xFF, 0, 0]
        | some g => le16 (min ((h - 1) * g.segmentLength) 16383) ++ le16 (min (h * g.segmentLength - 1) 16383))
      ++ nat32 hd.badRun ++ le32 hd.goodFrames ++ le32 hd.badFrames ++ le32 hd.accepted ++ le32 hd.duplicate
      ++ le32 hd.notRoster ++ le32 hd.stray ++ le32 hd.mismatch ++ le32 hd.stale ++ opt32 hd.lastStatus
      ++ opt32 (hd.identity.map Prod.fst) ++ opt32 (hd.identity.map Prod.snd) := by
  unfold statusHead
  rw [List.append_assoc (le8 _) (opt16 _) (le16 _), segmentBytes_eq]

/-- The states of a head in the order of their codes. -/
def headStates : List HeadState := [.absent, .offline, .standby, .waking, .ready, .aligning, .linkFault]

theorem statusScan_eq (g : Option Geometry) (sa : Scan) :
    statusScan g sa =
      (sa.heads.zipIdx 1).flatMap (fun x => statusHead g x.2 x.1)
        ++ headStates.flatMap (fun st => le8 (sa.heads.filter (fun hd => hd.state == st)).length)
        ++ le8 (sa.headsIn (fun st => st == .linkFault || st == .absent)).toNat
        ++ le8 sa.logLink.state.code ++ le32 sa.logLink.goodFrames ++ le32 sa.logLink.badFrames
        ++ le32 sa.logLink.taken := by
  unfold statusScan
  rw [numbered_eq, List.flatMap_map]
  simp only [headStates, List.flatMap_cons, List.flatMap_nil, List.append_assoc, List.append_nil]
  rfl

theorem statusAlign_eq (sa : Scan) (da : Align) :
    statusAlign sa da =
      sa.heads.flatMap (fun hd => le8 hd.credit) ++ sa.heads.flatMap (fun hd => le8 hd.delay)
        ++ le8 da.search.code ++ le8 da.head ++ le8 da.d ++ flag8 da.unseen ++ nat32 da.miss ++ le32 da.strayEchoes
        ++ (match da.last with
          | none => [0xFF, 0, 0xFF]
          | some l => le8 l.cause.result.code ++ le8 l.head ++ le8 l.delay)
        ++ le32 da.downgrades := by
  unfold statusAlign
  cases da.last with
  | none =>
    simp only [List.append_assoc]
    rfl
  | some l =>
    simp only [List.append_assoc]
    rfl

theorem statusOutcome_eq (last : Option StagingOutcome) :
    statusOutcome last = (match last with
      | none => [0xFF, 0xFF, 0, 0, 0xFF, 0xFF, 0xFF, 0xFF, 0, 0, 0, 0]
      | some (.activated slot number label) => [0] ++ le8 slot ++ le16 number ++ le32 label ++ [0, 0, 0, 0]
      | some (.badRules table index check) => [6, 0xFF, 0, 0, 0xFF, 0xFF, 0xFF, 0xFF] ++ le8 table ++ le8 check
          ++ le16 index) := by
  cases last with
  | none => decide
  | some o => cases o <;> rfl

theorem statusRules_eq (rs : RuleStore) :
    statusRules rs =
      rs.slots.flatMap statusSlot
        ++ (match rs.staging with
          | none => [0xFF, 0xFF]
          | some st => le8 st.slot ++ le8 st.bank)
        ++ le16 rs.nextNumber ++ statusOutcome rs.last := by
  unfold statusRules
  cases rs.staging with
  | none =>
    simp only [List.append_assoc]
    rfl
  | some st =>
    simp only [List.append_assoc]
    rfl

theorem statusAnswer_eq (last : Option LastAnswer) :
    statusAnswer last = (match last with
      | none => [0xFF, 0xFF, 0xFF, 0, 0, 0, 0]
      | some a => le8 a.key.toNat ++ [a.tag.getD 0xFF] ++ le8 a.answer.code ++ le32 (a.serial.getD 0)) := by
  cases last with
  | none => decide
  | some a => rw [statusAnswer, opt8_tag]

theorem statusTally_eq (tu : Tally) :
    statusTally tu =
      statusRun tu.areaA ++ statusRun tu.areaB
        ++ (match tu.lastOpened with | none => [0xFF] | some .a => [0] | some .b => [1])
        ++ le16 tu.nextRun ++ le8 tu.pendingLogs.length ++ flag8 tu.logHold ++ le32 tu.refusedLogs
        ++ le32 tu.unclassedLogs ++ le32 tu.unjournaledLogs := by
  unfold statusTally
  cases tu.lastOpened with
  | none => rfl
  | some area => cases area <;> rfl

theorem statusDeck_eq (d : Deck) :
    statusDeck d =
      le8 d.state.code ++ le8 (d.causes.mask (fun c => c != .absent)) ++ le8 (d.causes.mask (fun c => c == .cleared))
        ++ le32 d.position ++ le32 d.highWater ++ le32 (d.highWater - d.position) ++ le32 d.forwardBeats
        ++ le32 d.backBeats ++ le8 d.hold.mask ++ flag8 d.gate ++ le32 d.strangers ++ le32 d.dropMisses := by
  unfold statusDeck
  rw [nat32_depth]

theorem statusOverrides_eq (ou : Overrides) :
    statusOverrides ou =
      ou.stations.flatMap (fun st => le8 st.queue.length)
        ++ ou.stations.flatMap (fun st => match st.last with
          | none => [0xFF, 0xFF, 0xFF, 0, 0, 0, 0]
          | some a => le8 a.key.toNat ++ [a.tag.getD 0xFF] ++ le8 a.answer.code ++ le32 (a.serial.getD 0))
        ++ ou.stations.flatMap (fun st => le32 st.presses) ++ ou.stations.flatMap (fun st => le32 st.refusedAtPress)
        ++ ou.stations.flatMap (fun st => le32 st.counts.taken) ++ le32 ou.remote.taken
        ++ ou.stations.flatMap (fun st => le32 st.counts.accepted) ++ le32 ou.remote.accepted
        ++ ou.stations.flatMap (fun st => statusRefused st.counts) ++ statusRefused ou.remote := by
  have hanswers := List.flatMap_congr (l := ou.stations) (f := fun st => statusAnswer st.last)
    fun st _ => statusAnswer_eq st.last
  unfold statusOverrides
  rw [hanswers]

theorem statusActuation_eq (d : Deck) (ax : Actuation) :
    statusActuation d ax =
      le24 ax.sawOut.toNat ++ ax.window.flatMap (fun w => [w.tag] ++ le24 w.command.toNat ++ flag8 w.issued)
        ++ le24 ax.lockSet.toNat ++ ax.saws.flatMap (fun w => le8 (bit w.host 0 + bit w.fault 1))
        ++ (ax.bins.zipIdx 1).flatMap (fun x =>
          statusBin d.state (d.geometry.bind (fun g => g.binStation x.2)) x.1)
        ++ le32 ax.commits ++ le32 ax.cutOk ++ le32 ax.cutMismatch ++ le32 ax.cutUncut ++ le32 ax.cutEmpty
        ++ ax.saws.flatMap (fun w => le32 w.mismatches) ++ ax.saws.flatMap (fun w => le32 w.unlocks)
        ++ le32 ax.recuts ++ ax.bins.flatMap (fun x => le32 x.pulses) ++ ax.bins.flatMap (fun x => le32 x.toAlternate)
        ++ ax.bins.flatMap (fun x => le32 x.toFallout) ++ le32 ax.fallouts := by
  unfold statusActuation
  rw [statusBins_eq]
  simp only [le8_toNat]

theorem statusRewrite_read (m : Memory) (count : Word) (image : List Byte) (x : Nat) :
    (statusRewrite m count image).read x =
      let block := (le32 (count + 2) ++ image).take 0x4000
      if 0x1000 ≤ x ∧ x < 0x1000 + block.length then block.getD (x - 0x1000) 0 else m.read x :=
  Memory.read_splice _ _ _ _

/-- Settles O40: the sets as masks, and group by group. -/
theorem statusBlockShowsItsItems : Obligations.StatusBlockShowsItsItems := by
  unfold Obligations.StatusBlockShowsItsItems
  refine ⟨statusRewrite_read, ?_, ?_⟩
  case refine_2 => exact ⟨rfl, rfl, rfl, rfl, rfl, rfl, rfl, rfl, rfl⟩
  intro s num on or8 or32 group
  refine ⟨s.sa.unwatched, s.ax.lockSet, cellMask s.xi.inHand, ?_, ?_, ?_, ?_⟩
  · exact fun h hlo hhi => s.sa.has_unwatched hlo hhi
  · exact fun k hlo hhi => s.ax.has_lockSet_any hlo hhi
  · exact fun c hc => cellMask_getLsbD _ hc
  · intro d causes hold deck head states link scan da align rs rules ts solver sts remote refused overrides ax bin
      actuation tu run tally xi exchange
    have hdeck : statusDeck s.dt = deck := statusDeck_eq s.dt
    have hscan : statusScan s.dt.geometry s.sa = scan := by
      rw [statusScan_eq]
      simp only [statusHead_eq]
      rfl
    have halign : statusAlign s.sa s.da = align := statusAlign_eq s.sa s.da
    have hrules : statusRules s.rs = rules := by
      rw [statusRules_eq, statusOutcome_eq] <;> rfl
    have hsolver : statusSolver s.ts = solver := rfl
    have hoverrides : statusOverrides s.ou = overrides := statusOverrides_eq s.ou
    have hactuation : statusActuation s.dt s.ax = actuation := statusActuation_eq s.dt s.ax
    have htally : statusTally s.tu = tally := statusTally_eq s.tu
    have hexchange : statusExchange s.dt s.tu s.xi = exchange := rfl
    rw [← hdeck, ← hscan, ← halign, ← hrules, ← hsolver, ← hoverrides, ← hactuation, ← htally, ← hexchange]
    rfl

end Sys2Proof.Machine
end
